-- ==== Sys2Proof/Word.lean ====
section
/-! DEFINITION. The two bit-vector types of QR-CORE: the byte of its buffers and the 32-bit word of its bus and
registers (spec/00_scope.md R10 `DATA_BITS`, R14; spec/10_state.md section 2). -/

namespace Sys2Proof

/-- One byte of a buffer or register array (R14). -/
abbrev Byte := BitVec 8

/-- One bus datum, register or command word (R10 `DATA_BITS` = 32, R120). -/
abbrev Word := BitVec 32

end Sys2Proof
end

