-- ==== Sys2Proof/Config.lean ====
section
/-! DEFINITION. The implementation parameters of spec/00_scope.md R10, the address map of spec/20_memory.md R81, and
the free values of the model: constants with no body, of which nothing can be proved or computed. -/

namespace Sys2Proof.Config

/-- R10 `VERSION_MIN`. -/
def versionMin : Nat := 1
/-- R10 `VERSION_MAX`. -/
def versionMax : Nat := 40
/-- R10 `RS_DEGREE_MAX`. -/
def rsDegreeMax : Nat := 30
/-- R10 `SEG_BITS_MAX`. -/
def segBitsMax : Nat := 32767
/-- R10 `MAX_SEGS`. -/
def maxSegs : Nat := 16
/-- R10 `PAYLOAD_BYTES`. -/
def payloadBytes : Nat := 8192
/-- R10 `SEGBUF_BYTES` in bits. -/
def segbufBits : Nat := 32768
/-- R10 `DATABUF_BYTES`. -/
def databufBytes : Nat := 4096
/-- R187, R195: the first ECI assignment value that is refused. -/
def eciLimit : Nat := 1000000

/-- R81: where the buffers begin; below it stand registers and reserved offsets. -/
def payloadBase : Nat := 0x1000
/-- R81. -/
def segbufBase : Nat := 0x3000
/-- R81. -/
def databufBase : Nat := 0x4000
/-- R81. -/
def cwbufBase : Nat := 0x5000
/-- R81. -/
def funcmapBase : Nat := 0x6000
/-- R81. -/
def matrixBase : Nat := 0x7000
/-- R80: one past the last offset of the 15-bit address space. -/
def addressEnd : Nat := 0x8000
/-- R81: the offsets of the register arrays. -/
def segTabBase : Nat := 0x100
/-- R81. -/
def genBase : Nat := 0x180
/-- R81. -/
def remBase : Nat := 0x1A0

/-- R31: the constant the ID register reads as. -/
def idWord : Word := 0x51520107#32

/-- UNVERIFIED free value (assumptions 3, 5, 6): the byte at offset `addr` in draw number `draw`, for a location whose
value the spec leaves unspecified (R91, R345, R391). -/
opaque freeByte (draw addr : Nat) : Byte

/-- UNVERIFIED free value (assumption 5): an unspecified 32-bit register value, for PENALTY after a failed encode
(R345). -/
opaque freeWord (draw : Nat) : Word

/-- UNVERIFIED free value (assumption 2): how many bus slots pass between the acceptance of command word `w`, made as
draw number `draw`, and its completion step; R10 and R410 leave `LATENCY(cmd, state)` OPEN. -/
opaque latency (w : Word) (draw : Nat) : Nat

end Sys2Proof.Config
end

