-- ==== Sys2Proof/Syntax.lean ====
section
/-! DEFINITION. The 26 commands of spec/30_encoding.md R125 (spec/opcode_table.json), one constructor per row. -/

namespace Sys2Proof

/-- A command with its immediate operands A and B (R121 to R123), each an unsigned number; the two operands of GFMUL
are field elements, so bytes. `WellFormed` bounds the numbers to the 8 bits of their fields. -/
inductive Instr where
  /-- R153. -/
  | nop
  /-- R166: A = x, B = y. -/
  | gfmul (x y : Byte)
  /-- R167: A = degree. -/
  | rsdiv (degree : Nat)
  /-- R168: A = degree. -/
  | rsrem (degree : Nat)
  /-- R190. -/
  | segclr
  /-- R191. -/
  | segauto
  /-- R192. -/
  | segnum
  /-- R193. -/
  | segalnum
  /-- R194. -/
  | segbyte
  /-- R195. -/
  | segeci
  /-- R230. -/
  | negot
  /-- R231: A = version, B = ecl. -/
  | assemble (version ecl : Nat)
  /-- R233: A = version, B = ecl. -/
  | tblq (version ecl : Nat)
  /-- R234: A = version. -/
  | alignq (version : Nat)
  /-- R232: A = mode indicator, B = version. -/
  | ccbq (mode version : Nat)
  /-- R255: A = version, B = ecl. -/
  | interleave (version ecl : Nat)
  /-- R280: A = version. -/
  | minit (version : Nat)
  /-- R281. -/
  | mplace
  /-- R282. -/
  | mlight
  /-- R310: A = mask. -/
  | mask (m : Nat)
  /-- R313: A = ecl, B = mask. -/
  | format (ecl m : Nat)
  /-- R311. -/
  | penalty
  /-- R312: A = ecl, B = selector. -/
  | mselect (ecl selector : Nat)
  /-- R341. -/
  | encseg
  /-- R342. -/
  | enctext
  /-- R343. -/
  | encbin
  deriving DecidableEq, Repr

end Sys2Proof
end

