-- ==== Sys2Proof/WellFormed.lean ====
section
/-! DEFINITION. Which commands a word can hold: every immediate fits its 8-bit field (spec/30_encoding.md R121, R123).
An operand outside its command's LEGAL range is well formed all the same: it is a contract violation at run time, not
an illegal encoding (R123). -/

namespace Sys2Proof

/-- R121, R123: A and B are 8 bits each. -/
def Instr.wellFormed : Instr → Bool
  | .nop | .segclr | .segauto | .segnum | .segalnum | .segbyte | .segeci | .negot | .mplace | .mlight | .penalty
  | .encseg | .enctext | .encbin => true
  | .gfmul _ _ => true
  | .rsdiv a | .rsrem a | .alignq a | .minit a | .mask a => decide (a < 256)
  | .assemble a b | .tblq a b | .ccbq a b | .interleave a b | .format a b | .mselect a b =>
    decide (a < 256) && decide (b < 256)

/-- A command some 32-bit word encodes. -/
abbrev WellFormed (i : Instr) : Prop := i.wellFormed = true

end Sys2Proof
end

