-- ==== Sys2Proof/Decode.lean ====
section
/-! DEFINITION. The decoder of spec/30_encoding.md R127, total on every 32-bit word and rejecting by name, and the
encoder of R122 and R125. -/

namespace Sys2Proof

/-- Why a word is illegal (R126). -/
inductive Reject where
  /-- OP is not in the table of R125 and not in 0xF0 to 0xFF. -/
  | undefinedOp (op : Byte)
  /-- OP is one of 0xF0 to 0xFF, reserved for a later revision. -/
  | reservedOp (op : Byte)
  /-- A field the opcode's format requires to be zero is not (R122). -/
  | fieldNotZero (op : Byte)
  deriving DecidableEq, Repr

/-- The three formats of R122. -/
inductive Format where
  /-- Uses OP alone. -/
  | f0
  /-- Uses OP and A. -/
  | fa
  /-- Uses OP, A and B. -/
  | fab
  deriving DecidableEq, Repr

/-- R121: the field OP of a command word. -/
def fieldOp (w : Word) : Byte := w.extractLsb' 0 8
/-- R121: the field A. -/
def fieldA (w : Word) : Byte := w.extractLsb' 8 8
/-- R121: the field B. -/
def fieldB (w : Word) : Byte := w.extractLsb' 16 8
/-- R121: the field C. -/
def fieldC (w : Word) : Byte := w.extractLsb' 24 8

/-- The opcode map of R125: for an opcode number, its format and the command that operands A and B give. -/
def opcodeRow (op : Nat) : Option (Format × (Byte → Byte → Instr)) :=
  match op with
  | 0x00 => some (.f0, fun _ _ => .nop)
  | 0x01 => some (.fab, fun a b => .gfmul a b)
  | 0x02 => some (.fa, fun a _ => .rsdiv a.toNat)
  | 0x03 => some (.fa, fun a _ => .rsrem a.toNat)
  | 0x10 => some (.f0, fun _ _ => .segclr)
  | 0x11 => some (.f0, fun _ _ => .segauto)
  | 0x12 => some (.f0, fun _ _ => .segnum)
  | 0x13 => some (.f0, fun _ _ => .segalnum)
  | 0x14 => some (.f0, fun _ _ => .segbyte)
  | 0x15 => some (.f0, fun _ _ => .segeci)
  | 0x20 => some (.f0, fun _ _ => .negot)
  | 0x21 => some (.fab, fun a b => .assemble a.toNat b.toNat)
  | 0x22 => some (.fab, fun a b => .tblq a.toNat b.toNat)
  | 0x23 => some (.fa, fun a _ => .alignq a.toNat)
  | 0x24 => some (.fab, fun a b => .ccbq a.toNat b.toNat)
  | 0x30 => some (.fab, fun a b => .interleave a.toNat b.toNat)
  | 0x40 => some (.fa, fun a _ => .minit a.toNat)
  | 0x41 => some (.f0, fun _ _ => .mplace)
  | 0x42 => some (.f0, fun _ _ => .mlight)
  | 0x50 => some (.fa, fun a _ => .mask a.toNat)
  | 0x51 => some (.fab, fun a b => .format a.toNat b.toNat)
  | 0x52 => some (.f0, fun _ _ => .penalty)
  | 0x53 => some (.fab, fun a b => .mselect a.toNat b.toNat)
  | 0x60 => some (.f0, fun _ _ => .encseg)
  | 0x61 => some (.f0, fun _ _ => .enctext)
  | 0x62 => some (.f0, fun _ _ => .encbin)
  | _ => none

/-- R122: a format's must-be-zero fields are zero. C is zero in every command of this revision. -/
def Format.fieldsZero (f : Format) (a b c : Byte) : Bool :=
  match f with
  | .f0 => a == 0 && b == 0 && c == 0
  | .fa => b == 0 && c == 0
  | .fab => c == 0

/-- The decoder (R127): total, and the same in every state (R128). -/
def decode (w : Word) : Except Reject Instr :=
  match opcodeRow (fieldOp w).toNat with
  | none => if 0xF0 ≤ (fieldOp w).toNat then .error (.reservedOp (fieldOp w)) else .error (.undefinedOp (fieldOp w))
  | some (f, mk) =>
    if f.fieldsZero (fieldA w) (fieldB w) (fieldC w) then .ok (mk (fieldA w) (fieldB w))
    else .error (.fieldNotZero (fieldOp w))

/-- The word `{0x00, B, A, OP}` of R122. -/
def assembleWord (op a b : Nat) : Word :=
  (0#8 ++ BitVec.ofNat 8 b ++ BitVec.ofNat 8 a ++ BitVec.ofNat 8 op : BitVec 32)

/-- The encoder: R122's word for each row of R125 (the `encode` of R129). -/
def encode : Instr → Word
  | .nop => assembleWord 0x00 0 0
  | .gfmul x y => assembleWord 0x01 x.toNat y.toNat
  | .rsdiv d => assembleWord 0x02 d 0
  | .rsrem d => assembleWord 0x03 d 0
  | .segclr => assembleWord 0x10 0 0
  | .segauto => assembleWord 0x11 0 0
  | .segnum => assembleWord 0x12 0 0
  | .segalnum => assembleWord 0x13 0 0
  | .segbyte => assembleWord 0x14 0 0
  | .segeci => assembleWord 0x15 0 0
  | .negot => assembleWord 0x20 0 0
  | .assemble v e => assembleWord 0x21 v e
  | .tblq v e => assembleWord 0x22 v e
  | .alignq v => assembleWord 0x23 v 0
  | .ccbq m v => assembleWord 0x24 m v
  | .interleave v e => assembleWord 0x30 v e
  | .minit v => assembleWord 0x40 v 0
  | .mplace => assembleWord 0x41 0 0
  | .mlight => assembleWord 0x42 0 0
  | .mask m => assembleWord 0x50 m 0
  | .format e m => assembleWord 0x51 e m
  | .penalty => assembleWord 0x52 0 0
  | .mselect e s => assembleWord 0x53 e s
  | .encseg => assembleWord 0x60 0 0
  | .enctext => assembleWord 0x61 0 0
  | .encbin => assembleWord 0x62 0 0

/-- The decoder as the opcode table numbers an instruction's bits: a command is one 32-bit word (R120), bits above
`nbits` are 0. -/
def decodeTableWord (nbits w : Nat) : Option Instr :=
  match decode (BitVec.ofNat 32 (w % 2 ^ nbits)) with
  | .ok i => some i
  | .error _ => none

end Sys2Proof
end

