-- ==== Sys2Proof/Machine/State.lean ====
section
/-! DEFINITION. The architectural state of QR-CORE as plain data (spec/10_state.md), what a host can do to it
(spec/20_memory.md), the reasons a step can stop, and the state after reset (spec/70_reset_and_hazards.md R390). -/

namespace Sys2Proof.Machine

/-- The engine's control state (R30): idle, or busy with a latched command word. -/
inductive Engine where
  | idle
  | busy (w : Word)
  deriving DecidableEq, Repr

/-- The stored bits of STATUS (R32). BUSY is exactly `eng ≠ Idle`, so it is computed from `State.eng` and not stored a
second time (assumption 13). -/
structure Status where
  /-- Bit 1, W1C: a command has completed. -/
  done : Bool
  /-- Bit 2, RO: the last command ended not encodable. -/
  fail : Bool
  /-- Bit 3, RO: the last command ended in a contract violation. -/
  err : Bool
  /-- Bit 4, W1C: a host write was dropped because the engine was Busy. -/
  werr : Bool
  /-- Bit 5, W1C: a host access was refused for its width or alignment. -/
  aerr : Bool
  deriving DecidableEq, Repr

/-- The fields of CFG (R37); its reserved bits are stuck at 0. -/
structure Cfg where
  /-- Bits 1:0. -/
  ecl : BitVec 2
  /-- Bits 5:2; 8 means Auto. -/
  mask : BitVec 4
  /-- Bit 6. -/
  boost : Bool
  /-- Bits 13:8. -/
  minVer : BitVec 6
  /-- Bits 21:16. -/
  maxVer : BitVec 6
  deriving DecidableEq, Repr

/-- The fields of RESULT (R40); its reserved bits are stuck at 0. -/
structure Result where
  /-- Bits 5:0. -/
  version : BitVec 6
  /-- Bits 9:8. -/
  ecl : BitVec 2
  /-- Bits 14:12. -/
  mask : BitVec 3
  /-- Bits 23:16. -/
  size : BitVec 8
  deriving DecidableEq, Repr

/-- One SEGTAB descriptor (R44). -/
structure SegDesc where
  /-- Word 0, bits 3:0. -/
  mode : BitVec 4
  /-- Word 0, bits 31:16. -/
  numChars : BitVec 16
  /-- Word 1, bits 15:0. -/
  bitLen : BitVec 16
  /-- Word 1, bits 31:16. -/
  bitOff : BitVec 16
  deriving DecidableEq, Repr

/-- The six buffers of R47 in one space of byte offsets 0x1000 to 0x7FFF (R81). `cells` lists the bytes something has
written, addresses strictly rising. A byte that nothing has written is unspecified (R391, R345): it reads as a free
value that its draw number and its address fix until it is written (assumptions 3 and 5). -/
structure Memory where
  /-- The written bytes, addresses strictly rising. -/
  cells : List Host.Cell
  /-- The draw that unwritten bytes of PAYLOAD and SEGBUF (0x1000 to 0x3FFF) come from. -/
  lowDraw : Nat
  /-- The draw that unwritten bytes of DATABUF, CWBUF, FUNCMAP and MATRIX (0x4000 to 0x7FFF) come from. -/
  highDraw : Nat
  deriving DecidableEq, Repr

/-- The widths of a host access (R86); no other width can occur on the bus. -/
inductive Width where
  | w1
  | w2
  | w4
  deriving DecidableEq, Repr

/-- What reaches the block from outside between engine steps: a bus read, a bus write (whose data is the low bytes of
`data`), or an assertion of the reset input. Offsets are the 15 bits of R80. -/
inductive HostEvent where
  | read (width : Width) (off : BitVec 15)
  | write (width : Width) (off : BitVec 15) (data : Word)
  | reset
  deriving DecidableEq, Repr

/-- The state of the block (R49), with the host's pending accesses and the model's own counters. -/
structure State where
  /-- R30. -/
  eng : Engine
  /-- The model's own (assumption 2): bus slots left before the completion step of the accepted command. -/
  wait : Nat
  /-- R32, offset 0x004. -/
  status : Status
  /-- R34, offset 0x02C: bits 7:0. -/
  errcode : Byte
  /-- R35, offset 0x00C. -/
  arg0 : Word
  /-- R35, offset 0x010. -/
  arg1 : Word
  /-- R35, offset 0x014. -/
  arg2 : Word
  /-- R36, offset 0x018. -/
  res0 : Word
  /-- R36, offset 0x01C. -/
  res1 : Word
  /-- R37, offset 0x020. -/
  cfg : Cfg
  /-- R38, offset 0x024: bits 13:0. -/
  plen : BitVec 14
  /-- R39, offset 0x034: bit 0, DONE_IE. -/
  doneIe : Bool
  /-- R40, offset 0x028. -/
  result : Result
  /-- R41, offset 0x030. -/
  penalty : Word
  /-- R42, offset 0x038: bits 4:0. -/
  segCnt : BitVec 5
  /-- R43, offset 0x03C: bits 15:0. -/
  segBits : BitVec 16
  /-- R44, offsets 0x100 to 0x17F. -/
  segTab : Vector SegDesc 16
  /-- R45, offsets 0x180 to 0x19D. -/
  gen : Vector Byte 30
  /-- R46, offsets 0x1A0 to 0x1BD. -/
  rem : Vector Byte 30
  /-- R47, offsets 0x1000 to 0x7FFF. -/
  mem : Memory
  /-- The outside world's accesses not yet delivered, oldest first (R92; assumption 1). -/
  inbox : List HostEvent
  /-- The data returned to the host's reads so far, oldest first (assumption 1). -/
  replies : List Word
  /-- The model's own (assumption 4): the number of the next free draw. -/
  draws : Nat
  deriving DecidableEq, Repr

/-- The reasons the machine stops. There is none: every host access and every command of the spec has an outcome
that leaves the block running (R360, R365, R372), so no definition of the model raises a fault. -/
inductive Fault : Type
  deriving DecidableEq, Repr

/-- The reasons a step has no meaning. -/
inductive Refusal where
  /-- Raised by `exec` alone, for a command whose arm has no meaning yet. Safe: the model stops. No arm raises it. -/
  | notModelled (mnemonic : String)
  deriving DecidableEq, Repr

/-- Memory with nothing written, its unwritten bytes from draw `draw` (R391). -/
def Memory.fresh (draw : Nat) : Memory := { cells := [], lowDraw := draw, highDraw := draw }

/-- The state after reset (R390). `inbox`, `replies`, `wait`, `draws` and the memory's draw numbers are the model's own
fields, and their values here are DESIGN CHOICES (assumptions 1, 2 and 4). -/
def State.reset : State where
  eng := .idle
  wait := 0
  status := { done := false, fail := false, err := false, werr := false, aerr := false }
  errcode := 0
  arg0 := 0
  arg1 := 0
  arg2 := 0
  res0 := 0
  res1 := 0
  cfg := { ecl := 0, mask := 8, boost := true, minVer := 1, maxVer := 40 }
  plen := 0
  doneIe := false
  result := { version := 0, ecl := 0, mask := 0, size := 0 }
  penalty := 0
  segCnt := 0
  segBits := 0
  segTab := Vector.replicate 16 { mode := 0, numChars := 0, bitLen := 0, bitOff := 0 }
  gen := Vector.replicate 30 0
  rem := Vector.replicate 30 0
  mem := Memory.fresh 0
  inbox := []
  replies := []
  draws := 1

end Sys2Proof.Machine
end

