-- ==== Sys2Proof/Machine/Flags.lean ====
section
/-! DEFINITION. Outcomes and flags: the outcome classes and codes of spec/60_exceptions.md R360 and R363, the STATUS
register of spec/10_state.md R32, and the interrupt output of R370. -/

namespace Sys2Proof.Machine

/-- The codes of the not-encodable tier (R361, R363). -/
inductive FailCode where
  | segTooLarge
  | noFit
  deriving DecidableEq, Repr

/-- The codes of the contract-violation tier (R362, R363). -/
inductive ViolationCode where
  | illegalCmd
  | badVersion
  | minGtMax
  | badEcl
  | badMask
  | emptySegments
  | eciRange
  | badChar
  | badRange
  | badDegree
  | segtabFull
  | badMatrix
  | badMode
  deriving DecidableEq, Repr

/-- R363: the ERRCODE byte of a not-encodable outcome. -/
def FailCode.byte : FailCode → Byte
  | .segTooLarge => 0x01
  | .noFit => 0x02

/-- R363: the ERRCODE byte of a contract violation. -/
def ViolationCode.byte : ViolationCode → Byte
  | .illegalCmd => 0x10
  | .badVersion => 0x11
  | .minGtMax => 0x12
  | .badEcl => 0x13
  | .badMask => 0x14
  | .emptySegments => 0x15
  | .eciRange => 0x16
  | .badChar => 0x17
  | .badRange => 0x18
  | .badDegree => 0x19
  | .segtabFull => 0x1A
  | .badMatrix => 0x1B
  | .badMode => 0x1C

/-- The outcome every accepted command ends with (R18, R360). -/
inductive CmdOutcome where
  | success
  | notEncodable (c : FailCode)
  | contractViolation (c : ViolationCode)
  deriving DecidableEq, Repr

/-- R151: STATUS.FAIL at completion. -/
def CmdOutcome.isFail : CmdOutcome → Bool
  | .notEncodable _ => true
  | .success => false
  | .contractViolation _ => false

/-- R151: STATUS.ERR at completion. -/
def CmdOutcome.isErr : CmdOutcome → Bool
  | .contractViolation _ => true
  | .success => false
  | .notEncodable _ => false

/-- R151, R363: ERRCODE at completion. -/
def CmdOutcome.byte : CmdOutcome → Byte
  | .success => 0x00
  | .notEncodable c => c.byte
  | .contractViolation c => c.byte

/-- R32: STATUS.BUSY is exactly `eng ≠ Idle`. -/
def State.busy (s : State) : Bool :=
  match s.eng with
  | .idle => false
  | .busy _ => true

/-- The 32-bit view of STATUS (R32); bits 31:6 are reserved. -/
def State.statusWord (s : State) : Word :=
  0#26 ++ BitVec.ofBool s.status.aerr ++ BitVec.ofBool s.status.werr ++ BitVec.ofBool s.status.err
    ++ BitVec.ofBool s.status.fail ++ BitVec.ofBool s.status.done ++ BitVec.ofBool s.busy

/-- A host write of `v` to STATUS (R32): each W1C bit whose written bit is 1 is cleared; the others stay. -/
def Status.writeOneToClear (f : Status) (v : Word) : Status :=
  { f with
    done := f.done && !v.getLsbD 1
    werr := f.werr && !v.getLsbD 4
    aerr := f.aerr && !v.getLsbD 5 }

/-- The flag updates of acceptance (R150). -/
def Status.accepted (f : Status) : Status := { f with done := false, fail := false, err := false }

/-- The flag updates of completion (R151). -/
def Status.completed (f : Status) (o : CmdOutcome) : Status :=
  { f with done := true, fail := o.isFail, err := o.isErr }

/-- The interrupt output (R370): `irq = STATUS.DONE & IRQEN.DONE_IE`, level-sensitive. -/
def State.irq (s : State) : Bool := s.status.done && s.doneIe

end Sys2Proof.Machine
end

