-- ==== Sys2Proof/Machine/Ops.lean ====
section
/-! DEFINITION. The named operations over buffers, bit strings and registers (spec/00_scope.md R14, R15;
spec/20_memory.md R83, R84), and the completion of a command (spec/40_control.md R151), which is the one way an outcome
(success, not encodable, contract violation) is recorded: QR-CORE has no trap entry and no return (R372, R373). -/

namespace Sys2Proof.Machine

/-- What one step answers. -/
abbrev Answer := Host.Outcome State Fault Refusal

/-! ### Buffers -/

/-- The byte written at address `a`, if something has written it. -/
def cellsLookup : List Host.Cell → Nat → Option Byte
  | [], _ => none
  | (k, b) :: rest, a => if k = a then some b else cellsLookup rest a

/-- Puts byte `b` at address `a`, keeping addresses strictly rising. -/
def cellsInsert : List Host.Cell → Nat → Byte → List Host.Cell
  | [], a, b => [(a, b)]
  | (k, c) :: rest, a, b =>
    if k < a then (k, c) :: cellsInsert rest a b
    else if k = a then (a, b) :: rest
    else (a, b) :: (k, c) :: rest

/-- The canonical form of memory: addresses strictly rising, each a buffer offset of R81. Every listed byte has been
written, and an unlisted one has not, so no entry repeats what an unlisted address stands for (assumption 3). -/
abbrev Memory.wf (m : Memory) : Prop :=
  m.cells.Pairwise (fun x y => x.1 < y.1) ∧ ∀ c ∈ m.cells, Config.payloadBase ≤ c.1 ∧ c.1 < Config.addressEnd

/-- What a byte that nothing has written reads as (R391, R345): a free value fixed by its draw and its address. -/
def Memory.unwritten (m : Memory) (a : Nat) : Byte :=
  Config.freeByte (if a < Config.databufBase then m.lowDraw else m.highDraw) a

/-- `MemRead(a, 1)` on a buffer byte (R14). -/
def Memory.read (m : Memory) (a : Nat) : Byte := (cellsLookup m.cells a).getD (m.unwritten a)

/-- `MemWrite(a, 1, b)` on a buffer byte (R14). The engine and the bus reach no byte outside the buffers (R80, R89), so
an address that is none is not written. -/
def Memory.write (m : Memory) (a : Nat) (b : Byte) : Memory :=
  if Config.payloadBase ≤ a ∧ a < Config.addressEnd then { m with cells := cellsInsert m.cells a b } else m

/-- The `n` bytes at `a`, `a + 1`, and so on. -/
def Memory.readBytes (m : Memory) : Nat → Nat → List Byte
  | _, 0 => []
  | a, n + 1 => m.read a :: m.readBytes (a + 1) n

/-- Writes a list of bytes at `a`, `a + 1`, and so on. -/
def Memory.writeBytes (m : Memory) : Nat → List Byte → Memory
  | _, [] => m
  | a, b :: bs => (m.write a b).writeBytes (a + 1) bs

/-- `MemRead(a, n)` (R14): the byte at `a` is bits 7:0. -/
def Memory.readLE (m : Memory) : Nat → Nat → Nat
  | _, 0 => 0
  | a, n + 1 => (m.read a).toNat + 256 * m.readLE (a + 1) n

/-- `MemWrite(a, n, v)` (R14): stores `v[8n-1:0]`, bits 7:0 at `a`. -/
def Memory.writeLE (m : Memory) : Nat → Nat → Nat → Memory
  | _, 0, _ => m
  | a, n + 1, v => (m.write a (BitVec.ofNat 8 v)).writeLE (a + 1) n (v / 256)

/-- `b` with bit `i` set to `c`. -/
def setByteBit (b : Byte) (i : Nat) (c : Bool) : Byte :=
  if c then b ||| (1#8 <<< i) else b &&& ~~~(1#8 <<< i)

/-- Bit `j` of the bit string that starts at bit `o` of the buffer at `base`: bit `7 - (o+j) % 8` of byte `(o+j) / 8`
(R84, most significant bit first). -/
def Memory.readBitMsb (m : Memory) (base o : Nat) : Bool := (m.read (base + o / 8)).getLsbD (7 - o % 8)

/-- Writes one bit of a buffer in the order of R84, leaving the other bits of its byte. -/
def Memory.writeBitMsb (m : Memory) (base o : Nat) (c : Bool) : Memory :=
  m.write (base + o / 8) (setByteBit (m.read (base + o / 8)) (7 - o % 8) c)

/-- The `n` bits from bit `o` on. -/
def Memory.readBitsMsb (m : Memory) (base : Nat) : Nat → Nat → List Bool
  | _, 0 => []
  | o, n + 1 => m.readBitMsb base o :: m.readBitsMsb base (o + 1) n

/-- Writes a bit string from bit `o` on (the loop of R189). -/
def Memory.writeBitsMsb (m : Memory) (base : Nat) : Nat → List Bool → Memory
  | _, [] => m
  | o, c :: cs => (m.writeBitMsb base o c).writeBitsMsb base (o + 1) cs

/-- DATABUF, CWBUF, FUNCMAP and MATRIX become unspecified (R345): nothing at or above 0x4000 is listed, and its bytes
come from draw `draw`. -/
def Memory.forgetHigh (m : Memory) (draw : Nat) : Memory :=
  { m with cells := m.cells.filter (fun c => decide (c.1 < Config.databufBase)), highDraw := draw }

/-! ### Bit strings (R15) -/

/-- `bits_of(v, n)`: the `n` bits of `v`, most significant first. -/
def bitsOf (v n : Nat) : List Bool := (List.range n).map fun i => v.testBit (n - 1 - i)

/-- The number whose bits, most significant first, are `s`. -/
def natOfBits (s : List Bool) : Nat := s.foldl (fun v b => 2 * v + b.toNat) 0

/-- `byte_of(s, k)` for `k < n`: the first `8n` bits of `s` as `n` bytes, most significant bit first. -/
def packBytes : Nat → List Bool → List Byte
  | 0, _ => []
  | n + 1, s => BitVec.ofNat 8 (natOfBits (s.take 8)) :: packBytes n (s.drop 8)

/-- The bits of a list of bytes, most significant first. -/
def unpackBytes (bs : List Byte) : List Bool := bs.flatMap fun b => bitsOf b.toNat 8

/-! ### Register arrays -/

/-- A 30-byte register array that holds `l` and zeros after it (R167, R168, R255). -/
def padTo30 (l : List Byte) : Vector Byte 30 := Vector.ofFn fun i => l.getD i.val 0

/-- A 30-byte register array at offset `base` that the spec leaves unspecified (R345). -/
def free30 (draw base : Nat) : Vector Byte 30 := Vector.ofFn fun i => Config.freeByte draw (base + i.val)

/-! ### Register updates -/

/-- Writes RES0 and RES1. -/
def State.setRes (s : State) (r0 r1 : Word) : State := { s with res0 := r0, res1 := r1 }

/-- Writes RES0 alone. -/
def State.setRes0 (s : State) (r0 : Word) : State := { s with res0 := r0 }

/-- Writes PENALTY. -/
def State.setPenalty (s : State) (p : Word) : State := { s with penalty := p }

/-- Writes RESULT. -/
def State.setResult (s : State) (r : Result) : State := { s with result := r }

/-- Writes GEN. -/
def State.setGen (s : State) (g : Vector Byte 30) : State := { s with gen := g }

/-- Writes REM. -/
def State.setRem (s : State) (r : Vector Byte 30) : State := { s with rem := r }

/-- Writes the buffers. -/
def State.setMem (s : State) (m : Memory) : State := { s with mem := m }

/-- Writes SEGCNT and SEGBITS. -/
def State.setSegCounts (s : State) (cnt : BitVec 5) (bits : BitVec 16) : State :=
  { s with segCnt := cnt, segBits := bits }

/-- Writes SEGTAB. -/
def State.setSegTab (s : State) (t : Vector SegDesc 16) : State := { s with segTab := t }

/-! ### Completion -/

/-- The completion updates (R151) for any outcome: BUSY and `eng` together, DONE, FAIL, ERR and ERRCODE. -/
def State.finish (s : State) (o : CmdOutcome) : State :=
  { s with eng := .idle, status := s.status.completed o, errcode := o.byte }

/-- `complete` (R18). -/
def State.complete (s : State) : State := s.finish .success

/-- `raise NotEncodable(code)` (R18, R361). -/
def State.notEncodable (s : State) (c : FailCode) : State := s.finish (.notEncodable c)

/-- `raise ContractViolation(code)` (R18, R362): only STATUS, ERRCODE and `eng` change (R152). -/
def State.contractViolation (s : State) (c : ViolationCode) : State := s.finish (.contractViolation c)

/-- An illegal command word (R126). -/
def State.illegalCommand (s : State) : State := s.contractViolation .illegalCmd

/-- One check of a command's Checks list: whether it passes, and the code it raises when it does not. -/
structure Check where
  ok : Bool
  code : ViolationCode
  deriving DecidableEq, Repr

/-- The first check that fails decides the outcome (R152, R366). -/
def firstFailure : List Check → Option ViolationCode
  | [] => none
  | c :: cs => if c.ok then firstFailure cs else some c.code

/-- A command: its checks in order, then its body on the state in which all of them pass (R152). -/
def State.checked (s : State) (checks : List Check) (body : State → State) : State :=
  match firstFailure checks with
  | some c => s.contractViolation c
  | none => body s

/-- `fail_state()` (R345): RESULT, RES0 and RES1 are 0; DATABUF, CWBUF, GEN, REM, MATRIX, FUNCMAP and PENALTY are
unspecified, so each takes a free value of a fresh draw (assumption 5). PENALTY is among them whatever CFG.MASK is: R345
decides, and not R405, which says that an encoding command with an explicit mask leaves PENALTY, a DESIGN CHOICE
(assumption 20). -/
def State.failState (s : State) : State :=
  { s with
    result := { version := 0, ecl := 0, mask := 0, size := 0 }
    res0 := 0
    res1 := 0
    gen := free30 s.draws Config.genBase
    rem := free30 s.draws Config.remBase
    mem := s.mem.forgetHigh s.draws
    penalty := Config.freeWord s.draws
    draws := s.draws + 1 }

end Sys2Proof.Machine
end

