-- ==== Sys2Proof/Machine/Operands.lean ====
section
/-! DEFINITION. Every operand form of QR-CORE: immediates and their legal ranges (spec/30_encoding.md R123), register
operands (R124), the fields of CFG and RESULT as words (spec/10_state.md R37, R40, R44), buffer slices (R14), and the
checks the commands make of them (spec/60_exceptions.md R363, R366). -/

namespace Sys2Proof.Machine

/-! ### Word views of the register fields -/

/-- CFG as the host reads it (R37). -/
def Cfg.toWord (c : Cfg) : Word :=
  0#10 ++ c.maxVer ++ 0#2 ++ c.minVer ++ 0#1 ++ BitVec.ofBool c.boost ++ c.mask ++ c.ecl

/-- What a host write of `v` leaves in CFG (R37): every field as written, reserved bits dropped. -/
def Cfg.ofWord (v : Word) : Cfg where
  ecl := v.extractLsb' 0 2
  mask := v.extractLsb' 2 4
  boost := v.getLsbD 6
  minVer := v.extractLsb' 8 6
  maxVer := v.extractLsb' 16 6

/-- RESULT as the host reads it (R40). -/
def Result.toWord (r : Result) : Word :=
  0#8 ++ r.size ++ 0#1 ++ r.mask ++ 0#2 ++ r.ecl ++ 0#2 ++ r.version

/-- Word 0 of a SEGTAB descriptor (R44). -/
def SegDesc.word0 (d : SegDesc) : Word := d.numChars ++ 0#12 ++ d.mode

/-- Word 1 of a SEGTAB descriptor (R44). -/
def SegDesc.word1 (d : SegDesc) : Word := d.bitOff ++ d.bitLen

/-! ### Immediate operands (R123) -/

/-- A version immediate is 1 to 40. -/
def versionCheck (v : Nat) : Check := ⟨decide (Config.versionMin ≤ v ∧ v ≤ Config.versionMax), .badVersion⟩

/-- An ECC level immediate is 0 to 3 (R210). -/
def eclCheck (e : Nat) : Check := ⟨decide (e ≤ 3), .badEcl⟩

/-- A mask immediate is 0 to 7. -/
def maskCheck (m : Nat) : Check := ⟨decide (m ≤ 7), .badMask⟩

/-- A mask selector is 0 to 8; 8 is Auto. -/
def selectorCheck (m : Nat) : Check := ⟨decide (m ≤ 8), .badMask⟩

/-- A Reed-Solomon degree is 1 to 30. -/
def degreeCheck (d : Nat) : Check := ⟨decide (1 ≤ d ∧ d ≤ Config.rsDegreeMax), .badDegree⟩

/-- A mode operand is one of the five mode indicators (R181, R232). -/
def modeCheck (m : Nat) : Check := ⟨decide (m = 1 ∨ m = 2 ∨ m = 4 ∨ m = 7 ∨ m = 8), .badMode⟩

/-! ### CFG, PLEN and ARG operands (R124) -/

/-- MINVER and MAXVER are versions. -/
def cfgVersionCheck (s : State) : Check :=
  ⟨(versionCheck s.cfg.minVer.toNat).ok && (versionCheck s.cfg.maxVer.toNat).ok, .badVersion⟩

/-- MINVER is at most MAXVER. -/
def cfgOrderCheck (s : State) : Check := ⟨decide (s.cfg.minVer.toNat ≤ s.cfg.maxVer.toNat), .minGtMax⟩

/-- CFG.MASK is a mask or Auto. -/
def cfgMaskCheck (s : State) : Check := selectorCheck s.cfg.mask.toNat

/-- The DATABUF range of RSREM, its sum computed without overflow (R168). -/
def databufRangeCheck (s : State) : Check :=
  ⟨decide (s.arg0.toNat + s.arg1.toNat ≤ Config.databufBytes), .badRange⟩

/-- The PAYLOAD range of the SEG commands, its sum computed without overflow (R191). -/
def payloadRangeCheck (s : State) : Check :=
  ⟨decide (s.arg0.toNat + s.arg1.toNat ≤ Config.payloadBytes), .badRange⟩

/-- The payload length of ENCTEXT and ENCBIN (R342). -/
def plenCheck (s : State) : Check := ⟨decide (s.plen.toNat ≤ Config.payloadBytes), .badRange⟩

/-- The ECI assignment value of SEGECI (R195). -/
def eciCheck (s : State) : Check := ⟨decide (s.arg0.toNat < Config.eciLimit), .eciRange⟩

/-- There is a free SEGTAB descriptor (R191). -/
def tableRoomCheck (s : State) : Check := ⟨decide (s.segCnt.toNat < Config.maxSegs), .segtabFull⟩

/-- There is at least one valid segment (R230). -/
def tableFilledCheck (s : State) : Check := ⟨decide (1 ≤ s.segCnt.toNat), .emptySegments⟩

/-! ### Buffer operands -/

/-- `PAYLOAD[off .. off+n-1]`. -/
def State.payload (s : State) (off n : Nat) : List Byte := s.mem.readBytes (Config.payloadBase + off) n

/-- `DATABUF[off .. off+n-1]`. -/
def State.databuf (s : State) (off n : Nat) : List Byte := s.mem.readBytes (Config.databufBase + off) n

/-- `CWBUF[0 .. n-1]`. -/
def State.cwbuf (s : State) (n : Nat) : List Byte := s.mem.readBytes Config.cwbufBase n

/-- The payload range that ARG0 and ARG1 name (R191). -/
def State.argPayload (s : State) : List Byte := s.payload s.arg0.toNat s.arg1.toNat

/-- `SEGTAB[0 .. SEGCNT-1]`, the valid descriptors (R44). -/
def State.segs (s : State) : List SegDesc := s.segTab.toList.take s.segCnt.toNat

/-- `SEGBUF bits [BITOFF .. BITOFF+BITLEN-1]`, a segment's data bits (R180). -/
def State.segDataBits (s : State) (d : SegDesc) : List Bool :=
  s.mem.readBitsMsb Config.segbufBase d.bitOff.toNat d.bitLen.toNat

/-- `MATRIX[0]`, the size byte. -/
def State.matrixSize (s : State) : Nat := (s.mem.read Config.matrixBase).toNat

/-- `FUNCMAP[0]`, the size byte. -/
def State.funcmapSize (s : State) : Nat := (s.mem.read Config.funcmapBase).toNat

/-- Whether a size byte is `4v+17` for some version `v` (R281). -/
def legalSize (size : Nat) : Bool := decide (21 ≤ size ∧ size ≤ 177 ∧ (size - 17) % 4 = 0)

/-- `v <- (MATRIX[0] - 17)/4` (R281). -/
def State.matrixVersion (s : State) : Nat := (s.matrixSize - 17) / 4

/-- `MATRIX[0]` is a legal size (R282). -/
def matrixCheck (s : State) : Check := ⟨legalSize s.matrixSize, .badMatrix⟩

/-- `MATRIX[0]` is a legal size and `FUNCMAP[0] = MATRIX[0]` (R281). -/
def matrixPairCheck (s : State) : Check :=
  ⟨legalSize s.matrixSize && decide (s.funcmapSize = s.matrixSize), .badMatrix⟩

end Sys2Proof.Machine
end

