-- ==== Sys2Proof/Machine/Bus.lean ====
section
/-! DEFINITION. The host side of QR-CORE: bus reads and writes (spec/20_memory.md R80 to R92), acceptance of a command
word (spec/40_control.md R150), the reset input (spec/70_reset_and_hazards.md R390 to R392), and the delivery of what the
outside world has issued, one access at a time and in issue order (R92). -/

namespace Sys2Proof.Machine

/-- The width of an access in bytes (R86). -/
def Width.bytes : Width → Nat
  | .w1 => 1
  | .w2 => 2
  | .w4 => 4

/-- R86: a naturally aligned access, its offset a multiple of its width. -/
def aligned (width : Width) (off : Nat) : Bool := decide (off % width.bytes = 0)

/-- R81: the registers ID to SEGBITS. -/
def inRegisterBlock (off : Nat) : Bool := decide (off < 0x40)

/-- R86: a write is well formed when it is aligned and, in the register block, 4 bytes wide. -/
def writeAllowed (width : Width) (off : Nat) : Bool :=
  aligned width off && (!inRegisterBlock off || width == .w4)

/-! ### What a location reads as -/

/-- The 32-bit register at offset `4 * k` of the register block (R50). CMD is write-only and reads 0 (R33). -/
def State.regWord (s : State) (k : Nat) : Word :=
  match k with
  | 0 => Config.idWord
  | 1 => s.statusWord
  | 2 => 0
  | 3 => s.arg0
  | 4 => s.arg1
  | 5 => s.arg2
  | 6 => s.res0
  | 7 => s.res1
  | 8 => s.cfg.toWord
  | 9 => s.plen.setWidth 32
  | 10 => s.result.toWord
  | 11 => s.errcode.setWidth 32
  | 12 => s.penalty
  | 13 => (BitVec.ofBool s.doneIe).setWidth 32
  | 14 => s.segCnt.setWidth 32
  | 15 => s.segBits.setWidth 32
  | _ => 0

/-- Byte `i` of a word in the little-endian order of R83. -/
def wordByte (w : Word) (i : Nat) : Byte := w.extractLsb' (8 * i) 8

/-- Byte `i` of the SEGTAB window (R44): descriptor `i / 8`, word 0 before word 1. -/
def State.segTabByte (s : State) (i : Nat) : Byte :=
  match s.segTab[i / 8]? with
  | some d => if i % 8 < 4 then wordByte d.word0 (i % 4) else wordByte d.word1 (i % 4)
  | none => 0

/-- Byte `i` of the window of a 30-byte register array; the two reserved bytes read 0 (R45, R46). -/
def arrayByte (a : Vector Byte 30) (i : Nat) : Byte := a[i]?.getD 0

/-- The byte at offset `off` as an Idle block returns it (R50, R81). -/
def State.busByte (s : State) (off : Nat) : Byte :=
  if off < 0x40 then wordByte (s.regWord (off / 4)) (off % 4)
  else if off < Config.segTabBase then 0
  else if off < Config.genBase then s.segTabByte (off - Config.segTabBase)
  else if off < Config.remBase then arrayByte s.gen (off - Config.genBase)
  else if off < 0x1C0 then arrayByte s.rem (off - Config.remBase)
  else if off < Config.payloadBase then 0
  else s.mem.read off

/-- R91: the locations whose reads return their values while the engine is Busy: ID, STATUS, CMD (assumption 7), ARG0
to ARG2, CFG, PLEN, IRQEN and the RAZ/WI locations. -/
def readableWhileBusy (off : Nat) : Bool :=
  if off < 0x40 then
    match off / 4 with
    | 0 | 1 | 2 | 3 | 4 | 5 | 8 | 9 | 13 => true
    | _ => false
  else if off < Config.segTabBase then true
  else if off < Config.genBase then false
  else if off < Config.remBase then decide (30 ≤ off - Config.genBase)
  else if off < 0x1C0 then decide (30 ≤ off - Config.remBase)
  else decide (off < Config.payloadBase)

/-- The byte a read returns: the location's, or a free value of draw `s.draws` where R91 leaves it unspecified
(assumption 6). The free byte is whole, its reserved bits too: R91 decides, and not the reserved bits' reading as 0, a
DESIGN CHOICE (assumption 6). -/
def State.replyByte (s : State) (off : Nat) : Byte :=
  if s.busy && !readableWhileBusy off then Config.freeByte s.draws off else s.busByte off

/-- The `n` bytes from `off` on as one number, the byte at `off` in bits 7:0 (R83). -/
def State.replyLE (s : State) : Nat → Nat → Nat
  | _, 0 => 0
  | off, n + 1 => (s.replyByte off).toNat + 256 * s.replyLE (off + 1) n

/-- The datum of an allowed read: the bytes of the access, zero-extended (R83, R156). -/
def State.readDatum (s : State) (width : Width) (off : Nat) : Word := BitVec.ofNat 32 (s.replyLE off width.bytes)

/-- A host read (R86, R88, R91). A misaligned one returns 0 and sets AERR, at a reserved offset too (assumption 18). The
free draw a Busy read may use is used up, so that no later free value is tied to it (assumption 6). -/
def State.hostRead (s : State) (width : Width) (off : Nat) : State :=
  if aligned width off then
    { s with replies := s.replies ++ [s.readDatum width off], draws := s.draws + 1 }
  else { s with replies := s.replies ++ [0], status := { s.status with aerr := true } }

/-! ### What a write does -/

/-- Acceptance of a command word (R150), with the wait that LATENCY leaves OPEN (assumption 2). -/
def State.accept (s : State) (w : Word) : State :=
  { s with
    eng := .busy w
    status := s.status.accepted
    errcode := 0
    wait := Config.latency w s.draws
    draws := s.draws + 1 }

/-- A 4-byte write of `v` to the register at offset `4 * k`, the engine Idle (R50). Writes to RO registers are ignored
(R88, R406). -/
def State.writeRegister (s : State) (k : Nat) (v : Word) : State :=
  match k with
  | 1 => { s with status := s.status.writeOneToClear v }
  | 2 => s.accept v
  | 3 => { s with arg0 := v }
  | 4 => { s with arg1 := v }
  | 5 => { s with arg2 := v }
  | 8 => { s with cfg := Cfg.ofWord v }
  | 9 => { s with plen := v.extractLsb' 0 14 }
  | 13 => { s with doneIe := v.getLsbD 0 }
  | _ => s

/-- R81: whether the host may write the buffer byte at `off` (every buffer but SEGBUF). -/
def hostWritableBuffer (off : Nat) : Bool :=
  decide (Config.payloadBase ≤ off ∧ off < Config.segbufBase) ||
    decide (Config.databufBase ≤ off ∧ off < Config.addressEnd)

/-- A write of one byte above the register block, the engine Idle: GEN and the RW buffers store it, every other
location ignores it (R45, R81, R88). -/
def State.writeByte (s : State) (off : Nat) (b : Byte) : State :=
  if Config.genBase ≤ off ∧ off < Config.remBase then
    { s with gen := s.gen.setIfInBounds (off - Config.genBase) b }
  else if hostWritableBuffer off then { s with mem := s.mem.write off b }
  else s

/-- A write of the low `n` bytes of `v` from `off` on, bits 7:0 at `off` (R83). -/
def State.writeDatum (s : State) : Nat → Nat → Nat → State
  | _, 0, _ => s
  | off, n + 1, v => (s.writeByte off (BitVec.ofNat 8 v)).writeDatum (off + 1) n (v / 256)

/-- R90: the two locations a host may write while the engine is Busy. -/
def writableWhileBusy (off : Nat) : Bool := decide (off / 4 = 1) || decide (off / 4 = 13)

/-- Sets the flags of a write that has no effect: AERR when its form is refused (R86), WERR when the engine is Busy and
its location is one R90 closes. Both hold of a malformed write to such a location while Busy (assumption 8). -/
def Status.refuseWrite (f : Status) (malformed dropped : Bool) : Status :=
  { f with aerr := f.aerr || malformed, werr := f.werr || dropped }

/-- A host write (R86, R88, R90, R150). Which locations R86 and R90 reach is a DESIGN CHOICE where the rules differ
(assumption 18): a write to a read-only or a reserved location sets WERR while Busy (R90), though R81, R88, R365 and R406
say that it sets no flag, and a misaligned one sets AERR (R86), though R365 says that a reserved offset flags nothing. While
Idle a well-formed one is ignored with no flag. -/
def State.hostWrite (s : State) (width : Width) (off : Nat) (v : Word) : State :=
  let malformed := !writeAllowed width off
  let dropped := s.busy && !writableWhileBusy off
  if malformed || dropped then { s with status := s.status.refuseWrite malformed dropped }
  else if inRegisterBlock off then s.writeRegister (off / 4) v
  else s.writeDatum off width.bytes v.toNat

/-! ### Reset and delivery -/

/-- The reset input (R390, R392): the reset state, whatever the engine was doing. The buffers are drawn anew (R391,
U4), and what the outside world has issued and received is outside the block (assumptions 1 and 4). -/
def State.assertReset (s : State) : State :=
  { State.reset with
    mem := Memory.fresh s.draws
    inbox := s.inbox
    replies := s.replies
    draws := s.draws + 1 }

/-- What one event from outside does to the block. -/
def State.hostEvent (s : State) : HostEvent → State
  | .read width off => s.hostRead width off.toNat
  | .write width off v => s.hostWrite width off.toNat v
  | .reset => s.assertReset

/-- One bus slot: the oldest pending event takes its whole effect (R87, R92). With nothing pending the block does
nothing (R380). -/
def State.deliver (s : State) : State :=
  match s.inbox with
  | [] => s
  | ev :: rest => ({ s with inbox := rest } : State).hostEvent ev

end Sys2Proof.Machine
end

