-- ==== Sys2Proof/Machine/Tables.lean ====
section
/-! DEFINITION. The constant tables and formulas of a version and an ECC level (spec/43_bitstream.md R211 to R218;
spec/45_matrix.md R270 to R272). Every use is for versions 1 to 40 and levels 0 to 3 (R211). -/

namespace Sys2Proof.Machine

/-- The side of a version (R270): `4v + 17`. -/
def side (v : Nat) : Nat := 4 * v + 17

/-- `bufLen(v)` (R271). -/
def bufLen (v : Nat) : Nat := (side v * side v + 7) / 8 + 1

/-- `tier(v)` (R212). -/
def tier (v : Nat) : Nat := if v ≤ 9 then 0 else if v ≤ 26 then 1 else 2

/-- `ccb(mode, v)` (R213) for the five mode indicators; none for any other mode value. -/
def ccb (mode v : Nat) : Option Nat :=
  match mode with
  | 0x1 => [10, 12, 14][tier v]?
  | 0x2 => [9, 11, 13][tier v]?
  | 0x4 => [8, 16, 16][tier v]?
  | 0x8 => [8, 10, 12][tier v]?
  | 0x7 => some 0
  | _ => none

/-- ECC codewords per block at level L (R218), versions 1 to 40. -/
def eccRowL : List Nat :=
  [7, 10, 15, 20, 26, 18, 20, 24, 30, 18, 20, 24, 26, 30, 22, 24, 28, 30, 28, 28]
  ++ [28, 28, 30, 30, 26, 28, 30, 30, 30, 30, 30, 30, 30, 30, 30, 30, 30, 30, 30, 30]

/-- ECC codewords per block at level M (R218), versions 1 to 40. -/
def eccRowM : List Nat :=
  [10, 16, 26, 18, 24, 16, 18, 22, 22, 26, 30, 22, 22, 24, 24, 28, 28, 26, 26, 26]
  ++ [26, 28, 28, 28, 28, 28, 28, 28, 28, 28, 28, 28, 28, 28, 28, 28, 28, 28, 28, 28]

/-- ECC codewords per block at level Q (R218), versions 1 to 40. -/
def eccRowQ : List Nat :=
  [13, 22, 18, 26, 18, 24, 18, 22, 20, 24, 28, 26, 24, 20, 30, 24, 28, 28, 26, 30]
  ++ [28, 30, 30, 30, 30, 28, 30, 30, 30, 30, 30, 30, 30, 30, 30, 30, 30, 30, 30, 30]

/-- ECC codewords per block at level H (R218), versions 1 to 40. -/
def eccRowH : List Nat :=
  [17, 28, 22, 16, 22, 28, 26, 26, 24, 28, 24, 28, 22, 24, 24, 30, 28, 28, 26, 28]
  ++ [30, 24, 30, 30, 30, 30, 30, 30, 30, 30, 30, 30, 30, 30, 30, 30, 30, 30, 30, 30]

/-- Number of error-correction blocks at level L (R218), versions 1 to 40. -/
def blocksRowL : List Nat :=
  [1, 1, 1, 1, 1, 2, 2, 2, 2, 4, 4, 4, 4, 4, 6, 6, 6, 6, 7, 8]
  ++ [8, 9, 9, 10, 12, 12, 12, 13, 14, 15, 16, 17, 18, 19, 19, 20, 21, 22, 24, 25]

/-- Number of error-correction blocks at level M (R218), versions 1 to 40. -/
def blocksRowM : List Nat :=
  [1, 1, 1, 2, 2, 4, 4, 4, 5, 5, 5, 8, 9, 9, 10, 10, 11, 13, 14, 16]
  ++ [17, 17, 18, 20, 21, 23, 25, 26, 28, 29, 31, 33, 35, 37, 38, 40, 43, 45, 47, 49]

/-- Number of error-correction blocks at level Q (R218), versions 1 to 40. -/
def blocksRowQ : List Nat :=
  [1, 1, 2, 2, 4, 4, 6, 6, 8, 8, 8, 10, 12, 16, 12, 17, 16, 18, 21, 20]
  ++ [23, 23, 25, 27, 29, 34, 34, 35, 38, 40, 43, 45, 48, 51, 53, 56, 59, 62, 65, 68]

/-- Number of error-correction blocks at level H (R218), versions 1 to 40. -/
def blocksRowH : List Nat :=
  [1, 1, 2, 4, 4, 4, 5, 6, 8, 8, 11, 11, 16, 16, 18, 16, 19, 21, 25, 25]
  ++ [25, 34, 30, 32, 35, 37, 40, 42, 45, 48, 51, 54, 57, 60, 63, 66, 70, 74, 77, 81]

/-- Entry `v` of a row whose entries start at version 1 (R211). -/
def rowEntry (row : List Nat) (v : Nat) : Nat := row.getD (v - 1) 0

/-- `ECC(level, v)` (R214). -/
def eccPerBlock (level v : Nat) : Nat :=
  match level with
  | 0 => rowEntry eccRowL v
  | 1 => rowEntry eccRowM v
  | 2 => rowEntry eccRowQ v
  | _ => rowEntry eccRowH v

/-- `NB(level, v)` (R215). -/
def numBlocks (level v : Nat) : Nat :=
  match level with
  | 0 => rowEntry blocksRowL v
  | 1 => rowEntry blocksRowM v
  | 2 => rowEntry blocksRowQ v
  | _ => rowEntry blocksRowH v

/-- The number of alignment positions per axis of a version from 2 on (R216, R272). -/
def alignCount (v : Nat) : Nat := v / 7 + 2

/-- `rawDataModules(v)` (R216). -/
def rawDataModules (v : Nat) : Nat :=
  let r := (16 * v + 128) * v + 64
  if v ≥ 2 then
    let r := r - ((25 * alignCount v - 10) * alignCount v - 55)
    if v ≥ 7 then r - 36 else r
  else r

/-- `rawCodewords(v)` (R216). -/
def rawCodewords (v : Nat) : Nat := rawDataModules v / 8

/-- `dataCodewords(v, level)` (R217). -/
def dataCodewords (v level : Nat) : Nat := rawCodewords v - eccPerBlock level v * numBlocks level v

/-- The capacity in bits of a version and level (R217). -/
def capacityBits (v level : Nat) : Nat := dataCodewords v level * 8

/-- The step between alignment positions (R272). -/
def alignStep (v : Nat) : Nat :=
  if v = 32 then 26 else ((4 * v + 2 * alignCount v + 1) / (2 * alignCount v - 2)) * 2

/-- `alignPositions(v)` (R272). -/
def alignPositions (v : Nat) : List Nat :=
  if v = 1 then []
  else 6 :: (List.range' 1 (alignCount v - 1)).map fun i =>
    (4 * v + 10) - (alignCount v - 1 - i) * alignStep v

end Sys2Proof.Machine
end

