-- ==== Sys2Proof/Machine/Bitstream.lean ====
section
/-! DEFINITION. The capacity negotiator, bitstream packer and padding engine, and the table queries
(spec/43_bitstream.md). -/

namespace Sys2Proof.Machine

/-! ### Capacity negotiation -/

/-- `totalBits(S, v)` (R219), `t` bits counted so far. A MODE that is no mode indicator has no count field (R213); no
valid descriptor holds one (assumption 10). -/
def totalBitsFrom (v : Nat) : Nat → List SegDesc → Option Nat
  | t, [] => some t
  | t, d :: rest =>
    match ccb d.mode.toNat v with
    | none => none
    | some c =>
      if 2 ^ c - 1 < d.numChars.toNat then none
      else if Config.segBitsMax < t + 4 + c + d.bitLen.toNat then none
      else totalBitsFrom v (t + 4 + c + d.bitLen.toNat) rest

/-- `totalBits(S, v)` (R219). -/
def totalBits (segs : List SegDesc) (v : Nat) : Option Nat := totalBitsFrom v 0 segs

/-- The loop of R221 over the levels still to try, in order: it stops at the first that does not fit. -/
def boostLoop (t v : Nat) : Nat → List Nat → Nat
  | e, [] => e
  | e, n :: rest => if t ≤ capacityBits v n then boostLoop t v n rest else e

/-- The levels R221 tries, Medium upward and above the request: `max(1, ecl+1)` to 3. -/
def boostLevels (ecl : Nat) : List Nat := List.range' (max 1 (ecl + 1)) (4 - max 1 (ecl + 1))

/-- `boost_ecl(t, v, ecl, boost)` (R221). -/
def boostEcl (t v ecl : Nat) (boost : Bool) : Nat :=
  if boost then boostLoop t v ecl (boostLevels ecl) else ecl

/-- The total bits at `v` when they fit the requested level (R220). -/
def fitsAt (segs : List SegDesc) (ecl v : Nat) : Option Nat :=
  match totalBits segs v with
  | none => none
  | some t => if t ≤ capacityBits v ecl then some t else none

/-- The loop of R220 over the versions still to try, in order. -/
def negotiateLoop (segs : List SegDesc) (ecl : Nat) (boost : Bool) : List Nat → Option (Nat × Nat × Nat)
  | [] => none
  | v :: rest =>
    match fitsAt segs ecl v with
    | some t => some (v, boostEcl t v ecl boost, t)
    | none => negotiateLoop segs ecl boost rest

/-- `negotiate(S, ecl, vmin, vmax, boost)` (R220): version, level after boost, total bits. -/
def negotiate (segs : List SegDesc) (ecl vmin vmax : Nat) (boost : Bool) : Option (Nat × Nat × Nat) :=
  negotiateLoop segs ecl boost (List.range' vmin (vmax + 1 - vmin))

/-- Negotiation for the segment table under CFG (R230, R340 step 1). -/
def State.negotiated (s : State) : Option (Nat × Nat × Nat) :=
  negotiate s.segs s.cfg.ecl.toNat s.cfg.minVer.toNat s.cfg.maxVer.toNat s.cfg.boost

/-! ### Assembly -/

/-- A segment's header and data bits (R222). -/
def State.segStream (s : State) (v : Nat) (d : SegDesc) : List Bool :=
  bitsOf d.mode.toNat 4 ++ bitsOf d.numChars.toNat ((ccb d.mode.toNat v).getD 0) ++ s.segDataBits d

/-- Concatenation (R222). -/
def State.stream (s : State) (v : Nat) : List Bool := s.segs.flatMap (s.segStream v)

/-- Zero bits. -/
def zeroBits (n : Nat) : List Bool := List.replicate n false

/-- Terminator and byte padding (R223): at most four zero bits, as the capacity allows, then zeros to the next byte
boundary. -/
def terminate (cap : Nat) (b : List Bool) : List Bool :=
  let t := b ++ zeroBits (min 4 (cap - b.length))
  t ++ zeroBits ((8 - t.length % 8) % 8)

/-- The first `n` pad codewords, alternately 0xEC and 0x11, the next one being `p` (R224). -/
def padCodewords : Nat → Byte → List Byte
  | 0, _ => []
  | n + 1, p => p :: padCodewords n (p ^^^ 0xFD)

/-- `assemble(S, v, e)` on a concatenated stream (R225): whole bytes, then pad codewords until the capacity. -/
def assembleBytes (v e : Nat) (stream : List Bool) : List Byte :=
  let b := terminate (capacityBits v e) stream
  packBytes (b.length / 8) b ++ padCodewords (dataCodewords v e - b.length / 8) 0xEC

/-- `DATABUF[0 .. dataCodewords(v,e)-1] <- assemble(S, v, e)` (R231, R340 step 2). -/
def State.assembleInto (s : State) (v e : Nat) : State :=
  s.setMem (s.mem.writeBytes Config.databufBase (assembleBytes v e (s.stream v)))

/-! ### Commands -/

/-- NEGOT (R230). On success RESULT.MASK keeps its value: R230 says so, and R405, which says that NEGOT rewrites RESULT
whole, says otherwise; that R230 decides is a DESIGN CHOICE (assumption 19). -/
def execNegot (s : State) : Answer :=
  .next (s.checked [cfgVersionCheck s, cfgOrderCheck s, tableFilledCheck s] fun s =>
    match s.negotiated with
    | none => ((s.setResult { version := 0, ecl := 0, mask := 0, size := 0 }).setRes 0 0).notEncodable .noFit
    | some (v, e, t) =>
      ((s.setResult
        { version := BitVec.ofNat 6 v
          ecl := BitVec.ofNat 2 e
          mask := s.result.mask
          size := BitVec.ofNat 8 (side v) }).setRes
        (BitVec.ofNat 32 t) (BitVec.ofNat 32 (capacityBits v e))).complete)

/-- ASSEMBLE (R231). -/
def execAssemble (v e : Nat) (s : State) : Answer :=
  .next (s.checked [versionCheck v, eclCheck e, tableFilledCheck s] fun s =>
    match fitsAt s.segs e v with
    | none => s.notEncodable .noFit
    | some t => ((s.assembleInto v e).setRes (BitVec.ofNat 32 t) (BitVec.ofNat 32 (capacityBits v e))).complete)

/-- CCBQ (R232). -/
def execCcbq (m v : Nat) (s : State) : Answer :=
  .next (s.checked [modeCheck m, versionCheck v] fun s =>
    (s.setRes0 (BitVec.ofNat 32 ((ccb m v).getD 0))).complete)

/-- TBLQ (R233). -/
def execTblq (v e : Nat) (s : State) : Answer :=
  .next (s.checked [versionCheck v, eclCheck e] fun s =>
    (s.setRes
      (BitVec.ofNat 32 (dataCodewords v e ||| rawCodewords v <<< 16))
      (BitVec.ofNat 32 (eccPerBlock e v ||| numBlocks e v <<< 8 ||| bufLen v <<< 16))).complete)

/-- ALIGNQ (R234). -/
def execAlignq (v : Nat) (s : State) : Answer :=
  .next (s.checked [versionCheck v] fun s =>
    let q := fun i => (alignPositions v).getD i 0
    (s.setRes
      (BitVec.ofNat 32 (q 0 ||| q 1 <<< 8 ||| q 2 <<< 16 ||| q 3 <<< 24))
      (BitVec.ofNat 32 (q 4 ||| q 5 <<< 8 ||| q 6 <<< 16 ||| (alignPositions v).length <<< 24))).complete)

end Sys2Proof.Machine
end

