-- ==== Sys2Proof/Machine/Control.lean ====
section
/-! DEFINITION. The control command of spec/40_control.md. -/

namespace Sys2Proof.Machine

/-- NOP (R153): only the completion updates. -/
def execNop (s : State) : Answer := .next s.complete

end Sys2Proof.Machine
end

