-- ==== Sys2Proof/Machine/Gf.lean ====
section
/-! DEFINITION. The GF(256) multiplier and the Reed-Solomon codeword generator (spec/41_gf_rs.md). -/

namespace Sys2Proof.Machine

/-- `((z << 1) ^ ((z >> 7) * 0x11D))[7:0]`, the reduction step of R160. -/
def gfDouble (z : Byte) : Byte :=
  ((z.setWidth 9 <<< 1) ^^^ ((z >>> 7).setWidth 9 * 0x11D#9)).setWidth 8

/-- `gf_mul(x, y)` (R160), scanning `y` from its most significant bit. -/
def gfMul (x y : Byte) : Byte :=
  (List.range 8).foldl (fun z k => gfDouble z ^^^ (if y.getLsbD (7 - k) then x else 0)) 0

/-- One round of R162's in-place loop: every coefficient is multiplied by `root`, and the old next coefficient is
added. -/
def divisorRound (root : Byte) : List Byte → List Byte
  | [] => []
  | [c] => [gfMul c root]
  | c :: c' :: rest => (gfMul c root ^^^ c') :: divisorRound root (c' :: rest)

/-- `n` rounds of R162's outer loop, the root advancing by 0x02 each time. -/
def divisorRounds : Nat → Byte → List Byte → List Byte
  | 0, _, g => g
  | n + 1, root, g => divisorRounds n (gfMul root 0x02) (divisorRound root g)

/-- `rs_divisor(d)` (R162): the generator's coefficients, highest first, without the leading 1. -/
def rsDivisor (d : Nat) : List Byte := divisorRounds d 0x01 (List.replicate (d - 1) 0 ++ [1])

/-- One data byte of R164's loop: the remainder shifts by one coefficient and the factor's multiple of the generator
is subtracted. -/
def remainderStep (g r : List Byte) (b : Byte) : List Byte :=
  let factor := b ^^^ r.headD 0
  List.zipWith (fun rj gj => rj ^^^ gfMul gj factor) (r.tail ++ [0]) g

/-- `rs_remainder(data, n, g, d)` (R164), with `n` and `d` the lengths of the two lists. -/
def rsRemainder (data g : List Byte) : List Byte :=
  data.foldl (remainderStep g) (List.replicate g.length 0)

/-- GFMUL (R166). -/
def execGfmul (x y : Byte) (s : State) : Answer :=
  .next (s.setRes0 ((gfMul x y).setWidth 32)).complete

/-- RSDIV (R167). -/
def execRsdiv (d : Nat) (s : State) : Answer :=
  .next (s.checked [degreeCheck d] fun s => (s.setGen (padTo30 (rsDivisor d))).complete)

/-- RSREM (R168): GEN is used as it stands (R401). -/
def execRsrem (d : Nat) (s : State) : Answer :=
  .next (s.checked [degreeCheck d, databufRangeCheck s] fun s =>
    (s.setRem (padTo30 (rsRemainder (s.databuf s.arg0.toNat s.arg1.toNat) (s.gen.toList.take d)))).complete)

end Sys2Proof.Machine
end

