-- ==== Sys2Proof/Machine/Interleave.lean ====
section
/-! DEFINITION. The ECC block interleaver (spec/44_ecc_interleave.md). -/

namespace Sys2Proof.Machine

/-- `numShortBlocks` (R250). -/
def numShortBlocks (v e : Nat) : Nat := numBlocks e v - rawCodewords v % numBlocks e v

/-- `shortBlockDataLen` (R250). -/
def shortBlockDataLen (v e : Nat) : Nat := rawCodewords v / numBlocks e v - eccPerBlock e v

/-- `dl(i)` (R250): the number of data bytes of block `i`. -/
def blockDataLen (v e i : Nat) : Nat := shortBlockDataLen v e + (if i < numShortBlocks v e then 0 else 1)

/-- Consecutive slices of the given lengths (R250). -/
def slices : List Nat → List Byte → List (List Byte)
  | [], _ => []
  | n :: ns, data => data.take n :: slices ns (data.drop n)

/-- The data bytes of every block (R250). -/
def dataBlocks (v e : Nat) (data : List Byte) : List (List Byte) :=
  slices ((List.range (numBlocks e v)).map (blockDataLen v e)) data

/-- The ECC bytes of every block, one generator serving all of them (R251). -/
def eccBlocks (v e : Nat) (data : List Byte) : List (List Byte) :=
  let g := rsDivisor (eccPerBlock e v)
  (dataBlocks v e data).map fun block => rsRemainder block g

/-- Byte `j` of each block in turn, a block that has none being skipped, for `j < n` (R252). -/
def roundRobin (n : Nat) (blocks : List (List Byte)) : List Byte :=
  (List.range n).flatMap fun j => blocks.filterMap fun block => block[j]?

/-- The interleaved codeword sequence (R252, R254). -/
def interleaved (v e : Nat) (data : List Byte) : List Byte :=
  roundRobin (shortBlockDataLen v e + 1) (dataBlocks v e data)
    ++ roundRobin (eccPerBlock e v) (eccBlocks v e data)

/-- The last block's remainder (R254). -/
def lastRemainder (v e : Nat) (data : List Byte) : List Byte := (eccBlocks v e data).getLastD []

/-- CWBUF, GEN and REM as INTERLEAVE leaves them (R255, R340 step 3). -/
def State.interleaveInto (s : State) (v e : Nat) : State :=
  let data := s.databuf 0 (dataCodewords v e)
  ((s.setMem (s.mem.writeBytes Config.cwbufBase (interleaved v e data))).setGen
    (padTo30 (rsDivisor (eccPerBlock e v)))).setRem (padTo30 (lastRemainder v e data))

/-- INTERLEAVE (R255). -/
def execInterleave (v e : Nat) (s : State) : Answer :=
  .next (s.checked [versionCheck v, eclCheck e] fun s => (s.interleaveInto v e).complete)

end Sys2Proof.Machine
end

