-- ==== Sys2Proof/Machine/Matrix.lean ====
section
/-! DEFINITION. The module matrix builder (spec/45_matrix.md).

The module bytes of MATRIX or FUNCMAP (all but the size byte) are read as one number, least significant byte first
(R14), so that module index `n = y*size + x` is bit `n` of it: bit `n % 8` of byte `1 + n/8` of the buffer (R270). -/

namespace Sys2Proof.Machine

/-- The module bits of a packed matrix: bit `n` is the module of index `n`. -/
abbrev Modules := Nat

/-- The module index of R270. -/
def moduleIndex (size x y : Nat) : Nat := y * size + x

/-- `isDark(M, x, y)` (R270). -/
def isDark (m : Modules) (size x y : Nat) : Bool := m.testBit (moduleIndex size x y)

/-- `m` with bit `n` set to `c`. -/
def setBitTo (m n : Nat) (c : Bool) : Nat := if m.testBit n = c then m else m ^^^ (1 <<< n)

/-- `setModule(M, x, y, c)` (R270). -/
def setModule (size : Nat) (m : Modules) (x y : Nat) (c : Bool) : Modules := setBitTo m (moduleIndex size x y) c

/-- One module write: column, row, colour. -/
abbrev ModuleWrite := Nat × Nat × Bool

/-- Module writes in order. -/
def draw (size : Nat) (m : Modules) (ws : List ModuleWrite) : Modules :=
  ws.foldl (fun m w => setModule size m w.1 w.2.1 w.2.2) m

/-- The coordinates of a rectangle, row by row. -/
def rect (left top width height : Nat) : List (Nat × Nat) :=
  (List.range height).flatMap fun dy => (List.range width).map fun dx => (left + dx, top + dy)

/-- Every module of the grid, row by row. -/
def allModules (size : Nat) : List (Nat × Nat) := rect 0 0 size size

/-- `fill(l, t, w, h)` (R274): every module of the rectangle turns dark. -/
def fill (size : Nat) (m : Modules) (r : Nat × Nat × Nat × Nat) : Modules :=
  draw size m ((rect r.1 r.2.1 r.2.2.1 r.2.2.2).map fun p => (p.1, p.2, true))

/-! ### Function patterns -/

/-- The alignment-pattern centres that are drawn (R273, R274): every pair of positions but the three in a finder
corner. -/
def alignCentres (v : Nat) : List (Nat × Nat) :=
  let p := alignPositions v
  let na := p.length
  (List.range na).flatMap fun i => (List.range na).filterMap fun j =>
    if (i = 0 ∧ j = 0) ∨ (i = 0 ∧ j = na - 1) ∨ (i = na - 1 ∧ j = 0) then none
    else some (p.getD i 0, p.getD j 0)

/-- The function regions of R273 as rectangles (left, top, width, height), in the order of R274. -/
def functionRects (v : Nat) : List (Nat × Nat × Nat × Nat) :=
  [(6, 0, 1, side v), (0, 6, side v, 1), (0, 0, 9, 9), (side v - 8, 0, 8, 9), (0, side v - 8, 9, 8)]
  ++ (alignCentres v).map (fun c => (c.1 - 2, c.2 - 2, 5, 5))
  ++ if v ≥ 7 then [(side v - 11, 0, 3, 6), (0, side v - 11, 6, 3)] else []

/-- The module bits of `minit(v)` (R274). -/
def minitModules (v : Nat) : Modules := (functionRects v).foldl (fill (side v)) 0

/-! ### Codeword placement -/

/-- The right columns of the pairs of R275, in order, from `right` on; `fuel` bounds their number. -/
def rightColumns : Nat → Nat → List Nat
  | 0, _ => []
  | fuel + 1, right =>
    if right ≥ 1 then
      let r := if right = 6 then 5 else right
      r :: rightColumns fuel (r - 2)
    else []

/-- R275: a pair is scanned from the bottom row up when `((right+1) & 2) = 0`. -/
def scansUpward (right : Nat) : Bool := (right + 1) &&& 2 == 0

/-- The modules of one column pair in scan order, the right column first in each row (R275). -/
def columnPair (size right : Nat) : List (Nat × Nat) :=
  (List.range size).flatMap fun vert => (List.range 2).map fun j =>
    (right - j, if scansUpward right then size - 1 - vert else vert)

/-- The zigzag order of R275. -/
def zigzag (size : Nat) : List (Nat × Nat) := (rightColumns size (size - 1)).flatMap (columnPair size)

/-- The loop of R275: each module that FUNCMAP does not mark takes the next bit, while there is one. -/
def placeBits (size : Nat) (f : Modules) : Modules → List (Nat × Nat) → List Bool → Modules
  | m, [], _ => m
  | m, (x, y) :: rest, bits =>
    if isDark f size x y then placeBits size f m rest bits
    else match bits with
      | [] => m
      | b :: bs => placeBits size f (setModule size m x y b) rest bs

/-- `mplace(M, F, cw, n)` (R275). -/
def mplaceModules (size : Nat) (m f : Modules) (cw : List Byte) : Modules :=
  placeBits size f m (zigzag size) (unpackBytes cw)

/-! ### Light parts and version information -/

/-- One round of the BCH reduction of R276. -/
def versionBchRound (r : Nat) : Nat := (r <<< 1) ^^^ ((r >>> 11) * 0x1F25)

/-- `version_bits(v)` (R276). -/
def versionBits (v : Nat) : Nat :=
  (v <<< 12) ||| (List.range 12).foldl (fun r _ => versionBchRound r) v

/-- The light timing modules of R277. -/
def timingWrites (size : Nat) : List ModuleWrite :=
  (List.range size).flatMap fun i =>
    if 7 ≤ i ∧ i < size - 7 ∧ i % 2 = 1 then [(6, i, false), (i, 6, false)] else []

/-- The distance of two numbers. -/
def dist (a b : Nat) : Nat := if a ≤ b then b - a else a - b

/-- The light ring and separator of the finder centred on `(cx, cy)` (R277): distances 2 and 4, inside the grid. -/
def finderWrites (size cx cy : Nat) : List ModuleWrite :=
  (allModules size).filterMap fun p =>
    let d := max (dist cx p.1) (dist cy p.2)
    if d = 2 ∨ d = 4 then some (p.1, p.2, false) else none

/-- The ring and centre of the alignment pattern centred on `c` (R277). -/
def alignWrites (c : Nat × Nat) : List ModuleWrite :=
  (rect (c.1 - 1) (c.2 - 1) 3 3).map fun p => (p.1, p.2, p.1 == c.1 && p.2 == c.2)

/-- The two copies of the version information (R277), for `v ≥ 7`. -/
def versionWrites (v : Nat) : List ModuleWrite :=
  if v ≥ 7 then
    (List.range 6).flatMap fun i => (List.range 3).flatMap fun j =>
      let k := side v - 11 + j
      let b := (versionBits v).testBit (3 * i + j)
      [(k, i, b), (i, k, b)]
  else []

/-- Every write of `mlight(M, v)` in order (R277). -/
def lightWrites (v : Nat) : List ModuleWrite :=
  timingWrites (side v)
  ++ finderWrites (side v) 3 3 ++ finderWrites (side v) (side v - 4) 3 ++ finderWrites (side v) 3 (side v - 4)
  ++ (alignCentres v).flatMap alignWrites
  ++ versionWrites v

/-- `mlight(M, v)` (R277). -/
def mlightModules (v : Nat) (m : Modules) : Modules := draw (side v) m (lightWrites v)

/-! ### The buffers -/

/-- The number of module bytes of a version, the size byte not counted (R271). -/
def moduleBytes (v : Nat) : Nat := bufLen v - 1

/-- The module bits of MATRIX for version `v`. -/
def State.matrix (s : State) (v : Nat) : Modules := s.mem.readLE (Config.matrixBase + 1) (moduleBytes v)

/-- The module bits of FUNCMAP for version `v`. -/
def State.funcmap (s : State) (v : Nat) : Modules := s.mem.readLE (Config.funcmapBase + 1) (moduleBytes v)

/-- Stores module bits in MATRIX. -/
def State.setMatrix (s : State) (v : Nat) (m : Modules) : State :=
  s.setMem (s.mem.writeLE (Config.matrixBase + 1) (moduleBytes v) m)

/-- A buffer with the bytes of `minit(v)`: the size byte, then the module bytes (R280). -/
def Memory.writeMinit (m : Memory) (base v : Nat) : Memory :=
  (m.write base (BitVec.ofNat 8 (side v))).writeLE (base + 1) (moduleBytes v) (minitModules v)

/-- MATRIX and FUNCMAP as MINIT leaves them (R280, R340 step 4). -/
def State.minitInto (s : State) (v : Nat) : State :=
  s.setMem ((s.mem.writeMinit Config.matrixBase v).writeMinit Config.funcmapBase v)

/-- MATRIX as MPLACE leaves it (R281, R340 step 5). -/
def State.mplaceInto (s : State) (v : Nat) : State :=
  s.setMatrix v (mplaceModules (side v) (s.matrix v) (s.funcmap v) (s.cwbuf (rawCodewords v)))

/-- MATRIX as MLIGHT leaves it (R282, R340 step 6). -/
def State.mlightInto (s : State) (v : Nat) : State := s.setMatrix v (mlightModules v (s.matrix v))

/-! ### Commands -/

/-- MINIT (R280). -/
def execMinit (v : Nat) (s : State) : Answer :=
  .next (s.checked [versionCheck v] fun s => (s.minitInto v).complete)

/-- MPLACE (R281). -/
def execMplace (s : State) : Answer :=
  .next (s.checked [matrixPairCheck s] fun s => (s.mplaceInto s.matrixVersion).complete)

/-- MLIGHT (R282). -/
def execMlight (s : State) : Answer :=
  .next (s.checked [matrixCheck s] fun s => (s.mlightInto s.matrixVersion).complete)

end Sys2Proof.Machine
end

