-- ==== Sys2Proof/Machine/Mask.lean ====
section
/-! DEFINITION. The mask scorer and selector (spec/46_mask.md). -/

namespace Sys2Proof.Machine

/-! ### Masks -/

/-- `invert_m(x, y)` (R300). A mask is 0 to 7; every command checks it first. -/
def invert (m x y : Nat) : Bool :=
  match m with
  | 0 => (x + y) % 2 == 0
  | 1 => y % 2 == 0
  | 2 => x % 3 == 0
  | 3 => (x + y) % 3 == 0
  | 4 => (x / 3 + y / 2) % 2 == 0
  | 5 => (x * y) % 2 + (x * y) % 3 == 0
  | 6 => ((x * y) % 2 + (x * y) % 3) % 2 == 0
  | 7 => ((x + y) % 2 + (x * y) % 3) % 2 == 0
  | _ => false

/-- One module of `apply_mask` (R301). -/
def maskModule (size : Nat) (f : Modules) (k : Nat) (m : Modules) (p : Nat × Nat) : Modules :=
  if !isDark f size p.1 p.2 && invert k p.1 p.2 then setModule size m p.1 p.2 (!isDark m size p.1 p.2) else m

/-- `apply_mask(M, F, k)` (R301). -/
def applyMask (size : Nat) (m f : Modules) (k : Nat) : Modules :=
  (allModules size).foldl (maskModule size f k) m

/-! ### Format information -/

/-- R302: the 2-bit remap `{1, 0, 3, 2}` of an ECC level code. -/
def eclRemap (e : Nat) : Nat :=
  match e with
  | 0 => 1
  | 1 => 0
  | 2 => 3
  | _ => 2

/-- One round of the BCH reduction of R302. -/
def formatBchRound (r : Nat) : Nat := (r <<< 1) ^^^ ((r >>> 9) * 0x537)

/-- `format_bits(e, m)` (R302). -/
def formatBits (e m : Nat) : Nat :=
  let data := (eclRemap e <<< 3) ||| m
  ((data <<< 10) ||| (List.range 10).foldl (fun r _ => formatBchRound r) data) ^^^ 0x5412

/-- Every write of `draw_format(M, e, m)` in order, for the format value `f` (R303). -/
def formatWrites (size f : Nat) : List ModuleWrite :=
  (List.range 6).map (fun i => (8, i, f.testBit i))
  ++ [(8, 7, f.testBit 6), (8, 8, f.testBit 7), (7, 8, f.testBit 8)]
  ++ (List.range' 9 6).map (fun i => (14 - i, 8, f.testBit i))
  ++ (List.range 8).map (fun i => (size - 1 - i, 8, f.testBit i))
  ++ (List.range' 8 7).map (fun i => (8, size - 15 + i, f.testBit i))
  ++ [(8, size - 8, true)]

/-- `draw_format(M, e, m)` (R303). -/
def drawFormat (size : Nat) (m : Modules) (e k : Nat) : Modules := draw size m (formatWrites size (formatBits e k))

/-! ### Penalty score -/

/-- The 7-entry run-length history of R307, `h0` the newest. -/
structure History where
  h0 : Nat
  h1 : Nat
  h2 : Nat
  h3 : Nat
  h4 : Nat
  h5 : Nat
  h6 : Nat
  deriving DecidableEq, Repr

/-- `push(r)` (R307): the first push of a line adds the light border before the line. -/
def History.push (h : History) (size r : Nat) : History where
  h0 := if h.h0 = 0 then r + size else r
  h1 := h.h0
  h2 := h.h1
  h3 := h.h2
  h4 := h.h3
  h5 := h.h4
  h6 := h.h5

/-- `core` of R307. -/
def History.core (h : History) : Bool :=
  decide (h.h1 > 0) && h.h2 == h.h1 && h.h3 == 3 * h.h1 && h.h4 == h.h1 && h.h5 == h.h1

/-- `count()` (R307). -/
def History.count (h : History) : Nat :=
  (if h.core && decide (h.h0 ≥ 4 * h.h1) && decide (h.h6 ≥ h.h1) then 1 else 0)
  + (if h.core && decide (h.h6 ≥ 4 * h.h1) && decide (h.h0 ≥ h.h1) then 1 else 0)

/-- The running values of one line scan (R307). -/
structure Scan where
  color : Bool
  run : Nat
  hist : History
  n1 : Nat
  n3 : Nat
  deriving DecidableEq, Repr

/-- The start of a line: inside a light run of length 0 (R307). -/
def Scan.start : Scan where
  color := false
  run := 0
  hist := ⟨0, 0, 0, 0, 0, 0, 0⟩
  n1 := 0
  n3 := 0

/-- One module of the line scan (R305, R307). -/
def Scan.step (size : Nat) (sc : Scan) (c : Bool) : Scan :=
  if c = sc.color then
    { sc with
      run := sc.run + 1
      n1 := sc.n1 + (if sc.run + 1 = 5 then 3 else if sc.run + 1 > 5 then 1 else 0) }
  else
    { sc with
      hist := sc.hist.push size sc.run
      n3 := sc.n3 + (if sc.color then 0 else 40 * (sc.hist.push size sc.run).count)
      color := c
      run := 1 }

/-- The end of a line (R307): a final dark run is closed, and the light border follows. -/
def Scan.terminate (size : Nat) (sc : Scan) : Scan :=
  let hist := if sc.color then sc.hist.push size sc.run else sc.hist
  let run := if sc.color then 0 else sc.run
  let hist := hist.push size (run + size)
  { sc with hist := hist, n3 := sc.n3 + 40 * hist.count }

/-- `scan_line(c)` (R307): what one line adds to N1 and N3. -/
def scanLine (size : Nat) (line : List Bool) : Nat × Nat :=
  let sc := (line.foldl (Scan.step size) Scan.start).terminate size
  (sc.n1, sc.n3)

/-- Row `y`, left to right. -/
def rowLine (m : Modules) (size y : Nat) : List Bool := (List.range size).map fun x => isDark m size x y

/-- Column `x`, top to bottom. -/
def colLine (m : Modules) (size x : Nat) : List Bool := (List.range size).map fun y => isDark m size x y

/-- The scans of every row and every column (R307). -/
def lineScores (m : Modules) (size : Nat) : List (Nat × Nat) :=
  (List.range size).map (fun y => scanLine size (rowLine m size y))
  ++ (List.range size).map (fun x => scanLine size (colLine m size x))

/-- N1 (R305). -/
def penaltyN1 (m : Modules) (size : Nat) : Nat := ((lineScores m size).map Prod.fst).sum

/-- N3 (R307). -/
def penaltyN3 (m : Modules) (size : Nat) : Nat := ((lineScores m size).map Prod.snd).sum

/-- R306: the 2×2 block at `(x, y)` has one colour. -/
def uniformBlock (m : Modules) (size x y : Nat) : Bool :=
  isDark m size x y == isDark m size (x + 1) y && isDark m size x y == isDark m size x (y + 1)
    && isDark m size x y == isDark m size (x + 1) (y + 1)

/-- N2 (R306). -/
def penaltyN2 (m : Modules) (size : Nat) : Nat :=
  3 * (rect 0 0 (size - 1) (size - 1)).countP fun p => uniformBlock m size p.1 p.2

/-- `dark` of R308. -/
def darkCount (m : Modules) (size : Nat) : Nat := (allModules size).countP fun p => isDark m size p.1 p.2

/-- N4 (R308). -/
def penaltyN4 (m : Modules) (size : Nat) : Nat :=
  let total := size * size
  10 * ((dist (darkCount m size * 20) (total * 10) + total - 1) / total - 1)

/-- `penalty(M)` (R304). -/
def penaltyScore (m : Modules) (size : Nat) : Nat :=
  penaltyN1 m size + penaltyN2 m size + penaltyN3 m size + penaltyN4 m size

/-! ### Selection -/

/-- The running values of the Auto loop of R312: the lowest score so far (none stands for infinity), its mask, and the
matrix. -/
structure Trial where
  minp : Option Nat
  best : Nat
  m : Modules
  deriving DecidableEq, Repr

/-- One trial of R312's loop: mask, draw the format, score, keep on strict improvement only, undo the mask. -/
def Trial.step (size e : Nat) (f : Modules) (t : Trial) (k : Nat) : Trial :=
  let drawn := drawFormat size (applyMask size t.m f k) e k
  let p := penaltyScore drawn size
  let better := match t.minp with
    | none => true
    | some q => decide (p < q)
  { minp := if better then some p else t.minp
    best := if better then k else t.best
    m := applyMask size drawn f k }

/-- The Auto loop of R312 over masks 0 to 7. -/
def autoTrials (size e : Nat) (m f : Modules) : Trial :=
  (List.range 8).foldl (Trial.step size e f) { minp := none, best := 0, m := m }

/-- R312: PENALTY, RES0, RES1, RESULT.MASK and MATRIX as MSELECT leaves them for version `v` (R340 step 7). -/
def State.mselectInto (s : State) (v e sel : Nat) : State :=
  let f := s.funcmap v
  let finalMatrix := fun (m : Modules) (best : Nat) => drawFormat (side v) (applyMask (side v) m f best) e best
  if sel = 8 then
    let t := autoTrials (side v) e (s.matrix v) f
    let minp := BitVec.ofNat 32 (t.minp.getD 0)
    (((s.setMatrix v (finalMatrix t.m t.best)).setPenalty minp).setRes (BitVec.ofNat 32 t.best) minp).setResult
      { s.result with mask := BitVec.ofNat 3 t.best }
  else
    ((s.setMatrix v (finalMatrix (s.matrix v) sel)).setRes (BitVec.ofNat 32 sel) 0).setResult
      { s.result with mask := BitVec.ofNat 3 sel }

/-! ### Commands -/

/-- MASK (R310). -/
def execMask (k : Nat) (s : State) : Answer :=
  .next (s.checked [maskCheck k, matrixPairCheck s] fun s =>
    let v := s.matrixVersion
    (s.setMatrix v (applyMask (side v) (s.matrix v) (s.funcmap v) k)).complete)

/-- FORMAT (R313). -/
def execFormat (e k : Nat) (s : State) : Answer :=
  .next (s.checked [eclCheck e, maskCheck k, matrixCheck s] fun s =>
    let v := s.matrixVersion
    ((s.setMatrix v (drawFormat (side v) (s.matrix v) e k)).setRes0 (BitVec.ofNat 32 (formatBits e k))).complete)

/-- PENALTY (R311). -/
def execPenalty (s : State) : Answer :=
  .next (s.checked [matrixCheck s] fun s =>
    let v := s.matrixVersion
    let p := BitVec.ofNat 32 (penaltyScore (s.matrix v) (side v))
    ((s.setPenalty p).setRes p (BitVec.ofNat 32 (darkCount (s.matrix v) (side v)))).complete)

/-- MSELECT (R312). -/
def execMselect (e sel : Nat) (s : State) : Answer :=
  .next (s.checked [eclCheck e, selectorCheck sel, matrixPairCheck s] fun s =>
    (s.mselectInto s.matrixVersion e sel).complete)

end Sys2Proof.Machine
end

