-- ==== Sys2Proof/Machine/Segment.lean ====
section
/-! DEFINITION. The segment encoder and mode dispatcher (spec/42_segment.md). -/

namespace Sys2Proof.Machine

/-- The modes a command can build a segment in (R181; Kanji is unreachable, R8). -/
inductive SegMode where
  | numeric
  | alphanumeric
  | byte
  | eci
  deriving DecidableEq, Repr

/-- The mode indicator of R181. -/
def modeIndicator : SegMode → BitVec 4
  | .numeric => 0x1
  | .alphanumeric => 0x2
  | .byte => 0x4
  | .eci => 0x7

/-- R183: the ASCII digits. -/
def isDigit (b : Byte) : Bool := decide (0x30 ≤ b.toNat ∧ b.toNat ≤ 0x39)

/-- The 45 characters of R182 in order, as ASCII codes. -/
def alnumSet : List Nat :=
  [0x30, 0x31, 0x32, 0x33, 0x34, 0x35, 0x36, 0x37, 0x38, 0x39]
  ++ [0x41, 0x42, 0x43, 0x44, 0x45, 0x46, 0x47, 0x48, 0x49, 0x4A, 0x4B, 0x4C, 0x4D]
  ++ [0x4E, 0x4F, 0x50, 0x51, 0x52, 0x53, 0x54, 0x55, 0x56, 0x57, 0x58, 0x59, 0x5A]
  ++ [0x20, 0x24, 0x25, 0x2A, 0x2B, 0x2D, 0x2E, 0x2F, 0x3A]

/-- R182: membership in the alphanumeric set. -/
def isAlnum (b : Byte) : Bool := alnumSet.contains b.toNat

/-- R182: a character's value is its index in the set. -/
def alnumValue (b : Byte) : Nat := alnumSet.idxOf b.toNat

/-- R184: a digit's value. -/
def digitValue (b : Byte) : Nat := b.toNat - 0x30

/-- `auto_mode(p)` (R183). -/
def autoMode (p : List Byte) : SegMode :=
  if p.all isDigit then .numeric else if p.all isAlnum then .alphanumeric else .byte

/-- `pack_num(p)` (R184): groups of three digits in 10 bits, a last group of two in 7 or of one in 4. -/
def packNum : List Byte → List Bool
  | [] => []
  | [a] => bitsOf (digitValue a) 4
  | [a, b] => bitsOf (10 * digitValue a + digitValue b) 7
  | a :: b :: c :: rest => bitsOf (100 * digitValue a + 10 * digitValue b + digitValue c) 10 ++ packNum rest

/-- `pack_alnum(p)` (R185): groups of two characters in 11 bits, a last one in 6. -/
def packAlnum : List Byte → List Bool
  | [] => []
  | [a] => bitsOf (alnumValue a) 6
  | a :: b :: rest => bitsOf (45 * alnumValue a + alnumValue b) 11 ++ packAlnum rest

/-- `pack_byte(p)` (R186): 8 bits per byte, verbatim. -/
def packByte (p : List Byte) : List Bool := unpackBytes p

/-- `pack_eci(val)` (R187, conflict C3) for `val` below 1000000. -/
def packEci (val : Nat) : List Bool :=
  if val < 128 then bitsOf val 8
  else if val < 16384 then bitsOf 0b10 2 ++ bitsOf val 14
  else bitsOf 0b110 3 ++ bitsOf val 21

/-- R191: the bits of a payload range in the mode its bytes select. -/
def autoPack (p : List Byte) : List Bool :=
  if p.all isDigit then packNum p else if p.all isAlnum then packAlnum p else packByte p

/-- `seg_append(mode, nchars, s)` (R188, R189): the state with the segment appended, or none where the segment, or
SEGBUF with it, is too large. -/
def State.segAppend (s : State) (mode : SegMode) (nchars : Nat) (bits : List Bool) : Option State :=
  if Config.segBitsMax < bits.length then none
  else if Config.segbufBits < s.segBits.toNat + bits.length then none
  else
    let desc : SegDesc :=
      { mode := modeIndicator mode
        numChars := BitVec.ofNat 16 nchars
        bitLen := BitVec.ofNat 16 bits.length
        bitOff := s.segBits }
    some (((s.setMem (s.mem.writeBitsMsb Config.segbufBase s.segBits.toNat bits)).setSegTab
      (s.segTab.setIfInBounds s.segCnt.toNat desc)).setSegCounts (s.segCnt + 1)
      (s.segBits + BitVec.ofNat 16 bits.length))

/-- The end of a SEG command (R189): complete, or not encodable with nothing changed. -/
def State.segFinish (s : State) (mode : SegMode) (nchars : Nat) (bits : List Bool) : State :=
  match s.segAppend mode nchars bits with
  | some s' => s'.complete
  | none => s.notEncodable .segTooLarge

/-- Every byte of the payload range is a digit (R192). -/
def digitsCheck (s : State) : Check := ⟨s.argPayload.all isDigit, .badChar⟩

/-- Every byte of the payload range is in the alphanumeric set (R193). -/
def alnumCheck (s : State) : Check := ⟨s.argPayload.all isAlnum, .badChar⟩

/-- SEGCLR (R190). -/
def execSegclr (s : State) : Answer := .next (s.setSegCounts 0 0).complete

/-- SEGAUTO (R191). -/
def execSegauto (s : State) : Answer :=
  .next (s.checked [payloadRangeCheck s, tableRoomCheck s] fun s =>
    s.segFinish (autoMode s.argPayload) s.arg1.toNat (autoPack s.argPayload))

/-- SEGNUM (R192). -/
def execSegnum (s : State) : Answer :=
  .next (s.checked [payloadRangeCheck s, tableRoomCheck s, digitsCheck s] fun s =>
    s.segFinish .numeric s.arg1.toNat (packNum s.argPayload))

/-- SEGALNUM (R193). -/
def execSegalnum (s : State) : Answer :=
  .next (s.checked [payloadRangeCheck s, tableRoomCheck s, alnumCheck s] fun s =>
    s.segFinish .alphanumeric s.arg1.toNat (packAlnum s.argPayload))

/-- SEGBYTE (R194). -/
def execSegbyte (s : State) : Answer :=
  .next (s.checked [payloadRangeCheck s, tableRoomCheck s] fun s =>
    s.segFinish .byte s.arg1.toNat (packByte s.argPayload))

/-- SEGECI (R195). -/
def execSegeci (s : State) : Answer :=
  .next (s.checked [eciCheck s, tableRoomCheck s] fun s => s.segFinish .eci 0 (packEci s.arg0.toNat))

end Sys2Proof.Machine
end

