-- ==== Sys2Proof/Machine/Encode.lean ====
section
/-! DEFINITION. The whole-pipeline encoding commands (spec/47_encode.md). -/

namespace Sys2Proof.Machine

/-- Steps 2 to 7 of `encode_core` (R340): assemble, interleave, MINIT, MPLACE, MLIGHT and the mask selection, for the
negotiated version and level. -/
def State.buildSymbol (s : State) (v e : Nat) : State :=
  (((((s.assembleInto v e).interleaveInto v e).minitInto v).mplaceInto v).mlightInto v).mselectInto v e
    s.cfg.mask.toNat

/-- `encode_core(S)` and its outcome (R340, R345). On success RES1 is the capacity in bits whatever CFG.MASK is: step 8 of
R340 decides, and not D28, which says that an encode with an explicit mask sets RES1 to 0, a DESIGN CHOICE
(assumption 21). -/
def State.encodeCore (s : State) : State :=
  match s.negotiated with
  | none => s.failState.notEncodable .noFit
  | some (v, e, t) =>
    let built := s.buildSymbol v e
    ((built.setResult
      { version := BitVec.ofNat 6 v
        ecl := BitVec.ofNat 2 e
        mask := built.result.mask
        size := BitVec.ofNat 8 (side v) }).setRes
      (BitVec.ofNat 32 t) (BitVec.ofNat 32 (capacityBits v e))).complete

/-- The CFG checks every encoding command makes first (R341, R366). -/
def cfgChecks (s : State) : List Check := [cfgVersionCheck s, cfgOrderCheck s, cfgMaskCheck s]

/-- R342, R343: the table is cleared, the one segment appended, and the pipeline run. -/
def State.encodeSegment (s : State) (mode : SegMode) (nchars : Nat) (bits : List Bool) : State :=
  match (s.setSegCounts 0 0).segAppend mode nchars bits with
  | none => (s.setSegCounts 0 0).failState.notEncodable .segTooLarge
  | some s' => s'.encodeCore

/-- `PAYLOAD[0 .. PLEN-1]` (R342). -/
def State.plenPayload (s : State) : List Byte := s.payload 0 s.plen.toNat

/-- ENCSEG (R341). -/
def execEncseg (s : State) : Answer :=
  .next (s.checked (cfgChecks s ++ [tableFilledCheck s]) fun s => s.encodeCore)

/-- ENCTEXT (R342). -/
def execEnctext (s : State) : Answer :=
  .next (s.checked (cfgChecks s ++ [plenCheck s]) fun s =>
    s.encodeSegment (autoMode s.plenPayload) s.plen.toNat (autoPack s.plenPayload))

/-- ENCBIN (R343). -/
def execEncbin (s : State) : Answer :=
  .next (s.checked (cfgChecks s ++ [plenCheck s]) fun s =>
    s.encodeSegment .byte s.plen.toNat (packByte s.plenPayload))

end Sys2Proof.Machine
end

