-- ==== Sys2Proof/Machine/Dispatch.lean ====
section
/-! DEFINITION. One arm per command: each calls that command's meaning (spec/30_encoding.md R125). -/

namespace Sys2Proof.Machine

/-- The command's whole effect in its completion step (spec/40_control.md R151). -/
def exec (i : Instr) (s : State) : Host.Outcome State Fault Refusal :=
  match i with
  | .nop => Sys2Proof.Machine.execNop s
  | .gfmul x y => Sys2Proof.Machine.execGfmul x y s
  | .rsdiv d => Sys2Proof.Machine.execRsdiv d s
  | .rsrem d => Sys2Proof.Machine.execRsrem d s
  | .segclr => Sys2Proof.Machine.execSegclr s
  | .segauto => Sys2Proof.Machine.execSegauto s
  | .segnum => Sys2Proof.Machine.execSegnum s
  | .segalnum => Sys2Proof.Machine.execSegalnum s
  | .segbyte => Sys2Proof.Machine.execSegbyte s
  | .segeci => Sys2Proof.Machine.execSegeci s
  | .negot => Sys2Proof.Machine.execNegot s
  | .assemble v e => Sys2Proof.Machine.execAssemble v e s
  | .tblq v e => Sys2Proof.Machine.execTblq v e s
  | .alignq v => Sys2Proof.Machine.execAlignq v s
  | .ccbq m v => Sys2Proof.Machine.execCcbq m v s
  | .interleave v e => Sys2Proof.Machine.execInterleave v e s
  | .minit v => Sys2Proof.Machine.execMinit v s
  | .mplace => Sys2Proof.Machine.execMplace s
  | .mlight => Sys2Proof.Machine.execMlight s
  | .mask m => Sys2Proof.Machine.execMask m s
  | .format e m => Sys2Proof.Machine.execFormat e m s
  | .penalty => Sys2Proof.Machine.execPenalty s
  | .mselect e sel => Sys2Proof.Machine.execMselect e sel s
  | .encseg => Sys2Proof.Machine.execEncseg s
  | .enctext => Sys2Proof.Machine.execEnctext s
  | .encbin => Sys2Proof.Machine.execEncbin s

end Sys2Proof.Machine
end

