-- ==== Sys2Proof/Machine/Step.lean ====
section
/-! DEFINITION. One step of QR-CORE (spec/40_control.md R151; spec/20_memory.md R92): the completion step of a Busy
engine, or one bus slot. -/

namespace Sys2Proof.Machine

/-- The completion step of R151: the latched word is decoded and its command run; an illegal word completes with
ILLEGAL_CMD (R126). -/
def completionStep (w : Word) (s : State) : Host.Outcome State Fault Refusal :=
  match decode w with
  | .ok i => exec i s
  | .error _ => .next s.illegalCommand

/-- One step. A Busy engine whose wait is over takes its completion step (R151); otherwise one event from outside is
delivered, and a Busy engine's wait grows shorter (assumption 2). -/
def step (s : State) : Host.Outcome State Fault Refusal :=
  match s.eng, s.wait with
  | .busy w, 0 => completionStep w s
  | .busy _, n + 1 => .next ({ s with wait := n } : State).deliver
  | .idle, _ => .next s.deliver

/-- `s` with a command word latched, as an accepted write to CMD leaves it in `eng` (R33, R150), its wait over: the
very next step runs it (assumption 11). -/
def State.withFetchWord (s : State) (nbits w : Nat) : State :=
  { s with eng := .busy (BitVec.ofNat 32 (w % 2 ^ nbits)), wait := 0 }

end Sys2Proof.Machine
end

