-- ==== Sys2Proof/Safety.lean ====
section
/-! DEFINITION. The terms in which claims about QR-CORE are stated: how a command ends, the conditions of the spec's
rules, the spec's own pictures of the matrix, and the invariant every step keeps. Nothing here is used by the machine. -/

namespace Sys2Proof

/-! ### The opcode table -/

/-- The mnemonic of a command (R125). -/
def Instr.mnemonic : Instr → String
  | .nop => "NOP"
  | .gfmul _ _ => "GFMUL"
  | .rsdiv _ => "RSDIV"
  | .rsrem _ => "RSREM"
  | .segclr => "SEGCLR"
  | .segauto => "SEGAUTO"
  | .segnum => "SEGNUM"
  | .segalnum => "SEGALNUM"
  | .segbyte => "SEGBYTE"
  | .segeci => "SEGECI"
  | .negot => "NEGOT"
  | .assemble _ _ => "ASSEMBLE"
  | .tblq _ _ => "TBLQ"
  | .alignq _ => "ALIGNQ"
  | .ccbq _ _ => "CCBQ"
  | .interleave _ _ => "INTERLEAVE"
  | .minit _ => "MINIT"
  | .mplace => "MPLACE"
  | .mlight => "MLIGHT"
  | .mask _ => "MASK"
  | .format _ _ => "FORMAT"
  | .penalty => "PENALTY"
  | .mselect _ _ => "MSELECT"
  | .encseg => "ENCSEG"
  | .enctext => "ENCTEXT"
  | .encbin => "ENCBIN"

/-- The immediate operands of a command, A before B (R121, R125). -/
def Instr.operands : Instr → List Nat
  | .nop | .segclr | .segauto | .segnum | .segalnum | .segbyte | .segeci | .negot | .mplace | .mlight | .penalty
  | .encseg | .enctext | .encbin => []
  | .gfmul x y => [x.toNat, y.toNat]
  | .rsdiv a | .rsrem a | .alignq a | .minit a | .mask a => [a]
  | .assemble a b | .tblq a b | .ccbq a b | .interleave a b | .format a b | .mselect a b => [a, b]

end Sys2Proof

namespace Sys2Proof.Machine

/-! ### How a command ends -/

/-- `s` with an outcome recorded and nothing else changed (R151, R360). -/
def State.withOutcome (s : State) (fail err : Bool) (code : Byte) : State :=
  { s with
    eng := .idle
    status := { done := true, fail := fail, err := err, werr := s.status.werr, aerr := s.status.aerr }
    errcode := code }

/-- From `s` to `t` a command succeeded (R360). -/
def Succeeded (s t : State) : Prop :=
  t.eng = .idle ∧ t.errcode = 0 ∧
    t.status = { done := true, fail := false, err := false, werr := s.status.werr, aerr := s.status.aerr }

/-- From `s` to `t` a command ended not encodable with code `c` (R360, R361). -/
def FailedWith (c : Byte) (s t : State) : Prop :=
  t.eng = .idle ∧ t.errcode = c ∧
    t.status = { done := true, fail := true, err := false, werr := s.status.werr, aerr := s.status.aerr }

/-- Commands run one after another through `exec`, as a host that waits for each runs them (R400). -/
def runCommands : List Instr → State → Answer
  | [], s => .next s
  | i :: is, s =>
    match exec i s with
    | .next t => runCommands is t
    | .fault r => .fault r
    | .refused r => .refused r

/-- One row of spec/opcode_table.json. -/
structure OpcodeRow where
  mnemonic : String
  mask : Word
  value : Word
  deriving DecidableEq, Repr

/-- spec/opcode_table.json: mnemonic, mask and match of every row (R127). -/
def opcodeRows : List OpcodeRow :=
  [⟨"NOP", 0xFFFFFFFF, 0x00000000⟩, ⟨"GFMUL", 0xFF0000FF, 0x00000001⟩, ⟨"RSDIV", 0xFFFF00FF, 0x00000002⟩,
    ⟨"RSREM", 0xFFFF00FF, 0x00000003⟩, ⟨"SEGCLR", 0xFFFFFFFF, 0x00000010⟩, ⟨"SEGAUTO", 0xFFFFFFFF, 0x00000011⟩,
    ⟨"SEGNUM", 0xFFFFFFFF, 0x00000012⟩, ⟨"SEGALNUM", 0xFFFFFFFF, 0x00000013⟩, ⟨"SEGBYTE", 0xFFFFFFFF, 0x00000014⟩]
  ++ [⟨"SEGECI", 0xFFFFFFFF, 0x00000015⟩, ⟨"NEGOT", 0xFFFFFFFF, 0x00000020⟩, ⟨"ASSEMBLE", 0xFF0000FF, 0x00000021⟩,
    ⟨"TBLQ", 0xFF0000FF, 0x00000022⟩, ⟨"ALIGNQ", 0xFFFF00FF, 0x00000023⟩, ⟨"CCBQ", 0xFF0000FF, 0x00000024⟩,
    ⟨"INTERLEAVE", 0xFF0000FF, 0x00000030⟩, ⟨"MINIT", 0xFFFF00FF, 0x00000040⟩, ⟨"MPLACE", 0xFFFFFFFF, 0x00000041⟩]
  ++ [⟨"MLIGHT", 0xFFFFFFFF, 0x00000042⟩, ⟨"MASK", 0xFFFF00FF, 0x00000050⟩, ⟨"FORMAT", 0xFF0000FF, 0x00000051⟩,
    ⟨"PENALTY", 0xFFFFFFFF, 0x00000052⟩, ⟨"MSELECT", 0xFF0000FF, 0x00000053⟩, ⟨"ENCSEG", 0xFFFFFFFF, 0x00000060⟩,
    ⟨"ENCTEXT", 0xFFFFFFFF, 0x00000061⟩, ⟨"ENCBIN", 0xFFFFFFFF, 0x00000062⟩]

/-! ### The address map -/

/-- The registers of R50 in the order of their offsets, the fields at the bits that R31 to R43 give them; reserved bits
and CMD (R33) read 0. -/
def State.registerValues (s : State) : List Nat :=
  [0x51520107,
    (if s.eng = .idle then 0 else 1) + 2 * s.status.done.toNat + 4 * s.status.fail.toNat + 8 * s.status.err.toNat
      + 16 * s.status.werr.toNat + 32 * s.status.aerr.toNat,
    0, s.arg0.toNat, s.arg1.toNat, s.arg2.toNat, s.res0.toNat, s.res1.toNat]
  ++ [s.cfg.ecl.toNat + 4 * s.cfg.mask.toNat + 64 * s.cfg.boost.toNat + 256 * s.cfg.minVer.toNat
      + 65536 * s.cfg.maxVer.toNat,
    s.plen.toNat,
    s.result.version.toNat + 256 * s.result.ecl.toNat + 4096 * s.result.mask.toNat + 65536 * s.result.size.toNat,
    s.errcode.toNat, s.penalty.toNat, s.doneIe.toNat, s.segCnt.toNat, s.segBits.toNat]

/-- The two words of every SEGTAB descriptor, in the order of their offsets (R44). -/
def State.segTabValues (s : State) : List Nat :=
  s.segTab.toList.flatMap fun d =>
    [d.mode.toNat + 65536 * d.numChars.toNat, d.bitLen.toNat + 65536 * d.bitOff.toNat]

/-- Byte `i` of a list of 32-bit words, each with its bits 7:0 first (R83). -/
def byteOfWords (ws : List Nat) (i : Nat) : Nat := ws.getD (i / 4) 0 / 256 ^ (i % 4) % 256

/-- The byte that the map of R81 puts at an offset; a reserved one is 0. -/
def State.mapByte (s : State) (off : Nat) : Nat :=
  if off < 0x40 then byteOfWords s.registerValues off
  else if 0x100 ≤ off ∧ off < 0x180 then byteOfWords s.segTabValues (off - 0x100)
  else if 0x180 ≤ off ∧ off < 0x19E then (s.gen.toList.getD (off - 0x180) 0).toNat
  else if 0x1A0 ≤ off ∧ off < 0x1BE then (s.rem.toList.getD (off - 0x1A0) 0).toNat
  else if 0x1000 ≤ off ∧ off < 0x8000 then (s.mem.read off).toNat
  else 0

/-! ### Operand conditions of the rules -/

/-- A version (R10). -/
abbrev LegalVersion (v : Nat) : Prop := 1 ≤ v ∧ v ≤ 40

/-- The CFG versions every negotiation needs (R230, checks 1 and 2). -/
abbrev CfgVersionsLegal (s : State) : Prop :=
  LegalVersion s.cfg.minVer.toNat ∧ LegalVersion s.cfg.maxVer.toNat ∧ s.cfg.minVer.toNat ≤ s.cfg.maxVer.toNat

/-- The CFG of an encoding command (R341, checks 1 to 3). -/
abbrev CfgLegal (s : State) : Prop := CfgVersionsLegal s ∧ s.cfg.mask.toNat ≤ 8

/-- MATRIX[0] is the size of version `v` (R282). -/
abbrev MatrixIs (s : State) (v : Nat) : Prop := LegalVersion v ∧ s.matrixSize = 4 * v + 17

/-- MATRIX[0] and FUNCMAP[0] are the size of version `v` (R281). -/
abbrev SymbolIs (s : State) (v : Nat) : Prop := MatrixIs s v ∧ s.funcmapSize = 4 * v + 17

/-- A segment of these bits can be appended (R188, R189). -/
abbrev SegmentFits (s : State) (bits : List Bool) : Prop :=
  bits.length ≤ 32767 ∧ s.segBits.toNat + bits.length ≤ 32768

/-- A legal size byte: `4v+17` for some version (R281). -/
abbrev LegalSide (size : Nat) : Prop := ∃ v ∈ List.range' 1 40, size = 4 * v + 17

/-- The ERRCODE of a negotiating or encoding command's CFG, or none where CFG is legal (R366, order 3). -/
def cfgViolation (s : State) (checkMask : Bool) : Option Byte :=
  if ¬(LegalVersion s.cfg.minVer.toNat ∧ LegalVersion s.cfg.maxVer.toNat) then some 0x11
  else if s.cfg.maxVer.toNat < s.cfg.minVer.toNat then some 0x12
  else if checkMask = true ∧ 8 < s.cfg.mask.toNat then some 0x14
  else none

/-- The ERRCODE of a SEG command's payload range and table (R192, checks 1 and 2). -/
def segViolation (s : State) : Option Byte :=
  if 8192 < s.arg0.toNat + s.arg1.toNat then some 0x18
  else if 16 ≤ s.segCnt.toNat then some 0x1A
  else none

/-- The contract violation each command raises in state `s`, or none: the Checks lists of R153 to R343 in the order of
R366, with the codes of R363. -/
def violationOf (i : Instr) (s : State) : Option Byte :=
  match i with
  | .nop | .gfmul _ _ | .segclr => none
  | .rsdiv d => if d < 1 ∨ 30 < d then some 0x19 else none
  | .rsrem d =>
    if d < 1 ∨ 30 < d then some 0x19 else if 4096 < s.arg0.toNat + s.arg1.toNat then some 0x18 else none
  | .segauto | .segbyte => segViolation s
  | .segnum => (segViolation s).or (if s.argPayload.all isDigit then none else some 0x17)
  | .segalnum => (segViolation s).or (if s.argPayload.all isAlnum then none else some 0x17)
  | .segeci => if 1000000 ≤ s.arg0.toNat then some 0x16 else if 16 ≤ s.segCnt.toNat then some 0x1A else none
  | .negot => (cfgViolation s false).or (if s.segCnt.toNat = 0 then some 0x15 else none)
  | .assemble v e =>
    if ¬LegalVersion v then some 0x11 else if 3 < e then some 0x13
    else if s.segCnt.toNat = 0 then some 0x15 else none
  | .tblq v e | .interleave v e => if ¬LegalVersion v then some 0x11 else if 3 < e then some 0x13 else none
  | .alignq v | .minit v => if ¬LegalVersion v then some 0x11 else none
  | .ccbq m v => if m ∉ [0x1, 0x2, 0x4, 0x7, 0x8] then some 0x1C else if ¬LegalVersion v then some 0x11 else none
  | .mplace => if LegalSide s.matrixSize ∧ s.funcmapSize = s.matrixSize then none else some 0x1B
  | .mlight | .penalty => if LegalSide s.matrixSize then none else some 0x1B
  | .mask m =>
    if 7 < m then some 0x14
    else if LegalSide s.matrixSize ∧ s.funcmapSize = s.matrixSize then none else some 0x1B
  | .format e m =>
    if 3 < e then some 0x13 else if 7 < m then some 0x14 else if LegalSide s.matrixSize then none else some 0x1B
  | .mselect e sel =>
    if 3 < e then some 0x13 else if 8 < sel then some 0x14
    else if LegalSide s.matrixSize ∧ s.funcmapSize = s.matrixSize then none else some 0x1B
  | .encseg => (cfgViolation s true).or (if s.segCnt.toNat = 0 then some 0x15 else none)
  | .enctext | .encbin => (cfgViolation s true).or (if 8192 < s.plen.toNat then some 0x18 else none)

/-! ### Segments -/

/-- From `s` to `t` one segment was appended, and nothing changed besides it and the outcome (R189). -/
structure Appended (s t : State) (mode : BitVec 4) (nchars : Nat) (bits : List Bool) : Prop where
  count : t.segCnt.toNat = s.segCnt.toNat + 1
  total : t.segBits.toNat = s.segBits.toNat + bits.length
  desc : t.segTab[s.segCnt.toNat]? = some
    { mode := mode, numChars := BitVec.ofNat 16 nchars, bitLen := BitVec.ofNat 16 bits.length, bitOff := s.segBits }
  others : ∀ k, k ≠ s.segCnt.toNat → t.segTab[k]? = s.segTab[k]?
  stored : ∀ i < 32768, t.mem.readBitMsb 0x3000 i =
    if s.segBits.toNat ≤ i ∧ i < s.segBits.toNat + bits.length then bits.getD (i - s.segBits.toNat) false
    else s.mem.readBitMsb 0x3000 i
  bytes : ∀ a, a < 0x3000 ∨ 0x4000 ≤ a → t.mem.read a = s.mem.read a
  frame : t = { s with
    eng := t.eng, status := t.status, errcode := t.errcode
    segCnt := t.segCnt, segBits := t.segBits, segTab := t.segTab, mem := t.mem }

/-! ### The field -/

/-- The product of two polynomials over GF(2), each a number whose bit `i` is the coefficient of the i-th power, the
second of degree below 8. -/
def polyProduct (x y : Nat) : Nat :=
  (List.range 8).foldl (fun z i => if y.testBit i then z ^^^ (x <<< i) else z) 0

/-- The remainder of a polynomial of degree below 15 by 0x11D, the leading terms cancelled from the top down. -/
def reduce11D (z : Nat) : Nat :=
  (List.range 7).foldl (fun z k => if z.testBit (14 - k) then z ^^^ (0x11D <<< (6 - k)) else z) z

/-! ### Reed-Solomon -/

/-- Powers in GF(256). -/
def gfPow (a : Byte) : Nat → Byte
  | 0 => 1
  | n + 1 => gfMul (gfPow a n) a

/-- A polynomial (highest coefficient first) times `x - root` over GF(256). -/
def timesLinear (root : Byte) (p : List Byte) : List Byte :=
  List.zipWith (· ^^^ ·) (p ++ [0]) (0 :: p.map fun c => gfMul c root)

/-- `G(x) = Π_{i<d} (x - 0x02^i)`, highest coefficient first (R162). -/
def generatorPoly (d : Nat) : List Byte := (List.range d).foldl (fun p i => timesLinear (gfPow 0x02 i) p) [1]

/-- Bytewise sum of two blocks of one length. -/
def addBlocks (a b : List Byte) : List Byte := List.zipWith (· ^^^ ·) a b

/-- A block times a constant. -/
def scaleBlock (c : Byte) (a : List Byte) : List Byte := a.map (gfMul c)

/-- The product of two polynomials over GF(256), coefficients highest first; the first is not empty. -/
def polyMul (p : List Byte) : List Byte → List Byte
  | [] => List.replicate (p.length - 1) 0
  | c :: q => addBlocks (scaleBlock c p ++ List.replicate q.length 0) (0 :: polyMul p q)

/-! ### Bit strings -/

/-- The number that the `n` bits from bit `o` of a string spell, most significant first (R15). -/
def bitsAt (b : List Bool) (o n : Nat) : Nat := natOfBits ((b.drop o).take n)

/-! ### The matrix -/

/-- Bit `n` of the module bytes that follow the size byte of the buffer at `base`: bit `n % 8` of byte `1 + n / 8`
(R270). -/
def moduleBit (m : Memory) (base n : Nat) : Bool := (m.read (base + 1 + n / 8)).getLsbD (n % 8)

/-- Whether module `(x, y)` of MATRIX is dark, for a symbol of side `size` (R270). -/
def moduleDark (m : Memory) (size x y : Nat) : Bool := moduleBit m 0x7000 (y * size + x)

/-- Whether FUNCMAP marks module `(x, y)` as a function module, for a symbol of side `size` (R270). -/
def moduleFunction (m : Memory) (size x y : Nat) : Bool := moduleBit m 0x6000 (y * size + x)

/-- From `s` to `t` the modules of MATRIX take the colours `colour`, for version `v`, and no other bit of memory
changes: not the size byte, not the bits of the last byte that stand for no module (R278), no other byte. -/
structure MatrixBecomes (s t : State) (v : Nat) (colour : Nat → Nat → Bool) : Prop where
  modules : ∀ x y, x < side v → y < side v → moduleDark t.mem (side v) x y = colour x y
  tail : ∀ n, side v * side v ≤ n → n < 8 * (bufLen v - 1) → moduleBit t.mem 0x7000 n = moduleBit s.mem 0x7000 n
  others : ∀ a, a < 0x7001 ∨ 0x7000 + bufLen v ≤ a → t.mem.read a = s.mem.read a

/-- The colour of the last of a list of module writes that reaches `(x, y)`. -/
def lastColour (ws : List ModuleWrite) (x y : Nat) : Option Bool :=
  (ws.reverse.find? fun w => w.1 == x && w.2.1 == y).map fun w => w.2.2

/-- How far two coordinates lie apart. -/
def gap (a b : Nat) : Nat := ((a : Int) - b).natAbs

/-- The distance of R277: the larger of the two coordinates' gaps, so that equal distances form square rings. -/
def ring (cx cy x y : Nat) : Nat := max (gap cx x) (gap cy y)

/-- The table of R272: row `v - 1` holds the alignment positions of version `v`. -/
def alignTable : List (List Nat) :=
  [[], [6, 18], [6, 22], [6, 26], [6, 30], [6, 34], [6, 22, 38], [6, 24, 42], [6, 26, 46], [6, 28, 50],
      [6, 30, 54], [6, 32, 58], [6, 34, 62]]
  ++ [[6, 26, 46, 66], [6, 26, 48, 70], [6, 26, 50, 74], [6, 30, 54, 78], [6, 30, 56, 82], [6, 30, 58, 86],
      [6, 34, 62, 90]]
  ++ [[6, 28, 50, 72, 94], [6, 26, 50, 74, 98], [6, 30, 54, 78, 102], [6, 28, 54, 80, 106], [6, 32, 58, 84, 110],
      [6, 30, 58, 86, 114], [6, 34, 62, 90, 118]]
  ++ [[6, 26, 50, 74, 98, 122], [6, 30, 54, 78, 102, 126], [6, 26, 52, 78, 104, 130], [6, 30, 56, 82, 108, 134],
      [6, 34, 60, 86, 112, 138], [6, 30, 58, 86, 114, 142], [6, 34, 62, 90, 118, 146]]
  ++ [[6, 30, 54, 78, 102, 126, 150], [6, 24, 50, 76, 102, 128, 154], [6, 28, 54, 80, 106, 132, 158],
      [6, 32, 58, 84, 110, 136, 162], [6, 26, 54, 82, 110, 138, 166], [6, 30, 58, 86, 114, 142, 170]]

/-- The alignment positions of a version as R272's table prints them. -/
def alignRow (v : Nat) : List Nat := alignTable.getD (v - 1) []

/-- Whether an alignment pattern of version `v` is centred on `(cx, cy)`: every pair of positions but the three that
R273 skips. -/
def alignCentre (v cx cy : Nat) : Bool :=
  (alignRow v).contains cx && (alignRow v).contains cy
    && !([(6, 6), (side v - 7, 6), (6, side v - 7)].contains (cx, cy))

/-- Whether the distance from `(x, y)` to the centre of some alignment pattern meets `p`. -/
def nearAlign (v x y : Nat) (p : Nat → Bool) : Bool :=
  (alignRow v).any fun cx => (alignRow v).any fun cy => alignCentre v cx cy && p (ring cx cy x y)

/-- The function regions of R273 as a predicate: timing, finder corners, alignment squares, version blocks. -/
def functionModule (v x y : Nat) : Bool :=
  x == 6 || y == 6
  || (decide (x < 9) && decide (y < 9))
  || (decide (side v - 8 ≤ x) && decide (y < 9))
  || (decide (x < 9) && decide (side v - 8 ≤ y))
  || nearAlign v x y (fun d => decide (d ≤ 2))
  || (decide (v ≥ 7) && ((decide (side v - 11 ≤ x) && decide (x < side v - 8) && decide (y < 6))
    || (decide (x < 6) && decide (side v - 11 ≤ y) && decide (y < side v - 8))))

/-- The order of R275, written out: the column pairs from the right edge to the left, `(8, 7)` followed by `(5, 4)`; in
each row the right column before the left one; the first pair from the bottom row up, the next from the top row down,
and so on in turn. -/
def scanOrder (size : Nat) : List (Nat × Nat) :=
  (List.range ((size - 1) / 2)).flatMap fun k => (List.range size).flatMap fun i =>
    let right := if 6 < size - 1 - 2 * k then size - 1 - 2 * k else size - 2 - 2 * k
    let y := if k % 2 = 0 then size - 1 - i else i
    [(right, y), (right - 1, y)]

/-- The modules that a function map leaves to data, in the order of R275. -/
def dataOrder (size : Nat) (isFunction : Nat → Nat → Bool) : List (Nat × Nat) :=
  (scanOrder size).filter fun p => !isFunction p.1 p.2

/-- Bit `k` of a codeword sequence (R84, R275): bit `7 - k % 8` of codeword `k / 8`. -/
def codewordBit (cw : List Byte) (k : Nat) : Bool := (cw.getD (k / 8) 0).getLsbD (7 - k % 8)

/-- The score of trial mask `k` in R312's loop, computed from the unmasked matrix. -/
def trialScore (size e : Nat) (m f : Modules) (k : Nat) : Nat :=
  penaltyScore (drawFormat size (applyMask size m f k) e k) size

/-! ### The invariant -/

/-- The valid descriptors stand one after another from bit 0 on, each in a mode a command can build (R43, R44, R181,
R189); `o` is where the first begins. -/
def chainFrom (o : Nat) : List SegDesc → Bool
  | [] => true
  | d :: rest =>
    decide (d.bitOff.toNat = o) && decide (d.bitLen.toNat ≤ 32767)
      && [0x1#4, 0x2#4, 0x4#4, 0x7#4].contains d.mode && chainFrom (o + d.bitLen.toNat) rest

/-- What every step keeps. -/
structure State.Inv (s : State) : Prop where
  /-- The buffers are in canonical form. -/
  mem : s.mem.wf
  /-- R42: SEGCNT is 0 to 16. -/
  segCnt : s.segCnt.toNat ≤ 16
  /-- R189, R44: the valid descriptors stand one after another from bit 0, in the modes of R44. -/
  chain : chainFrom 0 s.segs = true
  /-- R43: SEGBITS is the sum of BITLEN over the valid descriptors. -/
  segBits : s.segBits.toNat = (s.segs.map fun d => d.bitLen.toNat).sum
  /-- R43: SEGBITS is 0 to 32768. -/
  segBitsLe : s.segBits.toNat ≤ 32768
  /-- R40: VERSION is 0 or a version, and SIZE goes with it. -/
  result : s.result.version.toNat ≤ 40 ∧
    s.result.size.toNat = if s.result.version.toNat = 0 then 0 else 4 * s.result.version.toNat + 17
  /-- R32: FAIL and ERR are never both 1. -/
  tiers : ¬(s.status.fail = true ∧ s.status.err = true)
  /-- R360, R363: ERRCODE lies in the range of the recorded tier. -/
  code : (s.status.fail = true → s.errcode = 0x01 ∨ s.errcode = 0x02) ∧
    (s.status.err = true → 0x10 ≤ s.errcode.toNat ∧ s.errcode.toNat ≤ 0x1C) ∧
    (s.status.fail = false → s.status.err = false → s.errcode = 0)
  /-- R150: while the engine is Busy, DONE, FAIL and ERR are 0. -/
  busy : ∀ w, s.eng = .busy w → s.status.done = false ∧ s.status.fail = false ∧ s.status.err = false

end Sys2Proof.Machine
end

