-- ==== Sys2Proof/Certificates/Slice0/Obligations.lean ====
section
/-! DEFINITION. The statements about QR-CORE, for the provers. Each docstring names the rules of spec/ it comes from. -/

open Sys2Proof Sys2Proof.Machine

/-! ### Encoding -/

/-- R121, R122, R125, R127: decoding the word of a well-formed command gives the command back, every operand at every
value its field admits; and a word that decodes is the one word of its command, so no bit of a word is dropped. -/
def Obligations.DecodeAndEncodeAgree : Prop :=
  (∀ i : Instr, WellFormed i → decode (encode i) = .ok i) ∧
  ∀ (w : Word) (i : Instr), decode w = .ok i → WellFormed i ∧ encode i = w

/-- R127: a word decodes to the row of the opcode table whose masked bits match, with its A and B fields (bits 15:8 and
23:16) as operands, as many as the row's format uses; a word that matches a row decodes; at most one row matches. -/
def Obligations.DecoderFollowsOpcodeTable : Prop :=
  ∀ w : Word,
    (∀ i, decode w = .ok i → ∃ r ∈ opcodeRows, w &&& r.mask = r.value ∧ i.mnemonic = r.mnemonic ∧
      i.operands = [w.toNat / 256 % 256, w.toNat / 65536 % 256].take
        (if r.mask = 0xFFFFFFFF then 0 else if r.mask = 0xFFFF00FF then 1 else 2)) ∧
    (∀ r ∈ opcodeRows, w &&& r.mask = r.value → ∃ i, decode w = .ok i ∧ i.mnemonic = r.mnemonic) ∧
    ∀ r ∈ opcodeRows, ∀ r' ∈ opcodeRows, w &&& r.mask = r.value → w &&& r'.mask = r'.value → r = r'

/-- Words written out from R121, R122 and R125 decode to the commands they stand for, one of each family, and four
illegal words do not decode. -/
def Obligations.SampleWordsDecode : Prop :=
  decode 0b00000000000000000000000000000000#32 = .ok .nop ∧
  decode 0b00000000100000000000001000000001#32 = .ok (.gfmul 0x02 0x80) ∧
  decode 0b00000000000000000000101000000011#32 = .ok (.rsrem 10) ∧
  decode 0b00000000000000000000000000010101#32 = .ok .segeci ∧
  decode 0b00000000000000100000000100100001#32 = .ok (.assemble 1 2) ∧
  decode 0b00000000000010100000010000100100#32 = .ok (.ccbq 4 10) ∧
  decode 0b00000000000000010000000100110000#32 = .ok (.interleave 1 1) ∧
  decode 0b00000000000000000000000101000000#32 = .ok (.minit 1) ∧
  decode 0b00000000000010000000000101010011#32 = .ok (.mselect 1 8) ∧
  decode 0b00000000000000000000000001100010#32 = .ok .encbin ∧
  (∀ w ∈ [0x00000100#32, 0x01000001#32, 0x00000004#32, 0x000000F0#32], ∀ i, decode w ≠ .ok i)

/-- R126: a word that matches no row of the opcode table (among them every word with OP 0xF0 to 0xFF, and every word
with a non-zero field that its row's format requires to be zero) is accepted like any other, and its completion records
ILLEGAL_CMD and changes nothing else; no word but 0 is a NOP. -/
def Obligations.IllegalWordRaisesIllegalCmd : Prop :=
  (∀ (s : State) (w : Word), s.eng = .busy w → s.wait = 0 → (∀ r ∈ opcodeRows, w &&& r.mask ≠ r.value) →
    step s = .next (s.withOutcome false true 0x10)) ∧
  (∀ w : Word, 0xF0 ≤ w.toNat % 256 → ∀ r ∈ opcodeRows, w &&& r.mask ≠ r.value) ∧
  (∀ w : Word, ∀ r ∈ opcodeRows, w.toNat % 256 = r.value.toNat → w &&& r.mask ≠ r.value →
    ∀ r' ∈ opcodeRows, w &&& r'.mask ≠ r'.value) ∧
  (∀ (s : State) (w : Word), s.eng = .idle → (s.hostWrite .w4 0x008 w).eng = .busy w) ∧
  (∀ w : Word, decode w = .ok .nop → w = 0)

/-! ### Command lifecycle -/

/-- R150: a 4-byte write to CMD while Idle latches the word and sets BUSY, clears DONE, FAIL, ERR and ERRCODE, in one
step and with nothing else changed (`wait` and `draws` are the model's own, assumption 2); while Busy it is dropped and
sets WERR; a refused write to CMD accepts nothing. -/
def Obligations.AcceptanceLatchesTheWord : Prop :=
  ∀ (s : State) (v : Word),
    (s.eng = .idle → ∃ t, s.hostWrite .w4 0x008 v = t ∧ t.busy = true ∧
      t = { s with
        eng := .busy v
        status := { done := false, fail := false, err := false, werr := s.status.werr, aerr := s.status.aerr }
        errcode := 0
        wait := t.wait
        draws := t.draws }) ∧
    (∀ w, s.eng = .busy w → s.hostWrite .w4 0x008 v = { s with status := { s.status with werr := true } }) ∧
    (s.hostWrite .w1 0x008 v).eng = s.eng ∧ (s.hostWrite .w2 0x008 v).eng = s.eng

/-- R360: the completion of every accepted word, and every command from every state, answers a next state in which the
engine is Idle, DONE is 1, and exactly one of the three outcomes stands in FAIL, ERR and ERRCODE. -/
def Obligations.EveryCommandEndsInOneOutcome : Prop :=
  let ended := fun s t : State =>
    t.eng = .idle ∧ t.status.done = true ∧ t.status.werr = s.status.werr ∧ t.status.aerr = s.status.aerr ∧
    ((t.status.fail = false ∧ t.status.err = false ∧ t.errcode = 0) ∨
      (t.status.fail = true ∧ t.status.err = false ∧ 0x01 ≤ t.errcode.toNat ∧ t.errcode.toNat ≤ 0x0F) ∨
      (t.status.fail = false ∧ t.status.err = true ∧ 0x10 ≤ t.errcode.toNat ∧ t.errcode.toNat ≤ 0x1F))
  (∀ (s : State) (w : Word), s.eng = .busy w → s.wait = 0 → ∃ t, step s = .next t ∧ ended s t) ∧
  ∀ (i : Instr) (s : State), ∃ t, exec i s = .next t ∧ ended s t

/-- R35, R47, R364: no command changes ARG0 to ARG2, CFG, PLEN, IRQEN or PAYLOAD (host only), nor WERR, AERR and the
host's queues. -/
def Obligations.CommandsKeepHostOwnedState : Prop :=
  ∀ (i : Instr) (s t : State), exec i s = .next t →
    t.arg0 = s.arg0 ∧ t.arg1 = s.arg1 ∧ t.arg2 = s.arg2 ∧ t.cfg = s.cfg ∧ t.plen = s.plen ∧ t.doneIe = s.doneIe ∧
    t.status.werr = s.status.werr ∧ t.status.aerr = s.status.aerr ∧ t.inbox = s.inbox ∧ t.replies = s.replies ∧
    ∀ a, 0x1000 ≤ a → a < 0x3000 → t.mem.read a = s.mem.read a

/-- R152, R361, R363, R366: the first check of a command's list that fails decides the ERRCODE, and the command has then
written nothing: only STATUS, ERRCODE and `eng` change. Where every check passes the command ends in no contract
violation, and only the SEG commands, NEGOT, ASSEMBLE and the encoding commands can end not encodable. -/
def Obligations.FirstFailingCheckDecides : Prop :=
  ∀ (i : Instr) (s : State),
    (∀ c, violationOf i s = some c → exec i s = .next (s.withOutcome false true c)) ∧
    (violationOf i s = none → ∃ t, exec i s = .next t ∧ t.status.err = false ∧
      (t.status.fail = true →
        i.mnemonic ∈ ["SEGAUTO", "SEGNUM", "SEGALNUM", "SEGBYTE", "SEGECI", "ENCTEXT", "ENCBIN"] ∧ t.errcode = 0x01 ∨
        i.mnemonic ∈ ["NEGOT", "ASSEMBLE", "ENCSEG", "ENCTEXT", "ENCBIN"] ∧ t.errcode = 0x02))

/-- R87, R92, R151, R380: the step of a Busy engine whose wait is over runs the command that the latched word decodes to,
and `withFetchWord` places a word so that the very next step runs it (assumption 11). A step that is no completion
delivers the oldest pending access, whole; a Busy engine's wait (the model's own, assumption 2) grows shorter with it;
with nothing pending an Idle block keeps its state. -/
def Obligations.StepRunsDecodedCommand : Prop :=
  (∀ (s : State) (w : Word) (i : Instr), s.eng = .busy w → s.wait = 0 → decode w = .ok i → step s = exec i s) ∧
  (∀ (s : State) (i : Instr), WellFormed i →
    step (s.withFetchWord 32 (encode i).toNat) = exec i (s.withFetchWord 32 (encode i).toNat)) ∧
  ∀ (s : State) (ev : HostEvent) (rest : List HostEvent),
    (s.eng = .idle → s.inbox = ev :: rest → step s = .next (({ s with inbox := rest } : State).hostEvent ev)) ∧
    (s.eng = .idle → s.inbox = [] → step s = .next s) ∧
    (∀ w n, s.eng = .busy w → s.wait = n + 1 → s.inbox = ev :: rest →
      step s = .next (({ s with wait := n, inbox := rest } : State).hostEvent ev)) ∧
    (∀ w n, s.eng = .busy w → s.wait = n + 1 → s.inbox = [] → step s = .next { s with wait := n })

/-- R90, R92 (item 2), R151, R410: unless a reset comes, an accepted command completes after a finite number of steps,
with DONE set and the engine Idle; and until the step that completes it no host access changes anything the command
reads: only the wait, STATUS, DONE_IE, the host's queues and the draw counter move. -/
def Obligations.AcceptedCommandCompletesOnFrozenState : Prop :=
  ∀ (s : State) (w : Word), s.eng = .busy w → HostEvent.reset ∉ s.inbox →
    (∀ k ≤ s.wait, ∃ u, Host.Core.run Sys2Proof.core k s = .next u ∧
      u = { s with
        wait := s.wait - k
        status := { s.status with done := u.status.done, werr := u.status.werr, aerr := u.status.aerr }
        doneIe := u.doneIe
        inbox := s.inbox.drop k
        replies := u.replies
        draws := u.draws }) ∧
    ∃ t, Host.Core.run Sys2Proof.core (s.wait + 1) s = .next t ∧ t.eng = .idle ∧ t.status.done = true

/-! ### Host accesses -/

/-- R86: a misaligned access is refused: a read returns 0, a write has no effect, AERR is set; so is a write to the
register block that is not 4 bytes wide. Reads of the register block may have any width, and no other access sets AERR.
What the spec does not settle is the model's choice: while Busy a misaligned read returns 0 and sets AERR (assumption 7)
and a malformed write sets AERR, with WERR left open here (assumption 8); an access to a reserved offset is refused like
any other (assumption 18). -/
def Obligations.MalformedAccessRefused : Prop :=
  ∀ (s : State) (width : Width) (off : Nat) (v : Word),
    (off % width.bytes ≠ 0 →
      s.hostRead width off = { s with replies := s.replies ++ [0], status := { s.status with aerr := true } }) ∧
    (off % width.bytes = 0 → (s.hostRead width off).status = s.status) ∧
    (off % width.bytes ≠ 0 ∨ (off < 0x40 ∧ width.bytes ≠ 4) →
      ∃ werr, s.hostWrite width off v = { s with status := { s.status with aerr := true, werr := werr } } ∧
        (s.eng = .idle → werr = s.status.werr)) ∧
    (off % width.bytes = 0 → (off < 0x40 → width.bytes = 4) →
      (s.hostWrite width off v).status.aerr = true → s.status.aerr = true)

/-- R81, R83, R85: a well-formed write to a writable buffer of an Idle block stores the bytes of the datum, bits 7:0 at
the lowest offset, changes no other byte and no register, and a read of the same place returns the datum. -/
def Obligations.BufferStoreThenLoad : Prop :=
  ∀ (s : State) (width : Width) (off : Nat) (v : Word), s.eng = .idle → off % width.bytes = 0 →
    (0x1000 ≤ off ∧ off < 0x3000 ∨ 0x4000 ≤ off ∧ off < 0x8000) →
    ∃ t, s.hostWrite width off v = t ∧ t = { s with mem := t.mem } ∧
      (∀ i < width.bytes, t.mem.read (off + i) = v.extractLsb' (8 * i) 8) ∧
      (∀ a, a < off ∨ off + width.bytes ≤ a → t.mem.read a = s.mem.read a) ∧
      (t.hostRead width off).replies = t.replies ++ [BitVec.ofNat 32 (v.toNat % 2 ^ (8 * width.bytes))]

/-- R45, R81: the host writes GEN byte by byte in the order of R83; the two reserved bytes after it ignore the
write. -/
def Obligations.GenIsHostWritable : Prop :=
  ∀ (s : State) (width : Width) (off : Nat) (v : Word), s.eng = .idle → off % width.bytes = 0 →
    0x180 ≤ off → off < 0x1A0 →
    ∃ t, s.hostWrite width off v = t ∧ t = { s with gen := t.gen } ∧
      ∀ k < 30, t.gen.toList.getD k 0 =
        if off ≤ 0x180 + k ∧ 0x180 + k < off + width.bytes then v.extractLsb' (8 * (0x180 + k - off)) 8
        else s.gen.toList.getD k 0

/-- R32: a write to STATUS, Idle or Busy, clears the W1C bits DONE, WERR and AERR whose written bit is 1 and changes
nothing else; a read returns the six flags in bits 0 to 5. -/
def Obligations.StatusWriteClearsOnlyW1C : Prop :=
  ∀ (s : State) (v : Word),
    s.hostWrite .w4 0x004 v = { s with
      status := { s.status with
        done := s.status.done && !v.getLsbD 1
        werr := s.status.werr && !v.getLsbD 4
        aerr := s.status.aerr && !v.getLsbD 5 } } ∧
    (s.hostRead .w4 0x004).replies = s.replies ++ [BitVec.ofNat 32
      ((if s.eng = .idle then 0 else 1) + 2 * s.status.done.toNat + 4 * s.status.fail.toNat + 8 * s.status.err.toNat
        + 16 * s.status.werr.toNat + 32 * s.status.aerr.toNat)]

/-- R406: an Idle block ignores, with no flag, a well-formed write to a RO register, SEGTAB, REM, SEGBUF or a reserved
offset. -/
def Obligations.ReadOnlyWritesIgnored : Prop :=
  ∀ (s : State) (width : Width) (off : Nat) (v : Word), s.eng = .idle → off % width.bytes = 0 →
    (off < 0x40 → width.bytes = 4) →
    (off ∈ [0x000, 0x018, 0x01C, 0x028, 0x02C, 0x030, 0x038, 0x03C] ∨ 0x40 ≤ off ∧ off < 0x180 ∨
      0x19E ≤ off ∧ off < 0x1000 ∨ 0x3000 ≤ off ∧ off < 0x4000) →
    s.hostWrite width off v = s

/-- R90: while Busy, a well-formed write to any location other than STATUS and IRQEN is dropped and sets WERR; a write
to STATUS or IRQEN behaves as when Idle. That a read-only or a reserved location is no exception, so that a write to one
sets WERR too, is the model's choice (assumption 18). -/
def Obligations.BusyWriteDropped : Prop :=
  ∀ (s : State) (w : Word) (width : Width) (off : Nat) (v : Word), s.eng = .busy w →
    (off % width.bytes = 0 → (off < 0x40 → width.bytes = 4) → off ≠ 0x004 → off ≠ 0x034 →
      s.hostWrite width off v = { s with status := { s.status with werr := true } }) ∧
    (off = 0x004 ∨ off = 0x034 →
      s.hostWrite .w4 off v = { ({ s with eng := .idle } : State).hostWrite .w4 off v with eng := .busy w })

/-- R31 to R46, R50, R81, R83, R88, R91, R156: an aligned read of any width returns the bytes of the location, zero-extended
and in little-endian order, as the address map and the fields of each register give them: of every location while Idle; while
Busy of ID, STATUS, ARG0 to ARG2, CFG, PLEN, IRQEN and the reserved offsets, and of CMD, which reads 0 (while Busy by
assumption 7). It changes nothing but the host's replies and the model's draw counter (assumption 6). -/
def Obligations.RegisterReadsReturnTheirValues : Prop :=
  ∀ (s : State) (width : Width) (off : Nat), off % width.bytes = 0 → off < 0x8000 →
    ∃ t, s.hostRead width off = t ∧ t = { s with replies := t.replies, draws := t.draws } ∧
      (s.eng = .idle ∨ off / 4 * 4 ∈ [0x000, 0x004, 0x008, 0x00C, 0x010, 0x014, 0x020, 0x024, 0x034] ∨
          0x040 ≤ off ∧ off < 0x100 ∨ 0x19E ≤ off ∧ off < 0x1A0 ∨ 0x1BE ≤ off ∧ off < 0x1000 →
        t.replies = s.replies ++
          [BitVec.ofNat 32 ((List.range width.bytes).map fun i => s.mapByte (off + i) * 256 ^ i).sum])

/-- R35, R37, R38, R39: a 4-byte write to ARG0, ARG1, ARG2, CFG, PLEN or IRQEN of an Idle block changes that register
alone; it reads back as written but for the reserved bits, which read 0; and the fields of CFG are the bits R37 names. -/
def Obligations.HostRegistersStoreWrittenBits : Prop :=
  ∀ (s : State) (v : Word), s.eng = .idle →
    s.hostWrite .w4 0x00C v = { s with arg0 := v } ∧
    s.hostWrite .w4 0x010 v = { s with arg1 := v } ∧
    s.hostWrite .w4 0x014 v = { s with arg2 := v } ∧
    (∃ t, s.hostWrite .w4 0x020 v = t ∧ t = { s with cfg := t.cfg } ∧ t.cfg.toWord = v &&& 0x003F3F7F ∧
      t.cfg.ecl.toNat = v.toNat % 4 ∧ t.cfg.mask.toNat = v.toNat / 4 % 16 ∧ t.cfg.boost = v.getLsbD 6 ∧
      t.cfg.minVer.toNat = v.toNat / 256 % 64 ∧ t.cfg.maxVer.toNat = v.toNat / 65536 % 64) ∧
    (∃ t, s.hostWrite .w4 0x024 v = t ∧ t = { s with plen := t.plen } ∧ t.plen.setWidth 32 = v &&& 0x3FFF) ∧
    (∃ t, s.hostWrite .w4 0x034 v = t ∧ t = { s with doneIe := t.doneIe } ∧
      (BitVec.ofBool t.doneIe).setWidth 32 = v &&& 1)

/-! ### Reset and interrupt -/

/-- R390: after reset, at power-up and whenever the input is asserted, the engine is Idle and every register, register
array and the interrupt output holds its reset value. -/
def Obligations.ResetValues : Prop :=
  ∀ r : State, (r = State.reset ∨ ∃ s : State, r = s.assertReset) →
    r.eng = .idle ∧ r.irq = false ∧
    (∀ k < 16, (r.hostRead .w4 (4 * k)).replies = r.replies ++
      [if k = 0 then 0x51520107#32 else if k = 8 then 0x00280160#32 else 0#32]) ∧
    (∀ off, 0x100 ≤ off → off < 0x1C0 → (r.hostRead .w1 off).replies = r.replies ++ [0])

/-- R392: a reset that comes while the engine is Busy aborts the command: none of its effects appear, no DONE is set,
no interrupt is raised, and the state is that of R390. The model's choices: what the outside world has issued and received
stays (assumption 1), and no buffer byte counts as written, every one being drawn anew, where R391 would let a byte keep its
value (assumptions 3 and 4). -/
def Obligations.ResetAbortsBusyCommand : Prop :=
  ∀ (s : State) (w : Word) (n : Nat) (rest : List HostEvent), s.eng = .busy w → s.wait = n + 1 →
    s.inbox = .reset :: rest →
    ∃ t, step s = .next t ∧ t.eng = .idle ∧ t.status.done = false ∧ t.irq = false ∧ t.mem.cells = [] ∧
      t = { State.reset with mem := t.mem, inbox := rest, replies := s.replies, draws := t.draws }

/-- R370, R411: `irq` is DONE and DONE_IE; it rises with the completion of any command when enabled; it falls with the
acknowledging write, with the acceptance of the next command, with the clearing of DONE_IE (which leaves DONE), and with
a reset. -/
def Obligations.InterruptFollowsDone : Prop :=
  (∀ s : State, s.irq = true ↔ s.status.done = true ∧ s.doneIe = true) ∧
  (∀ (i : Instr) (s t : State), exec i s = .next t → t.irq = s.doneIe) ∧
  (∀ s : State, (s.hostWrite .w4 0x004 2).irq = false ∧ (s.hostWrite .w4 0x004 2).status.done = false) ∧
  (∀ (s : State) (v : Word), s.eng = .idle → (s.hostWrite .w4 0x008 v).irq = false) ∧
  (∀ s : State, (s.hostWrite .w4 0x034 0).irq = false ∧ (s.hostWrite .w4 0x034 0).status.done = s.status.done) ∧
  (∀ s : State, s.assertReset.irq = false)

/-! ### NOP, SEGCLR -/

/-- R153, R190: NOP completes and changes nothing else; SEGCLR clears SEGCNT and SEGBITS, and descriptors and segment
bits keep their values. -/
def Obligations.NopAndSegclrComplete : Prop :=
  ∀ s : State,
    exec .nop s = .next (s.withOutcome false false 0) ∧
    exec .segclr s = .next (({ s with segCnt := 0, segBits := 0 } : State).withOutcome false false 0)

/-! ### GF(256) and Reed-Solomon -/

/-- R161: the field laws of the multiplier, with `^` as addition, and 0x02 generates the multiplicative group. -/
def Obligations.GfFieldLaws : Prop :=
  (∀ a b, gfMul a b = gfMul b a) ∧
  (∀ a b c, gfMul (gfMul a b) c = gfMul a (gfMul b c)) ∧
  (∀ a b c, gfMul a (b ^^^ c) = gfMul a b ^^^ gfMul a c) ∧
  (∀ a : Byte, a ^^^ a = 0) ∧
  (∀ a, gfMul a 1 = a ∧ gfMul a 0 = 0) ∧
  (∀ a, a ≠ 0 → ∃ b, gfMul a b = 1 ∧ ∀ b', gfMul a b' = 1 → b' = b) ∧
  (∀ a, a ≠ 0 → ∃ i < 255, gfPow 0x02 i = a ∧ ∀ j < 255, gfPow 0x02 j = a → j = i) ∧
  (∀ i, gfPow 0x02 i ≠ 0) ∧ gfPow 0x02 255 = 1

/-- R160, R166: GFMUL writes to RES0 the product of the two bytes as polynomials over GF(2), reduced modulo 0x11D, and
changes nothing else. -/
def Obligations.GfmulIsProductModulo0x11D : Prop :=
  ∀ (x y : Byte) (s : State),
    exec (.gfmul x y) s = .next (({ s with
      res0 := BitVec.ofNat 32 (reduce11D (polyProduct x.toNat y.toNat)) } : State).withOutcome false false 0)

/-- R162, R167: RSDIV of a degree 1 to 30 leaves in GEN the coefficients, but for the leading 1, of the product of the
factors x - 0x02^i, zeros after them, and changes nothing else; of another degree it raises BAD_DEGREE. -/
def Obligations.RsdivBuildsGenerator : Prop :=
  ∀ (d : Nat) (s : State),
    (1 ≤ d → d ≤ 30 → ∃ t, exec (.rsdiv d) s = .next t ∧ Succeeded s t ∧
      t = { s with eng := t.eng, status := t.status, errcode := t.errcode, gen := t.gen } ∧
      1 :: t.gen.toList.take d = generatorPoly d ∧ ∀ k, d ≤ k → t.gen.toList.getD k 0 = 0) ∧
    (d < 1 ∨ 30 < d → exec (.rsdiv d) s = .next (s.withOutcome false true 0x19))

/-- R165: the remainder is linear in the data; the remainder of an all-zero block is zero; data with its remainder
appended is divisible by the generator polynomial; and for x + 1 the remainder is the exclusive-or of the data. -/
def Obligations.RemainderProperties : Prop :=
  ∀ g : List Byte, 1 ≤ g.length →
    (∀ a b, a.length = b.length →
      rsRemainder (addBlocks a b) g = addBlocks (rsRemainder a g) (rsRemainder b g)) ∧
    (∀ c a, rsRemainder (scaleBlock c a) g = scaleBlock c (rsRemainder a g)) ∧
    (∀ n, rsRemainder (List.replicate n 0) g = List.replicate g.length 0) ∧
    (∀ a, ∃ q, q.length = a.length ∧ polyMul (1 :: g) q = a ++ rsRemainder a g) ∧
    (∀ a, rsRemainder a [1] = [a.foldl (· ^^^ ·) 0])

/-- R164, R168: RSREM of a legal degree and range leaves in REM the remainder of the DATABUF block times x^d by
x^d + GEN[0..d-1], as GEN stands (block and remainder together are a multiple of it), zeros after it, and changes
nothing else; of an illegal degree it raises BAD_DEGREE, of a range beyond DATABUF BAD_RANGE. -/
def Obligations.RsremDividesDatabuf : Prop :=
  ∀ (d : Nat) (s : State),
    (1 ≤ d → d ≤ 30 → s.arg0.toNat + s.arg1.toNat ≤ 4096 → ∃ t q, exec (.rsrem d) s = .next t ∧ Succeeded s t ∧
      t = { s with eng := t.eng, status := t.status, errcode := t.errcode, rem := t.rem } ∧
      q.length = s.arg1.toNat ∧
      polyMul (1 :: s.gen.toList.take d) q =
        s.mem.readBytes (0x4000 + s.arg0.toNat) s.arg1.toNat ++ t.rem.toList.take d ∧
      ∀ k, d ≤ k → t.rem.toList.getD k 0 = 0) ∧
    (d < 1 ∨ 30 < d → exec (.rsrem d) s = .next (s.withOutcome false true 0x19)) ∧
    (1 ≤ d → d ≤ 30 → 4096 < s.arg0.toNat + s.arg1.toNat →
      exec (.rsrem d) s = .next (s.withOutcome false true 0x18))

/-! ### Segments -/

/-- R182, R184, R185, R186, R187: the 45 alphanumeric characters, a character's value being its index, and what each
packing function writes. Digits: three to 10 bits, a last two to 7, a last one to
4, each group the number its digits spell. Alphanumeric characters: two to 11 bits (45 v1 + v2), a last one to 6. Bytes:
8 bits each. ECI: 8, 16 or 24 bits with the markers 0, 10 and 110; a value of 1000000 or more is refused. -/
def Obligations.SegmentPacking : Prop :=
  (∀ chars, chars = "0123456789ABCDEFGHIJKLMNOPQRSTUVWXYZ $%*+-./:".toList.map Char.toNat →
    chars.length = 45 ∧ (∀ b : Byte, isAlnum b = true ↔ b.toNat ∈ chars) ∧
      ∀ k < 45, alnumValue (BitVec.ofNat 8 (chars.getD k 0)) = k) ∧
  (∀ p : List Byte, p.all isDigit = true →
    (packNum p).length = (10 * p.length + 2) / 3 ∧
    (∀ k, 3 * k + 3 ≤ p.length → bitsAt (packNum p) (10 * k) 10 =
      100 * ((p.getD (3 * k) 0).toNat - 0x30) + 10 * ((p.getD (3 * k + 1) 0).toNat - 0x30)
        + ((p.getD (3 * k + 2) 0).toNat - 0x30)) ∧
    (∀ k, 3 * k + 2 = p.length → bitsAt (packNum p) (10 * k) 7 =
      10 * ((p.getD (3 * k) 0).toNat - 0x30) + ((p.getD (3 * k + 1) 0).toNat - 0x30)) ∧
    (∀ k, 3 * k + 1 = p.length → bitsAt (packNum p) (10 * k) 4 = (p.getD (3 * k) 0).toNat - 0x30)) ∧
  (∀ p : List Byte, p.all isAlnum = true →
    (packAlnum p).length = (11 * p.length + 1) / 2 ∧
    (∀ k, 2 * k + 2 ≤ p.length → bitsAt (packAlnum p) (11 * k) 11 =
      45 * alnumValue (p.getD (2 * k) 0) + alnumValue (p.getD (2 * k + 1) 0)) ∧
    (∀ k, 2 * k + 1 = p.length → bitsAt (packAlnum p) (11 * k) 6 = alnumValue (p.getD (2 * k) 0))) ∧
  (∀ p : List Byte, (packByte p).length = 8 * p.length ∧
    ∀ k < p.length, bitsAt (packByte p) (8 * k) 8 = (p.getD k 0).toNat) ∧
  (∀ v < 1000000, (packEci v).length = (if v < 128 then 8 else if v < 16384 then 16 else 24) ∧
    natOfBits (packEci v) = if v < 128 then v else if v < 16384 then 0x8000 + v else 0xC00000 + v) ∧
  ∀ s : State, 1000000 ≤ s.arg0.toNat → exec .segeci s = .next (s.withOutcome false true 0x16)

/-- R189, R192, R193, R194, R195: where its checks pass and the segment fits, each explicit SEG command succeeds and
appends its one segment, and changes nothing else. -/
def Obligations.ExplicitSegmentCommandsAppend : Prop :=
  ∀ s : State, s.segCnt.toNat < 16 →
    (s.arg0.toNat + s.arg1.toNat ≤ 8192 →
      (s.argPayload.all isDigit = true → SegmentFits s (packNum s.argPayload) →
        ∃ t, exec .segnum s = .next t ∧ Succeeded s t ∧ Appended s t 0x1 s.arg1.toNat (packNum s.argPayload)) ∧
      (s.argPayload.all isAlnum = true → SegmentFits s (packAlnum s.argPayload) →
        ∃ t, exec .segalnum s = .next t ∧ Succeeded s t ∧ Appended s t 0x2 s.arg1.toNat (packAlnum s.argPayload)) ∧
      (SegmentFits s (packByte s.argPayload) →
        ∃ t, exec .segbyte s = .next t ∧ Succeeded s t ∧ Appended s t 0x4 s.arg1.toNat (packByte s.argPayload))) ∧
    (s.arg0.toNat < 1000000 → SegmentFits s (packEci s.arg0.toNat) →
      ∃ t, exec .segeci s = .next t ∧ Succeeded s t ∧ Appended s t 0x7 0 (packEci s.arg0.toNat))

/-- R183, R191: SEGAUTO appends a Numeric segment when every byte of its range is a digit (an empty range among them),
else an Alphanumeric one when every byte is in the set, else a Byte one, and changes nothing else. -/
def Obligations.SegautoDispatchesMode : Prop :=
  ∀ s : State, s.segCnt.toNat < 16 → s.arg0.toNat + s.arg1.toNat ≤ 8192 →
    (s.argPayload.all isDigit = true → SegmentFits s (packNum s.argPayload) →
      ∃ t, exec .segauto s = .next t ∧ Succeeded s t ∧ Appended s t 0x1 s.arg1.toNat (packNum s.argPayload)) ∧
    (s.argPayload.all isDigit = false → s.argPayload.all isAlnum = true → SegmentFits s (packAlnum s.argPayload) →
      ∃ t, exec .segauto s = .next t ∧ Succeeded s t ∧ Appended s t 0x2 s.arg1.toNat (packAlnum s.argPayload)) ∧
    (s.argPayload.all isDigit = false → s.argPayload.all isAlnum = false → SegmentFits s (packByte s.argPayload) →
      ∃ t, exec .segauto s = .next t ∧ Succeeded s t ∧ Appended s t 0x4 s.arg1.toNat (packByte s.argPayload))

/-- R188, R189, R361: a segment of more than 32767 bits, or one that SEGBUF has no room for, ends the SEG command with
SEG_TOO_LARGE, and the segment state and everything else is unchanged. -/
def Obligations.OversizeSegmentChangesNothing : Prop :=
  ∀ s : State, s.segCnt.toNat < 16 →
    (s.arg0.toNat + s.arg1.toNat ≤ 8192 →
      (s.argPayload.all isDigit = true → ¬SegmentFits s (packNum s.argPayload) →
        exec .segnum s = .next (s.withOutcome true false 0x01) ∧
        exec .segauto s = .next (s.withOutcome true false 0x01)) ∧
      (s.argPayload.all isAlnum = true → ¬SegmentFits s (packAlnum s.argPayload) →
        exec .segalnum s = .next (s.withOutcome true false 0x01) ∧
        (s.argPayload.all isDigit = false → exec .segauto s = .next (s.withOutcome true false 0x01))) ∧
      (¬SegmentFits s (packByte s.argPayload) →
        exec .segbyte s = .next (s.withOutcome true false 0x01) ∧
        (s.argPayload.all isAlnum = false → s.argPayload.all isDigit = false →
          exec .segauto s = .next (s.withOutcome true false 0x01)))) ∧
    (s.arg0.toNat < 1000000 → ¬SegmentFits s (packEci s.arg0.toNat) →
      exec .segeci s = .next (s.withOutcome true false 0x01))

/-! ### Negotiation and bitstream -/

/-- R214 to R218, R271: the columns of R218's tables (the side and the raw codewords by their formulas), the fall of the
capacity as the level rises, and at least one data byte in every short block. -/
def Obligations.CapacityTables : Prop :=
  (List.range' 1 40).map rawDataModules =
    [208, 359, 567, 807, 1079, 1383, 1568, 1936, 2336, 2768, 3232, 3728, 4256, 4651, 5243, 5867, 6523, 7211, 7931, 8683]
    ++ [9252, 10068, 10916, 11796, 12708, 13652, 14628, 15371, 16411, 17483, 18587, 19723, 20891, 22091, 23008, 24272]
    ++ [25568, 26896, 28256, 29648] ∧
  (List.range' 1 40).map bufLen =
    [57, 80, 107, 138, 173, 212, 255, 302, 353, 408, 467, 530, 597, 668, 743, 822, 905, 992, 1083, 1178, 1277, 1380]
    ++ [1487, 1598, 1713, 1832, 1955, 2082, 2213, 2348, 2487, 2630, 2777, 2928, 3083, 3242, 3405, 3572, 3743, 3918] ∧
  (List.range' 1 40).map (dataCodewords · 0) =
    [19, 34, 55, 80, 108, 136, 156, 194, 232, 274, 324, 370, 428, 461, 523, 589, 647, 721, 795, 861, 932, 1006, 1094]
    ++ [1174, 1276, 1370, 1468, 1531, 1631, 1735, 1843, 1955, 2071, 2191, 2306, 2434, 2566, 2702, 2812, 2956] ∧
  (List.range' 1 40).map (dataCodewords · 1) =
    [16, 28, 44, 64, 86, 108, 124, 154, 182, 216, 254, 290, 334, 365, 415, 453, 507, 563, 627, 669, 714, 782, 860]
    ++ [914, 1000, 1062, 1128, 1193, 1267, 1373, 1455, 1541, 1631, 1725, 1812, 1914, 1992, 2102, 2216, 2334] ∧
  (List.range' 1 40).map (dataCodewords · 2) =
    [13, 22, 34, 48, 62, 76, 88, 110, 132, 154, 180, 206, 244, 261, 295, 325, 367, 397, 445, 485, 512, 568, 614]
    ++ [664, 718, 754, 808, 871, 911, 985, 1033, 1115, 1171, 1231, 1286, 1354, 1426, 1502, 1582, 1666] ∧
  (List.range' 1 40).map (dataCodewords · 3) =
    [9, 16, 26, 36, 46, 60, 66, 86, 100, 122, 140, 158, 180, 197, 223, 253, 283, 313, 341, 385, 406, 442, 464]
    ++ [514, 538, 596, 628, 661, 701, 745, 793, 845, 901, 961, 986, 1054, 1096, 1142, 1222, 1276] ∧
  (List.range' 1 40).map (eccPerBlock 0) =
    [7, 10, 15, 20, 26, 18, 20, 24, 30, 18, 20, 24, 26, 30, 22, 24, 28, 30, 28, 28]
    ++ [28, 28, 30, 30, 26, 28, 30, 30, 30, 30, 30, 30, 30, 30, 30, 30, 30, 30, 30, 30] ∧
  (List.range' 1 40).map (eccPerBlock 1) =
    [10, 16, 26, 18, 24, 16, 18, 22, 22, 26, 30, 22, 22, 24, 24, 28, 28, 26, 26, 26]
    ++ [26, 28, 28, 28, 28, 28, 28, 28, 28, 28, 28, 28, 28, 28, 28, 28, 28, 28, 28, 28] ∧
  (List.range' 1 40).map (eccPerBlock 2) =
    [13, 22, 18, 26, 18, 24, 18, 22, 20, 24, 28, 26, 24, 20, 30, 24, 28, 28, 26, 30]
    ++ [28, 30, 30, 30, 30, 28, 30, 30, 30, 30, 30, 30, 30, 30, 30, 30, 30, 30, 30, 30] ∧
  (List.range' 1 40).map (eccPerBlock 3) =
    [17, 28, 22, 16, 22, 28, 26, 26, 24, 28, 24, 28, 22, 24, 24, 30, 28, 28, 26, 28]
    ++ [30, 24, 30, 30, 30, 30, 30, 30, 30, 30, 30, 30, 30, 30, 30, 30, 30, 30, 30, 30] ∧
  (List.range' 1 40).map (numBlocks 0) =
    [1, 1, 1, 1, 1, 2, 2, 2, 2, 4, 4, 4, 4, 4, 6, 6, 6, 6, 7, 8]
    ++ [8, 9, 9, 10, 12, 12, 12, 13, 14, 15, 16, 17, 18, 19, 19, 20, 21, 22, 24, 25] ∧
  (List.range' 1 40).map (numBlocks 1) =
    [1, 1, 1, 2, 2, 4, 4, 4, 5, 5, 5, 8, 9, 9, 10, 10, 11, 13, 14, 16]
    ++ [17, 17, 18, 20, 21, 23, 25, 26, 28, 29, 31, 33, 35, 37, 38, 40, 43, 45, 47, 49] ∧
  (List.range' 1 40).map (numBlocks 2) =
    [1, 1, 2, 2, 4, 4, 6, 6, 8, 8, 8, 10, 12, 16, 12, 17, 16, 18, 21, 20]
    ++ [23, 23, 25, 27, 29, 34, 34, 35, 38, 40, 43, 45, 48, 51, 53, 56, 59, 62, 65, 68] ∧
  (List.range' 1 40).map (numBlocks 3) =
    [1, 1, 2, 4, 4, 4, 5, 6, 8, 8, 11, 11, 16, 16, 18, 16, 19, 21, 25, 25]
    ++ [25, 34, 30, 32, 35, 37, 40, 42, 45, 48, 51, 54, 57, 60, 63, 66, 70, 74, 77, 81] ∧
  (∀ v ∈ List.range' 1 40, rawCodewords v = rawDataModules v / 8 ∧ side v = 4 * v + 17 ∧
    dataCodewords v 1 < dataCodewords v 0 ∧ dataCodewords v 2 < dataCodewords v 1 ∧
    dataCodewords v 3 < dataCodewords v 2 ∧
    ∀ e < 4, dataCodewords v e + eccPerBlock e v * numBlocks e v = rawCodewords v ∧ 1 ≤ shortBlockDataLen v e ∧
      7 ≤ eccPerBlock e v ∧ eccPerBlock e v ≤ 30)

/-- R219: totalBits is the sum over the segments of 4, the count width and the data length; it is NONE exactly where a
character count does not fit its field or the sum exceeds 32767. -/
def Obligations.TotalBitsIsTheSum : Prop :=
  ∀ (S : List SegDesc) (v t : Nat), LegalVersion v → (∀ d ∈ S, d.mode.toNat ∈ [0x1, 0x2, 0x4, 0x7, 0x8]) →
    (totalBits S v = some t ↔
      (∀ d ∈ S, d.numChars.toNat ≤ 2 ^ (ccb d.mode.toNat v).getD 0 - 1) ∧
      t = (S.map fun d => 4 + (ccb d.mode.toNat v).getD 0 + d.bitLen.toNat).sum ∧ t ≤ 32767)

/-- R220, R221: negotiation answers the first version of the range whose total bits fit the requested level, and with
BOOST the highest level from the request up that still holds them at that version, else the requested level; it answers
NONE exactly where no version of the range fits. -/
def Obligations.NegotiationTakesFirstFit : Prop :=
  ∀ (S : List SegDesc) (ecl vmin vmax : Nat) (boost : Bool), 1 ≤ vmin → vmin ≤ vmax → vmax ≤ 40 → ecl ≤ 3 →
    let fits := fun v => ∃ t, totalBits S v = some t ∧ t ≤ dataCodewords v ecl * 8
    (∀ v e t, negotiate S ecl vmin vmax boost = some (v, e, t) ↔
      vmin ≤ v ∧ v ≤ vmax ∧ totalBits S v = some t ∧ t ≤ dataCodewords v ecl * 8 ∧
      (∀ u, vmin ≤ u → u < v → ¬fits u) ∧
      (boost = false → e = ecl) ∧
      (boost = true → ecl ≤ e ∧ e ≤ 3 ∧ t ≤ dataCodewords v e * 8 ∧
        ∀ n, e < n → n ≤ 3 → dataCodewords v n * 8 < t)) ∧
    (negotiate S ecl vmin vmax boost = none ↔ ∀ v, vmin ≤ v → v ≤ vmax → ¬fits v)

/-- R230: with a legal CFG and a segment, NEGOT writes the negotiated version, level and side to RESULT (MASK kept, as R230
says and R405 does not: the model's choice, assumption 19) and the used and available bits to RES0 and RES1, or, where nothing fits, clears RESULT, RES0 and RES1 and ends with NO_FIT;
nothing else changes, no buffer among it. -/
def Obligations.NegotReportsTheChoice : Prop :=
  ∀ s : State, CfgVersionsLegal s → 1 ≤ s.segCnt.toNat →
    (∀ v e b, negotiate s.segs s.cfg.ecl.toNat s.cfg.minVer.toNat s.cfg.maxVer.toNat s.cfg.boost = some (v, e, b) →
      ∃ t, exec .negot s = .next t ∧ Succeeded s t ∧
        t.result.version.toNat = v ∧ t.result.ecl.toNat = e ∧ t.result.mask = s.result.mask ∧
        t.result.size.toNat = 4 * v + 17 ∧ t.res0.toNat = b ∧ t.res1.toNat = dataCodewords v e * 8 ∧
        t = { s with
          eng := t.eng
          status := t.status
          errcode := t.errcode
          result := t.result
          res0 := t.res0
          res1 := t.res1 }) ∧
    (negotiate s.segs s.cfg.ecl.toNat s.cfg.minVer.toNat s.cfg.maxVer.toNat s.cfg.boost = none →
      exec .negot s = .next (({ s with result := ⟨0, 0, 0, 0⟩, res0 := 0, res1 := 0 } : State).withOutcome
        true false 0x02))

/-- R222: where the total is defined, the concatenated stream has that length, and each segment stands at the total of
the segments before it: 4 bits of mode, its count in the width of R213, then its SEGBUF bits. -/
def Obligations.StreamLayout : Prop :=
  ∀ (s : State) (v b : Nat), totalBits s.segs v = some b →
    (s.stream v).length = b ∧
    ∀ k d, s.segs[k]? = some d → ∃ c o, ccb d.mode.toNat v = some c ∧ totalBits (s.segs.take k) v = some o ∧
      bitsAt (s.stream v) o 4 = d.mode.toNat ∧ bitsAt (s.stream v) (o + 4) c = d.numChars.toNat ∧
      ∀ j < d.bitLen.toNat, (s.stream v)[o + 4 + c + j]? = some (s.mem.readBitMsb 0x3000 (d.bitOff.toNat + j))

/-- R223, R224: an assembled stream fills its capacity exactly: the stream, at most four terminator zeros, zeros to the
byte boundary, then 0xEC and 0x11 in turn. -/
def Obligations.AssemblyFillsCapacity : Prop :=
  ∀ (v e : Nat) (b : List Bool), LegalVersion v → e ≤ 3 → b.length ≤ dataCodewords v e * 8 →
    let n := (b.length + min 4 (dataCodewords v e * 8 - b.length) + 7) / 8
    (assembleBytes v e b).length = dataCodewords v e ∧ n ≤ dataCodewords v e ∧
    (∀ i < b.length, codewordBit (assembleBytes v e b) i = b.getD i false) ∧
    (∀ i, b.length ≤ i → i < 8 * n → codewordBit (assembleBytes v e b) i = false) ∧
    (∀ k, n ≤ k → k < dataCodewords v e →
      (assembleBytes v e b)[k]? = some (if (k - n) % 2 = 0 then 0xEC else 0x11))

/-- R231: with a legal version and level and a segment, ASSEMBLE writes the assembled codewords to DATABUF and the used
and available bits to RES0 and RES1, and changes nothing else; where the segments do not fit it ends with NO_FIT and
writes nothing. -/
def Obligations.AssembleFillsDatabuf : Prop :=
  ∀ (s : State) (v e : Nat), LegalVersion v → e ≤ 3 → 1 ≤ s.segCnt.toNat →
    (∀ b, totalBits s.segs v = some b → b ≤ dataCodewords v e * 8 →
      ∃ t, exec (.assemble v e) s = .next t ∧ Succeeded s t ∧
        t.mem.readBytes 0x4000 (dataCodewords v e) = assembleBytes v e (s.stream v) ∧
        t.res0.toNat = b ∧ t.res1.toNat = dataCodewords v e * 8 ∧
        (∀ a, a < 0x4000 ∨ 0x4000 + dataCodewords v e ≤ a → t.mem.read a = s.mem.read a) ∧
        t = { s with
          eng := t.eng
          status := t.status
          errcode := t.errcode
          res0 := t.res0
          res1 := t.res1
          mem := t.mem }) ∧
    ((∀ b, totalBits s.segs v = some b → dataCodewords v e * 8 < b) →
      exec (.assemble v e) s = .next (s.withOutcome true false 0x02))

/-- R213, R232, R233, R234, R272: the table queries, on legal operands, write the table's values to RES0 (and TBLQ and
ALIGNQ to RES1) in the fields the rules name, and change nothing else. The alignment positions are those of R272's table:
none for version 1; else they begin with 6, end with the side less 7 and rise. -/
def Obligations.TableQueriesAnswer : Prop :=
  (∀ (m v : Nat) (s : State), m ∈ [0x1, 0x2, 0x4, 0x7, 0x8] → LegalVersion v →
    exec (.ccbq m v) s = .next (({ s with
      res0 := BitVec.ofNat 32 (
        let row := if m = 0x1 then [10, 12, 14] else if m = 0x2 then [9, 11, 13] else if m = 0x4 then [8, 16, 16]
          else if m = 0x8 then [8, 10, 12] else [0, 0, 0]
        row.getD (if v ≤ 9 then 0 else if v ≤ 26 then 1 else 2) 0) } : State).withOutcome false false 0)) ∧
  (∀ (v e : Nat) (s : State), LegalVersion v → e ≤ 3 →
    ∃ t, exec (.tblq v e) s = .next t ∧ Succeeded s t ∧
      t.res0.toNat = dataCodewords v e + rawCodewords v * 65536 ∧
      t.res1.toNat = eccPerBlock e v + numBlocks e v * 256 + bufLen v * 65536 ∧
      t = { s with eng := t.eng, status := t.status, errcode := t.errcode, res0 := t.res0, res1 := t.res1 }) ∧
  (∀ (v : Nat) (s : State), LegalVersion v →
    ∃ t, exec (.alignq v) s = .next t ∧ Succeeded s t ∧
      t.res1.toNat / 2 ^ 24 = (alignRow v).length ∧
      (∀ i < 7, (if i < 4 then t.res0.toNat / 2 ^ (8 * i) else t.res1.toNat / 2 ^ (8 * (i - 4))) % 256 =
        (alignRow v).getD i 0) ∧
      t = { s with eng := t.eng, status := t.status, errcode := t.errcode, res0 := t.res0, res1 := t.res1 }) ∧
  (∀ v, LegalVersion v → alignPositions v = alignRow v) ∧
  (alignPositions 1 = [] ∧ ∀ v, 2 ≤ v → v ≤ 40 → (alignPositions v).length = v / 7 + 2 ∧
    (alignPositions v).head? = some 6 ∧ (alignPositions v).getLast? = some (side v - 7) ∧
    (alignPositions v).Pairwise (· < ·))

/-! ### Interleaving -/

/-- R253: where each data and ECC byte of each block stands in the interleaved sequence, whose length is the raw codeword
count (R250, R251, R252). -/
def Obligations.InterleaveClosedForm : Prop :=
  ∀ (v e : Nat) (data : List Byte), LegalVersion v → e ≤ 3 → data.length = dataCodewords v e →
    let nb := numBlocks e v
    let ecc := eccPerBlock e v
    let ns := nb - rawCodewords v % nb
    let sl := rawCodewords v / nb - ecc
    let start := fun i => ((List.range i).map fun j => sl + if j < ns then 0 else 1).sum
    let len := fun i => sl + if i < ns then 0 else 1
    let out := interleaved v e data
    out.length = rawCodewords v ∧ start nb = dataCodewords v e ∧
    ∀ i < nb,
      (∀ j < sl, out[j * nb + i]? = data[start i + j]?) ∧
      (ns ≤ i → out[sl * nb + (i - ns)]? = data[start i + sl]?) ∧
      (∀ j < ecc, out[dataCodewords v e + j * nb + i]? =
        (rsRemainder ((data.drop (start i)).take (len i)) (rsDivisor ecc))[j]?)

/-- R254, R255: on a legal version and level INTERLEAVE writes the interleaved sequence of DATABUF to CWBUF, the generator
to GEN and the last block's remainder to REM, each padded with zeros, and changes nothing else. -/
def Obligations.InterleaveFillsCwbuf : Prop :=
  ∀ (s : State) (v e : Nat), LegalVersion v → e ≤ 3 →
    let data := s.mem.readBytes 0x4000 (dataCodewords v e)
    let last := data.drop (dataCodewords v e - (shortBlockDataLen v e +
      if rawCodewords v % numBlocks e v = 0 then 0 else 1))
    ∃ t, exec (.interleave v e) s = .next t ∧ Succeeded s t ∧
      t.mem.readBytes 0x5000 (rawCodewords v) = interleaved v e data ∧
      (∀ a, a < 0x5000 ∨ 0x5000 + rawCodewords v ≤ a → t.mem.read a = s.mem.read a) ∧
      (∀ k < 30, t.gen.toList.getD k 0 = if k < eccPerBlock e v then (rsDivisor (eccPerBlock e v)).getD k 0 else 0) ∧
      (∀ k < 30, t.rem.toList.getD k 0 = if k < eccPerBlock e v
        then (rsRemainder last (rsDivisor (eccPerBlock e v))).getD k 0 else 0) ∧
      t = { s with eng := t.eng, status := t.status, errcode := t.errcode, gen := t.gen, rem := t.rem, mem := t.mem }

/-! ### The matrix -/

/-- R273, R274, R278, R280: MINIT of a version 1 to 40 writes to MATRIX and FUNCMAP the size byte and a picture that is
dark exactly on the function regions, with the bits of the last byte that stand for no module 0, and changes nothing
else. -/
def Obligations.MinitMarksFunctionRegions : Prop :=
  ∀ (s : State) (v : Nat), LegalVersion v →
    ∃ t, exec (.minit v) s = .next t ∧ Succeeded s t ∧ SymbolIs t v ∧
      (∀ x y, x < 4 * v + 17 → y < 4 * v + 17 →
        moduleDark t.mem (4 * v + 17) x y = functionModule v x y ∧
        moduleFunction t.mem (4 * v + 17) x y = functionModule v x y) ∧
      (∀ n, (4 * v + 17) * (4 * v + 17) ≤ n → n < 8 * (bufLen v - 1) →
        moduleBit t.mem 0x7000 n = false ∧ moduleBit t.mem 0x6000 n = false) ∧
      (∀ a, a < 0x6000 ∨ 0x6000 + bufLen v ≤ a ∧ a < 0x7000 ∨ 0x7000 + bufLen v ≤ a →
        t.mem.read a = s.mem.read a) ∧
      t = { s with eng := t.eng, status := t.status, errcode := t.errcode, mem := t.mem }

/-- R216, R275, R279: the scan of R275: its k-th column pair, from the right edge on and past column 6, is read row by row,
the right column first, upward for even k and downward for odd k. The modules that are no function modules number
rawDataModules(v), and the scan visits each of them exactly once and no other of them. -/
def Obligations.ZigzagVisitsEachDataModuleOnce : Prop :=
  ∀ v, LegalVersion v →
    let size := 4 * v + 17
    (zigzag size).length = size * (size - 1) ∧
    (∀ k i j, k < (size - 1) / 2 → i < size → j < 2 → (zigzag size)[2 * (k * size + i) + j]? = some
      ((if 6 < size - 1 - 2 * k then size - 1 - 2 * k else size - 2 - 2 * k) - j,
        if k % 2 = 0 then size - 1 - i else i)) ∧
    (dataOrder (side v) (functionModule v)).Nodup ∧
    (∀ x y, (x, y) ∈ dataOrder (side v) (functionModule v) ↔ x < side v ∧ y < side v ∧ functionModule v x y = false) ∧
    (dataOrder (side v) (functionModule v)).length = rawDataModules v

/-- R275, R281: where MATRIX[0] and FUNCMAP[0] are the size of version `v`, MPLACE gives the k-th module of R275's
order that FUNCMAP leaves to data bit k of the codewords in CWBUF, while there are bits; every other module and everything
else keeps its value. The order is written out: column pairs from the right edge on and past column 6, row by row, the right
column first, upward in the first pair and then in turn. -/
def Obligations.MplacePlacesCodewords : Prop :=
  ∀ (s : State) (v : Nat), SymbolIs s v →
    let size := 4 * v + 17
    let scan := (List.range ((size - 1) / 2)).flatMap fun k => (List.range size).flatMap fun i =>
      let right := if 6 < size - 1 - 2 * k then size - 1 - 2 * k else size - 2 - 2 * k
      let y := if k % 2 = 0 then size - 1 - i else i
      [(right, y), (right - 1, y)]
    let order := scan.filter fun p => !moduleFunction s.mem size p.1 p.2
    let cw := s.mem.readBytes 0x5000 (rawCodewords v)
    ∃ t, exec .mplace s = .next t ∧ Succeeded s t ∧
      MatrixBecomes s t v (fun x y =>
        if (x, y) ∈ order.take (8 * rawCodewords v) then codewordBit cw (order.idxOf (x, y))
        else moduleDark s.mem (side v) x y) ∧
      t = { s with eng := t.eng, status := t.status, errcode := t.errcode, mem := t.mem }

/-- R276, R277, R282: where MATRIX[0] is the size of version `v`, MLIGHT draws the version bits, of each alignment pattern
the centre dark and the ring at distance 1 light, the finder rings at distance 2 and 4 light and the odd timing modules
light; every other module and everything else keeps its value. It writes function modules only, and running it again
changes no module. The version values are R276's table, the alignment positions R272's. -/
def Obligations.MlightDrawsLightParts : Prop :=
  (List.range' 7 34).map versionBits =
    [0x07C94, 0x085BC, 0x09A99, 0x0A4D3, 0x0BBF6, 0x0C762, 0x0D847, 0x0E60D, 0x0F928, 0x10B78, 0x1145D, 0x12A17]
    ++ [0x13532, 0x149A6, 0x15683, 0x168C9, 0x177EC, 0x18EC4, 0x191E1, 0x1AFAB, 0x1B08E, 0x1CC1A, 0x1D33F]
    ++ [0x1ED75, 0x1F250, 0x209D5, 0x216F0, 0x228BA, 0x2379F, 0x24B0B, 0x2542E, 0x26A64, 0x27541, 0x28C69] ∧
  ∀ v, LegalVersion v →
    let size := 4 * v + 17
    let drawn : Nat → Nat → Option Bool := fun x y =>
      if 7 ≤ v ∧ size - 11 ≤ x ∧ x < size - 8 ∧ y < 6 then some ((versionBits v).testBit (3 * y + (x - (size - 11))))
      else if 7 ≤ v ∧ x < 6 ∧ size - 11 ≤ y ∧ y < size - 8 then
        some ((versionBits v).testBit (3 * x + (y - (size - 11))))
      else if nearAlign v x y (fun d => d == 0) then some true
      else if nearAlign v x y (fun d => d == 1) then some false
      else if [(3, 3), (size - 4, 3), (3, size - 4)].any (fun c => ring c.1 c.2 x y == 2 || ring c.1 c.2 x y == 4) then
        some false
      else if (x = 6 ∧ 7 ≤ y ∧ y < size - 7 ∧ y % 2 = 1) ∨ (y = 6 ∧ 7 ≤ x ∧ x < size - 7 ∧ x % 2 = 1) then some false
      else none
    (∀ w ∈ lightWrites v, functionModule v w.1 w.2.1 = true) ∧
    (∀ x y, x < size → y < size → lastColour (lightWrites v) x y = drawn x y) ∧
    ∀ s, MatrixIs s v → ∃ t, exec .mlight s = .next t ∧ Succeeded s t ∧
      MatrixBecomes s t v (fun x y => (drawn x y).getD (moduleDark s.mem (side v) x y)) ∧
      t = { s with eng := t.eng, status := t.status, errcode := t.errcode, mem := t.mem } ∧
      ∃ u, exec .mlight t = .next u ∧ ∀ a, u.mem.read a = t.mem.read a

/-! ### Masks -/

/-- R300, R301, R310: where the sizes agree, MASK inverts exactly the modules that FUNCMAP does not mark and the mask's
predicate holds of, and everything else keeps its value; the same mask again restores every byte. -/
def Obligations.MaskInvertsDataModules : Prop :=
  ∀ (s : State) (v k : Nat), SymbolIs s v → k ≤ 7 →
    let inverts := fun x y =>
      if k = 0 then (x + y) % 2 = 0 else if k = 1 then y % 2 = 0 else if k = 2 then x % 3 = 0
      else if k = 3 then (x + y) % 3 = 0 else if k = 4 then (x / 3 + y / 2) % 2 = 0
      else if k = 5 then (x * y) % 2 + (x * y) % 3 = 0 else if k = 6 then ((x * y) % 2 + (x * y) % 3) % 2 = 0
      else ((x + y) % 2 + (x * y) % 3) % 2 = 0
    ∃ t, exec (.mask k) s = .next t ∧ Succeeded s t ∧
      MatrixBecomes s t v (fun x y => moduleDark s.mem (side v) x y ^^
        (!moduleFunction s.mem (side v) x y && decide (inverts x y))) ∧
      t = { s with eng := t.eng, status := t.status, errcode := t.errcode, mem := t.mem } ∧
      ∃ u, exec (.mask k) t = .next u ∧ ∀ a, u.mem.read a = s.mem.read a

/-- R302, R303, R313: the format value of every level and mask; and where MATRIX[0] is the size of version `v`, FORMAT
draws its 15 bits twice and the dark module, writes the value to RES0, and changes nothing else. -/
def Obligations.FormatDrawsBothCopies : Prop :=
  (List.range 8).map (formatBits 0) = [0x77C4, 0x72F3, 0x7DAA, 0x789D, 0x662F, 0x6318, 0x6C41, 0x6976] ∧
  (List.range 8).map (formatBits 1) = [0x5412, 0x5125, 0x5E7C, 0x5B4B, 0x45F9, 0x40CE, 0x4F97, 0x4AA0] ∧
  (List.range 8).map (formatBits 2) = [0x355F, 0x3068, 0x3F31, 0x3A06, 0x24B4, 0x2183, 0x2EDA, 0x2BED] ∧
  (List.range 8).map (formatBits 3) = [0x1689, 0x13BE, 0x1CE7, 0x19D0, 0x0762, 0x0255, 0x0D0C, 0x083B] ∧
  ∀ (s : State) (v e k : Nat), MatrixIs s v → e ≤ 3 → k ≤ 7 →
    let size := 4 * v + 17
    let f := formatBits e k
    ∃ t, exec (.format e k) s = .next t ∧ Succeeded s t ∧ t.res0.toNat = f ∧
      MatrixBecomes s t v (fun x y =>
        if x = 8 ∧ y = size - 8 then true
        else if x = 8 ∧ y ≤ 5 then f.testBit y
        else if x = 8 ∧ (y = 7 ∨ y = 8) then f.testBit (y - 1)
        else if y = 8 ∧ x = 7 then f.testBit 8
        else if y = 8 ∧ x ≤ 5 then f.testBit (14 - x)
        else if y = 8 ∧ size - 8 ≤ x then f.testBit (size - 1 - x)
        else if x = 8 ∧ size - 7 ≤ y then f.testBit (y + 15 - size)
        else moduleDark s.mem (side v) x y) ∧
      t = { s with eng := t.eng, status := t.status, errcode := t.errcode, res0 := t.res0, mem := t.mem }

/-- R305: what a line adds to N1: each maximal run of one colour of length L, 5 or more, adds L - 2. -/
def Obligations.RunScoreCountsMaximalRuns : Prop :=
  ∀ (size : Nat) (line : List Bool),
    (scanLine size line).1 = ((line.splitBy (· == ·)).map fun run => if 5 ≤ run.length then run.length - 2 else 0).sum

/-- R309: every score of every matrix of every version is at most 2703768, below 2^22, so that PENALTY and RES0 hold it
exactly. -/
def Obligations.PenaltyScoreRange : Prop :=
  ∀ (v : Nat) (m : Modules), LegalVersion v →
    penaltyN1 m (side v) ≤ 61950 ∧ penaltyN2 m (side v) ≤ 92928 ∧ penaltyN3 m (side v) ≤ 2548800 ∧
    penaltyN4 m (side v) ≤ 90 ∧ penaltyScore m (side v) ≤ 2703768 ∧ penaltyScore m (side v) < 2 ^ 22

/-- R304, R306, R307, R308, R311: where MATRIX[0] is the size of version `v`, PENALTY writes to PENALTY and RES0 the sum of
the four terms, to RES1 the number of dark modules, and changes nothing else. N1 is the sum of what each row and column adds
(RunScoreCountsMaximalRuns); N2 is 3 for each 2 by 2 block of one colour; N4 follows R308's formula. N3: a row or column is
set between two light borders of one side each and cut into its runs; seven runs in a row, the first light, the next five of
the lengths n, n, 3n, n, n, add 40 where the first is at least 4n and the seventh at least n, and 40 where the seventh is at
least 4n and the first at least n (so 80 where both are at least 4n). -/
def Obligations.PenaltyReportsTheScore : Prop :=
  ∀ (s : State) (v : Nat), MatrixIs s v →
    let size := 4 * v + 17
    let dark := moduleDark s.mem size
    let total := size * size
    let count := ((allModules size).filter fun p => dark p.1 p.2).length
    let lines := (List.range size).map (fun y => (List.range size).map fun x => dark x y)
      ++ (List.range size).map (fun x => (List.range size).map fun y => dark x y)
    let n3 := fun line : List Bool =>
      let border := List.replicate size false
      let runs := ((border ++ line ++ border).splitBy (· == ·)).map List.length
      ((List.range runs.length).map fun k =>
        let run := fun i => runs.getD (k + i) 0
        let n := run 1
        if k % 2 = 0 ∧ k + 6 < runs.length ∧ run 2 = n ∧ run 3 = 3 * n ∧ run 4 = n ∧ run 5 = n then
          (if 4 * n ≤ run 0 ∧ n ≤ run 6 then 40 else 0) + (if n ≤ run 0 ∧ 4 * n ≤ run 6 then 40 else 0)
        else 0).sum
    let n2 := 3 * ((allModules (size - 1)).filter fun p => dark p.1 p.2 == dark (p.1 + 1) p.2
      && dark p.1 p.2 == dark p.1 (p.2 + 1) && dark p.1 p.2 == dark (p.1 + 1) (p.2 + 1)).length
    let n4 := 10 * (((20 * (count : Int) - 10 * total).natAbs + total - 1) / total - 1)
    ∃ t, exec .penalty s = .next t ∧ Succeeded s t ∧
      t.penalty.toNat = (lines.map fun line => (scanLine size line).1).sum + n2 + (lines.map n3).sum + n4 ∧
      t.res0 = t.penalty ∧ t.res1.toNat = count ∧
      t = { s with
        eng := t.eng
        status := t.status
        errcode := t.errcode
        penalty := t.penalty
        res0 := t.res0
        res1 := t.res1 }

/-- R312: where the sizes agree, MSELECT applies a mask to the symbol as it stood and draws its format information: the
selected one, with RES1 0 and PENALTY kept; or for selector 8 the lowest-numbered mask among those of the lowest score,
each scored on the symbol as it stood with its own format information, with that score in PENALTY and RES1. RES0 and
RESULT.MASK hold the mask; nothing else changes. -/
def Obligations.MselectAppliesChosenMask : Prop :=
  ∀ (s : State) (v e sel : Nat), SymbolIs s v → e ≤ 3 → sel ≤ 8 →
    let score := fun k => trialScore (side v) e (s.matrix v) (s.funcmap v) k
    ∃ t best, exec (.mselect e sel) s = .next t ∧ Succeeded s t ∧ best ≤ 7 ∧
      (sel ≤ 7 → best = sel ∧ t.res1 = 0 ∧ t.penalty = s.penalty) ∧
      (sel = 8 → (∀ k ≤ 7, score best ≤ score k) ∧ (∀ k < best, score best < score k) ∧
        t.penalty.toNat = score best ∧ t.res1 = t.penalty) ∧
      t.res0.toNat = best ∧ t.result.mask.toNat = best ∧
      MatrixBecomes s t v (fun x y => (lastColour (formatWrites (side v) (formatBits e best)) x y).getD
        (moduleDark s.mem (side v) x y ^^ (!moduleFunction s.mem (side v) x y && invert best x y))) ∧
      t = { s with
        eng := t.eng
        status := t.status
        errcode := t.errcode
        penalty := t.penalty
        res0 := t.res0
        res1 := t.res1
        result := { s.result with mask := t.result.mask }
        mem := t.mem }

/-! ### Whole-pipeline commands -/

/-- R340: where negotiation succeeds, ENCSEG ends in the state that NEGOT, ASSEMBLE, INTERLEAVE, MINIT, MPLACE, MLIGHT
and MSELECT run in turn end in, but for RES0 and RES1, which hold the used and available bits. That RES1 is the available
bits with an explicit mask too, as R340 says and D28 does not, is the model's choice (assumption 21). -/
def Obligations.EncsegRunsTheStagesInTurn : Prop :=
  ∀ (s : State) (v e b : Nat), CfgLegal s → 1 ≤ s.segCnt.toNat →
    negotiate s.segs s.cfg.ecl.toNat s.cfg.minVer.toNat s.cfg.maxVer.toNat s.cfg.boost = some (v, e, b) →
    ∃ u t, runCommands [.negot, .assemble v e, .interleave v e, .minit v, .mplace, .mlight,
        .mselect e s.cfg.mask.toNat] s = .next u ∧
      exec .encseg s = .next t ∧ Succeeded s t ∧ t = { u with res0 := t.res0, res1 := t.res1 } ∧
      t.res0.toNat = b ∧ t.res1.toNat = dataCodewords v e * 8

/-- R340, R341, R346: where negotiation succeeds, ENCSEG succeeds; RESULT holds version, level, mask and side, RES0 and
RES1 the used and available bits; MATRIX[0] is RESULT.SIZE; an explicit mask is the one applied and leaves PENALTY; the
segment state, PAYLOAD, SEGBUF and the bytes after the written parts of each buffer keep their values. That RES1 is
the available bits with an explicit mask too, as R340 says and D28 does not, is the model's choice (assumption 21). -/
def Obligations.EncsegSucceeds : Prop :=
  ∀ (s : State) (v e b : Nat), CfgLegal s → 1 ≤ s.segCnt.toNat →
    negotiate s.segs s.cfg.ecl.toNat s.cfg.minVer.toNat s.cfg.maxVer.toNat s.cfg.boost = some (v, e, b) →
    ∃ t, exec .encseg s = .next t ∧ Succeeded s t ∧
      t.result.version.toNat = v ∧ t.result.ecl.toNat = e ∧ t.result.size.toNat = 4 * v + 17 ∧
      t.mem.read 0x7000 = t.result.size ∧ t.mem.read 0x6000 = t.result.size ∧
      (s.cfg.mask.toNat ≤ 7 → t.result.mask.toNat = s.cfg.mask.toNat ∧ t.penalty = s.penalty) ∧
      t.res0.toNat = b ∧ t.res1.toNat = dataCodewords v e * 8 ∧
      (∀ a, a < 0x4000 ∨ 0x4000 + dataCodewords v e ≤ a ∧ a < 0x5000 ∨ 0x5000 + rawCodewords v ≤ a ∧ a < 0x6000 ∨
        0x6000 + bufLen v ≤ a ∧ a < 0x7000 ∨ 0x7000 + bufLen v ≤ a → t.mem.read a = s.mem.read a) ∧
      t = { s with
        eng := t.eng
        status := t.status
        errcode := t.errcode
        result := t.result
        res0 := t.res0
        res1 := t.res1
        penalty := t.penalty
        gen := t.gen
        rem := t.rem
        mem := t.mem }

/-- R225, R254, R274 to R277, R301, R303, R340: the symbol ENCSEG builds. Its k-th data module in the zigzag order is bit
k of the interleaved codewords of the assembled stream (light for the remainder modules), inverted where the applied mask
holds; its function modules are drawn by the format, else by MLIGHT's writes, else dark; with an automatic mask, the
applied mask has the lowest score of the eight symbols so built, and PENALTY holds that score. -/
def Obligations.EncsegDrawsTheSymbol : Prop :=
  ∀ (s : State) (v e b : Nat), CfgLegal s → 1 ≤ s.segCnt.toNat →
    negotiate s.segs s.cfg.ecl.toNat s.cfg.minVer.toNat s.cfg.maxVer.toNat s.cfg.boost = some (v, e, b) →
    let cw := interleaved v e (assembleBytes v e (s.stream v))
    let order := dataOrder (side v) (functionModule v)
    let colour := fun (mask x y : Nat) =>
      if functionModule v x y then
        ((lastColour (formatWrites (side v) (formatBits e mask)) x y).or (lastColour (lightWrites v) x y)).getD true
      else
        (if order.idxOf (x, y) < 8 * rawCodewords v then codewordBit cw (order.idxOf (x, y)) else false)
          ^^ invert mask x y
    let score := fun mask => penaltyScore (draw (side v) 0 ((allModules (side v)).map fun p =>
      (p.1, p.2, colour mask p.1 p.2))) (side v)
    ∃ t, exec .encseg s = .next t ∧ Succeeded s t ∧
      t.mem.readBytes 0x4000 (dataCodewords v e) = assembleBytes v e (s.stream v) ∧
      t.mem.readBytes 0x5000 (rawCodewords v) = cw ∧
      (∀ x y, x < side v → y < side v →
        moduleDark t.mem (side v) x y = colour t.result.mask.toNat x y ∧
        moduleFunction t.mem (side v) x y = functionModule v x y) ∧
      (s.cfg.mask.toNat = 8 → t.penalty.toNat = score t.result.mask.toNat ∧
        (∀ k ≤ 7, score t.result.mask.toNat ≤ score k) ∧
        ∀ k < t.result.mask.toNat, score t.result.mask.toNat < score k)

/-- R342, R343: where the payload's one segment fits SEGBUF, ENCTEXT ends in the state that SEGCLR, SEGAUTO over
PAYLOAD[0..PLEN-1] and ENCSEG run in turn end in, ENCBIN with SEGBYTE in place of SEGAUTO, ARG0 and ARG1 being neither
read nor changed; and each succeeds where some version of the range holds that segment at the requested level. Where the
outcome is NO_FIT, the equality also covers DATABUF, CWBUF, GEN, REM, MATRIX, FUNCMAP and PENALTY, which R345 leaves
unspecified: there it holds by the model's choice alone, since both sides take their free values from one draw number
(assumptions 4 and 5), and says nothing of the hardware. -/
def Obligations.EnctextIsSegautoThenEncseg : Prop :=
  ∀ s : State, CfgLegal s → s.plen.toNat ≤ 8192 →
    let s' : State := { s with arg0 := 0, arg1 := s.plen.setWidth 32 }
    let p := s.mem.readBytes 0x1000 s.plen.toNat
    let fits := fun mode bits => ∃ v width, s.cfg.minVer.toNat ≤ v ∧ v ≤ s.cfg.maxVer.toNat ∧
      ccb mode v = some width ∧ s.plen.toNat ≤ 2 ^ width - 1 ∧ 4 + width + bits ≤ dataCodewords v s.cfg.ecl.toNat * 8
    ((autoPack p).length ≤ 32767 → ∃ u,
      runCommands [.segclr, .segauto, .encseg] s' = .next u ∧
      exec .enctext s = .next { u with arg0 := s.arg0, arg1 := s.arg1 } ∧ u.segCnt = 1) ∧
    ((packByte p).length ≤ 32767 → ∃ u,
      runCommands [.segclr, .segbyte, .encseg] s' = .next u ∧
      exec .encbin s = .next { u with arg0 := s.arg0, arg1 := s.arg1 } ∧ u.segCnt = 1) ∧
    (fits (if p.all isDigit then 1 else if p.all isAlnum then 2 else 4) (autoPack p).length →
      ∃ t, exec .enctext s = .next t ∧ Succeeded s t ∧ t.segCnt = 1) ∧
    (fits 4 (8 * s.plen.toNat) → ∃ t, exec .encbin s = .next t ∧ Succeeded s t ∧ t.segCnt = 1)

/-- R345, R361: an encoding command that is not encodable leaves RESULT, RES0 and RES1 0, and every register, PAYLOAD and
SEGBUF byte outside the list that R345 leaves unspecified as it was, but that ENCTEXT and ENCBIN leave SEGCNT and SEGBITS 0
after SEG_TOO_LARGE, and after NO_FIT SEGCNT 1 with the built segment: its bits at the start of SEGBUF, their number in
SEGBITS, its descriptor in SEGTAB[0]. -/
def Obligations.EncodeFailureState : Prop :=
  ∀ (i : Instr) (s t : State), i = .encseg ∨ i = .enctext ∨ i = .encbin → exec i s = .next t → t.status.fail = true →
    let p := s.mem.readBytes 0x1000 s.plen.toNat
    let mode : BitVec 4 := if i = .encbin then 0x4 else if p.all isDigit then 0x1 else if p.all isAlnum then 0x2 else 0x4
    let bits := if mode = 0x1 then packNum p else if mode = 0x2 then packAlnum p else packByte p
    t.result = ⟨0, 0, 0, 0⟩ ∧ t.res0 = 0 ∧ t.res1 = 0 ∧
    (i = .encseg → t.errcode = 0x02 ∧ t.segCnt = s.segCnt ∧ t.segBits = s.segBits ∧ t.segTab = s.segTab ∧
      ∀ a, a < 0x4000 → t.mem.read a = s.mem.read a) ∧
    (i ≠ .encseg → (t.errcode = 0x01 ∧ 32767 < bits.length ∧ t.segCnt = 0 ∧ t.segBits = 0 ∧ t.segTab = s.segTab ∧
        ∀ a, a < 0x4000 → t.mem.read a = s.mem.read a) ∨
      (t.errcode = 0x02 ∧ bits.length ≤ 32767 ∧ t.segCnt = 1 ∧ t.segBits.toNat = bits.length ∧
        t.segTab[0]? = some
          { mode := mode, numChars := s.plen.setWidth 16, bitLen := BitVec.ofNat 16 bits.length, bitOff := 0 } ∧
        (∀ k, k ≠ 0 → t.segTab[k]? = s.segTab[k]?) ∧
        (∀ n < 32768, t.mem.readBitMsb 0x3000 n =
          if n < bits.length then bits.getD n false else s.mem.readBitMsb 0x3000 n) ∧
        ∀ a, a < 0x3000 → t.mem.read a = s.mem.read a)) ∧
    t = { s with
      eng := .idle, status := t.status, errcode := t.errcode, result := t.result, res0 := t.res0, res1 := t.res1
      penalty := t.penalty, gen := t.gen, rem := t.rem, segCnt := t.segCnt, segBits := t.segBits, segTab := t.segTab
      mem := t.mem, draws := t.draws }

/-- R344: what an encoding command ends in depends on CFG and the segment state (ENCSEG), or on CFG, PLEN and PAYLOAD
(ENCTEXT, ENCBIN), never on what DATABUF, CWBUF, GEN, REM, MATRIX, FUNCMAP or any other register held before: from two
states that agree on those inputs it ends with one outcome, and on success with one RESULT, RES0, RES1, GEN, REM, one
symbol, one function map and the same codewords, and with an automatic mask one PENALTY. -/
def Obligations.EncodeIgnoresOldBuffers : Prop :=
  ∀ (i : Instr) (s s' t t' : State),
    (i = .encseg ∧ s.cfg = s'.cfg ∧ s.segCnt = s'.segCnt ∧ s.segs = s'.segs ∧
      (∀ d ∈ s.segs, s.segDataBits d = s'.segDataBits d) ∨
      (i = .enctext ∨ i = .encbin) ∧ s.cfg = s'.cfg ∧ s.plen = s'.plen ∧
      s.mem.readBytes 0x1000 s.plen.toNat = s'.mem.readBytes 0x1000 s'.plen.toNat) →
    exec i s = .next t → exec i s' = .next t' →
    t.errcode = t'.errcode ∧
    (t.errcode = 0 →
      t.result = t'.result ∧ t.res0 = t'.res0 ∧ t.res1 = t'.res1 ∧ t.gen = t'.gen ∧ t.rem = t'.rem ∧
      (s.cfg.mask = 8 → t.penalty = t'.penalty) ∧
      (∀ k < dataCodewords t.result.version.toNat t.result.ecl.toNat, t.mem.read (0x4000 + k) = t'.mem.read (0x4000 + k)) ∧
      (∀ k < rawCodewords t.result.version.toNat, t.mem.read (0x5000 + k) = t'.mem.read (0x5000 + k)) ∧
      ∀ k < bufLen t.result.version.toNat, t.mem.read (0x6000 + k) = t'.mem.read (0x6000 + k) ∧
        t.mem.read (0x7000 + k) = t'.mem.read (0x7000 + k))

/-! ### The invariant -/

/-- R32, R40, R42, R43, R44, R150, R189, R360: every step, from every state that meets the invariant, keeps it: the
buffers in canonical form, SEGCNT and SEGBITS in their ranges and consistent with the descriptors, RESULT.SIZE with
RESULT.VERSION, FAIL, ERR and ERRCODE with each other, and no outcome standing while Busy. -/
def Obligations.StepKeepsInvariant : Prop :=
  ∀ s t : State, s.Inv → step s = .next t → t.Inv

/-- R390: the state after reset meets the invariant. -/
def Obligations.ResetMeetsInvariant : Prop := State.Inv State.reset
end

