-- ==== Sys2Proof/Laws/Memory.lean ====
section
/-! SUPPORT. The laws of the buffers: reading after a write, and the canonical form every operation keeps. -/

namespace Sys2Proof.Machine

/-! ### Cells -/

@[simp] theorem cellsLookup_insert_self (cs : List Host.Cell) (a : Nat) (b : Byte) :
    cellsLookup (cellsInsert cs a b) a = some b := by
  induction cs with
  | nil => simp [cellsInsert, cellsLookup]
  | cons c rest ih =>
    obtain ⟨k, x⟩ := c
    by_cases h1 : k < a
    · have : k ≠ a := by omega
      simp [cellsInsert, h1, cellsLookup, this, ih]
    · by_cases h2 : k = a <;> simp [cellsInsert, h1, h2, cellsLookup]

theorem cellsLookup_insert_other (cs : List Host.Cell) {a a' : Nat} (b : Byte) (h : a' ≠ a) :
    cellsLookup (cellsInsert cs a b) a' = cellsLookup cs a' := by
  induction cs with
  | nil => simp [cellsInsert, cellsLookup, Ne.symm h]
  | cons c rest ih =>
    obtain ⟨k, x⟩ := c
    by_cases h1 : k < a
    · simp [cellsInsert, h1, cellsLookup, ih]
    · by_cases h2 : k = a
      · subst h2; simp [cellsInsert, cellsLookup, Ne.symm h]
      · simp [cellsInsert, h1, h2, cellsLookup, Ne.symm h]

theorem mem_cellsInsert {cs : List Host.Cell} {a : Nat} {b : Byte} {c : Host.Cell}
    (h : c ∈ cellsInsert cs a b) : c = (a, b) ∨ c ∈ cs := by
  induction cs with
  | nil => simpa [cellsInsert] using h
  | cons d rest ih =>
    obtain ⟨k, x⟩ := d
    unfold cellsInsert at h
    split at h
    · rcases List.mem_cons.1 h with h | h
      · exact .inr (by simp [h])
      · rcases ih h with h | h <;> simp [h]
    · split at h <;> rcases List.mem_cons.1 h with h | h <;> simp_all

theorem cellsInsert_sorted {cs : List Host.Cell} (a : Nat) (b : Byte)
    (h : cs.Pairwise (fun x y => x.1 < y.1)) : (cellsInsert cs a b).Pairwise (fun x y => x.1 < y.1) := by
  induction cs with
  | nil => simp [cellsInsert]
  | cons d rest ih =>
    obtain ⟨k, x⟩ := d
    obtain ⟨h1, h2⟩ := List.pairwise_cons.1 h
    unfold cellsInsert
    split
    · refine List.pairwise_cons.2 ⟨fun c hc => ?_, ih h2⟩
      rcases mem_cellsInsert hc with rfl | hc
      · assumption
      · exact h1 c hc
    · split
      · next hk => subst hk; exact List.pairwise_cons.2 ⟨h1, h2⟩
      · refine List.pairwise_cons.2 ⟨fun c hc => ?_, h⟩
        rcases List.mem_cons.1 hc with rfl | hc
        · simp; omega
        · have := h1 c hc; simp at this ⊢; omega

/-! ### One byte -/

/-- An address of a buffer (R81). -/
abbrev BufferAddr (a : Nat) : Prop := Config.payloadBase ≤ a ∧ a < Config.addressEnd

@[simp] theorem write_lowDraw (m : Memory) (a : Nat) (b : Byte) : (m.write a b).lowDraw = m.lowDraw := by
  unfold Memory.write; split <;> rfl

@[simp] theorem write_highDraw (m : Memory) (a : Nat) (b : Byte) : (m.write a b).highDraw = m.highDraw := by
  unfold Memory.write; split <;> rfl

@[simp] theorem write_unwritten (m : Memory) (a a' : Nat) (b : Byte) :
    (m.write a b).unwritten a' = m.unwritten a' := by simp [Memory.unwritten]

/-- Reading a byte just written. -/
theorem read_write_self (m : Memory) {a : Nat} (b : Byte) (h : BufferAddr a) : (m.write a b).read a = b := by
  simp [Memory.read, Memory.write, h.1, h.2]

/-- A write leaves every other byte alone. -/
theorem read_write_other (m : Memory) {a a' : Nat} (b : Byte) (h : a' ≠ a) :
    (m.write a b).read a' = m.read a' := by
  rw [Memory.read, Memory.read, write_unwritten]
  unfold Memory.write
  split
  · simp [cellsLookup_insert_other _ _ h]
  · rfl

/-- A write keeps the canonical form. -/
theorem write_wf {m : Memory} (a : Nat) (b : Byte) (h : m.wf) : (m.write a b).wf := by
  unfold Memory.write
  split
  · next hr =>
    refine ⟨cellsInsert_sorted _ _ h.1, fun c hc => ?_⟩
    rcases mem_cellsInsert hc with rfl | hc
    · exact hr
    · exact h.2 c hc
  · exact h

/-! ### Ranges of bytes -/

@[simp] theorem readBytes_length (m : Memory) (a n : Nat) : (m.readBytes a n).length = n := by
  induction n generalizing a with
  | zero => rfl
  | succ n ih => simp [Memory.readBytes, ih]

/-- Byte `i` of a range. -/
theorem readBytes_getElem? (m : Memory) (a n i : Nat) :
    (m.readBytes a n)[i]? = if i < n then some (m.read (a + i)) else none := by
  induction n generalizing a i with
  | zero => simp [Memory.readBytes]
  | succ n ih =>
    cases i with
    | zero => simp [Memory.readBytes]
    | succ i => simp [Memory.readBytes, ih, Nat.add_assoc, Nat.add_comm 1]

/-- Ranges whose bytes agree are equal. -/
theorem readBytes_congr {m m' : Memory} {a n : Nat} (h : ∀ i < n, m'.read (a + i) = m.read (a + i)) :
    m'.readBytes a n = m.readBytes a n := by
  refine List.ext_getElem? fun i => ?_
  simp only [readBytes_getElem?]
  split <;> simp_all

/-- Writing a list of bytes touches only its range. -/
theorem read_writeBytes_outside (m : Memory) (bs : List Byte) (a a' : Nat) (h : a' < a ∨ a + bs.length ≤ a') :
    (m.writeBytes a bs).read a' = m.read a' := by
  induction bs generalizing m a with
  | nil => rfl
  | cons b bs ih =>
    simp only [List.length_cons] at h
    rw [Memory.writeBytes, ih _ _ (by omega), read_write_other _ _ (by omega)]

/-- Reading what a list of bytes wrote. -/
theorem read_writeBytes_inside (m : Memory) (bs : List Byte) (a i : Nat) (hi : i < bs.length)
    (h1 : Config.payloadBase ≤ a) (h2 : a + bs.length ≤ Config.addressEnd) :
    (m.writeBytes a bs).read (a + i) = bs[i] := by
  induction bs generalizing m a i with
  | nil => simp at hi
  | cons b bs ih =>
    simp only [List.length_cons] at h2 hi
    cases i with
    | zero =>
      rw [Memory.writeBytes, read_writeBytes_outside _ _ _ _ (by omega), Nat.add_zero,
        read_write_self _ _ ⟨h1, by omega⟩]
      rfl
    | succ i =>
      have := ih (m.write a b) (a + 1) i (by omega) (by omega) (by omega)
      rw [Memory.writeBytes, show a + (i + 1) = a + 1 + i by omega, this]
      rfl

/-- Reading back a whole list of bytes. -/
theorem readBytes_writeBytes (m : Memory) (bs : List Byte) (a : Nat)
    (h1 : Config.payloadBase ≤ a) (h2 : a + bs.length ≤ Config.addressEnd) :
    (m.writeBytes a bs).readBytes a bs.length = bs := by
  refine List.ext_getElem? fun i => ?_
  rw [readBytes_getElem?]
  split
  · next hi => rw [read_writeBytes_inside m bs a i hi h1 h2, List.getElem?_eq_getElem hi]
  · next hi => exact (List.getElem?_eq_none (by omega)).symm

theorem writeBytes_wf {m : Memory} (a : Nat) (bs : List Byte) (h : m.wf) : (m.writeBytes a bs).wf := by
  induction bs generalizing m a with
  | nil => exact h
  | cons b bs ih => exact ih _ (write_wf a b h)

/-! ### Little-endian numbers -/

theorem readLE_lt (m : Memory) (a n : Nat) : m.readLE a n < 2 ^ (8 * n) := by
  induction n generalizing a with
  | zero => simp [Memory.readLE]
  | succ n ih =>
    have h1 := ih (a + 1)
    have h2 := (m.read a).isLt
    have h3 : 2 ^ (8 * (n + 1)) = 256 * 2 ^ (8 * n) := by rw [Nat.mul_succ, Nat.pow_add]; omega
    rw [Memory.readLE, h3]
    omega

/-- Bit `k` of the number is bit `k % 8` of byte `k / 8` (R14, R84). -/
theorem testBit_readLE (m : Memory) (a n k : Nat) :
    (m.readLE a n).testBit k = (decide (k < 8 * n) && (m.read (a + k / 8)).getLsbD (k % 8)) := by
  induction n generalizing a k with
  | zero => simp [Memory.readLE]
  | succ n ih =>
    have hb := (m.read a).isLt
    rw [Memory.readLE, show (m.read a).toNat + 256 * m.readLE (a + 1) n
      = 2 ^ 8 * m.readLE (a + 1) n + (m.read a).toNat by omega, Nat.testBit_two_pow_mul_add _ (by omega)]
    by_cases hk : k < 8
    · have h1 : k / 8 = 0 := by omega
      have h2 : k % 8 = k := by omega
      have h3 : k < 8 * (n + 1) := by omega
      simp [hk, h1, h2, h3, BitVec.getLsbD]
    · rw [if_neg hk, ih]
      have h1 : k / 8 = (k - 8) / 8 + 1 := by omega
      have h2 : (k - 8) % 8 = k % 8 := by omega
      have h3 : (k - 8 < 8 * n) ↔ (k < 8 * (n + 1)) := by omega
      simp [h1, h2, h3, Nat.add_assoc, Nat.add_comm 1]

/-- Storing a number touches only its range. -/
theorem read_writeLE_outside (m : Memory) (a n v a' : Nat) (h : a' < a ∨ a + n ≤ a') :
    (m.writeLE a n v).read a' = m.read a' := by
  induction n generalizing m a v with
  | zero => rfl
  | succ n ih => rw [Memory.writeLE, ih _ _ _ (by omega), read_write_other _ _ (by omega)]

/-- Byte `i` of a stored number. -/
theorem read_writeLE_inside (m : Memory) (a n v i : Nat) (hi : i < n)
    (h1 : Config.payloadBase ≤ a) (h2 : a + n ≤ Config.addressEnd) :
    (m.writeLE a n v).read (a + i) = BitVec.ofNat 8 (v >>> (8 * i)) := by
  induction n generalizing m a v i with
  | zero => omega
  | succ n ih =>
    cases i with
    | zero =>
      rw [Memory.writeLE, read_writeLE_outside _ _ _ _ _ (by omega), Nat.add_zero,
        read_write_self _ _ ⟨h1, by omega⟩]
      simp
    | succ i =>
      have := ih (m.write a (BitVec.ofNat 8 v)) (a + 1) (v / 256) i (by omega) (by omega) (by omega)
      rw [Memory.writeLE, show a + (i + 1) = a + 1 + i by omega, this]
      congr 1
      rw [Nat.shiftRight_eq_div_pow, Nat.shiftRight_eq_div_pow, Nat.div_div_eq_div_mul]
      congr 1
      rw [Nat.mul_succ, Nat.add_comm, Nat.pow_add]

/-- Reading back a stored number. -/
theorem readLE_writeLE (m : Memory) (a n v : Nat)
    (h1 : Config.payloadBase ≤ a) (h2 : a + n ≤ Config.addressEnd) :
    (m.writeLE a n v).readLE a n = v % 2 ^ (8 * n) := by
  refine Nat.eq_of_testBit_eq fun k => ?_
  rw [testBit_readLE, Nat.testBit_mod_two_pow]
  by_cases hk : k < 8 * n
  · have hm : k % 8 < 8 := by omega
    rw [read_writeLE_inside m a n v (k / 8) (by omega) h1 h2]
    simp only [hk, decide_true, Bool.true_and, BitVec.getLsbD_ofNat, hm]
    rw [Nat.testBit_shiftRight]
    congr 1
    omega
  · simp [hk]

/-- Numbers read from bytes that agree are equal. -/
theorem readLE_congr {m m' : Memory} {a n : Nat} (h : ∀ i < n, m'.read (a + i) = m.read (a + i)) :
    m'.readLE a n = m.readLE a n := by
  induction n generalizing a with
  | zero => rfl
  | succ n ih =>
    have h0 := h 0 (by omega)
    rw [Nat.add_zero] at h0
    rw [Memory.readLE, Memory.readLE, h0, ih fun i hi => ?_]
    have := h (i + 1) (by omega)
    rwa [show a + (i + 1) = a + 1 + i by omega] at this

theorem writeLE_wf {m : Memory} (a n v : Nat) (h : m.wf) : (m.writeLE a n v).wf := by
  induction n generalizing m a v with
  | zero => exact h
  | succ n ih => exact ih _ _ (write_wf a _ h)

/-! ### Bits, most significant first -/

theorem getLsbD_setByteBit (b : Byte) (i j : Nat) (c : Bool) (hi : i < 8) :
    (setByteBit b i c).getLsbD j = if j = i then c else b.getLsbD j := by
  have h1 : (1#8 <<< i).getLsbD j = decide (j = i) := by
    rw [BitVec.getLsbD_shiftLeft]
    by_cases hji : j = i
    · subst hji; simp [hi]
    · by_cases hlt : j < i
      · simp [hlt, hji]
      · have : j - i ≠ 0 := by omega
        simp [hji, BitVec.getLsbD_one, this]
  unfold setByteBit
  split
  · next hc =>
    rw [BitVec.getLsbD_or, h1]
    by_cases hji : j = i <;> simp [hji, hc]
  · next hc =>
    rw [BitVec.getLsbD_and, BitVec.getLsbD_not, h1]
    by_cases hji : j = i
    · simp_all
    · by_cases hj : j < 8
      · simp [hji, hj]
      · simp [hji, BitVec.getLsbD_of_ge b j (by omega)]

@[simp] theorem readBitsMsb_length (m : Memory) (base o n : Nat) : (m.readBitsMsb base o n).length = n := by
  induction n generalizing o with
  | zero => rfl
  | succ n ih => simp [Memory.readBitsMsb, ih]

/-- Writing one bit changes that bit alone. -/
theorem readBitMsb_writeBitMsb (m : Memory) (base o o' : Nat) (c : Bool) (h : BufferAddr (base + o / 8)) :
    (m.writeBitMsb base o c).readBitMsb base o' = if o' = o then c else m.readBitMsb base o' := by
  unfold Memory.readBitMsb Memory.writeBitMsb
  by_cases hb : o' / 8 = o / 8
  · rw [hb, read_write_self _ _ h, getLsbD_setByteBit _ _ _ _ (by omega)]
    have : (7 - o' % 8 = 7 - o % 8) ↔ o' = o := by omega
    simp [this]
  · have : o' ≠ o := by rintro rfl; exact hb rfl
    rw [read_write_other _ _ (by omega), if_neg this]

/-- Writing a bit string changes the bits of its range alone. -/
theorem readBitMsb_writeBitsMsb (m : Memory) (base : Nat) (cs : List Bool) (o o' : Nat)
    (h1 : Config.payloadBase ≤ base) (h2 : 8 * base + o + cs.length ≤ 8 * Config.addressEnd) :
    (m.writeBitsMsb base o cs).readBitMsb base o'
      = if o ≤ o' ∧ o' < o + cs.length then cs.getD (o' - o) false else m.readBitMsb base o' := by
  induction cs generalizing m o with
  | nil =>
    have : ¬(o ≤ o' ∧ o' < o + ([] : List Bool).length) := by simp
    rw [if_neg this]
    rfl
  | cons c cs ih =>
    simp only [List.length_cons] at h2 ⊢
    rw [Memory.writeBitsMsb, ih _ (o + 1) (by omega), readBitMsb_writeBitMsb _ _ _ _ _ ⟨by omega, by omega⟩]
    by_cases ho : o' = o
    · subst ho
      have h3 : ¬(o' + 1 ≤ o' ∧ o' < o' + 1 + cs.length) := by omega
      have h4 : o' ≤ o' ∧ o' < o' + (cs.length + 1) := by omega
      rw [if_neg h3, if_pos rfl, if_pos h4]
      simp
    · by_cases h3 : o + 1 ≤ o' ∧ o' < o + 1 + cs.length
      · have h4 : o ≤ o' ∧ o' < o + (cs.length + 1) := by omega
        rw [if_pos h3, if_pos h4, show o' - o = (o' - (o + 1)) + 1 by omega]
        simp
      · have h4 : ¬(o ≤ o' ∧ o' < o + (cs.length + 1)) := by omega
        rw [if_neg h3, if_neg h4, if_neg ho]

/-- Writing a bit string touches only the bytes it reaches. -/
theorem read_writeBitsMsb_outside (m : Memory) (base : Nat) (cs : List Bool) (o a : Nat)
    (h : a < base + o / 8 ∨ base + (o + cs.length + 7) / 8 ≤ a) :
    (m.writeBitsMsb base o cs).read a = m.read a := by
  induction cs generalizing m o with
  | nil => rfl
  | cons c cs ih =>
    simp only [List.length_cons] at h
    rw [Memory.writeBitsMsb, ih _ (o + 1) (by omega), Memory.writeBitMsb, read_write_other _ _ (by omega)]

theorem writeBitsMsb_wf {m : Memory} (base o : Nat) (cs : List Bool) (h : m.wf) :
    (m.writeBitsMsb base o cs).wf := by
  induction cs generalizing m o with
  | nil => exact h
  | cons c cs ih => exact ih _ (write_wf _ _ h)

/-! ### Unspecified bytes -/

theorem forgetHigh_wf {m : Memory} (d : Nat) (h : m.wf) : (m.forgetHigh d).wf :=
  ⟨h.1.filter _, fun c hc => h.2 c (List.mem_filter.1 hc).1⟩

theorem cellsLookup_filter_low (cs : List Host.Cell) {a : Nat} (h : a < Config.databufBase) :
    cellsLookup (cs.filter fun c => decide (c.1 < Config.databufBase)) a = cellsLookup cs a := by
  induction cs with
  | nil => rfl
  | cons c rest ih =>
    obtain ⟨k, x⟩ := c
    by_cases hk : k < Config.databufBase
    · simp [hk, cellsLookup, ih]
    · have : k ≠ a := by omega
      simp [hk, cellsLookup, ih, this]

/-- PAYLOAD and SEGBUF are kept where the other buffers become unspecified. -/
theorem read_forgetHigh_low (m : Memory) (d : Nat) {a : Nat} (h : a < Config.databufBase) :
    (m.forgetHigh d).read a = m.read a := by
  simp only [Memory.read, Memory.forgetHigh, Memory.unwritten, cellsLookup_filter_low _ h, if_pos h]

theorem fresh_wf (d : Nat) : (Memory.fresh d).wf := ⟨List.Pairwise.nil, fun _ hc => nomatch hc⟩

end Sys2Proof.Machine
end

