-- ==== Sys2Proof/Laws/State.lean ====
section
/-! SUPPORT. One lemma per field per state update, each true by definition, so that no later proof unfolds a record
update; and what a completion and a list of checks can do. -/

namespace Sys2Proof.Machine

variable (s : State)

/-! ### setRes -/

@[simp] theorem setRes_eng (r0 r1 : Word) : (s.setRes r0 r1).eng = s.eng := rfl
@[simp] theorem setRes_wait (r0 r1 : Word) : (s.setRes r0 r1).wait = s.wait := rfl
@[simp] theorem setRes_status (r0 r1 : Word) : (s.setRes r0 r1).status = s.status := rfl
@[simp] theorem setRes_errcode (r0 r1 : Word) : (s.setRes r0 r1).errcode = s.errcode := rfl
@[simp] theorem setRes_arg0 (r0 r1 : Word) : (s.setRes r0 r1).arg0 = s.arg0 := rfl
@[simp] theorem setRes_arg1 (r0 r1 : Word) : (s.setRes r0 r1).arg1 = s.arg1 := rfl
@[simp] theorem setRes_arg2 (r0 r1 : Word) : (s.setRes r0 r1).arg2 = s.arg2 := rfl
@[simp] theorem setRes_res0 (r0 r1 : Word) : (s.setRes r0 r1).res0 = r0 := rfl
@[simp] theorem setRes_res1 (r0 r1 : Word) : (s.setRes r0 r1).res1 = r1 := rfl
@[simp] theorem setRes_cfg (r0 r1 : Word) : (s.setRes r0 r1).cfg = s.cfg := rfl
@[simp] theorem setRes_plen (r0 r1 : Word) : (s.setRes r0 r1).plen = s.plen := rfl
@[simp] theorem setRes_doneIe (r0 r1 : Word) : (s.setRes r0 r1).doneIe = s.doneIe := rfl
@[simp] theorem setRes_result (r0 r1 : Word) : (s.setRes r0 r1).result = s.result := rfl
@[simp] theorem setRes_penalty (r0 r1 : Word) : (s.setRes r0 r1).penalty = s.penalty := rfl
@[simp] theorem setRes_segCnt (r0 r1 : Word) : (s.setRes r0 r1).segCnt = s.segCnt := rfl
@[simp] theorem setRes_segBits (r0 r1 : Word) : (s.setRes r0 r1).segBits = s.segBits := rfl
@[simp] theorem setRes_segTab (r0 r1 : Word) : (s.setRes r0 r1).segTab = s.segTab := rfl
@[simp] theorem setRes_gen (r0 r1 : Word) : (s.setRes r0 r1).gen = s.gen := rfl
@[simp] theorem setRes_rem (r0 r1 : Word) : (s.setRes r0 r1).rem = s.rem := rfl
@[simp] theorem setRes_mem (r0 r1 : Word) : (s.setRes r0 r1).mem = s.mem := rfl
@[simp] theorem setRes_inbox (r0 r1 : Word) : (s.setRes r0 r1).inbox = s.inbox := rfl
@[simp] theorem setRes_replies (r0 r1 : Word) : (s.setRes r0 r1).replies = s.replies := rfl
@[simp] theorem setRes_draws (r0 r1 : Word) : (s.setRes r0 r1).draws = s.draws := rfl

/-! ### setRes0 -/

@[simp] theorem setRes0_eng (r0 : Word) : (s.setRes0 r0).eng = s.eng := rfl
@[simp] theorem setRes0_wait (r0 : Word) : (s.setRes0 r0).wait = s.wait := rfl
@[simp] theorem setRes0_status (r0 : Word) : (s.setRes0 r0).status = s.status := rfl
@[simp] theorem setRes0_errcode (r0 : Word) : (s.setRes0 r0).errcode = s.errcode := rfl
@[simp] theorem setRes0_arg0 (r0 : Word) : (s.setRes0 r0).arg0 = s.arg0 := rfl
@[simp] theorem setRes0_arg1 (r0 : Word) : (s.setRes0 r0).arg1 = s.arg1 := rfl
@[simp] theorem setRes0_arg2 (r0 : Word) : (s.setRes0 r0).arg2 = s.arg2 := rfl
@[simp] theorem setRes0_res0 (r0 : Word) : (s.setRes0 r0).res0 = r0 := rfl
@[simp] theorem setRes0_res1 (r0 : Word) : (s.setRes0 r0).res1 = s.res1 := rfl
@[simp] theorem setRes0_cfg (r0 : Word) : (s.setRes0 r0).cfg = s.cfg := rfl
@[simp] theorem setRes0_plen (r0 : Word) : (s.setRes0 r0).plen = s.plen := rfl
@[simp] theorem setRes0_doneIe (r0 : Word) : (s.setRes0 r0).doneIe = s.doneIe := rfl
@[simp] theorem setRes0_result (r0 : Word) : (s.setRes0 r0).result = s.result := rfl
@[simp] theorem setRes0_penalty (r0 : Word) : (s.setRes0 r0).penalty = s.penalty := rfl
@[simp] theorem setRes0_segCnt (r0 : Word) : (s.setRes0 r0).segCnt = s.segCnt := rfl
@[simp] theorem setRes0_segBits (r0 : Word) : (s.setRes0 r0).segBits = s.segBits := rfl
@[simp] theorem setRes0_segTab (r0 : Word) : (s.setRes0 r0).segTab = s.segTab := rfl
@[simp] theorem setRes0_gen (r0 : Word) : (s.setRes0 r0).gen = s.gen := rfl
@[simp] theorem setRes0_rem (r0 : Word) : (s.setRes0 r0).rem = s.rem := rfl
@[simp] theorem setRes0_mem (r0 : Word) : (s.setRes0 r0).mem = s.mem := rfl
@[simp] theorem setRes0_inbox (r0 : Word) : (s.setRes0 r0).inbox = s.inbox := rfl
@[simp] theorem setRes0_replies (r0 : Word) : (s.setRes0 r0).replies = s.replies := rfl
@[simp] theorem setRes0_draws (r0 : Word) : (s.setRes0 r0).draws = s.draws := rfl

/-! ### setPenalty -/

@[simp] theorem setPenalty_eng (p : Word) : (s.setPenalty p).eng = s.eng := rfl
@[simp] theorem setPenalty_wait (p : Word) : (s.setPenalty p).wait = s.wait := rfl
@[simp] theorem setPenalty_status (p : Word) : (s.setPenalty p).status = s.status := rfl
@[simp] theorem setPenalty_errcode (p : Word) : (s.setPenalty p).errcode = s.errcode := rfl
@[simp] theorem setPenalty_arg0 (p : Word) : (s.setPenalty p).arg0 = s.arg0 := rfl
@[simp] theorem setPenalty_arg1 (p : Word) : (s.setPenalty p).arg1 = s.arg1 := rfl
@[simp] theorem setPenalty_arg2 (p : Word) : (s.setPenalty p).arg2 = s.arg2 := rfl
@[simp] theorem setPenalty_res0 (p : Word) : (s.setPenalty p).res0 = s.res0 := rfl
@[simp] theorem setPenalty_res1 (p : Word) : (s.setPenalty p).res1 = s.res1 := rfl
@[simp] theorem setPenalty_cfg (p : Word) : (s.setPenalty p).cfg = s.cfg := rfl
@[simp] theorem setPenalty_plen (p : Word) : (s.setPenalty p).plen = s.plen := rfl
@[simp] theorem setPenalty_doneIe (p : Word) : (s.setPenalty p).doneIe = s.doneIe := rfl
@[simp] theorem setPenalty_result (p : Word) : (s.setPenalty p).result = s.result := rfl
@[simp] theorem setPenalty_penalty (p : Word) : (s.setPenalty p).penalty = p := rfl
@[simp] theorem setPenalty_segCnt (p : Word) : (s.setPenalty p).segCnt = s.segCnt := rfl
@[simp] theorem setPenalty_segBits (p : Word) : (s.setPenalty p).segBits = s.segBits := rfl
@[simp] theorem setPenalty_segTab (p : Word) : (s.setPenalty p).segTab = s.segTab := rfl
@[simp] theorem setPenalty_gen (p : Word) : (s.setPenalty p).gen = s.gen := rfl
@[simp] theorem setPenalty_rem (p : Word) : (s.setPenalty p).rem = s.rem := rfl
@[simp] theorem setPenalty_mem (p : Word) : (s.setPenalty p).mem = s.mem := rfl
@[simp] theorem setPenalty_inbox (p : Word) : (s.setPenalty p).inbox = s.inbox := rfl
@[simp] theorem setPenalty_replies (p : Word) : (s.setPenalty p).replies = s.replies := rfl
@[simp] theorem setPenalty_draws (p : Word) : (s.setPenalty p).draws = s.draws := rfl

/-! ### setResult -/

@[simp] theorem setResult_eng (r : Result) : (s.setResult r).eng = s.eng := rfl
@[simp] theorem setResult_wait (r : Result) : (s.setResult r).wait = s.wait := rfl
@[simp] theorem setResult_status (r : Result) : (s.setResult r).status = s.status := rfl
@[simp] theorem setResult_errcode (r : Result) : (s.setResult r).errcode = s.errcode := rfl
@[simp] theorem setResult_arg0 (r : Result) : (s.setResult r).arg0 = s.arg0 := rfl
@[simp] theorem setResult_arg1 (r : Result) : (s.setResult r).arg1 = s.arg1 := rfl
@[simp] theorem setResult_arg2 (r : Result) : (s.setResult r).arg2 = s.arg2 := rfl
@[simp] theorem setResult_res0 (r : Result) : (s.setResult r).res0 = s.res0 := rfl
@[simp] theorem setResult_res1 (r : Result) : (s.setResult r).res1 = s.res1 := rfl
@[simp] theorem setResult_cfg (r : Result) : (s.setResult r).cfg = s.cfg := rfl
@[simp] theorem setResult_plen (r : Result) : (s.setResult r).plen = s.plen := rfl
@[simp] theorem setResult_doneIe (r : Result) : (s.setResult r).doneIe = s.doneIe := rfl
@[simp] theorem setResult_result (r : Result) : (s.setResult r).result = r := rfl
@[simp] theorem setResult_penalty (r : Result) : (s.setResult r).penalty = s.penalty := rfl
@[simp] theorem setResult_segCnt (r : Result) : (s.setResult r).segCnt = s.segCnt := rfl
@[simp] theorem setResult_segBits (r : Result) : (s.setResult r).segBits = s.segBits := rfl
@[simp] theorem setResult_segTab (r : Result) : (s.setResult r).segTab = s.segTab := rfl
@[simp] theorem setResult_gen (r : Result) : (s.setResult r).gen = s.gen := rfl
@[simp] theorem setResult_rem (r : Result) : (s.setResult r).rem = s.rem := rfl
@[simp] theorem setResult_mem (r : Result) : (s.setResult r).mem = s.mem := rfl
@[simp] theorem setResult_inbox (r : Result) : (s.setResult r).inbox = s.inbox := rfl
@[simp] theorem setResult_replies (r : Result) : (s.setResult r).replies = s.replies := rfl
@[simp] theorem setResult_draws (r : Result) : (s.setResult r).draws = s.draws := rfl

/-! ### setGen -/

@[simp] theorem setGen_eng (g : Vector Byte 30) : (s.setGen g).eng = s.eng := rfl
@[simp] theorem setGen_wait (g : Vector Byte 30) : (s.setGen g).wait = s.wait := rfl
@[simp] theorem setGen_status (g : Vector Byte 30) : (s.setGen g).status = s.status := rfl
@[simp] theorem setGen_errcode (g : Vector Byte 30) : (s.setGen g).errcode = s.errcode := rfl
@[simp] theorem setGen_arg0 (g : Vector Byte 30) : (s.setGen g).arg0 = s.arg0 := rfl
@[simp] theorem setGen_arg1 (g : Vector Byte 30) : (s.setGen g).arg1 = s.arg1 := rfl
@[simp] theorem setGen_arg2 (g : Vector Byte 30) : (s.setGen g).arg2 = s.arg2 := rfl
@[simp] theorem setGen_res0 (g : Vector Byte 30) : (s.setGen g).res0 = s.res0 := rfl
@[simp] theorem setGen_res1 (g : Vector Byte 30) : (s.setGen g).res1 = s.res1 := rfl
@[simp] theorem setGen_cfg (g : Vector Byte 30) : (s.setGen g).cfg = s.cfg := rfl
@[simp] theorem setGen_plen (g : Vector Byte 30) : (s.setGen g).plen = s.plen := rfl
@[simp] theorem setGen_doneIe (g : Vector Byte 30) : (s.setGen g).doneIe = s.doneIe := rfl
@[simp] theorem setGen_result (g : Vector Byte 30) : (s.setGen g).result = s.result := rfl
@[simp] theorem setGen_penalty (g : Vector Byte 30) : (s.setGen g).penalty = s.penalty := rfl
@[simp] theorem setGen_segCnt (g : Vector Byte 30) : (s.setGen g).segCnt = s.segCnt := rfl
@[simp] theorem setGen_segBits (g : Vector Byte 30) : (s.setGen g).segBits = s.segBits := rfl
@[simp] theorem setGen_segTab (g : Vector Byte 30) : (s.setGen g).segTab = s.segTab := rfl
@[simp] theorem setGen_gen (g : Vector Byte 30) : (s.setGen g).gen = g := rfl
@[simp] theorem setGen_rem (g : Vector Byte 30) : (s.setGen g).rem = s.rem := rfl
@[simp] theorem setGen_mem (g : Vector Byte 30) : (s.setGen g).mem = s.mem := rfl
@[simp] theorem setGen_inbox (g : Vector Byte 30) : (s.setGen g).inbox = s.inbox := rfl
@[simp] theorem setGen_replies (g : Vector Byte 30) : (s.setGen g).replies = s.replies := rfl
@[simp] theorem setGen_draws (g : Vector Byte 30) : (s.setGen g).draws = s.draws := rfl

/-! ### setRem -/

@[simp] theorem setRem_eng (r : Vector Byte 30) : (s.setRem r).eng = s.eng := rfl
@[simp] theorem setRem_wait (r : Vector Byte 30) : (s.setRem r).wait = s.wait := rfl
@[simp] theorem setRem_status (r : Vector Byte 30) : (s.setRem r).status = s.status := rfl
@[simp] theorem setRem_errcode (r : Vector Byte 30) : (s.setRem r).errcode = s.errcode := rfl
@[simp] theorem setRem_arg0 (r : Vector Byte 30) : (s.setRem r).arg0 = s.arg0 := rfl
@[simp] theorem setRem_arg1 (r : Vector Byte 30) : (s.setRem r).arg1 = s.arg1 := rfl
@[simp] theorem setRem_arg2 (r : Vector Byte 30) : (s.setRem r).arg2 = s.arg2 := rfl
@[simp] theorem setRem_res0 (r : Vector Byte 30) : (s.setRem r).res0 = s.res0 := rfl
@[simp] theorem setRem_res1 (r : Vector Byte 30) : (s.setRem r).res1 = s.res1 := rfl
@[simp] theorem setRem_cfg (r : Vector Byte 30) : (s.setRem r).cfg = s.cfg := rfl
@[simp] theorem setRem_plen (r : Vector Byte 30) : (s.setRem r).plen = s.plen := rfl
@[simp] theorem setRem_doneIe (r : Vector Byte 30) : (s.setRem r).doneIe = s.doneIe := rfl
@[simp] theorem setRem_result (r : Vector Byte 30) : (s.setRem r).result = s.result := rfl
@[simp] theorem setRem_penalty (r : Vector Byte 30) : (s.setRem r).penalty = s.penalty := rfl
@[simp] theorem setRem_segCnt (r : Vector Byte 30) : (s.setRem r).segCnt = s.segCnt := rfl
@[simp] theorem setRem_segBits (r : Vector Byte 30) : (s.setRem r).segBits = s.segBits := rfl
@[simp] theorem setRem_segTab (r : Vector Byte 30) : (s.setRem r).segTab = s.segTab := rfl
@[simp] theorem setRem_gen (r : Vector Byte 30) : (s.setRem r).gen = s.gen := rfl
@[simp] theorem setRem_rem (r : Vector Byte 30) : (s.setRem r).rem = r := rfl
@[simp] theorem setRem_mem (r : Vector Byte 30) : (s.setRem r).mem = s.mem := rfl
@[simp] theorem setRem_inbox (r : Vector Byte 30) : (s.setRem r).inbox = s.inbox := rfl
@[simp] theorem setRem_replies (r : Vector Byte 30) : (s.setRem r).replies = s.replies := rfl
@[simp] theorem setRem_draws (r : Vector Byte 30) : (s.setRem r).draws = s.draws := rfl

/-! ### setMem -/

@[simp] theorem setMem_eng (m : Memory) : (s.setMem m).eng = s.eng := rfl
@[simp] theorem setMem_wait (m : Memory) : (s.setMem m).wait = s.wait := rfl
@[simp] theorem setMem_status (m : Memory) : (s.setMem m).status = s.status := rfl
@[simp] theorem setMem_errcode (m : Memory) : (s.setMem m).errcode = s.errcode := rfl
@[simp] theorem setMem_arg0 (m : Memory) : (s.setMem m).arg0 = s.arg0 := rfl
@[simp] theorem setMem_arg1 (m : Memory) : (s.setMem m).arg1 = s.arg1 := rfl
@[simp] theorem setMem_arg2 (m : Memory) : (s.setMem m).arg2 = s.arg2 := rfl
@[simp] theorem setMem_res0 (m : Memory) : (s.setMem m).res0 = s.res0 := rfl
@[simp] theorem setMem_res1 (m : Memory) : (s.setMem m).res1 = s.res1 := rfl
@[simp] theorem setMem_cfg (m : Memory) : (s.setMem m).cfg = s.cfg := rfl
@[simp] theorem setMem_plen (m : Memory) : (s.setMem m).plen = s.plen := rfl
@[simp] theorem setMem_doneIe (m : Memory) : (s.setMem m).doneIe = s.doneIe := rfl
@[simp] theorem setMem_result (m : Memory) : (s.setMem m).result = s.result := rfl
@[simp] theorem setMem_penalty (m : Memory) : (s.setMem m).penalty = s.penalty := rfl
@[simp] theorem setMem_segCnt (m : Memory) : (s.setMem m).segCnt = s.segCnt := rfl
@[simp] theorem setMem_segBits (m : Memory) : (s.setMem m).segBits = s.segBits := rfl
@[simp] theorem setMem_segTab (m : Memory) : (s.setMem m).segTab = s.segTab := rfl
@[simp] theorem setMem_gen (m : Memory) : (s.setMem m).gen = s.gen := rfl
@[simp] theorem setMem_rem (m : Memory) : (s.setMem m).rem = s.rem := rfl
@[simp] theorem setMem_mem (m : Memory) : (s.setMem m).mem = m := rfl
@[simp] theorem setMem_inbox (m : Memory) : (s.setMem m).inbox = s.inbox := rfl
@[simp] theorem setMem_replies (m : Memory) : (s.setMem m).replies = s.replies := rfl
@[simp] theorem setMem_draws (m : Memory) : (s.setMem m).draws = s.draws := rfl

/-! ### setSegCounts -/

@[simp] theorem setSegCounts_eng (cnt : BitVec 5) (bits : BitVec 16) : (s.setSegCounts cnt bits).eng = s.eng := rfl
@[simp] theorem setSegCounts_wait (cnt : BitVec 5) (bits : BitVec 16) : (s.setSegCounts cnt bits).wait = s.wait := rfl
@[simp] theorem setSegCounts_status (cnt : BitVec 5) (bits : BitVec 16) : (s.setSegCounts cnt bits).status = s.status := rfl
@[simp] theorem setSegCounts_errcode (cnt : BitVec 5) (bits : BitVec 16) : (s.setSegCounts cnt bits).errcode = s.errcode := rfl
@[simp] theorem setSegCounts_arg0 (cnt : BitVec 5) (bits : BitVec 16) : (s.setSegCounts cnt bits).arg0 = s.arg0 := rfl
@[simp] theorem setSegCounts_arg1 (cnt : BitVec 5) (bits : BitVec 16) : (s.setSegCounts cnt bits).arg1 = s.arg1 := rfl
@[simp] theorem setSegCounts_arg2 (cnt : BitVec 5) (bits : BitVec 16) : (s.setSegCounts cnt bits).arg2 = s.arg2 := rfl
@[simp] theorem setSegCounts_res0 (cnt : BitVec 5) (bits : BitVec 16) : (s.setSegCounts cnt bits).res0 = s.res0 := rfl
@[simp] theorem setSegCounts_res1 (cnt : BitVec 5) (bits : BitVec 16) : (s.setSegCounts cnt bits).res1 = s.res1 := rfl
@[simp] theorem setSegCounts_cfg (cnt : BitVec 5) (bits : BitVec 16) : (s.setSegCounts cnt bits).cfg = s.cfg := rfl
@[simp] theorem setSegCounts_plen (cnt : BitVec 5) (bits : BitVec 16) : (s.setSegCounts cnt bits).plen = s.plen := rfl
@[simp] theorem setSegCounts_doneIe (cnt : BitVec 5) (bits : BitVec 16) : (s.setSegCounts cnt bits).doneIe = s.doneIe := rfl
@[simp] theorem setSegCounts_result (cnt : BitVec 5) (bits : BitVec 16) : (s.setSegCounts cnt bits).result = s.result := rfl
@[simp] theorem setSegCounts_penalty (cnt : BitVec 5) (bits : BitVec 16) : (s.setSegCounts cnt bits).penalty = s.penalty := rfl
@[simp] theorem setSegCounts_segCnt (cnt : BitVec 5) (bits : BitVec 16) : (s.setSegCounts cnt bits).segCnt = cnt := rfl
@[simp] theorem setSegCounts_segBits (cnt : BitVec 5) (bits : BitVec 16) : (s.setSegCounts cnt bits).segBits = bits := rfl
@[simp] theorem setSegCounts_segTab (cnt : BitVec 5) (bits : BitVec 16) : (s.setSegCounts cnt bits).segTab = s.segTab := rfl
@[simp] theorem setSegCounts_gen (cnt : BitVec 5) (bits : BitVec 16) : (s.setSegCounts cnt bits).gen = s.gen := rfl
@[simp] theorem setSegCounts_rem (cnt : BitVec 5) (bits : BitVec 16) : (s.setSegCounts cnt bits).rem = s.rem := rfl
@[simp] theorem setSegCounts_mem (cnt : BitVec 5) (bits : BitVec 16) : (s.setSegCounts cnt bits).mem = s.mem := rfl
@[simp] theorem setSegCounts_inbox (cnt : BitVec 5) (bits : BitVec 16) : (s.setSegCounts cnt bits).inbox = s.inbox := rfl
@[simp] theorem setSegCounts_replies (cnt : BitVec 5) (bits : BitVec 16) : (s.setSegCounts cnt bits).replies = s.replies := rfl
@[simp] theorem setSegCounts_draws (cnt : BitVec 5) (bits : BitVec 16) : (s.setSegCounts cnt bits).draws = s.draws := rfl

/-! ### setSegTab -/

@[simp] theorem setSegTab_eng (t : Vector SegDesc 16) : (s.setSegTab t).eng = s.eng := rfl
@[simp] theorem setSegTab_wait (t : Vector SegDesc 16) : (s.setSegTab t).wait = s.wait := rfl
@[simp] theorem setSegTab_status (t : Vector SegDesc 16) : (s.setSegTab t).status = s.status := rfl
@[simp] theorem setSegTab_errcode (t : Vector SegDesc 16) : (s.setSegTab t).errcode = s.errcode := rfl
@[simp] theorem setSegTab_arg0 (t : Vector SegDesc 16) : (s.setSegTab t).arg0 = s.arg0 := rfl
@[simp] theorem setSegTab_arg1 (t : Vector SegDesc 16) : (s.setSegTab t).arg1 = s.arg1 := rfl
@[simp] theorem setSegTab_arg2 (t : Vector SegDesc 16) : (s.setSegTab t).arg2 = s.arg2 := rfl
@[simp] theorem setSegTab_res0 (t : Vector SegDesc 16) : (s.setSegTab t).res0 = s.res0 := rfl
@[simp] theorem setSegTab_res1 (t : Vector SegDesc 16) : (s.setSegTab t).res1 = s.res1 := rfl
@[simp] theorem setSegTab_cfg (t : Vector SegDesc 16) : (s.setSegTab t).cfg = s.cfg := rfl
@[simp] theorem setSegTab_plen (t : Vector SegDesc 16) : (s.setSegTab t).plen = s.plen := rfl
@[simp] theorem setSegTab_doneIe (t : Vector SegDesc 16) : (s.setSegTab t).doneIe = s.doneIe := rfl
@[simp] theorem setSegTab_result (t : Vector SegDesc 16) : (s.setSegTab t).result = s.result := rfl
@[simp] theorem setSegTab_penalty (t : Vector SegDesc 16) : (s.setSegTab t).penalty = s.penalty := rfl
@[simp] theorem setSegTab_segCnt (t : Vector SegDesc 16) : (s.setSegTab t).segCnt = s.segCnt := rfl
@[simp] theorem setSegTab_segBits (t : Vector SegDesc 16) : (s.setSegTab t).segBits = s.segBits := rfl
@[simp] theorem setSegTab_segTab (t : Vector SegDesc 16) : (s.setSegTab t).segTab = t := rfl
@[simp] theorem setSegTab_gen (t : Vector SegDesc 16) : (s.setSegTab t).gen = s.gen := rfl
@[simp] theorem setSegTab_rem (t : Vector SegDesc 16) : (s.setSegTab t).rem = s.rem := rfl
@[simp] theorem setSegTab_mem (t : Vector SegDesc 16) : (s.setSegTab t).mem = s.mem := rfl
@[simp] theorem setSegTab_inbox (t : Vector SegDesc 16) : (s.setSegTab t).inbox = s.inbox := rfl
@[simp] theorem setSegTab_replies (t : Vector SegDesc 16) : (s.setSegTab t).replies = s.replies := rfl
@[simp] theorem setSegTab_draws (t : Vector SegDesc 16) : (s.setSegTab t).draws = s.draws := rfl

/-! ### finish -/

@[simp] theorem finish_eng (o : CmdOutcome) : (s.finish o).eng = .idle := rfl
@[simp] theorem finish_wait (o : CmdOutcome) : (s.finish o).wait = s.wait := rfl
@[simp] theorem finish_status (o : CmdOutcome) : (s.finish o).status = s.status.completed o := rfl
@[simp] theorem finish_errcode (o : CmdOutcome) : (s.finish o).errcode = o.byte := rfl
@[simp] theorem finish_arg0 (o : CmdOutcome) : (s.finish o).arg0 = s.arg0 := rfl
@[simp] theorem finish_arg1 (o : CmdOutcome) : (s.finish o).arg1 = s.arg1 := rfl
@[simp] theorem finish_arg2 (o : CmdOutcome) : (s.finish o).arg2 = s.arg2 := rfl
@[simp] theorem finish_res0 (o : CmdOutcome) : (s.finish o).res0 = s.res0 := rfl
@[simp] theorem finish_res1 (o : CmdOutcome) : (s.finish o).res1 = s.res1 := rfl
@[simp] theorem finish_cfg (o : CmdOutcome) : (s.finish o).cfg = s.cfg := rfl
@[simp] theorem finish_plen (o : CmdOutcome) : (s.finish o).plen = s.plen := rfl
@[simp] theorem finish_doneIe (o : CmdOutcome) : (s.finish o).doneIe = s.doneIe := rfl
@[simp] theorem finish_result (o : CmdOutcome) : (s.finish o).result = s.result := rfl
@[simp] theorem finish_penalty (o : CmdOutcome) : (s.finish o).penalty = s.penalty := rfl
@[simp] theorem finish_segCnt (o : CmdOutcome) : (s.finish o).segCnt = s.segCnt := rfl
@[simp] theorem finish_segBits (o : CmdOutcome) : (s.finish o).segBits = s.segBits := rfl
@[simp] theorem finish_segTab (o : CmdOutcome) : (s.finish o).segTab = s.segTab := rfl
@[simp] theorem finish_gen (o : CmdOutcome) : (s.finish o).gen = s.gen := rfl
@[simp] theorem finish_rem (o : CmdOutcome) : (s.finish o).rem = s.rem := rfl
@[simp] theorem finish_mem (o : CmdOutcome) : (s.finish o).mem = s.mem := rfl
@[simp] theorem finish_inbox (o : CmdOutcome) : (s.finish o).inbox = s.inbox := rfl
@[simp] theorem finish_replies (o : CmdOutcome) : (s.finish o).replies = s.replies := rfl
@[simp] theorem finish_draws (o : CmdOutcome) : (s.finish o).draws = s.draws := rfl

/-! ### failState -/

@[simp] theorem failState_eng : s.failState.eng = s.eng := rfl
@[simp] theorem failState_wait : s.failState.wait = s.wait := rfl
@[simp] theorem failState_status : s.failState.status = s.status := rfl
@[simp] theorem failState_errcode : s.failState.errcode = s.errcode := rfl
@[simp] theorem failState_arg0 : s.failState.arg0 = s.arg0 := rfl
@[simp] theorem failState_arg1 : s.failState.arg1 = s.arg1 := rfl
@[simp] theorem failState_arg2 : s.failState.arg2 = s.arg2 := rfl
@[simp] theorem failState_res0 : s.failState.res0 = 0 := rfl
@[simp] theorem failState_res1 : s.failState.res1 = 0 := rfl
@[simp] theorem failState_cfg : s.failState.cfg = s.cfg := rfl
@[simp] theorem failState_plen : s.failState.plen = s.plen := rfl
@[simp] theorem failState_doneIe : s.failState.doneIe = s.doneIe := rfl
@[simp] theorem failState_result : s.failState.result = { version := 0, ecl := 0, mask := 0, size := 0 } := rfl
@[simp] theorem failState_penalty : s.failState.penalty = Config.freeWord s.draws := rfl
@[simp] theorem failState_segCnt : s.failState.segCnt = s.segCnt := rfl
@[simp] theorem failState_segBits : s.failState.segBits = s.segBits := rfl
@[simp] theorem failState_segTab : s.failState.segTab = s.segTab := rfl
@[simp] theorem failState_gen : s.failState.gen = free30 s.draws Config.genBase := rfl
@[simp] theorem failState_rem : s.failState.rem = free30 s.draws Config.remBase := rfl
@[simp] theorem failState_mem : s.failState.mem = s.mem.forgetHigh s.draws := rfl
@[simp] theorem failState_inbox : s.failState.inbox = s.inbox := rfl
@[simp] theorem failState_replies : s.failState.replies = s.replies := rfl
@[simp] theorem failState_draws : s.failState.draws = s.draws + 1 := rfl

/-! ### accept -/

@[simp] theorem accept_eng (w : Word) : (s.accept w).eng = .busy w := rfl
@[simp] theorem accept_wait (w : Word) : (s.accept w).wait = Config.latency w s.draws := rfl
@[simp] theorem accept_status (w : Word) : (s.accept w).status = s.status.accepted := rfl
@[simp] theorem accept_errcode (w : Word) : (s.accept w).errcode = 0 := rfl
@[simp] theorem accept_arg0 (w : Word) : (s.accept w).arg0 = s.arg0 := rfl
@[simp] theorem accept_arg1 (w : Word) : (s.accept w).arg1 = s.arg1 := rfl
@[simp] theorem accept_arg2 (w : Word) : (s.accept w).arg2 = s.arg2 := rfl
@[simp] theorem accept_res0 (w : Word) : (s.accept w).res0 = s.res0 := rfl
@[simp] theorem accept_res1 (w : Word) : (s.accept w).res1 = s.res1 := rfl
@[simp] theorem accept_cfg (w : Word) : (s.accept w).cfg = s.cfg := rfl
@[simp] theorem accept_plen (w : Word) : (s.accept w).plen = s.plen := rfl
@[simp] theorem accept_doneIe (w : Word) : (s.accept w).doneIe = s.doneIe := rfl
@[simp] theorem accept_result (w : Word) : (s.accept w).result = s.result := rfl
@[simp] theorem accept_penalty (w : Word) : (s.accept w).penalty = s.penalty := rfl
@[simp] theorem accept_segCnt (w : Word) : (s.accept w).segCnt = s.segCnt := rfl
@[simp] theorem accept_segBits (w : Word) : (s.accept w).segBits = s.segBits := rfl
@[simp] theorem accept_segTab (w : Word) : (s.accept w).segTab = s.segTab := rfl
@[simp] theorem accept_gen (w : Word) : (s.accept w).gen = s.gen := rfl
@[simp] theorem accept_rem (w : Word) : (s.accept w).rem = s.rem := rfl
@[simp] theorem accept_mem (w : Word) : (s.accept w).mem = s.mem := rfl
@[simp] theorem accept_inbox (w : Word) : (s.accept w).inbox = s.inbox := rfl
@[simp] theorem accept_replies (w : Word) : (s.accept w).replies = s.replies := rfl
@[simp] theorem accept_draws (w : Word) : (s.accept w).draws = s.draws + 1 := rfl

/-! ### Outcomes -/

@[simp] theorem complete_eq : s.complete = s.finish .success := rfl
@[simp] theorem notEncodable_eq (c : FailCode) : s.notEncodable c = s.finish (.notEncodable c) := rfl
@[simp] theorem contractViolation_eq (c : ViolationCode) :
    s.contractViolation c = s.finish (.contractViolation c) := rfl

@[simp] theorem completed_done (f : Status) (o : CmdOutcome) : (f.completed o).done = true := rfl
@[simp] theorem completed_fail (f : Status) (o : CmdOutcome) : (f.completed o).fail = o.isFail := rfl
@[simp] theorem completed_err (f : Status) (o : CmdOutcome) : (f.completed o).err = o.isErr := rfl
@[simp] theorem completed_werr (f : Status) (o : CmdOutcome) : (f.completed o).werr = f.werr := rfl
@[simp] theorem completed_aerr (f : Status) (o : CmdOutcome) : (f.completed o).aerr = f.aerr := rfl

@[simp] theorem success_isFail : CmdOutcome.success.isFail = false := rfl
@[simp] theorem success_isErr : CmdOutcome.success.isErr = false := rfl
@[simp] theorem success_byte : CmdOutcome.success.byte = 0 := rfl
@[simp] theorem notEncodable_isFail (c : FailCode) : (CmdOutcome.notEncodable c).isFail = true := rfl
@[simp] theorem notEncodable_isErr (c : FailCode) : (CmdOutcome.notEncodable c).isErr = false := rfl
@[simp] theorem notEncodable_byte (c : FailCode) : (CmdOutcome.notEncodable c).byte = c.byte := rfl
@[simp] theorem contractViolation_isFail (c : ViolationCode) : (CmdOutcome.contractViolation c).isFail = false := rfl
@[simp] theorem contractViolation_isErr (c : ViolationCode) : (CmdOutcome.contractViolation c).isErr = true := rfl
@[simp] theorem contractViolation_byte (c : ViolationCode) : (CmdOutcome.contractViolation c).byte = c.byte := rfl

/-! ### Checks -/

@[simp] theorem firstFailure_nil : firstFailure [] = none := rfl

theorem firstFailure_cons (c : Check) (cs : List Check) :
    firstFailure (c :: cs) = if c.ok then firstFailure cs else some c.code := rfl

/-- No check fails exactly when every check passes. -/
theorem firstFailure_eq_none_iff (cs : List Check) : firstFailure cs = none ↔ ∀ c ∈ cs, c.ok = true := by
  induction cs with
  | nil => simp
  | cons c cs ih => by_cases h : c.ok = true <;> simp [firstFailure_cons, h, ih]

/-- Checks that all pass leave the body's state. -/
theorem checked_of_pass {cs : List Check} {body : State → State} (h : firstFailure cs = none) :
    s.checked cs body = body s := by simp [State.checked, h]

/-- A failing check ends the command with its code and nothing else. -/
theorem checked_of_fail {cs : List Check} {body : State → State} {c : ViolationCode} (h : firstFailure cs = some c) :
    s.checked cs body = s.finish (.contractViolation c) := by simp [State.checked, h]

/-- Everything a checked command can do: stop at the first check that fails, or run its body. -/
theorem checked_cases (cs : List Check) (body : State → State) :
    (∃ c, firstFailure cs = some c ∧ s.checked cs body = s.finish (.contractViolation c)) ∨
      ((∀ c ∈ cs, c.ok = true) ∧ s.checked cs body = body s) := by
  cases h : firstFailure cs with
  | some c => exact .inl ⟨c, rfl, checked_of_fail s h⟩
  | none => exact .inr ⟨(firstFailure_eq_none_iff cs).1 h, checked_of_pass s h⟩

end Sys2Proof.Machine
end

