-- ==== Sys2Proof/Laws/Matrix.lean ====
section
/-! SUPPORT. The laws of the packed matrix: module bits as one number, module writes, and how they meet the bytes of
MATRIX and FUNCMAP. -/

namespace Sys2Proof.Machine

/-! ### Bits of a number -/

theorem testBit_setBitTo (m n : Nat) (c : Bool) (k : Nat) :
    (setBitTo m n c).testBit k = if k = n then c else m.testBit k := by
  unfold setBitTo
  split
  · next h => split <;> simp_all
  · next h =>
    rw [Nat.testBit_xor, Nat.testBit_shiftLeft]
    by_cases hk : k = n
    · subst hk; cases c <;> simp_all
    · have : (decide (k ≥ n) && (1 : Nat).testBit (k - n)) = false := by
        rcases Nat.lt_or_ge k n with h | h
        · simp; omega
        · obtain ⟨d, rfl⟩ : ∃ d, k = n + 1 + d := ⟨k - n - 1, by omega⟩
          have : n + 1 + d - n = d + 1 := by omega
          simp [this, Nat.testBit_succ]
      simp [this, hk]

theorem setBitTo_lt {m n w : Nat} (c : Bool) (hm : m < 2 ^ w) (hn : n < w) : setBitTo m n c < 2 ^ w := by
  refine Nat.lt_pow_two_of_testBit _ fun i hi => ?_
  rw [testBit_setBitTo, if_neg (by omega)]
  exact Nat.testBit_lt_two_pow (Nat.lt_of_lt_of_le hm (Nat.pow_le_pow_right (by decide) hi))

/-! ### Coordinates -/

theorem moduleIndex_inj {size x y x' y' : Nat} (hx : x < size) (hx' : x' < size) :
    moduleIndex size x y = moduleIndex size x' y' ↔ x = x' ∧ y = y' := by
  unfold moduleIndex
  constructor
  · intro h
    have hm : (y * size + x) % size = (y' * size + x') % size := by rw [h]
    rw [Nat.mul_comm, Nat.mul_add_mod, Nat.mul_comm, Nat.mul_add_mod, Nat.mod_eq_of_lt hx, Nat.mod_eq_of_lt hx'] at hm
    subst hm
    have : y * size = y' * size := by omega
    exact ⟨rfl, Nat.eq_of_mul_eq_mul_right (by omega) this⟩
  · rintro ⟨rfl, rfl⟩; rfl

theorem moduleIndex_lt {size x y : Nat} (hx : x < size) (hy : y < size) : moduleIndex size x y < size * size := by
  unfold moduleIndex
  have : (y + 1) * size ≤ size * size := Nat.mul_le_mul_right _ hy
  rw [Nat.add_mul] at this
  omega

/-- Writing one module changes that module alone. -/
theorem isDark_setModule {size : Nat} (m : Modules) {x y x' y' : Nat} (c : Bool) (hx : x < size) (hx' : x' < size) :
    isDark (setModule size m x y c) size x' y' = if x' = x ∧ y' = y then c else isDark m size x' y' := by
  unfold isDark setModule
  rw [testBit_setBitTo]
  simp only [moduleIndex_inj hx' hx]

/-! ### Lists of module writes -/

/-- A write inside the grid. -/
abbrev InGrid (size : Nat) (w : ModuleWrite) : Prop := w.1 < size ∧ w.2.1 < size

theorem draw_nil (size : Nat) (m : Modules) : draw size m [] = m := rfl

theorem draw_cons (size : Nat) (m : Modules) (w : ModuleWrite) (ws : List ModuleWrite) :
    draw size m (w :: ws) = draw size (setModule size m w.1 w.2.1 w.2.2) ws := rfl

theorem draw_append (size : Nat) (m : Modules) (ws ws' : List ModuleWrite) :
    draw size m (ws ++ ws') = draw size (draw size m ws) ws' := by simp [draw, List.foldl_append]

theorem lastColour_append (ws ws' : List ModuleWrite) (x y : Nat) :
    lastColour (ws ++ ws') x y = (lastColour ws' x y).or (lastColour ws x y) := by
  simp only [lastColour, List.reverse_append, List.find?_append]
  cases List.find? (fun w => w.1 == x && w.2.1 == y) ws'.reverse <;> simp

theorem lastColour_singleton (w : ModuleWrite) (x y : Nat) :
    lastColour [w] x y = if x = w.1 ∧ y = w.2.1 then some w.2.2 else none := by
  simp only [lastColour, List.reverse_singleton, List.find?_cons, List.find?_nil]
  by_cases h : x = w.1 ∧ y = w.2.1
  · obtain ⟨rfl, rfl⟩ := h; simp
  · have : (w.1 == x && w.2.1 == y) = false := by
      simp only [Bool.and_eq_false_iff, beq_eq_false_iff_ne]
      rcases Classical.em (w.1 = x) with h1 | h1
      · exact .inr fun h2 => h ⟨h1.symm, h2.symm⟩
      · exact .inl h1
    simp [this, h]

/-- Drawing gives each module the colour of the last write that reaches it, and leaves the others alone. -/
theorem isDark_draw {size : Nat} {ws : List ModuleWrite} (hw : ∀ w ∈ ws, InGrid size w) (m : Modules) {x : Nat}
    (y : Nat) (hx : x < size) :
    isDark (draw size m ws) size x y = (lastColour ws x y).getD (isDark m size x y) := by
  induction ws generalizing m with
  | nil => simp [draw, lastColour]
  | cons w ws ih =>
    rw [draw_cons, ih (fun w' h => hw w' (List.mem_cons_of_mem _ h)),
      isDark_setModule m _ (hw w (List.mem_cons_self ..)).1 hx]
    rw [show w :: ws = [w] ++ ws from rfl, lastColour_append, lastColour_singleton]
    cases lastColour ws x y <;> simp
    split <;> simp_all

/-- Drawing inside the grid leaves the bits beyond the modules alone. -/
theorem testBit_draw_tail {size : Nat} {ws : List ModuleWrite} (hw : ∀ w ∈ ws, InGrid size w) (m : Modules) {n : Nat}
    (hn : size * size ≤ n) : (draw size m ws).testBit n = m.testBit n := by
  induction ws generalizing m with
  | nil => rfl
  | cons w ws ih =>
    have hg := hw w (List.mem_cons_self ..)
    rw [draw_cons, ih (fun w' h => hw w' (List.mem_cons_of_mem _ h)), setModule, testBit_setBitTo,
      if_neg (by have := moduleIndex_lt hg.1 hg.2; omega)]

theorem draw_lt {size w : Nat} {ws : List ModuleWrite} (hw : ∀ w ∈ ws, InGrid size w) {m : Modules} (hm : m < 2 ^ w)
    (hs : size * size ≤ w) : draw size m ws < 2 ^ w := by
  refine Nat.lt_pow_two_of_testBit _ fun i hi => ?_
  rw [testBit_draw_tail hw _ (Nat.le_trans hs hi)]
  exact Nat.testBit_lt_two_pow (Nat.lt_of_lt_of_le hm (Nat.pow_le_pow_right (by decide) hi))

/-- Two matrices of one side are equal when their modules and their tails are. -/
theorem modules_ext {size : Nat} {m m' : Modules} (hs : 0 < size)
    (h : ∀ x y, x < size → y < size → isDark m size x y = isDark m' size x y)
    (ht : ∀ n, size * size ≤ n → m.testBit n = m'.testBit n) : m = m' := by
  refine Nat.eq_of_testBit_eq fun n => ?_
  rcases Nat.lt_or_ge n (size * size) with hn | hn
  · have := h (n % size) (n / size) (Nat.mod_lt _ hs) (Nat.div_lt_of_lt_mul hn)
    simpa [isDark, moduleIndex, Nat.mul_comm (n / size) size, Nat.div_add_mod] using this
  · exact ht n hn

/-! ### The buffers of a version -/

theorem side_sq_le (v : Nat) : side v * side v ≤ 8 * moduleBytes v := by
  unfold moduleBytes bufLen; omega

theorem moduleBytes_add_one (v : Nat) : moduleBytes v + 1 = bufLen v := by simp [moduleBytes, bufLen]

theorem bufLen_le {v : Nat} (h : v ≤ 40) : bufLen v ≤ 3918 := by
  have h1 : side v ≤ 177 := by unfold side; omega
  have := Nat.mul_le_mul h1 h1
  unfold bufLen; omega

theorem moduleBytes_le {v : Nat} (h : v ≤ 40) : moduleBytes v ≤ 3917 := by
  have := bufLen_le h; have := moduleBytes_add_one v; omega

theorem matrix_lt (s : State) (v : Nat) : s.matrix v < 2 ^ (8 * moduleBytes v) := readLE_lt ..

theorem funcmap_lt (s : State) (v : Nat) : s.funcmap v < 2 ^ (8 * moduleBytes v) := readLE_lt ..

theorem testBit_matrix (s : State) {v n : Nat} (hn : n < 8 * moduleBytes v) :
    (s.matrix v).testBit n = moduleBit s.mem 0x7000 n := by
  unfold State.matrix moduleBit
  rw [testBit_readLE, decide_eq_true hn, Bool.true_and]; rfl

theorem testBit_funcmap (s : State) {v n : Nat} (hn : n < 8 * moduleBytes v) :
    (s.funcmap v).testBit n = moduleBit s.mem 0x6000 n := by
  unfold State.funcmap moduleBit
  rw [testBit_readLE, decide_eq_true hn, Bool.true_and]; rfl

/-- The module bits of MATRIX, read as one number or byte by byte. -/
theorem isDark_matrix (s : State) {v x y : Nat} (hx : x < side v) (hy : y < side v) :
    isDark (s.matrix v) (side v) x y = moduleDark s.mem (side v) x y :=
  testBit_matrix s (Nat.lt_of_lt_of_le (moduleIndex_lt hx hy) (side_sq_le v))

/-- The module bits of FUNCMAP, read as one number or byte by byte. -/
theorem isDark_funcmap (s : State) {v x y : Nat} (hx : x < side v) (hy : y < side v) :
    isDark (s.funcmap v) (side v) x y = moduleFunction s.mem (side v) x y :=
  testBit_funcmap s (Nat.lt_of_lt_of_le (moduleIndex_lt hx hy) (side_sq_le v))

section setMatrix

variable (s : State) {v : Nat}

theorem read_setMatrix_outside (m : Modules) {a : Nat} (h : a < 0x7001 ∨ 0x7000 + bufLen v ≤ a) :
    (s.setMatrix v m).mem.read a = s.mem.read a := by
  refine read_writeLE_outside _ _ _ _ _ ?_
  have := moduleBytes_add_one v
  simp only [Config.matrixBase]
  omega

theorem matrix_setMatrix (hv : v ≤ 40) {m : Modules} (hm : m < 2 ^ (8 * moduleBytes v)) :
    (s.setMatrix v m).matrix v = m := by
  have := moduleBytes_le hv
  unfold State.matrix State.setMatrix
  rw [setMem_mem, readLE_writeLE, Nat.mod_eq_of_lt hm]
  · decide
  · simp only [Config.matrixBase, Config.addressEnd]; omega

theorem funcmap_setMatrix (hv : v ≤ 40) (m : Modules) : (s.setMatrix v m).funcmap v = s.funcmap v := by
  have := moduleBytes_le hv
  refine readLE_congr fun i hi => read_setMatrix_outside s m (.inl ?_)
  simp only [Config.funcmapBase]; omega

theorem matrixSize_setMatrix (m : Modules) : (s.setMatrix v m).matrixSize = s.matrixSize := by
  simp [State.matrixSize, read_setMatrix_outside s m (v := v) (a := Config.matrixBase) (.inl (by decide))]

theorem funcmapSize_setMatrix (m : Modules) : (s.setMatrix v m).funcmapSize = s.funcmapSize := by
  simp [State.funcmapSize, read_setMatrix_outside s m (v := v) (a := Config.funcmapBase) (.inl (by decide))]

theorem cwbuf_setMatrix (m : Modules) {n : Nat} (hn : n ≤ 4096) : (s.setMatrix v m).cwbuf n = s.cwbuf n := by
  refine readBytes_congr fun i hi => read_setMatrix_outside s m (.inl ?_)
  simp only [Config.cwbufBase]; omega

/-- What storing module bits does to memory: the modules become those of the number, and nothing else changes when the
number keeps the bits beyond the modules. -/
theorem setMatrix_becomes (hv : v ≤ 40) {m : Modules} (hm : m < 2 ^ (8 * moduleBytes v))
    (ht : ∀ n, side v * side v ≤ n → m.testBit n = (s.matrix v).testBit n) :
    MatrixBecomes s (s.setMatrix v m) v (isDark m (side v)) where
  modules x y hx hy := by rw [← isDark_matrix _ hx hy, matrix_setMatrix s hv hm]
  tail n hn hn' := by
    have h8 : n < 8 * moduleBytes v := hn'
    rw [← testBit_matrix _ h8, ← testBit_matrix _ h8, matrix_setMatrix s hv hm, ht n hn]
  others a h := read_setMatrix_outside s m h

end setMatrix

end Sys2Proof.Machine
end

