-- ==== Sys2Proof/Laws/Mask.lean ====
section
/-! SUPPORT. Rectangles of modules, filling, and the laws of the mask: XOR with one pattern on the data modules. -/

namespace Sys2Proof.Machine

/-! ### Rectangles -/

theorem mem_rect {l t w h : Nat} {p : Nat × Nat} :
    p ∈ rect l t w h ↔ (l ≤ p.1 ∧ p.1 < l + w) ∧ (t ≤ p.2 ∧ p.2 < t + h) := by
  obtain ⟨x, y⟩ := p
  simp only [rect, List.mem_flatMap, List.mem_map, List.mem_range, Prod.mk.injEq]
  constructor
  · rintro ⟨dy, hdy, dx, hdx, rfl, rfl⟩; omega
  · rintro ⟨h1, h2⟩; exact ⟨y - t, by omega, x - l, by omega, by omega, by omega⟩

theorem mem_allModules {size : Nat} {p : Nat × Nat} : p ∈ allModules size ↔ p.1 < size ∧ p.2 < size := by
  simp [allModules, mem_rect]

theorem nodup_rect (l t w h : Nat) : (rect l t w h).Nodup := by
  unfold rect
  refine List.nodup_flatMap.2 ⟨fun dy _ => ?_, ?_⟩
  · refine (List.nodup_range).map fun a b hab => ?_
    simp only [Prod.mk.injEq] at hab; omega
  · refine (List.nodup_range).imp fun {a b} hab => ?_
    simp only [Function.onFun, List.disjoint_left, List.mem_map, List.mem_range]
    rintro p ⟨dx, _, rfl⟩ ⟨dx', _, h'⟩
    simp only [Prod.mk.injEq] at h'; omega

theorem nodup_allModules (size : Nat) : (allModules size).Nodup := nodup_rect ..

/-! ### Filling -/

theorem lastColour_dark (ps : List (Nat × Nat)) (x y : Nat) :
    lastColour (ps.map fun p => (p.1, p.2, true)) x y = if (x, y) ∈ ps then some true else none := by
  induction ps with
  | nil => simp [lastColour]
  | cons p ps ih =>
    rw [List.map_cons, show ∀ (a : ModuleWrite) l, a :: l = [a] ++ l from fun _ _ => rfl, lastColour_append, ih,
      lastColour_singleton]
    obtain ⟨a, b⟩ := p
    simp only [List.mem_cons, Prod.mk.injEq]
    split <;> split <;> simp_all

/-- Filling darkens a rectangle and leaves the other modules alone. -/
theorem isDark_fill {size : Nat} {r : Nat × Nat × Nat × Nat} (hr : r.1 + r.2.2.1 ≤ size ∧ r.2.1 + r.2.2.2 ≤ size)
    (m : Modules) {x : Nat} (y : Nat) (hx : x < size) :
    isDark (fill size m r) size x y = (isDark m size x y || decide ((x, y) ∈ rect r.1 r.2.1 r.2.2.1 r.2.2.2)) := by
  unfold fill
  rw [isDark_draw _ _ _ hx, lastColour_dark]
  · split <;> simp_all
  · intro w hw
    obtain ⟨p, hp, rfl⟩ := List.mem_map.1 hw
    have := mem_rect.1 hp
    exact ⟨by simp; omega, by simp; omega⟩

theorem testBit_fill_tail {size : Nat} {r : Nat × Nat × Nat × Nat}
    (hr : r.1 + r.2.2.1 ≤ size ∧ r.2.1 + r.2.2.2 ≤ size) (m : Modules) {n : Nat} (hn : size * size ≤ n) :
    (fill size m r).testBit n = m.testBit n := by
  refine testBit_draw_tail (fun w hw => ?_) m hn
  obtain ⟨p, hp, rfl⟩ := List.mem_map.1 hw
  have := mem_rect.1 hp
  exact ⟨by simp; omega, by simp; omega⟩

/-! ### The mask -/

theorem isDark_maskModule {size : Nat} (f : Modules) (k : Nat) (m : Modules) {p : Nat × Nat} {x y : Nat}
    (hp : p.1 < size) (hx : x < size) :
    isDark (maskModule size f k m p) size x y =
      (isDark m size x y ^^ (decide (p = (x, y)) && (!isDark f size x y && invert k x y))) := by
  obtain ⟨a, b⟩ := p
  unfold maskModule
  by_cases h : a = x ∧ b = y
  · obtain ⟨rfl, rfl⟩ := h
    cases hc : (!isDark f size a b && invert k a b)
    · simp
    · simp [isDark_setModule m _ hp hx]
  · have hne : ¬(a, b) = (x, y) := by simpa using h
    simp only [decide_false, Bool.false_and, Bool.xor_false, hne]
    split
    · rw [isDark_setModule m _ hp hx, if_neg (fun h' => h ⟨h'.1.symm, h'.2.symm⟩)]
    · rfl

theorem isDark_foldl_maskModule {size : Nat} (f : Modules) (k : Nat) {ps : List (Nat × Nat)} (hn : ps.Nodup)
    (hp : ∀ p ∈ ps, p.1 < size) (m : Modules) {x y : Nat} (hx : x < size) :
    isDark (ps.foldl (maskModule size f k) m) size x y =
      (isDark m size x y ^^ (decide ((x, y) ∈ ps) && (!isDark f size x y && invert k x y))) := by
  induction ps generalizing m with
  | nil => simp
  | cons p ps ih =>
    obtain ⟨h1, h2⟩ := List.nodup_cons.1 hn
    rw [List.foldl_cons, ih h2 (fun q hq => hp q (List.mem_cons_of_mem _ hq)),
      isDark_maskModule f k m (hp p (List.mem_cons_self ..)) hx]
    by_cases hpx : p = (x, y)
    · subst hpx; simp [h1]
    · have : ¬(x, y) = p := fun h => hpx h.symm
      simp [hpx, this]

/-- Masking inverts exactly the data modules where the mask's predicate holds. -/
theorem isDark_applyMask {size : Nat} (m f : Modules) (k : Nat) {x y : Nat} (hx : x < size) (hy : y < size) :
    isDark (applyMask size m f k) size x y = (isDark m size x y ^^ (!isDark f size x y && invert k x y)) := by
  unfold applyMask
  rw [isDark_foldl_maskModule f k (nodup_allModules size) (fun p hp => (mem_allModules.1 hp).1) m hx]
  simp [mem_allModules, hx, hy]

theorem testBit_applyMask_tail {size : Nat} (m f : Modules) (k : Nat) {n : Nat} (hn : size * size ≤ n) :
    (applyMask size m f k).testBit n = m.testBit n := by
  unfold applyMask
  have hp : ∀ p ∈ allModules size, p.1 < size ∧ p.2 < size := fun p hp => mem_allModules.1 hp
  revert hp
  generalize allModules size = ps
  induction ps generalizing m with
  | nil => intro _; rfl
  | cons p ps ih =>
    intro hp
    rw [List.foldl_cons, ih _ fun q hq => hp q (List.mem_cons_of_mem _ hq)]
    unfold maskModule
    split
    · have := hp p (List.mem_cons_self ..)
      rw [setModule, testBit_setBitTo, if_neg (by have := moduleIndex_lt this.1 this.2; omega)]
    · rfl

theorem applyMask_lt {size w : Nat} {m : Modules} (f : Modules) (k : Nat) (hm : m < 2 ^ w) (hs : size * size ≤ w) :
    applyMask size m f k < 2 ^ w := by
  refine Nat.lt_pow_two_of_testBit _ fun i hi => ?_
  rw [testBit_applyMask_tail _ _ _ (Nat.le_trans hs hi)]
  exact Nat.testBit_lt_two_pow (Nat.lt_of_lt_of_le hm (Nat.pow_le_pow_right (by decide) hi))

/-- Masking twice restores the matrix (R301). -/
theorem applyMask_applyMask {size : Nat} (hs : 0 < size) (m f : Modules) (k : Nat) :
    applyMask size (applyMask size m f k) f k = m :=
  modules_ext hs
    (fun x y hx hy => by rw [isDark_applyMask _ _ _ hx hy, isDark_applyMask _ _ _ hx hy, Bool.xor_assoc]; simp)
    (fun n hn => by rw [testBit_applyMask_tail _ _ _ hn, testBit_applyMask_tail _ _ _ hn])

end Sys2Proof.Machine
end

