-- ==== Sys2Proof/Laws/Placement.lean ====
section
/-! SUPPORT. The zigzag order visits each module once, and codeword placement gives the k-th data module the k-th bit
(R275). -/

namespace Sys2Proof.Machine

/-! ### The zigzag order -/

theorem rightColumns_le {fuel right r : Nat} (h : r ∈ rightColumns fuel right) : 1 ≤ r ∧ r ≤ right := by
  induction fuel generalizing right with
  | zero => simp [rightColumns] at h
  | succ fuel ih =>
    unfold rightColumns at h
    split at h
    · rcases List.mem_cons.1 h with h | h
      · subst h; split <;> omega
      · have := ih h
        revert this; split <;> omega
    · simp at h

/-- Each column pair stands left of the one before it. -/
theorem rightColumns_pairwise (fuel right : Nat) : (rightColumns fuel right).Pairwise fun a b => b + 2 ≤ a := by
  induction fuel generalizing right with
  | zero => simp [rightColumns]
  | succ fuel ih =>
    unfold rightColumns
    split
    · refine List.pairwise_cons.2 ⟨fun r hr => ?_, ih _⟩
      have := rightColumns_le hr
      revert this; split <;> omega
    · simp

theorem mem_columnPair {size right : Nat} {p : Nat × Nat} (h : p ∈ columnPair size right) :
    (p.1 = right ∨ p.1 = right - 1) ∧ p.2 < size := by
  simp only [columnPair, List.mem_flatMap, List.mem_map, List.mem_range] at h
  obtain ⟨vert, hv, j, hj, rfl⟩ := h
  constructor
  · simp only; omega
  · simp only; split <;> omega

theorem columnPair_mem {size right x y : Nat} (hx : x = right ∨ x = right - 1) (hy : y < size) :
    (x, y) ∈ columnPair size right := by
  simp only [columnPair, List.mem_flatMap, List.mem_map, List.mem_range]
  refine ⟨if scansUpward right then size - 1 - y else y, by split <;> omega, if x = right then 0 else 1,
    by split <;> omega, ?_⟩
  ext
  · simp only; split <;> omega
  · simp only; split <;> omega

theorem nodup_columnPair {size right : Nat} (hr : 1 ≤ right) : (columnPair size right).Nodup := by
  unfold columnPair
  refine List.nodup_flatMap.2 ⟨fun vert _ => ?_, ?_⟩
  · refine List.Nodup.map_on (fun a ha b hb hab => ?_) List.nodup_range
    simp only [List.mem_range] at ha hb
    simp only [Prod.mk.injEq] at hab; omega
  · refine List.Pairwise.imp_of_mem (fun {a b} ha hb hab => ?_) (List.pairwise_lt_range (n := size))
    simp only [List.mem_range] at ha hb
    simp only [Function.onFun, List.disjoint_left, List.mem_map, List.mem_range]
    rintro p ⟨i, _, rfl⟩ ⟨i', _, h'⟩
    simp only [Prod.mk.injEq] at h'
    obtain ⟨_, h'⟩ := h'
    split at h' <;> omega

theorem nodup_zigzag (size : Nat) : (zigzag size).Nodup := by
  unfold zigzag
  refine List.nodup_flatMap.2 ⟨fun r hr => nodup_columnPair (rightColumns_le hr).1, ?_⟩
  refine List.Pairwise.imp_of_mem (fun {a b} ha hb hab => ?_) (rightColumns_pairwise size (size - 1))
  have ha' := rightColumns_le ha
  have hb' := rightColumns_le hb
  simp only [Function.onFun, List.disjoint_left]
  intro p hp hp'
  have := (mem_columnPair hp).1
  have := (mem_columnPair hp').1
  omega

theorem zigzag_inGrid {size : Nat} (hs : 0 < size) {p : Nat × Nat} (h : p ∈ zigzag size) :
    p.1 < size ∧ p.2 < size := by
  obtain ⟨r, hr, hp⟩ := List.mem_flatMap.1 h
  have := rightColumns_le hr
  have := mem_columnPair hp
  omega

/-- From an even column on, the pairs reach every column but 6. -/
theorem rightColumns_cover {fuel right x : Nat} (hf : right ≤ fuel) (hx : x ≤ right) (h6 : x ≠ 6 ∨ right < 6)
    (hr : right % 2 = 0 ∧ 6 ≤ right ∨ right % 2 = 1 ∧ right < 6) :
    ∃ r ∈ rightColumns fuel right, x = r ∨ x = r - 1 := by
  induction fuel generalizing right with
  | zero => omega
  | succ fuel ih =>
    unfold rightColumns
    rw [if_pos (by omega)]
    have hq : (if right = 6 then 5 else right) = 5 ∧ right = 6 ∨ (if right = 6 then 5 else right) = right ∧ right ≠ 6 := by
      split <;> omega
    revert hq
    generalize (if right = 6 then 5 else right) = q
    intro hq
    by_cases hd : x = q ∨ x = q - 1
    · exact ⟨_, List.mem_cons_self .., hd⟩
    · obtain ⟨r, hr', hx'⟩ := ih (right := q - 2) (by omega) (by omega) (by omega) (by omega)
      exact ⟨r, List.mem_cons_of_mem _ hr', hx'⟩

/-- The zigzag visits every module outside column 6. -/
theorem mem_zigzag {size x y : Nat} (hs : 7 ≤ size ∧ size % 2 = 1) (hx : x < size) (hy : y < size) (h6 : x ≠ 6) :
    (x, y) ∈ zigzag size := by
  obtain ⟨r, hr, hx'⟩ := rightColumns_cover (fuel := size) (right := size - 1) (x := x) (by omega) (by omega)
    (.inl h6) (by omega)
  exact List.mem_flatMap.2 ⟨r, hr, columnPair_mem hx' hy⟩

/-- The column pairs of a symbol in order, each with its direction (R275). -/
theorem rightColumns_side : ∀ v < 41, (rightColumns (side v) (side v - 1)).map (fun r => (r, scansUpward r)) =
    (List.range ((side v - 1) / 2)).map fun k =>
      (if 6 < side v - 1 - 2 * k then side v - 1 - 2 * k else side v - 2 - 2 * k, decide (k % 2 = 0)) := by
  decide +kernel

/-- The loop of R275 visits the modules in the order written out. -/
theorem zigzag_eq_scanOrder {v : Nat} (hv : v < 41) : zigzag (side v) = scanOrder (side v) := by
  have h : zigzag (side v) = ((rightColumns (side v) (side v - 1)).map fun r => (r, scansUpward r)).flatMap fun q =>
      (List.range (side v)).flatMap fun i =>
        [(q.1, if q.2 then side v - 1 - i else i), (q.1 - 1, if q.2 then side v - 1 - i else i)] := by
    rw [zigzag, List.flatMap_map]
    rfl
  rw [h, rightColumns_side v hv, List.flatMap_map]
  unfold scanOrder
  simp only [decide_eq_true_eq]
/-! ### Placement -/

/-- The data modules of a scan, in order. -/
def dataModules (size : Nat) (f : Modules) (ps : List (Nat × Nat)) : List (Nat × Nat) :=
  ps.filter fun p => !isDark f size p.1 p.2

theorem isDark_placeBits_other {size : Nat} (f : Modules) {ps : List (Nat × Nat)} (hp : ∀ p ∈ ps, p.1 < size)
    (m : Modules) (bits : List Bool) {x y : Nat} (hx : x < size)
    (h : ∀ k < bits.length, (dataModules size f ps)[k]? ≠ some (x, y)) :
    isDark (placeBits size f m ps bits) size x y = isDark m size x y := by
  induction ps generalizing m bits with
  | nil => rfl
  | cons p ps ih =>
    obtain ⟨a, b⟩ := p
    have hp' : ∀ p ∈ ps, p.1 < size := fun q hq => hp q (List.mem_cons_of_mem _ hq)
    unfold placeBits
    split
    · next hf => exact ih hp' _ _ (by simpa [dataModules, hf] using h)
    · next hf =>
      have hd : dataModules size f ((a, b) :: ps) = (a, b) :: dataModules size f ps := by
        simp [dataModules, hf]
      rw [hd] at h
      cases bits with
      | nil => rfl
      | cons c bits =>
        have h0 := h 0 (by simp)
        simp only [List.getElem?_cons_zero, ne_eq, Option.some.injEq, Prod.mk.injEq] at h0
        simp only
        rw [ih hp' _ _ fun k hk => by simpa using h (k + 1) (by simpa using hk),
          isDark_setModule m _ (hp (a, b) (List.mem_cons_self ..)) hx,
          if_neg fun h' => h0 ⟨h'.1.symm, h'.2.symm⟩]

/-- The k-th data module of a scan takes the k-th bit. -/
theorem isDark_placeBits_data {size : Nat} (f : Modules) {ps : List (Nat × Nat)} (hn : ps.Nodup)
    (hp : ∀ p ∈ ps, p.1 < size) (m : Modules) (bits : List Bool) {x y k : Nat} (hx : x < size)
    (hk : (dataModules size f ps)[k]? = some (x, y)) {c : Bool} (hc : bits[k]? = some c) :
    isDark (placeBits size f m ps bits) size x y = c := by
  induction ps generalizing m bits k with
  | nil => simp [dataModules] at hk
  | cons p ps ih =>
    obtain ⟨a, b⟩ := p
    obtain ⟨hn1, hn2⟩ := List.nodup_cons.1 hn
    have hp' : ∀ p ∈ ps, p.1 < size := fun q hq => hp q (List.mem_cons_of_mem _ hq)
    unfold placeBits
    split
    · next hf => exact ih hn2 hp' _ _ (by simpa [dataModules, hf] using hk) hc
    · next hf =>
      have hd : dataModules size f ((a, b) :: ps) = (a, b) :: dataModules size f ps := by
        simp [dataModules, hf]
      rw [hd] at hk
      cases bits with
      | nil => simp at hc
      | cons d bits =>
        cases k with
        | zero =>
          simp only [List.getElem?_cons_zero, Option.some.injEq, Prod.mk.injEq] at hk hc
          obtain ⟨rfl, rfl⟩ := hk
          subst hc
          simp only
          rw [isDark_placeBits_other f hp' _ _ hx, isDark_setModule m _ hx hx, if_pos ⟨rfl, rfl⟩]
          intro j _ hj
          exact hn1 (List.mem_of_mem_filter (List.mem_of_getElem? hj))
        | succ k =>
          simp only [List.getElem?_cons_succ] at hk hc
          exact ih hn2 hp' _ _ hk hc

theorem testBit_placeBits_tail {size : Nat} (f : Modules) {ps : List (Nat × Nat)}
    (hp : ∀ p ∈ ps, p.1 < size ∧ p.2 < size) (m : Modules) (bits : List Bool) {n : Nat} (hn : size * size ≤ n) :
    (placeBits size f m ps bits).testBit n = m.testBit n := by
  induction ps generalizing m bits with
  | nil => rfl
  | cons p ps ih =>
    obtain ⟨a, b⟩ := p
    have hp' : ∀ p ∈ ps, p.1 < size ∧ p.2 < size := fun q hq => hp q (List.mem_cons_of_mem _ hq)
    unfold placeBits
    split
    · exact ih hp' _ _
    · cases bits with
      | nil => rfl
      | cons d bits =>
        have hg := hp (a, b) (List.mem_cons_self ..)
        simp only
        rw [ih hp', setModule, testBit_setBitTo, if_neg (by have := moduleIndex_lt hg.1 hg.2; simp at this ⊢; omega)]

theorem mplaceModules_lt {size w : Nat} (hs : 0 < size) {m : Modules} (f : Modules) (cw : List Byte) (hm : m < 2 ^ w)
    (hw : size * size ≤ w) : mplaceModules size m f cw < 2 ^ w := by
  refine Nat.lt_pow_two_of_testBit _ fun i hi => ?_
  rw [mplaceModules, testBit_placeBits_tail _ (fun p hp => zigzag_inGrid hs hp) _ _ (Nat.le_trans hw hi)]
  exact Nat.testBit_lt_two_pow (Nat.lt_of_lt_of_le hm (Nat.pow_le_pow_right (by decide) hi))

/-! ### Bits of bytes -/

@[simp] theorem bitsOf_length (v n : Nat) : (bitsOf v n).length = n := by simp [bitsOf]

theorem bitsOf_getElem? (v n i : Nat) : (bitsOf v n)[i]? = if i < n then some (v.testBit (n - 1 - i)) else none := by
  simp only [bitsOf, List.getElem?_map]
  split
  · next h => simp [h]
  · next h => simp [h]

@[simp] theorem unpackBytes_nil : unpackBytes [] = [] := rfl

theorem unpackBytes_cons (b : Byte) (bs : List Byte) : unpackBytes (b :: bs) = bitsOf b.toNat 8 ++ unpackBytes bs :=
  rfl

@[simp] theorem unpackBytes_length (bs : List Byte) : (unpackBytes bs).length = 8 * bs.length := by
  induction bs with
  | nil => rfl
  | cons b bs ih => rw [unpackBytes_cons]; simp [ih]; omega

/-- Bit `k` of a byte string, most significant bit of each byte first. -/
theorem unpackBytes_getElem? (bs : List Byte) (k : Nat) :
    (unpackBytes bs)[k]? = if k < 8 * bs.length then some (codewordBit bs k) else none := by
  induction bs generalizing k with
  | nil => simp
  | cons b bs ih =>
    rw [unpackBytes_cons]
    by_cases hk : k < 8
    · have h0 : k / 8 = 0 := by omega
      have hm : k % 8 = k := by omega
      rw [List.getElem?_append_left (by simpa using hk), bitsOf_getElem?, if_pos hk, if_pos (by simp; omega)]
      simp [codewordBit, h0, hm, BitVec.getLsbD]
    · rw [List.getElem?_append_right (by simp; omega), ih]
      obtain ⟨j, rfl⟩ : ∃ j, k = j + 8 := ⟨k - 8, by omega⟩
      simp only [bitsOf_length, Nat.add_sub_cancel, List.length_cons]
      have : (j + 8 < 8 * (bs.length + 1)) ↔ j < 8 * bs.length := by omega
      simp only [this]
      simp [codewordBit, Nat.add_div_right]

end Sys2Proof.Machine
end

