-- ==== Sys2Proof/Laws/Assembly.lean ====
section
/-! SUPPORT. Bit strings packed in bytes, the length of an assembled stream (R223 to R225), and the tables of R218 used
as facts. -/

namespace Sys2Proof.Machine

/-! ### Numbers and bit strings -/

theorem natOfBits_append_singleton (s : List Bool) (b : Bool) : natOfBits (s ++ [b]) = 2 * natOfBits s + b.toNat := by
  simp [natOfBits]

theorem natOfBits_lt (s : List Bool) : natOfBits s < 2 ^ s.length := by
  induction s using List.reverseRecOn with
  | nil => simp [natOfBits]
  | append_singleton s b ih =>
    rw [natOfBits_append_singleton, List.length_append, List.length_singleton, Nat.pow_succ]
    cases b <;> simp <;> omega

/-- The bits of the number a bit string spells, the first the most significant. -/
theorem testBit_natOfBits (s : List Bool) (i : Nat) :
    (natOfBits s).testBit i = if i < s.length then s.getD (s.length - 1 - i) false else false := by
  induction s using List.reverseRecOn generalizing i with
  | nil => simp [natOfBits]
  | append_singleton s b ih =>
    rw [natOfBits_append_singleton]
    cases i with
    | zero => cases b <;> simp [Nat.testBit_zero]
    | succ i =>
      rw [Nat.testBit_succ, show (2 * natOfBits s + b.toNat) / 2 = natOfBits s by cases b <;> (simp; try omega), ih]
      simp only [List.length_append, List.length_singleton, Nat.add_lt_add_iff_right]
      by_cases hi : i < s.length
      · rw [if_pos hi, if_pos hi, List.getD_append _ _ _ _ (by omega)]
        congr 1; omega
      · rw [if_neg hi, if_neg hi]

/-- `bits_of` spells its number, as far as it fits (R15). -/
theorem natOfBits_bitsOf (v n : Nat) : natOfBits (bitsOf v n) = v % 2 ^ n := by
  refine Nat.eq_of_testBit_eq fun i => ?_
  rw [testBit_natOfBits, Nat.testBit_mod_two_pow, bitsOf_length]
  by_cases hi : i < n
  · rw [if_pos hi, List.getD_eq_getElem?_getD, bitsOf_getElem?, if_pos (by omega), decide_eq_true hi, Bool.true_and]
    simp only [Option.getD_some]
    congr 1; omega
  · simp [hi]

/-! ### Packing in bytes -/

@[simp] theorem packBytes_length (n : Nat) (s : List Bool) : (packBytes n s).length = n := by
  induction n generalizing s with
  | zero => rfl
  | succ n ih => simp [packBytes, ih]

/-- Byte `k` of a packed bit string. -/
theorem packBytes_getElem? (n : Nat) (s : List Bool) (k : Nat) :
    (packBytes n s)[k]? = if k < n then some (BitVec.ofNat 8 (natOfBits ((s.drop (8 * k)).take 8))) else none := by
  induction n generalizing s k with
  | zero => simp [packBytes]
  | succ n ih =>
    cases k with
    | zero => simp [packBytes]
    | succ k =>
      rw [packBytes, List.getElem?_cons_succ, ih, List.drop_drop, Nat.mul_succ, Nat.add_comm 8]
      simp

/-- Bit `i` of a bit string that fills its bytes. -/
theorem codewordBit_packBytes {n : Nat} {s : List Bool} (hs : s.length = 8 * n) (i : Nat) (hi : i < 8 * n) :
    ((packBytes n s).getD (i / 8) 0).getLsbD (7 - i % 8) = s.getD i false := by
  rw [List.getD_eq_getElem?_getD, packBytes_getElem?, if_pos (by omega), Option.getD_some, BitVec.getLsbD_ofNat,
    decide_eq_true (by omega), Bool.true_and, testBit_natOfBits]
  have hl : ((s.drop (8 * (i / 8))).take 8).length = 8 := by simp; omega
  rw [hl, if_pos (by omega), List.getD_eq_getElem?_getD, List.getD_eq_getElem?_getD, List.getElem?_take,
    if_pos (by omega), List.getElem?_drop]
  congr 2; omega

/-! ### Terminator and padding -/

@[simp] theorem zeroBits_length (n : Nat) : (zeroBits n).length = n := by simp [zeroBits]

@[simp] theorem padCodewords_length (n : Nat) (p : Byte) : (padCodewords n p).length = n := by
  induction n generalizing p with
  | zero => rfl
  | succ n ih => simp [padCodewords, ih]

/-- The pad codewords are 0xEC and 0x11 in turn (R224). -/
theorem padCodewords_getElem? (n k : Nat) (hk : k < n) :
    (padCodewords n 0xEC)[k]? = some (if k % 2 = 0 then 0xEC else 0x11) := by
  have key : ∀ (n k : Nat) (p q : Byte), p ^^^ 0xFD = q → q ^^^ 0xFD = p → k < n →
      (padCodewords n p)[k]? = some (if k % 2 = 0 then p else q) := by
    intro n
    induction n with
    | zero => intro k p q _ _ h; omega
    | succ n ih =>
      intro k p q hp hq h
      cases k with
      | zero => simp [padCodewords]
      | succ k =>
        rw [padCodewords, List.getElem?_cons_succ, hp, ih k q p hq hp (by omega)]
        by_cases hk : k % 2 = 0
        · rw [if_pos hk, if_neg (by omega)]
        · rw [if_neg hk, if_pos (by omega)]
  exact key n k 0xEC 0x11 (by decide) (by decide) hk

/-- R223: the terminated stream: its length is a whole number of bytes and at most the capacity. -/
theorem terminate_length {cap : Nat} {b : List Bool} (hc : cap % 8 = 0) (hb : b.length ≤ cap) :
    (terminate cap b).length = 8 * ((b.length + min 4 (cap - b.length) + 7) / 8) ∧
      (terminate cap b).length ≤ cap := by
  simp only [terminate, List.length_append, zeroBits_length]
  omega

/-- The terminated stream begins with the stream and goes on with zeros. -/
theorem terminate_getD (cap : Nat) (b : List Bool) (i : Nat) : (terminate cap b).getD i false = b.getD i false := by
  unfold terminate
  simp only [List.append_assoc]
  rcases Nat.lt_or_ge i b.length with h | h
  · rw [List.getD_append _ _ _ _ h]
  · rw [List.getD_append_right _ _ _ _ h, List.getD_eq_default _ _ h]
    simp [zeroBits, List.getD_eq_getElem?_getD, List.getElem?_replicate]
    split <;> rfl

/-- R224: the assembled stream fills its capacity. -/
theorem assembleBytes_length {v e : Nat} {b : List Bool} (hb : b.length ≤ capacityBits v e) :
    (assembleBytes v e b).length = dataCodewords v e := by
  have := terminate_length (cap := capacityBits v e) (b := b) (by simp [capacityBits]) hb
  simp only [assembleBytes, List.length_append, packBytes_length, padCodewords_length]
  unfold capacityBits at *
  omega

end Sys2Proof.Machine
end

