-- ==== Sys2Proof/Laws/Encoding.lean ====
section
/-! SUPPORT. The fields of an assembled word, and the word of four fields. -/

namespace Sys2Proof

/-- The bits of an assembled word (R122). -/
theorem getLsbD_assembleWord (op a b i : Nat) :
    (assembleWord op a b).getLsbD i =
      if i < 8 then op.testBit i else if i < 16 then a.testBit (i - 8)
      else if i < 24 then b.testBit (i - 16) else false := by
  unfold assembleWord
  show BitVec.getLsbD (w := 8 + 8 + 8 + 8) (0#8 ++ BitVec.ofNat 8 b ++ BitVec.ofNat 8 a ++ BitVec.ofNat 8 op) i = _
  rw [BitVec.getLsbD_append, BitVec.getLsbD_append, BitVec.getLsbD_append]
  by_cases h1 : i < 8
  · simp only [h1, if_true, BitVec.getLsbD_ofNat, decide_true, Bool.true_and]
  · by_cases h2 : i < 16
    · have : i - 8 < 8 := by omega
      simp only [h1, h2, this, if_true, if_false, BitVec.getLsbD_ofNat, decide_true, Bool.true_and]
    · by_cases h3 : i < 24
      · have h4 : ¬i - 8 < 8 := by omega
        have h5 : i - 8 - 8 < 8 := by omega
        have h6 : i - 8 - 8 = i - 16 := by omega
        simp only [h1, h2, h3, h4, h5, if_true, if_false]
        rw [h6, BitVec.getLsbD_ofNat]
        simp; omega
      · have h4 : ¬i - 8 < 8 := by omega
        have h5 : ¬i - 8 - 8 < 8 := by omega
        simp [h1, h2, h3, h4, h5]

@[simp] theorem fieldOp_assembleWord (op a b : Nat) : fieldOp (assembleWord op a b) = BitVec.ofNat 8 op := by
  refine BitVec.eq_of_getLsbD_eq fun i hi => ?_
  rw [fieldOp, BitVec.getLsbD_extractLsb', getLsbD_assembleWord, BitVec.getLsbD_ofNat]
  simp [hi]

@[simp] theorem fieldA_assembleWord (op a b : Nat) : fieldA (assembleWord op a b) = BitVec.ofNat 8 a := by
  refine BitVec.eq_of_getLsbD_eq fun i hi => ?_
  rw [fieldA, BitVec.getLsbD_extractLsb', getLsbD_assembleWord, if_neg (by omega), if_pos (by omega),
    BitVec.getLsbD_ofNat]
  simp [hi]

@[simp] theorem fieldB_assembleWord (op a b : Nat) : fieldB (assembleWord op a b) = BitVec.ofNat 8 b := by
  refine BitVec.eq_of_getLsbD_eq fun i hi => ?_
  rw [fieldB, BitVec.getLsbD_extractLsb', getLsbD_assembleWord, if_neg (by omega), if_neg (by omega),
    if_pos (by omega), BitVec.getLsbD_ofNat]
  simp [hi]

@[simp] theorem fieldC_assembleWord (op a b : Nat) : fieldC (assembleWord op a b) = 0 := by
  refine BitVec.eq_of_getLsbD_eq fun i hi => ?_
  rw [fieldC, BitVec.getLsbD_extractLsb', getLsbD_assembleWord, if_neg (by omega), if_neg (by omega),
    if_neg (by omega)]
  simp

/-- A word is its four fields. -/
theorem word_eq_of_fields {w w' : Word} (h0 : fieldOp w = fieldOp w') (h1 : fieldA w = fieldA w')
    (h2 : fieldB w = fieldB w') (h3 : fieldC w = fieldC w') : w = w' := by
  refine BitVec.eq_of_getLsbD_eq fun i hi => ?_
  have key : ∀ (o : Nat), o + 8 ≤ 32 → o ≤ i → i < o + 8 → w.extractLsb' o 8 = w'.extractLsb' o 8 →
      w.getLsbD i = w'.getLsbD i := by
    intro o ho h h' he
    have := congrArg (fun x => BitVec.getLsbD x (i - o)) he
    simp only [BitVec.getLsbD_extractLsb', decide_eq_true (show i - o < 8 by omega), Bool.true_and,
      show o + (i - o) = i by omega] at this
    exact this
  rcases Nat.lt_or_ge i 8 with h | h
  · exact key 0 (by omega) (by omega) (by omega) h0
  · rcases Nat.lt_or_ge i 16 with h | h
    · exact key 8 (by omega) (by omega) (by omega) h1
    · rcases Nat.lt_or_ge i 24 with h | h
      · exact key 16 (by omega) (by omega) (by omega) h2
      · exact key 24 (by omega) (by omega) (by omega) h3

theorem fieldOp_and (w m : Word) : fieldOp (w &&& m) = fieldOp w &&& fieldOp m := by
  refine BitVec.eq_of_getLsbD_eq fun i hi => ?_
  simp [fieldOp, hi]

theorem fieldA_and (w m : Word) : fieldA (w &&& m) = fieldA w &&& fieldA m := by
  refine BitVec.eq_of_getLsbD_eq fun i hi => ?_
  simp [fieldA, hi]

theorem fieldB_and (w m : Word) : fieldB (w &&& m) = fieldB w &&& fieldB m := by
  refine BitVec.eq_of_getLsbD_eq fun i hi => ?_
  simp [fieldB, hi]

theorem fieldC_and (w m : Word) : fieldC (w &&& m) = fieldC w &&& fieldC m := by
  refine BitVec.eq_of_getLsbD_eq fun i hi => ?_
  simp [fieldC, hi]

/-- A masked word matches a value field by field. -/
theorem masked_eq_iff (w m v : Word) :
    w &&& m = v ↔ fieldOp w &&& fieldOp m = fieldOp v ∧ fieldA w &&& fieldA m = fieldA v ∧
      fieldB w &&& fieldB m = fieldB v ∧ fieldC w &&& fieldC m = fieldC v := by
  constructor
  · rintro rfl; exact ⟨(fieldOp_and ..).symm, (fieldA_and ..).symm, (fieldB_and ..).symm, (fieldC_and ..).symm⟩
  · rintro ⟨h0, h1, h2, h3⟩
    exact word_eq_of_fields (by rw [fieldOp_and, h0]) (by rw [fieldA_and, h1]) (by rw [fieldB_and, h2])
      (by rw [fieldC_and, h3])

theorem fieldOp_toNat (w : Word) : (fieldOp w).toNat = w.toNat % 256 := by
  simp [fieldOp, BitVec.extractLsb'_toNat]

theorem fieldA_toNat (w : Word) : (fieldA w).toNat = w.toNat / 256 % 256 := by
  simp [fieldA, BitVec.extractLsb'_toNat, Nat.shiftRight_eq_div_pow]

theorem fieldB_toNat (w : Word) : (fieldB w).toNat = w.toNat / 65536 % 256 := by
  simp [fieldB, BitVec.extractLsb'_toNat, Nat.shiftRight_eq_div_pow]

theorem fieldC_toNat (w : Word) : (fieldC w).toNat = w.toNat / 16777216 % 256 := by
  simp [fieldC, BitVec.extractLsb'_toNat, Nat.shiftRight_eq_div_pow]

/-- What decoding to a command says of the word: its opcode's row of R125, and its must-be-zero fields zero. -/
theorem decode_eq_ok_iff (w : Word) (i : Instr) :
    decode w = .ok i ↔ ∃ f mk, opcodeRow (fieldOp w).toNat = some (f, mk) ∧
      f.fieldsZero (fieldA w) (fieldB w) (fieldC w) = true ∧ mk (fieldA w) (fieldB w) = i := by
  unfold decode
  cases h : opcodeRow (fieldOp w).toNat with
  | none => simp only; split <;> simp
  | some p =>
    obtain ⟨f, mk⟩ := p
    simp only [Option.some.injEq, Prod.mk.injEq]
    split
    · next hz =>
      constructor
      · intro h'; exact ⟨f, mk, ⟨rfl, rfl⟩, hz, by simpa using h'⟩
      · rintro ⟨_, _, ⟨rfl, rfl⟩, _, h'⟩; simp [h']
    · next hz =>
      constructor
      · intro h'; simp at h'
      · rintro ⟨_, _, ⟨rfl, rfl⟩, h', _⟩; exact absurd h' hz

end Sys2Proof
end

