-- ==== Sys2Proof/Laws/Segment.lean ====
section
/-! SUPPORT. What appending a segment does (R188, R189), and that it keeps the segment table's invariant. -/

namespace Sys2Proof.Machine

/-- The segment part of the invariant. -/
structure SegOk (s : State) : Prop where
  segCnt : s.segCnt.toNat ≤ 16
  chain : chainFrom 0 s.segs = true
  segBits : s.segBits.toNat = (s.segs.map fun d => d.bitLen.toNat).sum
  segBitsLe : s.segBits.toNat ≤ 32768

/-- The descriptor an append writes. -/
def newDesc (s : State) (mode : SegMode) (nchars : Nat) (bits : List Bool) : SegDesc where
  mode := modeIndicator mode
  numChars := BitVec.ofNat 16 nchars
  bitLen := BitVec.ofNat 16 bits.length
  bitOff := s.segBits

/-- The state an append leaves. -/
def appendState (s : State) (mode : SegMode) (nchars : Nat) (bits : List Bool) : State :=
  ((s.setMem (s.mem.writeBitsMsb Config.segbufBase s.segBits.toNat bits)).setSegTab
    (s.segTab.setIfInBounds s.segCnt.toNat (newDesc s mode nchars bits))).setSegCounts (s.segCnt + 1)
    (s.segBits + BitVec.ofNat 16 bits.length)

theorem segAppend_of_fits {s : State} {bits : List Bool} (mode : SegMode) (nchars : Nat) (h : SegmentFits s bits) :
    s.segAppend mode nchars bits = some (appendState s mode nchars bits) := by
  unfold State.segAppend
  rw [if_neg (by have := h.1; simp only [Config.segBitsMax]; omega),
    if_neg (by have := h.2; simp only [Config.segbufBits]; omega)]
  rfl

theorem segAppend_of_not_fits {s : State} {bits : List Bool} (mode : SegMode) (nchars : Nat)
    (h : ¬SegmentFits s bits) : s.segAppend mode nchars bits = none := by
  unfold State.segAppend
  split
  · rfl
  · rw [if_pos]
    simp only [Config.segBitsMax, Config.segbufBits] at *
    rcases Nat.lt_or_ge 32768 (s.segBits.toNat + bits.length) with h' | h'
    · exact h'
    · exact absurd ⟨by omega, h'⟩ h

/-- Everything an append can do. -/
theorem segFinish_cases (s : State) (mode : SegMode) (nchars : Nat) (bits : List Bool) :
    (SegmentFits s bits ∧ s.segFinish mode nchars bits = (appendState s mode nchars bits).finish .success) ∨
      (¬SegmentFits s bits ∧ s.segFinish mode nchars bits = s.finish (.notEncodable .segTooLarge)) := by
  unfold State.segFinish
  by_cases h : SegmentFits s bits
  · exact .inl ⟨h, by rw [segAppend_of_fits mode nchars h]; rfl⟩
  · exact .inr ⟨h, by rw [segAppend_of_not_fits mode nchars h]; rfl⟩

theorem appendState_count {s : State} (mode : SegMode) (nchars : Nat) (bits : List Bool) (h : s.segCnt.toNat < 16) :
    (appendState s mode nchars bits).segCnt.toNat = s.segCnt.toNat + 1 := by
  simp only [appendState, setSegCounts_segCnt, BitVec.toNat_add]
  rw [show (1 : BitVec 5).toNat = 1 from rfl]
  omega

theorem appendState_bits {s : State} {bits : List Bool} (mode : SegMode) (nchars : Nat) (h : SegmentFits s bits) :
    (appendState s mode nchars bits).segBits.toNat = s.segBits.toNat + bits.length := by
  have := h.2
  simp only [appendState, setSegCounts_segBits, BitVec.toNat_add, BitVec.toNat_ofNat]
  omega

theorem appendState_segTab (s : State) (mode : SegMode) (nchars : Nat) (bits : List Bool) (k : Nat) :
    (appendState s mode nchars bits).segTab[k]? =
      if k = s.segCnt.toNat then (if k < 16 then some (newDesc s mode nchars bits) else none) else s.segTab[k]? := by
  simp only [appendState, setSegCounts_segTab, setSegTab_segTab, Vector.getElem?_setIfInBounds]
  by_cases h : k = s.segCnt.toNat
  · subst h; simp
  · rw [if_neg (fun h' => h h'.symm), if_neg h]

/-- An append meets R189. -/
theorem appended_of_fits {s : State} {bits : List Bool} (mode : SegMode) (nchars : Nat) (hc : s.segCnt.toNat < 16)
    (h : SegmentFits s bits) :
    Appended s ((appendState s mode nchars bits).finish .success) (modeIndicator mode) nchars bits where
  count := appendState_count mode nchars bits hc
  total := appendState_bits mode nchars h
  desc := by
    show (appendState s mode nchars bits).segTab[s.segCnt.toNat]? = _
    rw [appendState_segTab, if_pos rfl, if_pos hc]; rfl
  others k hk := by
    show (appendState s mode nchars bits).segTab[k]? = _
    rw [appendState_segTab, if_neg hk]
  stored i hi :=
    readBitMsb_writeBitsMsb s.mem Config.segbufBase bits s.segBits.toNat i (by decide)
      (by have := h.2; simp only [Config.segbufBase, Config.addressEnd]; omega)
  bytes a ha := read_writeBitsMsb_outside s.mem Config.segbufBase bits s.segBits.toNat a
    (by have := h.2; simp only [Config.segbufBase]; omega)
  frame := rfl

/-! ### The table -/

theorem segs_length (s : State) (h : s.segCnt.toNat ≤ 16) : s.segs.length = s.segCnt.toNat := by
  simp [State.segs]; omega

theorem segs_getElem? (s : State) (k : Nat) :
    s.segs[k]? = if k < s.segCnt.toNat then s.segTab[k]? else none := by
  simp only [State.segs, List.getElem?_take]
  split
  · rw [Vector.getElem?_toList]
  · rfl

/-- The valid descriptors after an append: those before, then the new one. -/
theorem appendState_segs {s : State} (mode : SegMode) (nchars : Nat) (bits : List Bool) (hc : s.segCnt.toNat < 16) :
    (appendState s mode nchars bits).segs = s.segs ++ [newDesc s mode nchars bits] := by
  refine List.ext_getElem? fun k => ?_
  rw [segs_getElem?, appendState_count _ _ _ hc, appendState_segTab, List.getElem?_append, segs_length s (by omega),
    segs_getElem?]
  rcases Nat.lt_trichotomy k s.segCnt.toNat with h | h | h
  · rw [if_pos (by omega), if_neg (by omega), if_pos h, if_pos h]
  · subst h; simp [hc]
  · rw [if_neg (by omega), if_neg (by omega), List.getElem?_eq_none (by simp; omega)]

theorem chainFrom_append (o : Nat) (ds : List SegDesc) (d : SegDesc) :
    chainFrom o (ds ++ [d]) = (chainFrom o ds && (decide (d.bitOff.toNat = o + (ds.map fun d => d.bitLen.toNat).sum) &&
      decide (d.bitLen.toNat ≤ 32767) && [0x1#4, 0x2#4, 0x4#4, 0x7#4].contains d.mode)) := by
  induction ds generalizing o with
  | nil => simp [chainFrom]
  | cons e ds ih =>
    simp only [List.cons_append, chainFrom, ih, List.map_cons, List.sum_cons, Nat.add_assoc, Bool.and_assoc]

theorem segOk_append {s : State} {bits : List Bool} (mode : SegMode) (nchars : Nat) (hc : s.segCnt.toNat < 16)
    (h : SegmentFits s bits) (hs : SegOk s) : SegOk (appendState s mode nchars bits) where
  segCnt := by rw [appendState_count _ _ _ hc]; omega
  chain := by
    rw [appendState_segs _ _ _ hc, chainFrom_append, hs.chain, ← hs.segBits]
    have h1 : (newDesc s mode nchars bits).bitLen.toNat ≤ 32767 := by
      have := h.1
      simp only [newDesc, BitVec.toNat_ofNat]; omega
    have h2 : [0x1#4, 0x2#4, 0x4#4, 0x7#4].contains (newDesc s mode nchars bits).mode = true := by
      cases mode <;> rfl
    have h3 : (newDesc s mode nchars bits).bitOff.toNat = 0 + s.segBits.toNat := (Nat.zero_add _).symm
    rw [h2, decide_eq_true h1, decide_eq_true h3]; rfl
  segBits := by
    rw [appendState_bits _ _ h, appendState_segs _ _ _ hc, hs.segBits]
    have := h.1
    simp [newDesc]; omega
  segBitsLe := by rw [appendState_bits _ _ h]; exact h.2

theorem segOk_congr {s t : State} (h1 : t.segCnt = s.segCnt) (h2 : t.segBits = s.segBits) (h3 : t.segTab = s.segTab)
    (h : SegOk s) : SegOk t := by
  obtain ⟨a, b, c, d⟩ := h
  have : t.segs = s.segs := by simp only [State.segs, h1, h3]
  exact ⟨by rwa [h1], by rwa [this], by rwa [this, h2], by rwa [h2]⟩

theorem segOk_clear (s : State) : SegOk (s.setSegCounts 0 0) :=
  ⟨by simp, by simp [State.segs, chainFrom], by simp [State.segs], by simp⟩

end Sys2Proof.Machine
end

