-- ==== Sys2Proof/Laws/Exec.lean ====
section
/-! SUPPORT. What a command can do, said once: `exec` always answers a next state, the body of the command followed by the
recording of one outcome; the body leaves every host-owned register alone and keeps the invariant's parts; and a contract
violation has no body. -/

namespace Sys2Proof.Machine

/-- R40: VERSION is 0 or a version, and SIZE goes with it. -/
def ResultOk (r : Result) : Prop :=
  r.version.toNat ≤ 40 ∧ r.size.toNat = if r.version.toNat = 0 then 0 else 4 * r.version.toNat + 17

/-- What the body of a command may do to the state. -/
structure Body (s u : State) : Prop where
  /-- Host-owned registers, control state and queues are untouched. -/
  control : u = { s with
    res0 := u.res0
    res1 := u.res1
    result := u.result
    penalty := u.penalty
    segCnt := u.segCnt
    segBits := u.segBits
    segTab := u.segTab
    gen := u.gen
    rem := u.rem
    mem := u.mem
    draws := u.draws }
  payload : ∀ a, a < 0x3000 → u.mem.read a = s.mem.read a
  wf : s.mem.wf → u.mem.wf
  seg : SegOk s → SegOk u
  result : ResultOk s.result → ResultOk u.result

namespace Body

variable {s u : State}

theorem refl (s : State) : Body s s := ⟨rfl, fun _ _ => rfl, id, id, id⟩

theorem trans {w : State} (h1 : Body s u) (h2 : Body u w) : Body s w where
  control := by rw [h2.control, h1.control]
  payload a ha := by rw [h2.payload a ha, h1.payload a ha]
  wf h := h2.wf (h1.wf h)
  seg h := h2.seg (h1.seg h)
  result h := h2.result (h1.result h)

theorem setRes (s : State) (r0 r1 : Word) : Body s (s.setRes r0 r1) :=
  ⟨rfl, fun _ _ => rfl, id, segOk_congr rfl rfl rfl, id⟩

theorem setRes0 (s : State) (r0 : Word) : Body s (s.setRes0 r0) :=
  ⟨rfl, fun _ _ => rfl, id, segOk_congr rfl rfl rfl, id⟩

theorem setPenalty (s : State) (p : Word) : Body s (s.setPenalty p) :=
  ⟨rfl, fun _ _ => rfl, id, segOk_congr rfl rfl rfl, id⟩

theorem setGen (s : State) (g : Vector Byte 30) : Body s (s.setGen g) :=
  ⟨rfl, fun _ _ => rfl, id, segOk_congr rfl rfl rfl, id⟩

theorem setRem (s : State) (r : Vector Byte 30) : Body s (s.setRem r) :=
  ⟨rfl, fun _ _ => rfl, id, segOk_congr rfl rfl rfl, id⟩

theorem setResult (s : State) {r : Result} (hr : ResultOk s.result → ResultOk r) : Body s (s.setResult r) :=
  ⟨rfl, fun _ _ => rfl, id, segOk_congr rfl rfl rfl, hr⟩

theorem setMem (s : State) {m : Memory} (hp : ∀ a, a < 0x3000 → m.read a = s.mem.read a)
    (hw : s.mem.wf → m.wf) : Body s (s.setMem m) :=
  ⟨rfl, hp, hw, segOk_congr rfl rfl rfl, id⟩

theorem clear (s : State) : Body s (s.setSegCounts 0 0) :=
  ⟨rfl, fun _ _ => rfl, id, fun _ => segOk_clear s, id⟩

theorem append {bits : List Bool} (mode : SegMode) (nchars : Nat) (hc : s.segCnt.toNat < 16)
    (h : SegmentFits s bits) : Body s (appendState s mode nchars bits) where
  control := rfl
  payload a ha := read_writeBitsMsb_outside s.mem _ _ _ _ (.inl (by simp only [Config.segbufBase]; omega))
  wf := writeBitsMsb_wf _ _ _
  seg := segOk_append mode nchars hc h
  result := id

theorem fail (s : State) : Body s s.failState where
  control := rfl
  payload a ha := read_forgetHigh_low s.mem s.draws (by simp only [Config.databufBase]; omega)
  wf := forgetHigh_wf _
  seg := segOk_congr rfl rfl rfl
  result := fun _ => ⟨by simp, by simp⟩

theorem setMatrix (s : State) (v : Nat) (m : Modules) : Body s (s.setMatrix v m) :=
  setMem s (fun a ha => read_setMatrix_outside s m (v := v) (.inl (by omega))) (writeLE_wf _ _ _)

theorem assembleInto (s : State) (v e : Nat) : Body s (s.assembleInto v e) :=
  setMem s (fun a ha => read_writeBytes_outside _ _ _ _ (.inl (by simp only [Config.databufBase]; omega)))
    (writeBytes_wf _ _)

theorem interleaveInto (s : State) (v e : Nat) : Body s (s.interleaveInto v e) := by
  unfold State.interleaveInto
  refine trans (trans (setMem s (fun a ha => ?_) (writeBytes_wf _ _)) (setGen _ _)) (setRem _ _)
  exact read_writeBytes_outside _ _ _ _ (.inl (by simp only [Config.cwbufBase]; omega))

theorem minitInto (s : State) (v : Nat) : Body s (s.minitInto v) := by
  refine setMem s (fun a ha => ?_) fun h => writeLE_wf _ _ _ (write_wf _ _ (writeLE_wf _ _ _ (write_wf _ _ h)))
  simp only [Memory.writeMinit, Config.funcmapBase, Config.matrixBase]
  rw [read_writeLE_outside _ _ _ _ _ (by omega), read_write_other _ _ (by omega),
    read_writeLE_outside _ _ _ _ _ (by omega), read_write_other _ _ (by omega)]

theorem mselectInto (s : State) (v e sel : Nat) : Body s (s.mselectInto v e sel) := by
  unfold State.mselectInto
  simp only
  split
  · exact trans (trans (trans (setMatrix s v _) (setPenalty _ _)) (setRes _ _ _)) (setResult _ id)
  · exact trans (trans (setMatrix s v _) (setRes _ _ _)) (setResult _ id)

theorem buildSymbol (s : State) (v e : Nat) : Body s (s.buildSymbol v e) :=
  trans (trans (trans (trans (trans (assembleInto s v e) (interleaveInto _ v e)) (minitInto _ v)) (setMatrix _ v _))
    (setMatrix _ v _)) (mselectInto _ v e _)

end Body

/-! ### Negotiation stays in the range -/

theorem negotiateLoop_mem {segs : List SegDesc} {ecl : Nat} {boost : Bool} {vs : List Nat} {v e t : Nat}
    (h : negotiateLoop segs ecl boost vs = some (v, e, t)) : v ∈ vs := by
  induction vs with
  | nil => simp [negotiateLoop] at h
  | cons u vs ih =>
    unfold negotiateLoop at h
    split at h
    · simp only [Option.some.injEq, Prod.mk.injEq] at h
      exact List.mem_cons.2 (.inl h.1.symm)
    · exact List.mem_cons_of_mem _ (ih h)

/-- The negotiated version lies in the range. -/
theorem negotiate_range {segs : List SegDesc} {ecl vmin vmax : Nat} {boost : Bool} {v e t : Nat}
    (h : negotiate segs ecl vmin vmax boost = some (v, e, t)) : vmin ≤ v ∧ v ≤ vmax := by
  have := List.mem_range'_1.1 (negotiateLoop_mem h)
  omega

theorem resultOk_version {v : Nat} (hv : LegalVersion v) (ecl : BitVec 2) (mask : BitVec 3) :
    ResultOk { version := BitVec.ofNat 6 v, ecl := ecl, mask := mask, size := BitVec.ofNat 8 (side v) } := by
  have h1 : v % 64 = v := Nat.mod_eq_of_lt (by have := hv.2; omega)
  have h2 : side v % 256 = 4 * v + 17 := by
    have := hv.2; unfold side; omega
  have h0 : ¬v = 0 := by have := hv.1; omega
  refine ⟨?_, ?_⟩
  · simp [h1]; exact hv.2
  · simp [h1, h2, h0]

/-! ### Commands -/

/-- What a command does: no body and a contract violation, or a body and another outcome. -/
inductive Ends (s : State) (a : Answer) : Prop where
  | violation (c : ViolationCode) (h : a = .next (s.finish (.contractViolation c)))
  | body (u : State) (o : CmdOutcome) (hb : Body s u) (ho : o.isErr = false) (h : a = .next (u.finish o))

/-- A checked command ends in a violation, or as its body does once every check has passed. -/
theorem ends_checked {s : State} {cs : List Check} {body : State → State}
    (h : (∀ c ∈ cs, c.ok = true) → Ends s (.next (body s))) : Ends s (.next (s.checked cs body)) := by
  rcases checked_cases s cs body with ⟨c, _, hc⟩ | ⟨hp, hb⟩
  · exact .violation c (by rw [hc])
  · rw [hb]; exact h hp

theorem ends_success {s u : State} (hb : Body s u) : Ends s (.next u.complete) := .body u .success hb rfl rfl

theorem ends_notEncodable {s u : State} (c : FailCode) (hb : Body s u) : Ends s (.next (u.notEncodable c)) :=
  .body u (.notEncodable c) hb rfl rfl

theorem ends_segFinish {s : State} (mode : SegMode) (nchars : Nat) (bits : List Bool) (hc : s.segCnt.toNat < 16) :
    Ends s (.next (s.segFinish mode nchars bits)) := by
  rcases segFinish_cases s mode nchars bits with ⟨h, he⟩ | ⟨_, he⟩ <;> rw [he]
  · exact ends_success (.append mode nchars hc h)
  · exact ends_notEncodable _ (.refl s)

theorem cfg_versions_of_checks {s : State} (h1 : (cfgVersionCheck s).ok = true) (h2 : (cfgOrderCheck s).ok = true) :
    CfgVersionsLegal s := by
  have h3 := Bool.and_eq_true_iff.1 h1
  exact ⟨of_decide_eq_true h3.1, of_decide_eq_true h3.2, of_decide_eq_true h2⟩

theorem negotiated_legal {s : State} (hc : CfgVersionsLegal s) {v e t : Nat} (h : s.negotiated = some (v, e, t)) :
    LegalVersion v := by
  have := negotiate_range h
  have h1 := hc.1.1
  have h2 := hc.2.1.2
  exact ⟨by omega, by omega⟩

/-- What the pipeline does from a state whose CFG is legal. -/
theorem ends_encodeCore {s u : State} (hb : Body s u) (hc : CfgVersionsLegal u) : Ends s (.next u.encodeCore) := by
  unfold State.encodeCore
  cases hn : u.negotiated with
  | none => exact ends_notEncodable _ (hb.trans (.fail u))
  | some r =>
    obtain ⟨v, e, t⟩ := r
    exact ends_success (hb.trans (((Body.buildSymbol u v e).trans
      (.setResult _ fun _ => resultOk_version (negotiated_legal hc hn) _ _)).trans (.setRes _ _ _)))

theorem ends_encodeSegment {s : State} (mode : SegMode) (nchars : Nat) (bits : List Bool) (hc : CfgVersionsLegal s) :
    Ends s (.next (s.encodeSegment mode nchars bits)) := by
  unfold State.encodeSegment
  by_cases h : SegmentFits (s.setSegCounts 0 0) bits
  · rw [segAppend_of_fits mode nchars h]
    exact ends_encodeCore ((Body.clear s).trans (.append mode nchars (by simp) h)) hc
  · rw [segAppend_of_not_fits mode nchars h]
    exact ends_notEncodable _ ((Body.clear s).trans (.fail _))

theorem segCnt_lt_of_check {s : State} (h : (tableRoomCheck s).ok = true) : s.segCnt.toNat < 16 := by
  exact of_decide_eq_true h

/-- Every command, from every state, answers a next state: a contract violation that changes nothing else, or a body that
leaves the host-owned state alone followed by another outcome (R152, R360). -/
theorem exec_ends (i : Instr) (s : State) : Ends s (exec i s) := by
  cases i with
  | nop => exact ends_success (.refl s)
  | gfmul x y => exact ends_success (.setRes0 s _)
  | rsdiv d => exact ends_checked fun _ => ends_success (.setGen s _)
  | rsrem d => exact ends_checked fun _ => ends_success (.setRem s _)
  | segclr => exact ends_success (.clear s)
  | segauto => exact ends_checked fun h => ends_segFinish _ _ _ (segCnt_lt_of_check (h _ (by simp)))
  | segnum => exact ends_checked fun h => ends_segFinish _ _ _ (segCnt_lt_of_check (h _ (by simp)))
  | segalnum => exact ends_checked fun h => ends_segFinish _ _ _ (segCnt_lt_of_check (h _ (by simp)))
  | segbyte => exact ends_checked fun h => ends_segFinish _ _ _ (segCnt_lt_of_check (h _ (by simp)))
  | segeci => exact ends_checked fun h => ends_segFinish _ _ _ (segCnt_lt_of_check (h _ (by simp)))
  | negot =>
    refine ends_checked fun h => ?_
    have hc := cfg_versions_of_checks (h (cfgVersionCheck s) (by simp)) (h (cfgOrderCheck s) (by simp))
    cases hn : s.negotiated with
    | none => exact ends_notEncodable _ (.trans (.setResult s fun _ => ⟨by simp, by simp⟩) (.setRes _ _ _))
    | some r => exact ends_success (.trans (.setResult s fun _ => resultOk_version (negotiated_legal hc hn) _ _)
        (.setRes _ _ _))
  | assemble v e =>
    refine ends_checked fun h => ?_
    cases hf : fitsAt s.segs e v with
    | none => exact ends_notEncodable _ (.refl s)
    | some t => exact ends_success (.trans (.assembleInto s v e) (.setRes _ _ _))
  | tblq v e => exact ends_checked fun _ => ends_success (.setRes s _ _)
  | alignq v => exact ends_checked fun _ => ends_success (.setRes s _ _)
  | ccbq m v => exact ends_checked fun _ => ends_success (.setRes0 s _)
  | interleave v e => exact ends_checked fun _ => ends_success (.interleaveInto s v e)
  | minit v => exact ends_checked fun _ => ends_success (.minitInto s v)
  | mplace => exact ends_checked fun _ => ends_success (.setMatrix s _ _)
  | mlight => exact ends_checked fun _ => ends_success (.setMatrix s _ _)
  | mask m => exact ends_checked fun _ => ends_success (.setMatrix s _ _)
  | format e m => exact ends_checked fun _ => ends_success (.trans (.setMatrix s _ _) (.setRes0 _ _))
  | penalty => exact ends_checked fun _ => ends_success (.trans (.setPenalty s _) (.setRes _ _ _))
  | mselect e sel => exact ends_checked fun _ => ends_success (.mselectInto s _ e sel)
  | encseg =>
    exact ends_checked fun h => ends_encodeCore (.refl s)
      (cfg_versions_of_checks (h (cfgVersionCheck s) (by simp [cfgChecks])) (h (cfgOrderCheck s) (by simp [cfgChecks])))
  | enctext =>
    exact ends_checked fun h => ends_encodeSegment _ _ _
      (cfg_versions_of_checks (h (cfgVersionCheck s) (by simp [cfgChecks])) (h (cfgOrderCheck s) (by simp [cfgChecks])))
  | encbin =>
    exact ends_checked fun h => ends_encodeSegment _ _ _
      (cfg_versions_of_checks (h (cfgVersionCheck s) (by simp [cfgChecks])) (h (cfgOrderCheck s) (by simp [cfgChecks])))

end Sys2Proof.Machine
end

