-- ==== Sys2Proof/Laws/Interleaving.lean ====
section
/-! SUPPORT. Slices of the data and the round robin over blocks (R250 to R253), and the lengths of R250's blocks. -/

namespace Sys2Proof.Machine

/-! ### Slices -/

@[simp] theorem slices_length (ns : List Nat) (data : List Byte) : (slices ns data).length = ns.length := by
  induction ns generalizing data with
  | nil => rfl
  | cons n ns ih => simp [slices, ih]

/-- Slice `i` begins where the slices before it end. -/
theorem slices_getElem? (ns : List Nat) (data : List Byte) (i : Nat) :
    (slices ns data)[i]? = (ns[i]?).map fun n => (data.drop (ns.take i).sum).take n := by
  induction ns generalizing data i with
  | nil => simp [slices]
  | cons n ns ih =>
    cases i with
    | zero => simp [slices]
    | succ i => simp [slices, ih, List.drop_drop]

/-! ### Round robin -/

theorem roundRobin_succ (n : Nat) (blocks : List (List Byte)) :
    roundRobin (n + 1) blocks = roundRobin n blocks ++ blocks.filterMap fun block => block[n]? := by
  simp [roundRobin, List.range_succ]

/-- A row in which every block has a byte. -/
theorem row_full {blocks : List (List Byte)} {n : Nat} (h : ∀ b ∈ blocks, n < b.length) :
    (blocks.filterMap fun block => block[n]?) = blocks.map fun block => block.getD n 0 := by
  induction blocks with
  | nil => rfl
  | cons b bs ih =>
    have hb := h b (List.mem_cons_self ..)
    rw [List.filterMap_cons, List.getElem?_eq_getElem hb]
    simp only [List.map_cons]
    rw [ih fun b' hb' => h b' (List.mem_cons_of_mem _ hb'), List.getD_eq_getElem _ _ hb]

/-- A row in which no block has a byte. -/
theorem row_empty {blocks : List (List Byte)} {n : Nat} (h : ∀ b ∈ blocks, b.length ≤ n) :
    (blocks.filterMap fun block => block[n]?) = [] := by
  rw [List.filterMap_eq_nil_iff]
  intro b hb
  exact List.getElem?_eq_none (h b hb)

theorem roundRobin_length {blocks : List (List Byte)} {n : Nat} (h : ∀ b ∈ blocks, n ≤ b.length) :
    (roundRobin n blocks).length = n * blocks.length := by
  induction n with
  | zero => simp [roundRobin]
  | succ n ih =>
    rw [roundRobin_succ, row_full fun b hb => h b hb, List.length_append, ih fun b hb => by have := h b hb; omega,
      List.length_map, Nat.succ_mul]

/-- Where byte `j` of block `i` stands while every block still has bytes (R253). -/
theorem roundRobin_getElem? {blocks : List (List Byte)} {n : Nat} (h : ∀ b ∈ blocks, n ≤ b.length) {i j : Nat}
    (hi : i < blocks.length) (hj : j < n) :
    (roundRobin n blocks)[j * blocks.length + i]? = (blocks[i]?).bind (·[j]?) := by
  induction n with
  | zero => omega
  | succ n ih =>
    have hn : ∀ b ∈ blocks, n ≤ b.length := fun b hb => by have := h b hb; omega
    have hl := roundRobin_length hn
    rw [roundRobin_succ]
    rcases Nat.lt_succ_iff_lt_or_eq.1 hj with hj | rfl
    · rw [List.getElem?_append_left, ih hn hj]
      rw [hl]
      have := Nat.mul_le_mul_right blocks.length (Nat.succ_le_of_lt hj)
      rw [Nat.succ_mul] at this; omega
    · rw [List.getElem?_append_right (by rw [hl]; omega), hl, Nat.add_sub_cancel_left, row_full fun b hb => h b hb,
        List.getElem?_map, List.getElem?_eq_getElem hi]
      have := h _ (List.getElem_mem hi)
      simp [List.getD_eq_getElem?_getD, List.getElem?_eq_getElem (show j < blocks[i].length by omega)]

/-! ### The blocks of a version and level -/

/-- The facts about R218's tables that the block structure rests on. -/
theorem block_tables {v e : Nat} (hv : LegalVersion v) (he : e ≤ 3) :
    1 ≤ numBlocks e v ∧ 1 ≤ shortBlockDataLen v e ∧ eccPerBlock e v ≤ rawCodewords v / numBlocks e v ∧
      dataCodewords v e + eccPerBlock e v * numBlocks e v = rawCodewords v ∧ rawCodewords v ≤ 3706 ∧
      1 ≤ eccPerBlock e v ∧ eccPerBlock e v ≤ 30 := by
  have key : ∀ v < 41, ∀ e < 4, v = 0 ∨ (1 ≤ numBlocks e v ∧ 1 ≤ shortBlockDataLen v e ∧
      eccPerBlock e v ≤ rawCodewords v / numBlocks e v ∧
      dataCodewords v e + eccPerBlock e v * numBlocks e v = rawCodewords v ∧ rawCodewords v ≤ 3706 ∧
      1 ≤ eccPerBlock e v ∧ eccPerBlock e v ≤ 30) := by decide +kernel
  rcases key v (by have := hv.2; omega) e (by omega) with h | h
  · have := hv.1; omega
  · exact h

/-- R250: where block `i` begins. -/
def blockStart (v e i : Nat) : Nat := ((List.range i).map (blockDataLen v e)).sum

theorem blockStart_succ (v e i : Nat) : blockStart v e (i + 1) = blockStart v e i + blockDataLen v e i := by
  simp [blockStart, List.range_succ]

theorem blockStart_eq (v e i : Nat) :
    blockStart v e i = i * shortBlockDataLen v e + (i - numShortBlocks v e) := by
  induction i with
  | zero => simp [blockStart]
  | succ i ih =>
    rw [blockStart_succ, ih, blockDataLen, Nat.succ_mul]
    split <;> omega

/-- The blocks hold all the data codewords (R217, R250). -/
theorem blockStart_all {v e : Nat} (hv : LegalVersion v) (he : e ≤ 3) :
    blockStart v e (numBlocks e v) = dataCodewords v e := by
  obtain ⟨h1, h2, h3, h4, _⟩ := block_tables hv he
  rw [blockStart_eq]
  unfold shortBlockDataLen numShortBlocks
  have hm := Nat.mod_lt (rawCodewords v) (show numBlocks e v > 0 from h1)
  have hd := Nat.div_add_mod (rawCodewords v) (numBlocks e v)
  rw [Nat.mul_sub, Nat.mul_comm (numBlocks e v) (eccPerBlock e v)]
  have := Nat.mul_le_mul_left (numBlocks e v) h3
  rw [Nat.mul_comm (numBlocks e v) (eccPerBlock e v)] at this
  omega

theorem blockStart_mono (v e : Nat) {i j : Nat} (h : i ≤ j) : blockStart v e i ≤ blockStart v e j := by
  induction j with
  | zero => rw [show i = 0 by omega]
  | succ j ih =>
    rcases Nat.lt_or_ge j i with h' | h'
    · rw [show i = j + 1 by omega]
    · rw [blockStart_succ]; have := ih h'; omega

section blocks

variable {v e : Nat} {data : List Byte}

@[simp] theorem dataBlocks_length : (dataBlocks v e data).length = numBlocks e v := by simp [dataBlocks]

@[simp] theorem eccBlocks_length : (eccBlocks v e data).length = numBlocks e v := by simp [eccBlocks]

/-- R250: block `i` of the data. -/
theorem dataBlocks_getElem? {i : Nat} (hi : i < numBlocks e v) :
    (dataBlocks v e data)[i]? = some ((data.drop (blockStart v e i)).take (blockDataLen v e i)) := by
  rw [dataBlocks, slices_getElem?, ← List.map_take, List.take_range, Nat.min_eq_left (Nat.le_of_lt hi),
    List.getElem?_map, List.getElem?_range hi]
  rfl

theorem dataBlocks_getElem?_length (hv : LegalVersion v) (he : e ≤ 3) (hl : data.length = dataCodewords v e) {i : Nat}
    (hi : i < numBlocks e v) :
    ((data.drop (blockStart v e i)).take (blockDataLen v e i)).length = blockDataLen v e i := by
  have h1 := blockStart_mono v e (Nat.succ_le_of_lt hi)
  rw [Nat.succ_eq_add_one, blockStart_succ, blockStart_all hv he] at h1
  rw [List.length_take, List.length_drop, hl]; omega

/-- Every data block has the bytes of a short block. -/
theorem le_length_dataBlocks (hv : LegalVersion v) (he : e ≤ 3) (hl : data.length = dataCodewords v e) :
    ∀ b ∈ dataBlocks v e data, shortBlockDataLen v e ≤ b.length := by
  intro b hb
  obtain ⟨i, hi, rfl⟩ := List.getElem_of_mem hb
  have hi' : i < numBlocks e v := by simpa using hi
  have := dataBlocks_getElem? (v := v) (e := e) (data := data) hi'
  rw [List.getElem?_eq_getElem hi, Option.some.injEq] at this
  rw [this, dataBlocks_getElem?_length hv he hl hi', blockDataLen]; omega

/-- The last row: a byte of each long block, in order (R252). -/
theorem lastRow_eq (hv : LegalVersion v) (he : e ≤ 3) (hl : data.length = dataCodewords v e) :
    ((dataBlocks v e data).filterMap fun b => b[shortBlockDataLen v e]?) =
      ((dataBlocks v e data).drop (numShortBlocks v e)).map fun b => b.getD (shortBlockDataLen v e) 0 := by
  conv_lhs => rw [← List.take_append_drop (numShortBlocks v e) (dataBlocks v e data)]
  have hlen : ∀ i (hi : i < (dataBlocks v e data).length), (dataBlocks v e data)[i].length = blockDataLen v e i := by
    intro i hi
    have hi' : i < numBlocks e v := by simpa using hi
    have := dataBlocks_getElem? (v := v) (e := e) (data := data) hi'
    rw [List.getElem?_eq_getElem hi, Option.some.injEq] at this
    rw [this, dataBlocks_getElem?_length hv he hl hi']
  rw [List.filterMap_append, row_empty, List.nil_append, row_full]
  · intro b hb
    obtain ⟨i, hi, rfl⟩ := List.getElem_of_mem hb
    rw [List.getElem_drop, hlen, blockDataLen, if_neg (by omega)]; omega
  · intro b hb
    obtain ⟨i, hi, rfl⟩ := List.getElem_of_mem hb
    rw [List.length_take] at hi
    rw [List.getElem_take, hlen, blockDataLen, if_pos (by omega)]; omega

end blocks

@[simp] theorem remainderStep_length {g r : List Byte} (b : Byte) (h : r.length = g.length) (hg : 1 ≤ g.length) :
    (remainderStep g r b).length = g.length := by
  simp [remainderStep]; omega

theorem rsRemainder_length {g : List Byte} (hg : 1 ≤ g.length) (data : List Byte) :
    (rsRemainder data g).length = g.length := by
  unfold rsRemainder
  have : ∀ r : List Byte, r.length = g.length → (data.foldl (remainderStep g) r).length = g.length := by
    induction data with
    | nil => intro r hr; exact hr
    | cons b bs ih => intro r hr; exact ih _ (remainderStep_length b hr hg)
  exact this _ (by simp)

@[simp] theorem divisorRound_length (root : Byte) (g : List Byte) : (divisorRound root g).length = g.length := by
  induction g using divisorRound.induct <;> simp_all [divisorRound]

@[simp] theorem rsDivisor_length {d : Nat} (hd : 1 ≤ d) : (rsDivisor d).length = d := by
  have : ∀ (n : Nat) (root : Byte) (g : List Byte), (divisorRounds n root g).length = g.length := by
    intro n
    induction n with
    | zero => intros; rfl
    | succ n ih => intro root g; rw [divisorRounds, ih, divisorRound_length]
  rw [rsDivisor, this]; simp; omega

/-- Every block's ECC bytes number R214's count. -/
theorem length_eccBlocks {v e : Nat} {data : List Byte} (hv : LegalVersion v) (he : e ≤ 3) :
    ∀ b ∈ eccBlocks v e data, eccPerBlock e v ≤ b.length := by
  intro b hb
  obtain ⟨_, _, _, _, _, h1, _⟩ := block_tables hv he
  obtain ⟨c, _, rfl⟩ := List.mem_map.1 hb
  rw [rsRemainder_length (by rw [rsDivisor_length h1]; exact h1), rsDivisor_length h1]

/-- The interleaved sequence has the raw codeword count (R252). -/
theorem interleaved_length {v e : Nat} {data : List Byte} (hv : LegalVersion v) (he : e ≤ 3)
    (hl : data.length = dataCodewords v e) : (interleaved v e data).length = rawCodewords v := by
  obtain ⟨h1, h2, h3, h4, _⟩ := block_tables hv he
  have hall := blockStart_all hv he
  rw [blockStart_eq] at hall
  rw [interleaved, List.length_append, roundRobin_length (length_eccBlocks hv he), roundRobin_succ, List.length_append,
    roundRobin_length (le_length_dataBlocks hv he hl), lastRow_eq hv he hl]
  simp only [List.length_map, List.length_drop, dataBlocks_length, eccBlocks_length]
  rw [Nat.mul_comm (shortBlockDataLen v e)]
  omega

end Sys2Proof.Machine
end

