-- ==== Sys2Proof/Laws/Select.lean ====
section
/-! SUPPORT. Format information and mask selection: where the format modules stand, and that the Auto loop scores each
mask on the unmasked symbol and keeps the first of the lowest scores (R303, R312). -/

namespace Sys2Proof.Machine

theorem lastColour_isSome_iff (ws : List ModuleWrite) (x y : Nat) :
    (lastColour ws x y).isSome = true ↔ ∃ w ∈ ws, w.1 = x ∧ w.2.1 = y := by
  simp [lastColour, List.find?_isSome]

/-- The colour of a module that no write reaches is its old one. -/
theorem lastColour_eq_none_iff (ws : List ModuleWrite) (x y : Nat) :
    lastColour ws x y = none ↔ ∀ w ∈ ws, ¬(w.1 = x ∧ w.2.1 = y) := by
  rw [← Option.not_isSome_iff_eq_none, lastColour_isSome_iff]
  push Not
  rfl

/-! ### Format information -/

theorem formatWrites_inGrid {size : Nat} (hs : 21 ≤ size) (f : Nat) : ∀ w ∈ formatWrites size f, InGrid size w := by
  intro w hw
  simp only [formatWrites, List.mem_append, List.mem_map, List.mem_range, List.mem_range'_1, List.mem_cons,
    List.not_mem_nil, or_false] at hw
  rcases hw with ((((⟨i, hi, rfl⟩ | rfl | rfl | rfl) | ⟨i, hi, rfl⟩) | ⟨i, hi, rfl⟩) | ⟨i, hi, rfl⟩) | rfl <;>
    exact ⟨by simp; omega, by simp; omega⟩

/-- The places of the format modules do not depend on the value drawn. -/
theorem formatWrites_places (size f f' : Nat) :
    (formatWrites size f).map (fun w => (w.1, w.2.1)) = (formatWrites size f').map (fun w => (w.1, w.2.1)) := by
  simp [formatWrites, Function.comp_def]

theorem formatWrites_none_iff (size f f' x y : Nat) :
    lastColour (formatWrites size f) x y = none ↔ lastColour (formatWrites size f') x y = none := by
  have key : ∀ g, lastColour (formatWrites size g) x y = none ↔
      (x, y) ∉ (formatWrites size g).map fun w => (w.1, w.2.1) := by
    intro g
    rw [lastColour_eq_none_iff, List.mem_map]
    constructor
    · rintro h ⟨w, hw, h'⟩; exact h w hw (by simpa using h')
    · intro h w hw h'; exact h ⟨w, hw, by simpa using h'⟩
  rw [key, key, formatWrites_places size f f']

theorem isDark_drawFormat {size : Nat} (hs : 21 ≤ size) (m : Modules) (e k : Nat) {x : Nat} (y : Nat)
    (hx : x < size) :
    isDark (drawFormat size m e k) size x y =
      (lastColour (formatWrites size (formatBits e k)) x y).getD (isDark m size x y) :=
  isDark_draw (formatWrites_inGrid hs _) m y hx

theorem testBit_drawFormat_tail {size : Nat} (hs : 21 ≤ size) (m : Modules) (e k : Nat) {n : Nat}
    (hn : size * size ≤ n) : (drawFormat size m e k).testBit n = m.testBit n :=
  testBit_draw_tail (formatWrites_inGrid hs _) m hn

theorem drawFormat_lt {size w : Nat} (hs : 21 ≤ size) {m : Modules} (e k : Nat) (hm : m < 2 ^ w)
    (hw : size * size ≤ w) : drawFormat size m e k < 2 ^ w := draw_lt (formatWrites_inGrid hs _) hm hw

/-- Two matrices agree but for the format modules. -/
def AgreeOffFormat (size : Nat) (m m' : Modules) : Prop :=
  (∀ x y, x < size → y < size → lastColour (formatWrites size 0) x y = none →
    isDark m size x y = isDark m' size x y) ∧ ∀ n, size * size ≤ n → m.testBit n = m'.testBit n

/-- Drawing the format erases any difference in the format modules. -/
theorem drawFormat_congr {size : Nat} (hs : 21 ≤ size) {m m' : Modules} (h : AgreeOffFormat size m m') (e k : Nat) :
    drawFormat size m e k = drawFormat size m' e k := by
  refine modules_ext (size := size) (by omega) (fun x y hx hy => ?_) fun n hn => ?_
  · rw [isDark_drawFormat hs _ _ _ _ hx, isDark_drawFormat hs _ _ _ _ hx]
    cases hc : lastColour (formatWrites size (formatBits e k)) x y with
    | some c => rfl
    | none => exact h.1 x y hx hy ((formatWrites_none_iff ..).1 hc)
  · rw [testBit_drawFormat_tail hs _ _ _ hn, testBit_drawFormat_tail hs _ _ _ hn, h.2 n hn]

theorem AgreeOffFormat.applyMask {size : Nat} {m m' : Modules} (h : AgreeOffFormat size m m') (f : Modules) (k : Nat) :
    AgreeOffFormat size (applyMask size m f k) (applyMask size m' f k) :=
  ⟨fun x y hx hy hn => by rw [isDark_applyMask _ _ _ hx hy, isDark_applyMask _ _ _ hx hy, h.1 x y hx hy hn],
    fun n hn => by rw [testBit_applyMask_tail _ _ _ hn, testBit_applyMask_tail _ _ _ hn, h.2 n hn]⟩

/-- One trial leaves the symbol as it was, but for the format modules. -/
theorem AgreeOffFormat.undo {size : Nat} (hs : 21 ≤ size) {m m' : Modules} (h : AgreeOffFormat size m m')
    (f : Modules) (e k : Nat) :
    AgreeOffFormat size (Machine.applyMask size (drawFormat size (Machine.applyMask size m f k) e k) f k) m' := by
  refine ⟨fun x y hx hy hn => ?_, fun n hn => ?_⟩
  · rw [isDark_applyMask _ _ _ hx hy, isDark_drawFormat hs _ _ _ _ hx, (formatWrites_none_iff size 0 _ x y).1 hn,
      Option.getD_none, isDark_applyMask _ _ _ hx hy, Bool.xor_assoc, Bool.xor_self, Bool.xor_false, h.1 x y hx hy hn]
  · rw [testBit_applyMask_tail _ _ _ hn, testBit_drawFormat_tail hs _ _ _ hn, testBit_applyMask_tail _ _ _ hn,
      h.2 n hn]

/-! ### The Auto loop -/

/-- What the Auto loop holds after some trials, on scores `g`. -/
structure BestOf (g : Nat → Nat) (n : Nat) (t : Trial) : Prop where
  lt : 0 < n → t.best < n
  minp : t.minp = if n = 0 then none else some (g t.best)
  le : ∀ k < n, g t.best ≤ g k
  first : ∀ k < t.best, 0 < n → g t.best < g k

theorem Trial.step_agree {size : Nat} (hs : 21 ≤ size) (e : Nat) (f m : Modules) {t : Trial}
    (h : AgreeOffFormat size t.m m) (k : Nat) : AgreeOffFormat size (Trial.step size e f t k).m m :=
  h.undo hs f e k

theorem Trial.step_bestOf {size : Nat} (hs : 21 ≤ size) (e : Nat) (f m : Modules) {t : Trial} {n : Nat}
    (h : AgreeOffFormat size t.m m) (hb : BestOf (trialScore size e m f) n t) :
    BestOf (trialScore size e m f) (n + 1) (Trial.step size e f t n) := by
  have hp : penaltyScore (drawFormat size (applyMask size t.m f n) e n) size = trialScore size e m f n := by
    unfold trialScore; rw [drawFormat_congr hs (h.applyMask f n)]
  generalize trialScore size e m f = g at *
  have hstep : Trial.step size e f t n =
      { minp := if (match t.minp with | none => true | some q => decide (g n < q)) then some (g n) else t.minp
        best := if (match t.minp with | none => true | some q => decide (g n < q)) then n else t.best
        m := applyMask size (drawFormat size (applyMask size t.m f n) e n) f n } := by
    simp only [Trial.step, hp]
    try rfl
  rw [hstep]
  obtain ⟨h1, h2, h3, h4⟩ := hb
  rw [h2]
  rcases Nat.eq_zero_or_pos n with rfl | hn
  · refine ⟨fun _ => by simp, by simp, fun k hk => ?_, fun k hk => by simp at hk⟩
    obtain rfl : k = 0 := by omega
    simp
  · have hn0 : n ≠ 0 := by omega
    simp only [hn0, if_false]
    by_cases hlt : g n < g t.best
    · simp only [hlt, decide_true, if_true]
      refine ⟨fun _ => Nat.lt_succ_self n, by simp, fun k hk => ?_, fun k hk _ => ?_⟩
      · show g n ≤ g k
        rcases Nat.lt_succ_iff_lt_or_eq.1 hk with hk | rfl
        · exact Nat.le_of_lt (Nat.lt_of_lt_of_le hlt (h3 k hk))
        · exact Nat.le_refl _
      · exact Nat.lt_of_lt_of_le hlt (h3 k hk)
    · simp only [hlt, decide_false, Bool.false_eq_true, if_false]
      refine ⟨fun _ => Nat.lt_succ_of_lt (h1 hn), by simp, fun k hk => ?_, fun k hk _ => h4 k hk hn⟩
      show g t.best ≤ g k
      rcases Nat.lt_succ_iff_lt_or_eq.1 hk with hk | rfl
      · exact h3 k hk
      · omega

theorem trials_bestOf {size : Nat} (hs : 21 ≤ size) (e : Nat) (f m : Modules) (n : Nat) :
    let t := (List.range n).foldl (Trial.step size e f) { minp := none, best := 0, m := m }
    AgreeOffFormat size t.m m ∧ BestOf (trialScore size e m f) n t := by
  induction n with
  | zero =>
    exact ⟨⟨fun _ _ _ _ _ => rfl, fun _ _ => rfl⟩, ⟨fun h => absurd h (by simp), rfl, fun k hk => absurd hk (by simp),
      fun k hk => absurd hk (by simp)⟩⟩
  | succ n ih =>
    simp only [List.range_succ, List.foldl_append, List.foldl_cons, List.foldl_nil]
    exact ⟨Trial.step_agree hs e f m ih.1 n, Trial.step_bestOf hs e f m ih.1 ih.2⟩

/-- The Auto loop keeps the first of the lowest scores, each taken on the symbol as it stood (R312). -/
theorem autoTrials_bestOf {size : Nat} (hs : 21 ≤ size) (e : Nat) (f m : Modules) :
    AgreeOffFormat size (autoTrials size e m f).m m ∧
      BestOf (trialScore size e m f) 8 (autoTrials size e m f) := trials_bestOf hs e f m 8

end Sys2Proof.Machine
end

