-- ==== Sys2Proof/Laws/Pattern.lean ====
section
/-! SUPPORT. The function patterns: what MINIT marks is the function regions of R273, and MLIGHT and the format writes
reach function modules only (R274, R277, R303). -/

namespace Sys2Proof.Machine

/-! ### Alignment centres -/

/-- Every alignment position lies between 6 and `size - 7` (R272). -/
theorem alignPositions_bounds : ∀ v < 41, ∀ p ∈ alignPositions v, 6 ≤ p ∧ p + 7 ≤ side v ∨ v = 0 := by
  decide +kernel

theorem alignCentres_bounds {v : Nat} (hv : LegalVersion v) {c : Nat × Nat} (h : c ∈ alignCentres v) :
    (6 ≤ c.1 ∧ c.1 + 7 ≤ side v) ∧ (6 ≤ c.2 ∧ c.2 + 7 ≤ side v) := by
  have key : ∀ i < (alignPositions v).length, 6 ≤ (alignPositions v).getD i 0 ∧ (alignPositions v).getD i 0 + 7 ≤ side v := by
    intro i hi
    have := alignPositions_bounds v (by have := hv.2; omega) ((alignPositions v).getD i 0)
      (by rw [List.getD_eq_getElem _ _ hi]; exact List.getElem_mem hi)
    have := hv.1
    omega
  simp only [alignCentres, List.mem_flatMap, List.mem_filterMap, List.mem_range] at h
  obtain ⟨i, hi, j, hj, h⟩ := h
  split at h
  · simp at h
  · simp only [Option.some.injEq] at h
    subst h
    exact ⟨key i hi, key j hj⟩

/-- The step formula of R272 gives R272's table. -/
theorem alignPositions_eq_row : ∀ v < 41, 1 ≤ v → alignPositions v = alignRow v := by decide +kernel

theorem alignCentres_eq_filter : ∀ v < 41, 1 ≤ v → alignCentres v =
    ((alignRow v).flatMap fun cx => (alignRow v).map fun cy => (cx, cy)).filter fun c => alignCentre v c.1 c.2 := by
  decide +kernel

/-- The machine's list of centres is the spec's. -/
theorem mem_alignCentres {v : Nat} (hv : LegalVersion v) (c : Nat × Nat) :
    c ∈ alignCentres v ↔ alignCentre v c.1 c.2 = true := by
  rw [alignCentres_eq_filter v (by have := hv.2; omega) hv.1, List.mem_filter]
  refine ⟨And.right, fun h => ⟨?_, h⟩⟩
  simp only [alignCentre, Bool.and_eq_true, List.contains_iff_mem] at h
  exact List.mem_flatMap.2 ⟨c.1, h.1.1, List.mem_map.2 ⟨c.2, h.1.2, rfl⟩⟩

/-- A module is near an alignment pattern exactly if it is near one of the centres. -/
theorem nearAlign_iff {v : Nat} (hv : LegalVersion v) (x y : Nat) (p : Nat → Bool) :
    nearAlign v x y p = true ↔ ∃ c ∈ alignCentres v, p (ring c.1 c.2 x y) = true := by
  simp only [nearAlign, List.any_eq_true, Bool.and_eq_true]
  constructor
  · rintro ⟨cx, _, cy, _, hc, hp⟩
    exact ⟨(cx, cy), (mem_alignCentres hv _).2 hc, hp⟩
  · rintro ⟨c, hc, hp⟩
    have h := (mem_alignCentres hv c).1 hc
    have h' := h
    simp only [alignCentre, Bool.and_eq_true, List.contains_iff_mem] at h'
    exact ⟨c.1, h'.1.1, c.2, h'.1.2, h, hp⟩

theorem ring_le_iff (cx cy x y d : Nat) :
    ring cx cy x y ≤ d ↔ (cx ≤ x + d ∧ x ≤ cx + d) ∧ (cy ≤ y + d ∧ y ≤ cy + d) := by
  unfold ring gap; omega

theorem dist_eq_gap (a b : Nat) : dist a b = gap a b := by
  unfold dist gap; split <;> omega

/-! ### Initial pattern -/

theorem side_ge {v : Nat} (hv : LegalVersion v) : 21 ≤ side v := by have := hv.1; unfold side; omega

theorem side_ge_seven {v : Nat} (hv : 7 ≤ v) : 45 ≤ side v := by unfold side; omega

theorem functionRects_inGrid {v : Nat} (hv : LegalVersion v) :
    ∀ r ∈ functionRects v, r.1 + r.2.2.1 ≤ side v ∧ r.2.1 + r.2.2.2 ≤ side v := by
  have hs := side_ge hv
  intro r hr
  simp only [functionRects, List.mem_append, List.mem_cons, List.mem_map, List.not_mem_nil, or_false] at hr
  rcases hr with ((rfl | rfl | rfl | rfl | rfl) | ⟨c, hc, rfl⟩) | hr
  · simp; omega
  · simp; omega
  · simp; omega
  · simp; omega
  · simp; omega
  · have := alignCentres_bounds hv hc
    simp; omega
  · split at hr
    · simp only [List.mem_cons, List.not_mem_nil, or_false] at hr
      rcases hr with rfl | rfl <;> (simp; omega)
    · simp at hr

theorem isDark_foldl_fill {size : Nat} {rs : List (Nat × Nat × Nat × Nat)}
    (hr : ∀ r ∈ rs, r.1 + r.2.2.1 ≤ size ∧ r.2.1 + r.2.2.2 ≤ size) (m : Modules) {x : Nat} (y : Nat) (hx : x < size) :
    isDark (rs.foldl (fill size) m) size x y =
      (isDark m size x y || rs.any fun r => decide ((x, y) ∈ rect r.1 r.2.1 r.2.2.1 r.2.2.2)) := by
  induction rs generalizing m with
  | nil => simp
  | cons r rs ih =>
    rw [List.foldl_cons, ih (fun q hq => hr q (List.mem_cons_of_mem _ hq)),
      isDark_fill (hr r (List.mem_cons_self ..)) m y hx, List.any_cons, Bool.or_assoc]

theorem testBit_foldl_fill_tail {size : Nat} {rs : List (Nat × Nat × Nat × Nat)}
    (hr : ∀ r ∈ rs, r.1 + r.2.2.1 ≤ size ∧ r.2.1 + r.2.2.2 ≤ size) (m : Modules) {n : Nat} (hn : size * size ≤ n) :
    (rs.foldl (fill size) m).testBit n = m.testBit n := by
  induction rs generalizing m with
  | nil => rfl
  | cons r rs ih =>
    rw [List.foldl_cons, ih (fun q hq => hr q (List.mem_cons_of_mem _ hq)),
      testBit_fill_tail (hr r (List.mem_cons_self ..)) m hn]

/-- The initial pattern is dark exactly on the function regions (R274). -/
theorem isDark_minitModules {v : Nat} (hv : LegalVersion v) {x y : Nat} (hx : x < side v) (hy : y < side v) :
    isDark (minitModules v) (side v) x y = functionModule v x y := by
  have hs := side_ge hv
  unfold minitModules
  rw [isDark_foldl_fill (functionRects_inGrid hv) _ _ hx, Bool.eq_iff_iff]
  have h0 : isDark 0 (side v) x y = false := by simp [isDark]
  simp only [h0, Bool.false_or, List.any_eq_true, decide_eq_true_eq, mem_rect, functionModule, Bool.or_eq_true,
    Bool.and_eq_true, beq_iff_eq]
  constructor
  · rintro ⟨r, hr, hm⟩
    simp only [functionRects, List.mem_append, List.mem_cons, List.mem_map, List.not_mem_nil, or_false] at hr
    rcases hr with ((rfl | rfl | rfl | rfl | rfl) | ⟨c, hc, rfl⟩) | hr
    · simp only at hm; omega
    · simp only at hm; omega
    · simp only at hm; omega
    · simp only at hm; omega
    · simp only at hm; omega
    · have := alignCentres_bounds hv hc
      simp only at hm
      refine .inl (.inr ((nearAlign_iff hv ..).2 ⟨c, hc, decide_eq_true ((ring_le_iff ..).2 ?_)⟩))
      omega
    · split at hr
      · next h7 =>
        have := side_ge_seven h7
        simp only [List.mem_cons, List.not_mem_nil, or_false] at hr
        rcases hr with rfl | rfl <;> (simp only at hm; omega)
      · simp at hr
  · have mem : ∀ r, r ∈ functionRects v ↔
        (r = (6, 0, 1, side v) ∨ r = (0, 6, side v, 1) ∨ r = (0, 0, 9, 9) ∨ r = (side v - 8, 0, 8, 9) ∨
          r = (0, side v - 8, 9, 8)) ∨ (∃ c ∈ alignCentres v, (c.1 - 2, c.2 - 2, 5, 5) = r) ∨
        (v ≥ 7 ∧ (r = (side v - 11, 0, 3, 6) ∨ r = (0, side v - 11, 6, 3))) := by
      intro r
      simp only [functionRects, List.mem_append, List.mem_cons, List.mem_map, List.not_mem_nil, or_false, or_assoc]
      by_cases h7 : v ≥ 7 <;> simp [h7]
    rintro ((((((h | h) | h) | h) | h) | h) | h)
    · exact ⟨_, (mem _).2 (.inl (.inl rfl)), by simp only; omega⟩
    · exact ⟨_, (mem _).2 (.inl (.inr (.inl rfl))), by simp only; omega⟩
    · exact ⟨_, (mem _).2 (.inl (.inr (.inr (.inl rfl)))), by simp only; omega⟩
    · exact ⟨_, (mem _).2 (.inl (.inr (.inr (.inr (.inl rfl))))), by simp only; omega⟩
    · exact ⟨_, (mem _).2 (.inl (.inr (.inr (.inr (.inr rfl))))), by simp only; omega⟩
    · obtain ⟨c, hc, h⟩ := (nearAlign_iff hv ..).1 h
      have := alignCentres_bounds hv hc
      have := (ring_le_iff ..).1 (of_decide_eq_true h)
      exact ⟨_, (mem _).2 (.inr (.inl ⟨c, hc, rfl⟩)), by simp only; omega⟩
    · have := side_ge_seven h.1
      rcases h.2 with h' | h'
      · exact ⟨_, (mem _).2 (.inr (.inr ⟨h.1, .inl rfl⟩)), by simp only; omega⟩
      · exact ⟨_, (mem _).2 (.inr (.inr ⟨h.1, .inr rfl⟩)), by simp only; omega⟩

theorem testBit_minitModules_tail {v : Nat} (hv : LegalVersion v) {n : Nat} (hn : side v * side v ≤ n) :
    (minitModules v).testBit n = false := by
  unfold minitModules
  rw [testBit_foldl_fill_tail (functionRects_inGrid hv) _ hn]; simp

theorem minitModules_lt {v : Nat} (hv : LegalVersion v) : minitModules v < 2 ^ (8 * moduleBytes v) :=
  Nat.lt_pow_two_of_testBit _ fun _ hi => testBit_minitModules_tail hv (Nat.le_trans (side_sq_le v) hi)

/-! ### Light parts -/

/-- Every write of MLIGHT reaches a function module inside the grid (R277). -/
theorem lightWrites_function {v : Nat} (hv : LegalVersion v) :
    ∀ w ∈ lightWrites v, InGrid (side v) w ∧ functionModule v w.1 w.2.1 = true := by
  have hs := side_ge hv
  have finder : ∀ cx cy, (cx = 3 ∧ cy = 3 ∨ cx = side v - 4 ∧ cy = 3 ∨ cx = 3 ∧ cy = side v - 4) →
      ∀ w ∈ finderWrites (side v) cx cy, InGrid (side v) w ∧ functionModule v w.1 w.2.1 = true := by
    intro cx cy hc w hw
    simp only [finderWrites, List.mem_filterMap, mem_allModules] at hw
    obtain ⟨p, hp, hw⟩ := hw
    split at hw
    · next hd =>
      simp only [Option.some.injEq] at hw
      subst hw
      have h1 : dist cx p.1 ≤ 4 := by have := Nat.le_max_left (dist cx p.1) (dist cy p.2); omega
      have h2 : dist cy p.2 ≤ 4 := by have := Nat.le_max_right (dist cx p.1) (dist cy p.2); omega
      unfold dist at h1 h2
      refine ⟨hp, ?_⟩
      have : (p.1 < 9 ∧ p.2 < 9) ∨ (side v - 8 ≤ p.1 ∧ p.2 < 9) ∨ (p.1 < 9 ∧ side v - 8 ≤ p.2) := by
        split at h1 <;> split at h2 <;> omega
      simp only [functionModule, Bool.or_eq_true, Bool.and_eq_true, decide_eq_true_eq, beq_iff_eq]
      rcases this with h | h | h
      · exact .inl (.inl (.inl (.inl (.inr h))))
      · exact .inl (.inl (.inl (.inr h)))
      · exact .inl (.inl (.inr h))
    · simp at hw
  intro w hw
  simp only [lightWrites, List.mem_append] at hw
  rcases hw with ((((hw | hw) | hw) | hw) | hw) | hw
  · simp only [timingWrites, List.mem_flatMap, List.mem_range] at hw
    obtain ⟨i, hi, hw⟩ := hw
    split at hw
    · simp only [List.mem_cons, List.not_mem_nil, or_false] at hw
      rcases hw with rfl | rfl
      · exact ⟨⟨by simp; omega, hi⟩, by simp [functionModule]⟩
      · exact ⟨⟨hi, by simp; omega⟩, by simp [functionModule]⟩
    · simp at hw
  · exact finder _ _ (by omega) w hw
  · exact finder _ _ (by omega) w hw
  · exact finder _ _ (by omega) w hw
  · simp only [List.mem_flatMap] at hw
    obtain ⟨c, hc, hw⟩ := hw
    have hb := alignCentres_bounds hv hc
    simp only [alignWrites, List.mem_map] at hw
    obtain ⟨p, hp, rfl⟩ := hw
    have hp := mem_rect.1 hp
    refine ⟨⟨by simp; omega, by simp; omega⟩, ?_⟩
    simp only [functionModule, Bool.or_eq_true, Bool.and_eq_true, decide_eq_true_eq]
    refine .inl (.inr ((nearAlign_iff hv ..).2 ⟨c, hc, decide_eq_true ((ring_le_iff ..).2 ?_)⟩))
    omega
  · simp only [versionWrites] at hw
    split at hw
    · next h7 =>
      have := side_ge_seven h7
      simp only [List.mem_flatMap, List.mem_range, List.mem_cons, List.not_mem_nil, or_false] at hw
      obtain ⟨i, hi, j, hj, hw⟩ := hw
      rcases hw with rfl | rfl
      · refine ⟨⟨by simp; omega, by simp; omega⟩, ?_⟩
        simp only [functionModule, Bool.or_eq_true, Bool.and_eq_true, decide_eq_true_eq]
        exact .inr ⟨h7, .inl (by omega)⟩
      · refine ⟨⟨by simp; omega, by simp; omega⟩, ?_⟩
        simp only [functionModule, Bool.or_eq_true, Bool.and_eq_true, decide_eq_true_eq]
        exact .inr ⟨h7, .inr (by omega)⟩
    · simp at hw

theorem isDark_mlightModules {v : Nat} (hv : LegalVersion v) (m : Modules) {x : Nat} (y : Nat) (hx : x < side v) :
    isDark (mlightModules v m) (side v) x y = (lastColour (lightWrites v) x y).getD (isDark m (side v) x y) :=
  isDark_draw (fun w hw => (lightWrites_function hv w hw).1) m y hx

theorem testBit_mlightModules_tail {v : Nat} (hv : LegalVersion v) (m : Modules) {n : Nat}
    (hn : side v * side v ≤ n) : (mlightModules v m).testBit n = m.testBit n :=
  testBit_draw_tail (fun w hw => (lightWrites_function hv w hw).1) m hn

theorem mlightModules_lt {v w : Nat} (hv : LegalVersion v) {m : Modules} (hm : m < 2 ^ w)
    (hw : side v * side v ≤ w) : mlightModules v m < 2 ^ w :=
  draw_lt (fun w hw => (lightWrites_function hv w hw).1) hm hw

/-- Every format module is a function module (R303). -/
theorem formatWrites_function {v : Nat} (hv : LegalVersion v) (f : Nat) :
    ∀ w ∈ formatWrites (side v) f, functionModule v w.1 w.2.1 = true := by
  have hs := side_ge hv
  intro w hw
  simp only [formatWrites, List.mem_append, List.mem_map, List.mem_range, List.mem_range'_1, List.mem_cons,
    List.not_mem_nil, or_false] at hw
  have : (w.1 < 9 ∧ w.2.1 < 9) ∨ (side v - 8 ≤ w.1 ∧ w.2.1 < 9) ∨ (w.1 < 9 ∧ side v - 8 ≤ w.2.1) := by
    rcases hw with ((((⟨i, hi, rfl⟩ | rfl | rfl | rfl) | ⟨i, hi, rfl⟩) | ⟨i, hi, rfl⟩) | ⟨i, hi, rfl⟩) | rfl <;>
      simp <;> omega
  simp only [functionModule, Bool.or_eq_true, Bool.and_eq_true, decide_eq_true_eq, beq_iff_eq]
  rcases this with h | h | h
  · exact .inl (.inl (.inl (.inl (.inr h))))
  · exact .inl (.inl (.inl (.inr h)))
  · exact .inl (.inl (.inr h))

/-- A data module is reached by no write that stays on function modules. -/
theorem lastColour_none_of_data {v : Nat} {ws : List ModuleWrite}
    (hw : ∀ w ∈ ws, functionModule v w.1 w.2.1 = true) {x y : Nat} (h : functionModule v x y = false) :
    lastColour ws x y = none :=
  (lastColour_eq_none_iff ..).2 fun w hm ⟨h1, h2⟩ => by subst h1 h2; simp [hw w hm] at h

end Sys2Proof.Machine
end

