-- ==== Sys2Proof/Laws/Light.lean ====
section
/-! SUPPORT. The writes of MLIGHT one by one: which modules each part of R277 reaches, and in what colour. -/

namespace Sys2Proof.Machine

/-- A list whose writes to one module agree gives it that colour where it reaches it. -/
theorem lastColour_of_agree {ws : List ModuleWrite} {x y : Nat} {c : Bool} {p : Prop} [Decidable p]
    (hc : ∀ w ∈ ws, w.1 = x → w.2.1 = y → w.2.2 = c) (hp : (∃ w ∈ ws, w.1 = x ∧ w.2.1 = y) ↔ p) :
    lastColour ws x y = if p then some c else none := by
  split
  · next h =>
    cases hl : lastColour ws x y with
    | none =>
      obtain ⟨w, hw, h1⟩ := hp.2 h
      exact absurd h1 ((lastColour_eq_none_iff ..).1 hl w hw)
    | some d =>
      simp only [lastColour, Option.map_eq_some_iff] at hl
      obtain ⟨w, hw, rfl⟩ := hl
      have hm := List.mem_reverse.1 (List.mem_of_find?_eq_some hw)
      have ha := List.find?_some hw
      simp only [Bool.and_eq_true, beq_iff_eq] at ha
      rw [hc w hm ha.1 ha.2]
  · next h => exact (lastColour_eq_none_iff ..).2 fun w hw h1 => h (hp.1 ⟨w, hw, h1⟩)

theorem lastColour_of_hit {ws : List ModuleWrite} {x y : Nat} {c : Bool}
    (hc : ∀ w ∈ ws, w.1 = x → w.2.1 = y → w.2.2 = c) (hp : ∃ w ∈ ws, w.1 = x ∧ w.2.1 = y) :
    lastColour ws x y = some c := by
  rw [lastColour_of_agree hc (p := True) (iff_true_intro hp), if_pos trivial]

theorem lastColour_timingWrites {size x y : Nat} (hs : 7 ≤ size) :
    lastColour (timingWrites size) x y =
      if (x = 6 ∧ 7 ≤ y ∧ y < size - 7 ∧ y % 2 = 1) ∨ (y = 6 ∧ 7 ≤ x ∧ x < size - 7 ∧ x % 2 = 1) then some false
      else none := by
  have mem : ∀ w, w ∈ timingWrites size ↔
      ∃ i, (7 ≤ i ∧ i < size - 7 ∧ i % 2 = 1) ∧ (w = (6, i, false) ∨ w = (i, 6, false)) := by
    intro w
    simp only [timingWrites, List.mem_flatMap, List.mem_range]
    constructor
    · rintro ⟨i, _, h⟩
      split at h
      · exact ⟨i, by assumption, by simpa using h⟩
      · simp at h
    · rintro ⟨i, hi, h⟩
      exact ⟨i, by omega, by rw [if_pos hi]; simpa using h⟩
  refine lastColour_of_agree (fun w hw _ _ => ?_) ⟨?_, ?_⟩
  · obtain ⟨i, _, rfl | rfl⟩ := (mem w).1 hw <;> rfl
  · rintro ⟨w, hw, rfl, rfl⟩
    obtain ⟨i, hi, rfl | rfl⟩ := (mem w).1 hw
    · exact .inl ⟨rfl, hi⟩
    · exact .inr ⟨rfl, hi⟩
  · rintro (⟨rfl, h⟩ | ⟨rfl, h⟩)
    · exact ⟨_, (mem _).2 ⟨y, h, .inl rfl⟩, rfl, rfl⟩
    · exact ⟨_, (mem _).2 ⟨x, h, .inr rfl⟩, rfl, rfl⟩

theorem lastColour_finderWrites {size x y : Nat} (cx cy : Nat) (hx : x < size) (hy : y < size) :
    lastColour (finderWrites size cx cy) x y =
      if (ring cx cy x y == 2 || ring cx cy x y == 4) = true then some false else none := by
  have mem : ∀ w, w ∈ finderWrites size cx cy ↔ (w.1 < size ∧ w.2.1 < size) ∧
      (ring cx cy w.1 w.2.1 = 2 ∨ ring cx cy w.1 w.2.1 = 4) ∧ w.2.2 = false := by
    rintro ⟨a, b, c⟩
    simp only [finderWrites, List.mem_filterMap, dist_eq_gap]
    constructor
    · rintro ⟨p, hp, h⟩
      split at h
      · next hd =>
        simp only [Option.some.injEq, Prod.mk.injEq] at h
        obtain ⟨rfl, rfl, rfl⟩ := h
        exact ⟨mem_allModules.1 hp, hd, rfl⟩
      · simp at h
    · rintro ⟨h, hd, rfl⟩
      exact ⟨(a, b), mem_allModules.2 h, if_pos hd⟩
  refine lastColour_of_agree (fun w hw _ _ => ((mem w).1 hw).2.2) ?_
  simp only [Bool.or_eq_true, beq_iff_eq]
  constructor
  · rintro ⟨w, hw, rfl, rfl⟩
    exact ((mem w).1 hw).2.1
  · intro h
    exact ⟨(x, y, false), (mem _).2 ⟨⟨hx, hy⟩, h, rfl⟩, rfl, rfl⟩

/-- Two alignment positions are far apart (R272). -/
theorem alignRow_apart : ∀ v < 41, ∀ a ∈ alignRow v, ∀ b ∈ alignRow v, a = b ∨ 3 ≤ gap a b := by decide +kernel

/-- A module is at distance 1 or less from one alignment centre at most. -/
theorem alignCentre_unique {v : Nat} (hv : LegalVersion v) {c d : Nat × Nat} {x y : Nat} (hc : c ∈ alignCentres v)
    (hd : d ∈ alignCentres v) (h1 : ring c.1 c.2 x y ≤ 1) (h2 : ring d.1 d.2 x y ≤ 1) : c = d := by
  have hc := (mem_alignCentres hv c).1 hc
  have hd := (mem_alignCentres hv d).1 hd
  simp only [alignCentre, Bool.and_eq_true, List.contains_iff_mem] at hc hd
  have a1 := alignRow_apart v (by have := hv.2; omega) _ hc.1.1 _ hd.1.1
  have a2 := alignRow_apart v (by have := hv.2; omega) _ hc.1.2 _ hd.1.2
  have := (ring_le_iff ..).1 h1
  have := (ring_le_iff ..).1 h2
  unfold gap at a1 a2
  ext <;> omega

theorem lastColour_alignWrites {v : Nat} (hv : LegalVersion v) (x y : Nat) :
    lastColour ((alignCentres v).flatMap alignWrites) x y =
      if nearAlign v x y (fun d => d == 0) = true then some true
      else if nearAlign v x y (fun d => d == 1) = true then some false else none := by
  have mem : ∀ w, w ∈ (alignCentres v).flatMap alignWrites ↔ ∃ c ∈ alignCentres v,
      ring c.1 c.2 w.1 w.2.1 ≤ 1 ∧ w.2.2 = (w.1 == c.1 && w.2.1 == c.2) := by
    rintro ⟨a, b, k⟩
    simp only [List.mem_flatMap, alignWrites, List.mem_map, Prod.exists, mem_rect, Prod.mk.injEq]
    constructor
    · rintro ⟨p, q, hc, p', q', hr, rfl, rfl, rfl⟩
      have := alignCentres_bounds hv hc
      exact ⟨p, q, hc, (ring_le_iff ..).2 (by simp only at *; omega), rfl⟩
    · rintro ⟨p, q, hc, hr, rfl⟩
      have := alignCentres_bounds hv hc
      have := (ring_le_iff ..).1 hr
      exact ⟨p, q, hc, a, b, by simp only at *; omega, rfl, rfl, rfl⟩
  have near : ∀ k, nearAlign v x y (fun d => d == k) = true ↔ ∃ c ∈ alignCentres v, ring c.1 c.2 x y = k := by
    intro k
    simp [nearAlign_iff hv]
  have centre : ∀ c : Nat × Nat, (x == c.1 && y == c.2) = decide (ring c.1 c.2 x y = 0) := by
    intro c
    rw [Bool.eq_iff_iff]
    simp only [Bool.and_eq_true, beq_iff_eq, decide_eq_true_eq]
    have := ring_le_iff c.1 c.2 x y 0
    omega
  by_cases h0 : nearAlign v x y (fun d => d == 0) = true
  · obtain ⟨c, hc, hr⟩ := (near 0).1 h0
    rw [if_pos h0]
    refine lastColour_of_hit (fun w hw h1 h2 => ?_) ?_
    · obtain ⟨d, hd, hr', hk⟩ := (mem w).1 hw
      subst h1 h2
      have := alignCentre_unique hv hc hd (by omega) hr'
      subst this
      rw [hk, centre, hr]; rfl
    · exact ⟨(x, y, true), (mem _).2 ⟨c, hc, by simp only; omega, by simp only; rw [centre, hr]; rfl⟩, rfl, rfl⟩
  · rw [if_neg h0]
    refine lastColour_of_agree (fun w hw h1 h2 => ?_) ?_
    · obtain ⟨d, hd, hr', hk⟩ := (mem w).1 hw
      subst h1 h2
      rw [hk, centre, decide_eq_false fun h => h0 ((near 0).2 ⟨d, hd, h⟩)]
    · rw [near]
      constructor
      · rintro ⟨w, hw, rfl, rfl⟩
        obtain ⟨d, hd, hr', _⟩ := (mem w).1 hw
        have : ring d.1 d.2 w.1 w.2.1 ≠ 0 := fun h => h0 ((near 0).2 ⟨d, hd, h⟩)
        exact ⟨d, hd, by omega⟩
      · rintro ⟨c, hc, hr⟩
        exact ⟨(x, y, false), (mem _).2 ⟨c, hc, by simp only; omega, by simp only; rw [centre, hr]; rfl⟩, rfl, rfl⟩

theorem lastColour_versionWrites (v x y : Nat) :
    lastColour (versionWrites v) x y =
      if 7 ≤ v ∧ side v - 11 ≤ x ∧ x < side v - 8 ∧ y < 6 then
        some ((versionBits v).testBit (3 * y + (x - (side v - 11))))
      else if 7 ≤ v ∧ x < 6 ∧ side v - 11 ≤ y ∧ y < side v - 8 then
        some ((versionBits v).testBit (3 * x + (y - (side v - 11))))
      else none := by
  by_cases h7 : 7 ≤ v
  · have hs := side_ge_seven h7
    have mem : ∀ w, w ∈ versionWrites v ↔ ∃ i j, i < 6 ∧ j < 3 ∧
        (w = (side v - 11 + j, i, (versionBits v).testBit (3 * i + j)) ∨
          w = (i, side v - 11 + j, (versionBits v).testBit (3 * i + j))) := by
      intro w
      simp only [versionWrites, if_pos h7, List.mem_flatMap, List.mem_range, List.mem_cons, List.not_mem_nil, or_false]
      constructor
      · rintro ⟨i, hi, j, hj, h⟩; exact ⟨i, j, hi, hj, h⟩
      · rintro ⟨i, j, hi, hj, h⟩; exact ⟨i, hi, j, hj, h⟩
    by_cases ha : side v - 11 ≤ x ∧ x < side v - 8 ∧ y < 6
    · rw [if_pos ⟨h7, ha⟩]
      refine lastColour_of_hit (fun w hw h1 h2 => ?_) ?_
      · obtain ⟨i, j, hi, hj, rfl | rfl⟩ := (mem w).1 hw
        · simp only at h1 h2 ⊢
          subst h2
          rw [show x - (side v - 11) = j by omega]
        · simp only at h1 h2; omega
      · exact ⟨_, (mem _).2 ⟨y, x - (side v - 11), ha.2.2, by omega, .inl rfl⟩, by simp only; omega, rfl⟩
    · rw [if_neg (fun h => ha h.2)]
      by_cases hb : x < 6 ∧ side v - 11 ≤ y ∧ y < side v - 8
      · rw [if_pos ⟨h7, hb⟩]
        refine lastColour_of_hit (fun w hw h1 h2 => ?_) ?_
        · obtain ⟨i, j, hi, hj, rfl | rfl⟩ := (mem w).1 hw
          · simp only at h1 h2; omega
          · simp only at h1 h2 ⊢
            subst h1
            rw [show y - (side v - 11) = j by omega]
        · exact ⟨_, (mem _).2 ⟨x, y - (side v - 11), hb.1, by omega, .inr rfl⟩, rfl, by simp only; omega⟩
      · rw [if_neg (fun h => hb h.2)]
        refine (lastColour_eq_none_iff ..).2 fun w hw h => ?_
        obtain ⟨i, j, hi, hj, rfl | rfl⟩ := (mem w).1 hw <;> (simp only at h; omega)
  · rw [if_neg (fun h => h7 h.1), if_neg (fun h => h7 h.1), versionWrites, if_neg h7]
    rfl

end Sys2Proof.Machine
end

