-- ==== Sys2Proof/Laws/OpcodeTable.lean ====
section
/-! SUPPORT. The decoder's opcode map beside the mask and match rows of spec/opcode_table.json (R125, R127). -/

namespace Sys2Proof

open Sys2Proof.Machine

/-- The fixed bits of a format (R122). -/
def Format.mask : Format → Word
  | .f0 => 0xFFFFFFFF
  | .fa => 0xFFFF00FF
  | .fab => 0xFF0000FF

/-- How many immediates a format has (R122). -/
def Format.count : Format → Nat
  | .f0 => 0
  | .fa => 1
  | .fab => 2

/-- Every entry of the opcode map has its row in the table, with the mask of its format. -/
theorem opcodeRow_row {op : Nat} {f : Format} {mk : Byte → Byte → Instr} (h : opcodeRow op = some (f, mk)) :
    (∃ m, (∀ a b, (mk a b).mnemonic = m) ∧ ⟨m, f.mask, BitVec.ofNat 32 op⟩ ∈ opcodeRows) ∧
      ∀ a b, (mk a b).operands = [a.toNat, b.toNat].take f.count := by
  unfold opcodeRow at h
  split at h <;> simp only [Option.some.injEq, Prod.mk.injEq, reduceCtorEq] at h
  all_goals
    obtain ⟨rfl, rfl⟩ := h
    exact ⟨⟨_, fun _ _ => rfl, by decide⟩, fun _ _ => rfl⟩

/-- Every row of the table has its entry in the opcode map. -/
theorem row_opcodeRow : ∀ r ∈ opcodeRows,
    ((opcodeRow (fieldOp r.value).toNat).map fun p => (p.1.mask, (p.2 0 0).mnemonic)) = some (r.mask, r.mnemonic) := by
  decide

theorem row_fields : ∀ r ∈ opcodeRows, fieldA r.value = 0 ∧ fieldB r.value = 0 ∧ fieldC r.value = 0 := by decide

/-- The rows have distinct OP values. -/
theorem row_op_inj : ∀ r ∈ opcodeRows, ∀ r' ∈ opcodeRows, fieldOp r.value = fieldOp r'.value → r = r' := by decide

/-- A format's fixed bits agree with a value whose operands are zero exactly when OP agrees and the must-be-zero fields
are zero. -/
theorem format_masked_iff (f : Format) (w v : Word) (hA : fieldA v = 0) (hB : fieldB v = 0) (hC : fieldC v = 0) :
    w &&& f.mask = v ↔ fieldOp w = fieldOp v ∧ f.fieldsZero (fieldA w) (fieldB w) (fieldC w) = true := by
  have h1 : fieldOp f.mask = BitVec.allOnes 8 ∧ fieldC f.mask = BitVec.allOnes 8 := by cases f <;> decide
  have h2 : fieldA f.mask = (if f = .f0 then BitVec.allOnes 8 else 0) := by cases f <;> decide
  have h3 : fieldB f.mask = (if f = .fab then 0 else BitVec.allOnes 8) := by cases f <;> decide
  rw [masked_eq_iff, hA, hB, hC, h1.1, h1.2, h2, h3, BitVec.and_allOnes, BitVec.and_allOnes]
  have h4 : ∀ b : Byte, b &&& 255#8 = b := fun b => BitVec.and_allOnes (x := b)
  cases f <;> simp [Format.fieldsZero, and_assoc, h4]

end Sys2Proof
end

