-- ==== Sys2Proof/Laws/PerInstr.lean ====
section
/-! SUPPORT. One lemma per command: the family EncodingRow says that the word of a well-formed command matches the row of
spec/opcode_table.json that bears its mnemonic (R122, R125, R127). -/

namespace Sys2Proof.Laws.EncodingRow

open Sys2Proof.Machine

/-- The word of a well-formed command matches its row of the opcode table. -/
def Statement (i : Instr) : Prop :=
  WellFormed i → ∃ r ∈ opcodeRows, r.mnemonic = i.mnemonic ∧ encode i &&& r.mask = r.value

theorem nop : Statement .nop := fun _ => ⟨⟨"NOP", 0xFFFFFFFF, 0x00000000⟩, by decide, rfl, by decide⟩

theorem gfmul (x y : Byte) : Statement (.gfmul x y) := fun _ =>
  ⟨⟨"GFMUL", 0xFF0000FF, 0x00000001⟩, by decide, rfl, by
    simp [encode, masked_eq_iff]; simp [fieldOp, fieldA, fieldB, fieldC]⟩

theorem rsdiv (d : Nat) : Statement (.rsdiv d) := fun _ =>
  ⟨⟨"RSDIV", 0xFFFF00FF, 0x00000002⟩, by decide, rfl, by
    simp [encode, masked_eq_iff]; simp [fieldOp, fieldA, fieldB, fieldC]⟩

theorem rsrem (d : Nat) : Statement (.rsrem d) := fun _ =>
  ⟨⟨"RSREM", 0xFFFF00FF, 0x00000003⟩, by decide, rfl, by
    simp [encode, masked_eq_iff]; simp [fieldOp, fieldA, fieldB, fieldC]⟩

theorem segclr : Statement .segclr := fun _ => ⟨⟨"SEGCLR", 0xFFFFFFFF, 0x00000010⟩, by decide, rfl, by decide⟩

theorem segauto : Statement .segauto := fun _ => ⟨⟨"SEGAUTO", 0xFFFFFFFF, 0x00000011⟩, by decide, rfl, by decide⟩

theorem segnum : Statement .segnum := fun _ => ⟨⟨"SEGNUM", 0xFFFFFFFF, 0x00000012⟩, by decide, rfl, by decide⟩

theorem segalnum : Statement .segalnum := fun _ => ⟨⟨"SEGALNUM", 0xFFFFFFFF, 0x00000013⟩, by decide, rfl, by decide⟩

theorem segbyte : Statement .segbyte := fun _ => ⟨⟨"SEGBYTE", 0xFFFFFFFF, 0x00000014⟩, by decide, rfl, by decide⟩

theorem segeci : Statement .segeci := fun _ => ⟨⟨"SEGECI", 0xFFFFFFFF, 0x00000015⟩, by decide, rfl, by decide⟩

theorem negot : Statement .negot := fun _ => ⟨⟨"NEGOT", 0xFFFFFFFF, 0x00000020⟩, by decide, rfl, by decide⟩

theorem assemble (v e : Nat) : Statement (.assemble v e) := fun _ =>
  ⟨⟨"ASSEMBLE", 0xFF0000FF, 0x00000021⟩, by decide, rfl, by
    simp [encode, masked_eq_iff]; simp [fieldOp, fieldA, fieldB, fieldC]⟩

theorem tblq (v e : Nat) : Statement (.tblq v e) := fun _ =>
  ⟨⟨"TBLQ", 0xFF0000FF, 0x00000022⟩, by decide, rfl, by
    simp [encode, masked_eq_iff]; simp [fieldOp, fieldA, fieldB, fieldC]⟩

theorem alignq (v : Nat) : Statement (.alignq v) := fun _ =>
  ⟨⟨"ALIGNQ", 0xFFFF00FF, 0x00000023⟩, by decide, rfl, by
    simp [encode, masked_eq_iff]; simp [fieldOp, fieldA, fieldB, fieldC]⟩

theorem ccbq (m v : Nat) : Statement (.ccbq m v) := fun _ =>
  ⟨⟨"CCBQ", 0xFF0000FF, 0x00000024⟩, by decide, rfl, by
    simp [encode, masked_eq_iff]; simp [fieldOp, fieldA, fieldB, fieldC]⟩

theorem interleave (v e : Nat) : Statement (.interleave v e) := fun _ =>
  ⟨⟨"INTERLEAVE", 0xFF0000FF, 0x00000030⟩, by decide, rfl, by
    simp [encode, masked_eq_iff]; simp [fieldOp, fieldA, fieldB, fieldC]⟩

theorem minit (v : Nat) : Statement (.minit v) := fun _ =>
  ⟨⟨"MINIT", 0xFFFF00FF, 0x00000040⟩, by decide, rfl, by
    simp [encode, masked_eq_iff]; simp [fieldOp, fieldA, fieldB, fieldC]⟩

theorem mplace : Statement .mplace := fun _ => ⟨⟨"MPLACE", 0xFFFFFFFF, 0x00000041⟩, by decide, rfl, by decide⟩

theorem mlight : Statement .mlight := fun _ => ⟨⟨"MLIGHT", 0xFFFFFFFF, 0x00000042⟩, by decide, rfl, by decide⟩

theorem mask (m : Nat) : Statement (.mask m) := fun _ =>
  ⟨⟨"MASK", 0xFFFF00FF, 0x00000050⟩, by decide, rfl, by
    simp [encode, masked_eq_iff]; simp [fieldOp, fieldA, fieldB, fieldC]⟩

theorem format (e m : Nat) : Statement (.format e m) := fun _ =>
  ⟨⟨"FORMAT", 0xFF0000FF, 0x00000051⟩, by decide, rfl, by
    simp [encode, masked_eq_iff]; simp [fieldOp, fieldA, fieldB, fieldC]⟩

theorem penalty : Statement .penalty := fun _ => ⟨⟨"PENALTY", 0xFFFFFFFF, 0x00000052⟩, by decide, rfl, by decide⟩

theorem mselect (e s : Nat) : Statement (.mselect e s) := fun _ =>
  ⟨⟨"MSELECT", 0xFF0000FF, 0x00000053⟩, by decide, rfl, by
    simp [encode, masked_eq_iff]; simp [fieldOp, fieldA, fieldB, fieldC]⟩

theorem encseg : Statement .encseg := fun _ => ⟨⟨"ENCSEG", 0xFFFFFFFF, 0x00000060⟩, by decide, rfl, by decide⟩

theorem enctext : Statement .enctext := fun _ => ⟨⟨"ENCTEXT", 0xFFFFFFFF, 0x00000061⟩, by decide, rfl, by decide⟩

theorem encbin : Statement .encbin := fun _ => ⟨⟨"ENCBIN", 0xFFFFFFFF, 0x00000062⟩, by decide, rfl, by decide⟩

end Sys2Proof.Laws.EncodingRow
end

