-- ==== Sys2Proof/Laws/Read.lean ====
section
/-! SUPPORT. A host read against the address map: the byte the bus returns is the byte the map puts there (R50, R81), and a
datum is its bytes in little-endian order (R83). -/

namespace Sys2Proof.Machine

/-! ### Registers as numbers -/

theorem toNat_append_add {n m : Nat} (x : BitVec n) (y : BitVec m) : (x ++ y).toNat = 2 ^ m * x.toNat + y.toNat := by
  rw [BitVec.toNat_append, ← Nat.shiftLeft_add_eq_or_of_lt y.isLt, Nat.shiftLeft_eq, Nat.mul_comm]

theorem toNat_ofBool (b : Bool) : (BitVec.ofBool b).toNat = b.toNat := by cases b <;> rfl

theorem cfg_toWord_toNat (c : Cfg) : c.toWord.toNat =
    c.ecl.toNat + 4 * c.mask.toNat + 64 * c.boost.toNat + 256 * c.minVer.toNat + 65536 * c.maxVer.toNat := by
  simp only [Cfg.toWord, toNat_append_add, toNat_ofBool, BitVec.toNat_ofNat]
  omega

theorem result_toWord_toNat (r : Result) : r.toWord.toNat =
    r.version.toNat + 256 * r.ecl.toNat + 4096 * r.mask.toNat + 65536 * r.size.toNat := by
  simp only [Result.toWord, toNat_append_add, BitVec.toNat_ofNat]
  omega

theorem segDesc_word0_toNat (d : SegDesc) : d.word0.toNat = d.mode.toNat + 65536 * d.numChars.toNat := by
  simp only [SegDesc.word0, toNat_append_add, BitVec.toNat_ofNat]
  omega

theorem segDesc_word1_toNat (d : SegDesc) : d.word1.toNat = d.bitLen.toNat + 65536 * d.bitOff.toNat := by
  simp only [SegDesc.word1, toNat_append_add]
  omega

theorem statusWord_toNat (s : State) : s.statusWord.toNat =
    (if s.eng = .idle then 0 else 1) + 2 * s.status.done.toNat + 4 * s.status.fail.toNat + 8 * s.status.err.toNat
      + 16 * s.status.werr.toNat + 32 * s.status.aerr.toNat := by
  have hb : s.busy.toNat = if s.eng = .idle then 0 else 1 := by
    unfold State.busy; cases s.eng <;> rfl
  simp only [State.statusWord, toNat_append_add, toNat_ofBool, BitVec.toNat_ofNat, hb]
  omega

/-- Register `k` of the block as the number whose bits R31 to R43 give. -/
theorem regWord_toNat (s : State) {k : Nat} (hk : k < 16) : (s.regWord k).toNat = s.registerValues.getD k 0 := by
  have wide : ∀ {n : Nat} (x : BitVec n), n ≤ 32 → (x.setWidth 32).toNat = x.toNat := fun x h => by
    rw [BitVec.toNat_setWidth, Nat.mod_eq_of_lt (Nat.lt_of_lt_of_le x.isLt (Nat.pow_le_pow_right (by decide) h))]
  have : k = 0 ∨ k = 1 ∨ k = 2 ∨ k = 3 ∨ k = 4 ∨ k = 5 ∨ k = 6 ∨ k = 7 ∨ k = 8 ∨ k = 9 ∨ k = 10 ∨ k = 11 ∨ k = 12 ∨
    k = 13 ∨ k = 14 ∨ k = 15 := by omega
  rcases this with rfl | rfl | rfl | rfl | rfl | rfl | rfl | rfl | rfl | rfl | rfl | rfl | rfl | rfl | rfl | rfl
  · rfl
  · exact statusWord_toNat s
  · rfl
  · rfl
  · rfl
  · rfl
  · rfl
  · rfl
  · exact cfg_toWord_toNat s.cfg
  · exact wide s.plen (by decide)
  · exact result_toWord_toNat s.result
  · exact wide s.errcode (by decide)
  · rfl
  · exact (wide _ (by decide)).trans (toNat_ofBool _)
  · exact wide s.segCnt (by decide)
  · exact wide s.segBits (by decide)

/-! ### Bytes -/

theorem wordByte_toNat (w : Word) (i : Nat) : (wordByte w i).toNat = w.toNat / 256 ^ i % 256 := by
  rw [wordByte, BitVec.extractLsb'_toNat, Nat.shiftRight_eq_div_pow, Nat.pow_mul]

/-- The words of descriptor `k` stand at places `2k` and `2k + 1`. -/
theorem segTabValues_getD (s : State) {k : Nat} (hk : k < 16) :
    s.segTabValues.getD (2 * k) 0 = s.segTab[k].word0.toNat ∧ s.segTabValues.getD (2 * k + 1) 0 = s.segTab[k].word1.toNat := by
  have key : ∀ (l : List SegDesc) (k : Nat) (hk : k < l.length),
      (l.flatMap fun d => [d.mode.toNat + 65536 * d.numChars.toNat, d.bitLen.toNat + 65536 * d.bitOff.toNat]).getD (2 * k) 0
        = l[k].word0.toNat ∧
      (l.flatMap fun d => [d.mode.toNat + 65536 * d.numChars.toNat, d.bitLen.toNat + 65536 * d.bitOff.toNat]).getD
        (2 * k + 1) 0 = l[k].word1.toNat := by
    intro l
    induction l with
    | nil => intro k hk; simp at hk
    | cons d l ih =>
      intro k hk
      cases k with
      | zero => exact ⟨(segDesc_word0_toNat d).symm, (segDesc_word1_toNat d).symm⟩
      | succ k => exact ih k (by simpa using hk)
  have := key s.segTab.toList k (by simpa using hk)
  simpa [State.segTabValues] using this

theorem arrayByte_eq (a : Vector Byte 30) (i : Nat) : arrayByte a i = a.toList.getD i 0 := by
  simp [arrayByte, List.getD_eq_getElem?_getD]

/-- The byte an Idle block returns is the one the map of R81 puts at the offset. -/
theorem busByte_toNat (s : State) {off : Nat} (h : off < 0x8000) : (s.busByte off).toNat = s.mapByte off := by
  unfold State.busByte State.mapByte Config.segTabBase Config.genBase Config.remBase Config.payloadBase
  by_cases h1 : off < 0x40
  · rw [if_pos h1, if_pos h1, wordByte_toNat, regWord_toNat s (by omega)]; rfl
  rw [if_neg h1, if_neg h1]
  by_cases h2 : off < 0x100
  · rw [if_pos h2, if_neg (by omega), if_neg (by omega), if_neg (by omega), if_neg (by omega)]; rfl
  rw [if_neg h2]
  by_cases h3 : off < 0x180
  · rw [if_pos h3, if_pos (by omega)]
    have hk : (off - 0x100) / 8 < 16 := by omega
    obtain ⟨w0, w1⟩ := segTabValues_getD s hk
    simp only [State.segTabByte, byteOfWords, Vector.getElem?_eq_getElem hk]
    split
    · rw [wordByte_toNat, ← w0]
      congr 2
      congr 1; omega
    · rw [wordByte_toNat, ← w1]
      congr 2
      congr 1; omega
  rw [if_neg h3, if_neg (c := 0x100 ≤ off ∧ off < 0x180) (by omega)]
  by_cases h4 : off < 0x1A0
  · rw [if_pos h4, arrayByte_eq]
    by_cases h5 : off < 0x19E
    · rw [if_pos (by omega)]
    · rw [if_neg (by omega), if_neg (by omega), if_neg (by omega), List.getD_eq_default _ _ (by simp; omega)]; rfl
  rw [if_neg h4, if_neg (c := 0x180 ≤ off ∧ off < 0x19E) (by omega)]
  by_cases h5 : off < 0x1C0
  · rw [if_pos h5, arrayByte_eq]
    by_cases h6 : off < 0x1BE
    · rw [if_pos (by omega)]
    · rw [if_neg (by omega), if_neg (by omega), List.getD_eq_default _ _ (by simp; omega)]; rfl
  rw [if_neg h5, if_neg (c := 0x1A0 ≤ off ∧ off < 0x1BE) (by omega)]
  by_cases h6 : off < 0x1000
  · rw [if_pos h6, if_neg (by omega)]; rfl
  · rw [if_neg h6, if_pos (by omega)]

/-! ### Reads -/

/-- The datum of a read is its bytes in little-endian order (R83). -/
theorem replyLE_eq_sum (s : State) (off n : Nat) :
    s.replyLE off n = ((List.range n).map fun i => (s.replyByte (off + i)).toNat * 256 ^ i).sum := by
  induction n generalizing off with
  | zero => rfl
  | succ n ih =>
    rw [State.replyLE, ih, List.range_succ_eq_map, List.map_cons, List.sum_cons, List.map_map, ← List.sum_map_mul_left,
      Nat.add_zero, Nat.pow_zero, Nat.mul_one]
    congr 2
    refine List.map_congr_left fun i _ => ?_
    simp only [Function.comp, Nat.succ_eq_add_one, Nat.pow_succ, Nat.add_right_comm off 1 i, Nat.add_assoc off i 1]
    exact (Nat.mul_left_comm ..).trans (congrArg _ (Nat.mul_comm ..))

/-- The locations that a Busy block answers (R91, assumption 7). -/
theorem readableWhileBusy_of_listed {off : Nat}
    (h : off / 4 * 4 ∈ [0x000, 0x004, 0x008, 0x00C, 0x010, 0x014, 0x020, 0x024, 0x034] ∨
      0x040 ≤ off ∧ off < 0x100 ∨ 0x19E ≤ off ∧ off < 0x1A0 ∨ 0x1BE ≤ off ∧ off < 0x1000) :
    readableWhileBusy off = true := by
  unfold readableWhileBusy Config.segTabBase Config.genBase Config.remBase Config.payloadBase
  rcases h with h | h | h | h
  · simp only [List.mem_cons, List.not_mem_nil, or_false] at h
    have h' : off / 4 = 0 ∨ off / 4 = 1 ∨ off / 4 = 2 ∨ off / 4 = 3 ∨ off / 4 = 4 ∨ off / 4 = 5 ∨ off / 4 = 8 ∨
      off / 4 = 9 ∨ off / 4 = 13 := by omega
    rw [if_pos (by omega)]
    rcases h' with h | h | h | h | h | h | h | h | h <;> rw [h] <;> rfl
  · rw [if_neg (by omega), if_pos (by omega)]
  · rw [if_neg (by omega), if_neg (by omega), if_neg (by omega), if_pos (by omega)]
    exact decide_eq_true (by omega)
  · rw [if_neg (by omega), if_neg (by omega), if_neg (by omega), if_neg (by omega)]
    split <;> exact decide_eq_true (by omega)

end Sys2Proof.Machine
end

