-- ==== Sys2Proof/Laws/Scan.lean ====
section
/-! SUPPORT. The line scan of R307 in terms of the runs of the line: what the run-length history holds, and what a line
adds to N3. -/

namespace Sys2Proof.Machine

/-! ### Runs -/

/-- The lengths of the runs of `n` modules of colour `c` followed by a line. -/
def runsFrom (c : Bool) (n : Nat) : List Bool → List Nat
  | [] => [n]
  | b :: l => if b = c then runsFrom c (n + 1) l else n :: runsFrom b 1 l

theorem splitBy_replicate (c : Bool) {n : Nat} (hn : n ≠ 0) :
    (List.replicate n c).splitBy (· == ·) = [List.replicate n c] := by
  refine List.splitBy_of_isChain (by simpa using hn) ?_
  exact List.isChain_replicate_of_rel n (by simp)

theorem splitBy_lengths (c : Bool) {n : Nat} (hn : n ≠ 0) (l : List Bool) :
    ((List.replicate n c ++ l).splitBy (· == ·)).map List.length = runsFrom c n l := by
  induction l generalizing c n with
  | nil => simp [splitBy_replicate c hn, runsFrom]
  | cons b l ih =>
    unfold runsFrom
    split
    · next h =>
      subst h
      rw [← ih b (Nat.succ_ne_zero n), List.replicate_succ', List.append_assoc]; rfl
    · next h =>
      rw [List.splitBy_append_cons, splitBy_replicate c hn, List.map_append, ← ih b (Nat.one_ne_zero)]
      · simp
      · intro x hx
        have hx := (List.mem_replicate.1 (List.mem_of_getLast? hx)).2
        subst hx
        simpa using fun e => h e.symm

theorem runsFrom_pos {c : Bool} {n : Nat} (hn : n ≠ 0) (l : List Bool) : ∀ r ∈ runsFrom c n l, r ≠ 0 := by
  induction l generalizing c n with
  | nil => simp [runsFrom, hn]
  | cons b l ih =>
    unfold runsFrom
    split
    · exact ih (Nat.succ_ne_zero n)
    · intro r hr
      rcases List.mem_cons.1 hr with rfl | hr
      · exact hn
      · exact ih Nat.one_ne_zero r hr

/-- The light border after a line. -/
theorem runsFrom_replicate (c : Bool) (n : Nat) {size : Nat} (hs : size ≠ 0) :
    runsFrom c n (List.replicate size false) = if c then [n, size] else [n + size] := by
  have light : ∀ k m, runsFrom false m (List.replicate k false) = [m + k] := by
    intro k
    induction k with
    | zero => intro m; rfl
    | succ k ih => intro m; rw [List.replicate_succ, runsFrom, if_pos rfl, ih]; congr 1; omega
  cases c
  · simp [light]
  · obtain ⟨k, rfl⟩ := Nat.exists_eq_succ_of_ne_zero hs
    rw [List.replicate_succ, runsFrom, if_neg (by decide), light, if_pos rfl, Nat.add_comm]

/-! ### The history -/

/-- The history after runs of these lengths, the newest first. -/
def histOf (past : List Nat) : History :=
  ⟨past.getD 0 0, past.getD 1 0, past.getD 2 0, past.getD 3 0, past.getD 4 0, past.getD 5 0, past.getD 6 0⟩

theorem histOf_push (size r : Nat) {past : List Nat} (hp : ∀ n ∈ past, n ≠ 0) :
    (histOf past).push size r = histOf ((if past = [] then r + size else r) :: past) := by
  cases past with
  | nil => rfl
  | cons a past => simp [histOf, History.push, hp a (List.mem_cons_self ..)]

/-- The counts taken as runs of these lengths are pushed one after another, one after each light run. -/
def tally : List Nat → Bool → List Nat → Nat
  | _, _, [] => 0
  | past, light, r :: rs => (if light then (histOf (r :: past)).count else 0) + tally (r :: past) (!light) rs

theorem scan_n3 {size : Nat} (hs : size ≠ 0) (l : List Bool) (sc : Scan) (past : List Nat)
    (hp : ∀ n ∈ past, n ≠ 0) (hh : sc.hist = histOf past) (hc : past = [] → sc.color = false)
    (hr : past ≠ [] → sc.run ≠ 0) :
    ((l.foldl (Scan.step size) sc).terminate size).n3 = sc.n3 + 40 * tally past (!sc.color)
      (runsFrom sc.color (if past = [] then sc.run + size else sc.run) (l ++ List.replicate size false)) := by
  induction l generalizing sc past with
  | nil =>
    rw [List.nil_append, runsFrom_replicate _ _ hs, List.foldl_nil]
    cases hcol : sc.color
    · simp only [Scan.terminate, hcol, hh, histOf_push size _ hp, tally, Bool.not_false, if_true, Bool.false_eq_true,
        if_false, Nat.add_zero]
      congr 4
      split <;> rfl
    · have hne : past ≠ [] := fun h => by simp [hc h] at hcol
      have hp' : ∀ n ∈ sc.run :: past, n ≠ 0 := by
        intro n hn
        rcases List.mem_cons.1 hn with rfl | hn
        · exact hr hne
        · exact hp n hn
      simp only [Scan.terminate, hcol, hh, histOf_push size _ hp, if_neg hne, if_true, tally, Bool.not_true,
        Bool.false_eq_true, if_false, Bool.not_false, Nat.add_zero, Nat.zero_add, histOf_push size _ hp',
        reduceCtorEq]
  | cons b l ih =>
    rw [List.foldl_cons, List.cons_append, runsFrom]
    by_cases hb : b = sc.color
    · rw [if_pos hb, ih _ past hp (by simp [Scan.step, hb, hh]) (by simpa [Scan.step, hb] using hc)
        (by simp [Scan.step, hb])]
      simp only [Scan.step, if_pos hb]
      congr 4
      split <;> omega
    · rw [if_neg hb]
      have hb' : b = !sc.color := by cases b <;> cases h : sc.color <;> simp_all
      have hpos : (if past = [] then sc.run + size else sc.run) ≠ 0 := by
        split
        · omega
        · next h => exact hr h
      rw [ih (sc.step size b) ((if past = [] then sc.run + size else sc.run) :: past)]
      · simp only [Scan.step, if_neg hb, tally, hh, histOf_push size _ hp, reduceCtorEq, if_false, ← hb']
        rw [hb']
        cases sc.color <;> simp [Nat.mul_add, Nat.add_assoc]
      · intro n hn
        rcases List.mem_cons.1 hn with rfl | hn
        · exact hpos
        · exact hp n hn
      · simp only [Scan.step, if_neg hb, hh, histOf_push size _ hp]
      · simp
      · simp [Scan.step, hb]

/-! ### Seven runs -/

/-- What the seven runs from the `k`-th on add: 1 or 2 where they stand in the ratio of R307. -/
def sevenRuns (runs : List Nat) (k : Nat) : Nat :=
  let run := fun i => runs.getD (k + i) 0
  let n := run 1
  if k % 2 = 0 ∧ k + 6 < runs.length ∧ run 2 = n ∧ run 3 = 3 * n ∧ run 4 = n ∧ run 5 = n then
    (if 4 * n ≤ run 0 ∧ n ≤ run 6 then 1 else 0) + (if n ≤ run 0 ∧ 4 * n ≤ run 6 then 1 else 0)
  else 0

/-- The count after run `t` of the list. -/
def countAt (past runs : List Nat) (light : Bool) (t : Nat) : Nat :=
  if (t % 2 == 0) == light then (histOf ((runs.take (t + 1)).reverse ++ past)).count else 0

theorem tally_eq_sum (past runs : List Nat) (light : Bool) :
    tally past light runs = ∑ t ∈ Finset.range runs.length, countAt past runs light t := by
  induction runs generalizing past light with
  | nil => rfl
  | cons r rs ih =>
    rw [tally, ih, List.length_cons, Finset.sum_range_succ']
    rw [Nat.add_comm]
    congr 1
    · refine Finset.sum_congr rfl fun t _ => ?_
      have : ((t + 1) % 2 == 0) = !(t % 2 == 0) := by
        rcases Nat.mod_two_eq_zero_or_one t with h | h <;> simp [Nat.add_mod, h]
      simp only [countAt, List.take_succ_cons, List.reverse_cons, List.append_assoc, List.singleton_append, this]
      cases light <;> cases (t % 2 == 0) <;> rfl
    · simp [countAt]

theorem reverse_take_getD (runs : List Nat) {t i : Nat} (ht : t < runs.length) :
    (runs.take (t + 1)).reverse.getD i 0 = if i ≤ t then runs.getD (t - i) 0 else 0 := by
  have hl : (runs.take (t + 1)).length = t + 1 := by rw [List.length_take]; omega
  rw [List.getD_eq_getElem?_getD, List.getD_eq_getElem?_getD]
  by_cases h : i ≤ t
  · rw [if_pos h, List.getElem?_reverse (by omega), hl, List.getElem?_take_of_lt (by omega)]
    congr 2
  · rw [if_neg h, List.getElem?_eq_none (by simp; omega)]; rfl

theorem countAt_early {runs : List Nat} (hp : ∀ n ∈ runs, n ≠ 0) {t : Nat} (ht : t < runs.length) (h6 : t < 6) :
    countAt [] runs true t = 0 := by
  unfold countAt
  split
  · next he =>
    have he : t % 2 = 0 := by simpa using he
    have pos : ∀ i, i < runs.length → runs.getD i 0 ≠ 0 := fun i hi => by
      rw [List.getD_eq_getElem _ _ hi]; exact hp _ (List.getElem_mem hi)
    have hcore : (histOf ((runs.take (t + 1)).reverse ++ [])).core = false := by
      rw [List.append_nil]
      simp only [History.core, histOf, reverse_take_getD runs ht]
      have : t = 0 ∨ t = 2 ∨ t = 4 := by omega
      rcases this with rfl | rfl | rfl
      · simp
      · have := pos 1 (by omega)
        simp; omega
      · have := pos 3 (by omega)
        simp; omega
    rw [List.append_nil] at hcore ⊢
    simp [History.count, hcore]
  · rfl

theorem countAt_late {runs : List Nat} (hp : ∀ n ∈ runs, n ≠ 0) {k : Nat} (hk : k + 6 < runs.length) :
    countAt [] runs true (k + 6) = sevenRuns runs k := by
  have pos : runs.getD (k + 1) 0 ≠ 0 := by
    rw [List.getD_eq_getElem _ _ (by omega)]; exact hp _ (List.getElem_mem _)
  have he : (((k + 6) % 2 == 0) == true) = decide (k % 2 = 0) := by
    rw [Bool.eq_iff_iff]; simp; omega
  -- the last run of the seven but one stands beside the newest, the second beside the oldest
  have key : ∀ a b c d e f g : Nat, b ≠ 0 →
      (⟨g, f, e, d, c, b, a⟩ : History).count = if c = b ∧ d = 3 * b ∧ e = b ∧ f = b then
        (if 4 * b ≤ a ∧ b ≤ g then 1 else 0) + (if b ≤ a ∧ 4 * b ≤ g then 1 else 0) else 0 := by
    intro a b c d e f g hb
    unfold History.count History.core
    by_cases h : c = b ∧ d = 3 * b ∧ e = b ∧ f = b
    · obtain ⟨rfl, rfl, rfl, rfl⟩ := h
      have h0 : 0 < f := by omega
      simp only [h0, decide_true, beq_self_eq_true, Bool.true_and, Bool.and_eq_true, decide_eq_true_eq, and_self, if_true]
      rw [Nat.add_comm]
      simp only [ge_iff_le, and_comm]
    · rw [if_neg h]
      have hcore : (decide (f > 0) && e == f && d == 3 * f && c == f && b == f) = false := by
        rw [Bool.eq_false_iff]
        intro hh
        simp only [Bool.and_eq_true, decide_eq_true_eq, beq_iff_eq] at hh
        omega
      simp only [hcore, Bool.false_and, Bool.false_eq_true, if_false]
  unfold countAt sevenRuns
  rw [he]
  by_cases hk2 : k % 2 = 0
  · simp only [hk2, decide_true, if_true, true_and, hk, List.append_nil, histOf, reverse_take_getD runs hk]
    simp only [show (0 : Nat) ≤ k + 6 by omega, show (1 : Nat) ≤ k + 6 by omega, show (2 : Nat) ≤ k + 6 by omega,
      show (3 : Nat) ≤ k + 6 by omega, show (4 : Nat) ≤ k + 6 by omega, show (5 : Nat) ≤ k + 6 by omega,
      show (6 : Nat) ≤ k + 6 by omega, if_true]
    rw [key _ _ _ _ _ _ _ (by simpa using pos)]
    rfl
  · simp [hk2]

/-- What the runs of a line add to the count. -/
theorem tally_eq_sevenRuns {runs : List Nat} (hp : ∀ n ∈ runs, n ≠ 0) :
    tally [] true runs = ((List.range runs.length).map (sevenRuns runs)).sum := by
  rw [tally_eq_sum]
  have hr : ((List.range runs.length).map (sevenRuns runs)).sum = ∑ k ∈ Finset.range runs.length, sevenRuns runs k := rfl
  rw [hr]
  by_cases h6 : runs.length ≤ 6
  · rw [Finset.sum_eq_zero, Finset.sum_eq_zero]
    · intro k hk
      have := Finset.mem_range.1 hk
      simp only [sevenRuns]
      rw [if_neg (by omega)]
    · intro t ht
      exact countAt_early hp (Finset.mem_range.1 ht) (by have := Finset.mem_range.1 ht; omega)
  · obtain ⟨m, hm⟩ : ∃ m, runs.length = m + 6 := ⟨runs.length - 6, by omega⟩
    have early : ∀ t, t < 6 → countAt [] runs true t = 0 := fun t ht => countAt_early hp (by omega) ht
    have late : ∀ k, m ≤ k → sevenRuns runs k = 0 := by
      intro k hk
      simp only [sevenRuns]
      rw [if_neg (by omega)]
    rw [hm]
    iterate 6 rw [Finset.sum_range_succ']
    iterate 6 rw [Finset.sum_range_succ]
    rw [early 0 (by omega), early 1 (by omega), early 2 (by omega), early 3 (by omega), early 4 (by omega),
      early 5 (by omega), late m (by omega), late (m + 1) (by omega), late (m + 2) (by omega), late (m + 3) (by omega),
      late (m + 4) (by omega), late (m + 5) (by omega)]
    refine congrArg (· + 0 + 0 + 0 + 0 + 0 + 0) (Finset.sum_congr rfl fun k hk => ?_)
    exact countAt_late hp (by have := Finset.mem_range.1 hk; omega)

/-- The runs of a line between two light borders of one side each (R307). -/
def borderedRuns (size : Nat) (line : List Bool) : List Nat :=
  ((List.replicate size false ++ line ++ List.replicate size false).splitBy (· == ·)).map List.length

/-- What a line adds to N3 (R307): 40 for each count of its bordered runs. -/
theorem scanLine_snd {size : Nat} (hs : size ≠ 0) (line : List Bool) :
    (scanLine size line).2 =
      40 * ((List.range (borderedRuns size line).length).map (sevenRuns (borderedRuns size line))).sum := by
  rw [borderedRuns, List.append_assoc, splitBy_lengths false hs, ← tally_eq_sevenRuns (runsFrom_pos hs _)]
  have h := scan_n3 hs line Scan.start [] (by simp) rfl (fun _ => rfl) (fun h => absurd rfl h)
  simpa [scanLine, Scan.start] using h

end Sys2Proof.Machine
end

