-- ==== Sys2Proof/Laws/Step.lean ====
section
/-! SUPPORT. What one step can do: run a completion or deliver one host event; what each host event can do; and that each
keeps the invariant. -/

namespace Sys2Proof.Machine

/-! ### Host writes -/

/-- Everything a host write can do: be refused or dropped, reach a register, or reach bytes above the register block. -/
theorem hostWrite_cases (s : State) (width : Width) (off : Nat) (v : Word) :
    (∃ m d, (m = true ∨ d = true) ∧ s.hostWrite width off v = { s with status := s.status.refuseWrite m d }) ∨
      (off < 0x40 ∧ width = .w4 ∧ off % 4 = 0 ∧ (s.busy = true → off / 4 = 1 ∨ off / 4 = 13) ∧
        s.hostWrite width off v = s.writeRegister (off / 4) v) ∨
      (0x40 ≤ off ∧ off % width.bytes = 0 ∧ s.busy = false ∧
        s.hostWrite width off v = s.writeDatum off width.bytes v.toNat) := by
  unfold State.hostWrite
  simp only
  by_cases hm : (!writeAllowed width off || s.busy && !writableWhileBusy off) = true
  · rw [if_pos hm]
    exact .inl ⟨_, _, by simpa using Bool.or_eq_true_iff.1 hm, rfl⟩
  · rw [if_neg hm]
    simp only [writeAllowed, aligned, inRegisterBlock, Bool.or_eq_true, Bool.not_eq_true', Bool.and_eq_true,
      not_or, not_and, Bool.not_eq_false, decide_eq_true_eq, beq_iff_eq, decide_eq_false_iff_not] at hm
    obtain ⟨⟨h1, h2⟩, h3⟩ := hm
    by_cases hr : off < 0x40
    · have hi : inRegisterBlock off = true := decide_eq_true hr
      rw [if_pos hi]
      have hw : width = .w4 := h2.resolve_left (fun h => h hr)
      subst hw
      refine .inr (.inl ⟨hr, rfl, h1, fun hb => ?_, rfl⟩)
      simpa [writableWhileBusy] using h3 hb
    · have hi : ¬inRegisterBlock off = true := fun h => hr (of_decide_eq_true h)
      rw [if_neg hi]
      refine .inr (.inr ⟨by omega, h1, ?_, rfl⟩)
      by_contra hb
      have := h3 (by simpa using hb)
      simp only [writableWhileBusy, Bool.or_eq_true, decide_eq_true_eq] at this
      omega

/-- Everything a write above the register block can do: GEN and buffer bytes change, and nothing else. -/
theorem writeByte_frame (s : State) (off : Nat) (b : Byte) :
    s.writeByte off b = { s with gen := (s.writeByte off b).gen, mem := (s.writeByte off b).mem } := by
  unfold State.writeByte
  split
  · rfl
  · split <;> rfl

theorem writeDatum_frame (s : State) (off n v : Nat) :
    s.writeDatum off n v = { s with gen := (s.writeDatum off n v).gen, mem := (s.writeDatum off n v).mem } := by
  induction n generalizing s off v with
  | zero => rfl
  | succ n ih =>
    rw [State.writeDatum, ih, writeByte_frame s]

theorem writeByte_wf {s : State} (off : Nat) (b : Byte) (h : s.mem.wf) : (s.writeByte off b).mem.wf := by
  unfold State.writeByte
  split
  · exact h
  · split
    · exact write_wf _ _ h
    · exact h

theorem writeDatum_wf {s : State} (off n v : Nat) (h : s.mem.wf) : (s.writeDatum off n v).mem.wf := by
  induction n generalizing s off v with
  | zero => exact h
  | succ n ih => exact ih _ _ (writeByte_wf _ _ h)

/-! ### The invariant -/

namespace State.Inv

variable {s : State}

theorem segOk (h : s.Inv) : SegOk s := ⟨h.segCnt, h.chain, h.segBits, h.segBitsLe⟩

/-- The invariant reads only these fields. -/
theorem of_parts {t : State} (hm : t.mem.wf) (hs : SegOk t) (hr : ResultOk t.result)
    (ht : ¬(t.status.fail = true ∧ t.status.err = true))
    (hc : (t.status.fail = true → t.errcode = 0x01 ∨ t.errcode = 0x02) ∧
      (t.status.err = true → 0x10 ≤ t.errcode.toNat ∧ t.errcode.toNat ≤ 0x1C) ∧
      (t.status.fail = false → t.status.err = false → t.errcode = 0))
    (hb : ∀ w, t.eng = .busy w → t.status.done = false ∧ t.status.fail = false ∧ t.status.err = false) : t.Inv :=
  ⟨hm, hs.segCnt, hs.chain, hs.segBits, hs.segBitsLe, hr, ht, hc, hb⟩

/-- A change of other fields, and of DONE, WERR, AERR while Idle or DONE staying 0 while Busy, keeps the invariant. -/
theorem congr {t : State} (h : s.Inv) (hm : t.mem.wf) (h1 : t.segCnt = s.segCnt) (h2 : t.segBits = s.segBits)
    (h3 : t.segTab = s.segTab) (hr : t.result = s.result) (hf : t.status.fail = s.status.fail)
    (he : t.status.err = s.status.err) (hc : t.errcode = s.errcode)
    (hb : ∀ w, t.eng = .busy w → s.eng = .busy w ∧ (s.status.done = false → t.status.done = false)) : t.Inv := by
  refine of_parts hm (segOk_congr h1 h2 h3 h.segOk) (hr ▸ h.result) (hf ▸ he ▸ h.tiers) ?_ fun w hw => ?_
  · rw [hf, he, hc]; exact h.code
  · have := h.busy w (hb w hw).1
    exact ⟨(hb w hw).2 this.1, by rw [hf]; exact this.2.1, by rw [he]; exact this.2.2⟩

theorem finish {u : State} (h : s.Inv) (hb : Body s u) (o : CmdOutcome) : (u.finish o).Inv := by
  have hs : SegOk (u.finish o) := segOk_congr (s := u) rfl rfl rfl (hb.seg h.segOk)
  refine of_parts (hb.wf h.mem) hs (hb.result h.result) ?_ ?_
    (fun w hw => by simp at hw)
  · cases o <;> simp
  · cases o with
    | success => simp
    | notEncodable c => cases c <;> simp [FailCode.byte]
    | contractViolation c => cases c <;> simp [ViolationCode.byte]

theorem exec {i : Instr} {t : State} (h : s.Inv) (ht : Machine.exec i s = .next t) : t.Inv := by
  rcases exec_ends i s with ⟨c, hc⟩ | ⟨u, o, hb, _, hc⟩ <;> rw [hc] at ht <;> cases ht
  · exact h.finish (.refl s) _
  · exact h.finish hb _

theorem accept (h : s.Inv) (w : Word) : (s.accept w).Inv :=
  have hs : SegOk (s.accept w) := segOk_congr (s := s) rfl rfl rfl h.segOk
  of_parts h.mem hs h.result (by simp [State.accept, Status.accepted]) (by simp [State.accept, Status.accepted])
    (fun w' _ => by simp [State.accept, Status.accepted])

theorem writeRegister (h : s.Inv) (k : Nat) (v : Word) : (s.writeRegister k v).Inv := by
  unfold State.writeRegister
  split
  · exact h.congr h.mem rfl rfl rfl rfl rfl rfl rfl fun w hw =>
      ⟨hw, fun hd => by simp [Status.writeOneToClear, hd]⟩
  · exact h.accept v
  all_goals exact h.congr h.mem rfl rfl rfl rfl rfl rfl rfl fun w hw => ⟨hw, id⟩

theorem hostWrite (h : s.Inv) (width : Width) (off : Nat) (v : Word) : (s.hostWrite width off v).Inv := by
  rcases hostWrite_cases s width off v with ⟨m, d, _, he⟩ | ⟨_, _, _, _, he⟩ | ⟨_, _, _, he⟩ <;> rw [he]
  · exact h.congr h.mem rfl rfl rfl rfl rfl rfl rfl fun w hw => ⟨hw, id⟩
  · exact h.writeRegister _ _
  · have hf := writeDatum_frame s off width.bytes v.toNat
    refine h.congr (writeDatum_wf _ _ _ h.mem) ?_ ?_ ?_ ?_ ?_ ?_ ?_ fun w hw => ⟨?_, ?_⟩
    all_goals first | (rw [hf] at hw; exact hw) | (rw [hf]; exact fun h => h) | rw [hf]

theorem hostRead (h : s.Inv) (width : Width) (off : Nat) : (s.hostRead width off).Inv := by
  unfold State.hostRead
  split <;> exact h.congr h.mem rfl rfl rfl rfl rfl rfl rfl fun w hw => ⟨hw, id⟩

theorem segOk_reset : SegOk State.reset := ⟨by decide, by decide, by decide, by decide⟩

theorem assertReset (s : State) : s.assertReset.Inv :=
  have hs : SegOk s.assertReset := segOk_congr (s := State.reset) rfl rfl rfl segOk_reset
  have hr : ResultOk State.reset.result := ⟨by decide, by decide⟩
  of_parts (fresh_wf _) hs hr (by simp [State.assertReset, State.reset])
    (by simp [State.assertReset, State.reset]) (fun w hw => by simp [State.assertReset, State.reset] at hw)

theorem hostEvent (h : s.Inv) (ev : HostEvent) : (s.hostEvent ev).Inv := by
  cases ev with
  | read width off => exact h.hostRead _ _
  | write width off v => exact h.hostWrite _ _ _
  | reset => exact assertReset s

theorem deliver (h : s.Inv) : s.deliver.Inv := by
  unfold State.deliver
  split
  · exact h
  · refine State.Inv.hostEvent ?_ _
    exact h.congr h.mem rfl rfl rfl rfl rfl rfl rfl fun w hw => ⟨hw, id⟩

end State.Inv

/-! ### One step -/

/-- Everything a step can do. -/
theorem step_cases (s : State) :
    (∃ w, s.eng = .busy w ∧ s.wait = 0 ∧
      ((∃ i, decode w = .ok i ∧ step s = exec i s) ∨
        ((∀ i, decode w ≠ .ok i) ∧ step s = .next (s.finish (.contractViolation .illegalCmd))))) ∨
      (∃ w n, s.eng = .busy w ∧ s.wait = n + 1 ∧ step s = .next ({ s with wait := n } : State).deliver) ∨
      (s.eng = .idle ∧ step s = .next s.deliver) := by
  unfold step
  cases he : s.eng with
  | idle => exact .inr (.inr ⟨rfl, rfl⟩)
  | busy w =>
    cases hw : s.wait with
    | zero =>
      refine .inl ⟨w, rfl, rfl, ?_⟩
      simp only [completionStep]
      cases hd : decode w with
      | ok i => exact .inl ⟨i, rfl, rfl⟩
      | error e => exact .inr ⟨fun i h => (by cases h), rfl⟩
    | succ n => exact .inr (.inl ⟨w, n, rfl, rfl, rfl⟩)

/-- A run begins with its first step. -/
theorem run_succ {s u : State} (h : step s = .next u) (k : Nat) :
    Host.Core.run Sys2Proof.core (k + 1) s = Host.Core.run Sys2Proof.core k u := by
  have hg : ∀ (M : Host.Core) (s u : M.State), M.step s = .next u → M.run (k + 1) s = M.run k u := by
    intro M s u h
    simp only [Host.Core.run, h]
  exact hg Sys2Proof.core s u h

end Sys2Proof.Machine
end

