-- ==== Sys2Proof/Tests/Slice0.lean ====
section
/-! SUPPORT. The model's own tests: well-formedness, decoding of words written out from spec/30_encoding.md R121 to R125,
one or two single steps per command with values from spec/95_test_vectors.md, and for each obligation with hypotheses a
witness that meets them. -/

namespace Sys2Proof.Tests

open Sys2Proof Sys2Proof.Machine

-- One test at a time: waiting tests would each hold a thread's stack.
set_option Elab.async false

/-! ### Helpers -/

/-- `p` holds of the next state that `a` answers. -/
def ends (a : Answer) (p : State → Bool) : Bool :=
  match a with
  | .next t => p t
  | _ => false

/-- Bytes stored at `a`, as an earlier host or command left them. -/
def withBytes (s : State) (a : Nat) (bs : List Byte) : State := { s with mem := s.mem.writeBytes a bs }

/-- ASCII text as bytes. -/
def ascii (t : String) : List Byte := t.toList.map fun c => BitVec.ofNat 8 c.toNat

/-- `t` in PAYLOAD from offset 0, with ARG1 and PLEN its length, and some zeros in SEGBUF. -/
def payloadState (t : String) : State :=
  { withBytes (withBytes State.reset 0x1000 (ascii t)) 0x3000 (List.replicate 9 0) with
    arg1 := BitVec.ofNat 32 t.length
    plen := BitVec.ofNat 14 t.length }

/-- CFG written with word `v`. -/
def withCfg (s : State) (v : Word) : State := { s with cfg := Cfg.ofWord v }

/-- A table that holds one segment, from bit 0 of SEGBUF. -/
def oneSegment (mode : BitVec 4) (chars bits : Nat) (segbuf : List Byte) : State :=
  { withBytes State.reset 0x3000 segbuf with
    segCnt := 1
    segBits := BitVec.ofNat 16 bits
    segTab := State.reset.segTab.setIfInBounds 0
      { mode := mode, numChars := BitVec.ofNat 16 chars, bitLen := BitVec.ofNat 16 bits, bitOff := 0 } }

/-- The table of program P3: "HELLO WORLD", its 61 bits in SEGBUF (L2-3). -/
def helloState : State := oneSegment 2 11 61 [0x61, 0x6F, 0x1A, 0x2E, 0x5B, 0x89, 0xA8, 0x68]

/-- The table of L2-8: ECI 26, then Byte "A". -/
def eciState : State :=
  { oneSegment 7 0 8 [0x1A, 0x41] with
    segCnt := 2
    segBits := 16
    segTab := (oneSegment 7 0 8 []).segTab.setIfInBounds 1 { mode := 4, numChars := 1, bitLen := 8, bitOff := 8 } }

/-- MATRIX and FUNCMAP as MINIT 1 leaves them: the 57 bytes of R274. -/
def minit1 : List Byte :=
  [0x15, 0xFF, 0xE1, 0xFF, 0x3F, 0xFC, 0xFF, 0x87, 0xFF, 0xFF, 0xF0, 0xFF, 0x1F, 0xFE, 0xFF, 0xC3, 0xFF, 0xFF, 0xFF]
  ++ [0xFF, 0x0F, 0xFF, 0xFF, 0xE1, 0x1F, 0x08, 0x00, 0x00, 0x01, 0x00, 0x20, 0x00, 0x00, 0x04, 0x00, 0xFE, 0x03, 0xC0]
  ++ [0x7F, 0x00, 0xF8, 0x0F, 0x00, 0xFF, 0x01, 0xE0, 0x3F, 0x00, 0xFC, 0x07, 0x80, 0xFF, 0x00, 0xF0, 0x1F, 0x00, 0x00]

/-- A symbol of version 1 after MINIT. -/
def symbol1 : State := withBytes (withBytes State.reset 0x7000 minit1) 0x6000 minit1

/-- The unmasked symbol of program P3 (L3, P3, step 6). -/
def unmasked1 : List Byte :=
  [0x15, 0x7F, 0xD7, 0x3F, 0x68, 0x08, 0x76, 0x35, 0xDD, 0xAE, 0xA5, 0xDB, 0x15, 0x75, 0x83, 0x9E, 0xE0, 0x5F, 0xF5]
  ++ [0x07, 0x58, 0x00, 0xFF, 0xE5, 0x1F, 0xB5, 0x74, 0xE7, 0x4F, 0x58, 0x0E, 0x03, 0x42, 0x84, 0x08, 0x00, 0xC2, 0xFD]
  ++ [0x5F, 0xF4, 0x0C, 0x8A, 0x43, 0x5D, 0x91, 0xAA, 0x2B, 0x40, 0x74, 0xF5, 0x9E, 0xA0, 0x4B, 0xF8, 0xD7, 0x5B, 0x00]

/-- The final symbol of program P3. -/
def final1 : List Byte :=
  [0x15, 0x7F, 0xC3, 0x3F, 0x28, 0x09, 0x76, 0x65, 0xDD, 0xAE, 0xA0, 0xDB, 0x55, 0x74, 0x83, 0x88, 0xE0, 0x5F, 0xF5]
  ++ [0x07, 0x08, 0x00, 0xD6, 0x50, 0x5F, 0xE0, 0x21, 0xB2, 0x1B, 0x0D, 0x5B, 0x56, 0x17, 0xD5, 0x5D, 0x01, 0x96, 0xE8]
  ++ [0x5F, 0xA1, 0x09, 0xD2, 0x16, 0x5D, 0xC5, 0xBF, 0x4B, 0x15, 0x75, 0xA5, 0xCB, 0xA0, 0x1E, 0xFD, 0x87, 0x0E, 0x01]

/-- The data codewords of "HELLO WORLD" at 1-Q (R225). -/
def helloData : List Byte := [0x20, 0x5B, 0x0B, 0x78, 0xD1, 0x72, 0xDC, 0x4D, 0x43, 0x40, 0xEC, 0x11, 0xEC]

/-- The final symbol of program P2, "01234567" at 1-M. -/
def final2 : List Byte :=
  [0x15, 0x7F, 0xDC, 0x3F, 0xE8, 0x08, 0x76, 0x19, 0xDD, 0x2E, 0xAD, 0xDB, 0xB5, 0x75, 0x83, 0x90, 0xE0, 0x5F, 0xF5]
  ++ [0x07, 0x00, 0x00, 0x55, 0x14, 0x69, 0xA1, 0x15, 0x61, 0xB7, 0xBB, 0x59, 0xDD, 0x44, 0xEE, 0x0E, 0x01, 0x8A, 0xD0]
  ++ [0x1F, 0x44, 0x0C, 0x22, 0xD2, 0x5D, 0x57, 0xB7, 0x4B, 0xD5, 0x75, 0xAD, 0xD3, 0x20, 0xDC, 0xF1, 0x97, 0x4E, 0x01]

/-- The picture of R282, after `MINIT 1`, `MLIGHT`, packed by R270. -/
def lit1 : List Byte :=
  [0x15, 0x7F, 0xC1, 0x3F, 0x28, 0x08, 0x76, 0x05, 0xDD, 0xAE, 0xA0, 0xDB, 0x15, 0x74, 0x83, 0x82, 0xE0, 0x5F, 0xF5]
  ++ [0x07, 0x08, 0x00, 0xFF, 0xE1, 0x1F, 0x00, 0x00, 0x00, 0x01, 0x00, 0x00, 0x00, 0x00, 0x04, 0x00, 0x00, 0x02, 0xC0]
  ++ [0x5F, 0x00, 0x08, 0x0A, 0x00, 0x5D, 0x01, 0xA0, 0x2B, 0x00, 0x74, 0x05, 0x80, 0xA0, 0x00, 0xF0, 0x17, 0x00, 0x00]

/-- The number of set bits of a list of bytes. -/
def setBits (bs : List Byte) : Nat := ((unpackBytes bs).filter id).length

/-! ### Well-formedness: each check refuses an ill-formed term -/

theorem test_wf_refuses_rsdiv : ¬WellFormed (.rsdiv 256) := by decide
theorem test_wf_refuses_rsrem : ¬WellFormed (.rsrem 256) := by decide
theorem test_wf_refuses_alignq : ¬WellFormed (.alignq 256) := by decide
theorem test_wf_refuses_minit : ¬WellFormed (.minit 256) := by decide
theorem test_wf_refuses_mask : ¬WellFormed (.mask 256) := by decide
theorem test_wf_refuses_assemble : ¬WellFormed (.assemble 256 0) ∧ ¬WellFormed (.assemble 0 256) := by decide
theorem test_wf_refuses_tblq : ¬WellFormed (.tblq 256 0) ∧ ¬WellFormed (.tblq 0 256) := by decide
theorem test_wf_refuses_ccbq : ¬WellFormed (.ccbq 256 0) ∧ ¬WellFormed (.ccbq 0 256) := by decide
theorem test_wf_refuses_interleave : ¬WellFormed (.interleave 256 0) ∧ ¬WellFormed (.interleave 0 256) := by decide
theorem test_wf_refuses_format : ¬WellFormed (.format 256 0) ∧ ¬WellFormed (.format 0 256) := by decide
theorem test_wf_refuses_mselect : ¬WellFormed (.mselect 256 0) ∧ ¬WellFormed (.mselect 0 256) := by decide

/-! ### Decoding: words written out as C, B, A, OP from R121, R122 and R125 -/

theorem test_decode_control : decodeTableWord 32 0b00000000_00000000_00000000_00000000 = some .nop := by decide

theorem test_decode_gf_rs :
    decodeTableWord 32 0b00000000_11001010_01010011_00000001 = some (.gfmul 0x53 0xCA) ∧
    decodeTableWord 32 0b00000000_00000000_00000010_00000010 = some (.rsdiv 2) ∧
    decodeTableWord 32 0b00000000_00000000_00001010_00000011 = some (.rsrem 10) := by decide

theorem test_decode_segment :
    decodeTableWord 32 0b00000000_00000000_00000000_00010000 = some .segclr ∧
    decodeTableWord 32 0b00000000_00000000_00000000_00010001 = some .segauto ∧
    decodeTableWord 32 0b00000000_00000000_00000000_00010010 = some .segnum ∧
    decodeTableWord 32 0b00000000_00000000_00000000_00010011 = some .segalnum ∧
    decodeTableWord 32 0b00000000_00000000_00000000_00010100 = some .segbyte ∧
    decodeTableWord 32 0b00000000_00000000_00000000_00010101 = some .segeci := by decide

theorem test_decode_bitstream :
    decodeTableWord 32 0b00000000_00000000_00000000_00100000 = some .negot ∧
    decodeTableWord 32 0b00000000_00000010_00000001_00100001 = some (.assemble 1 2) ∧
    decodeTableWord 32 0b00000000_00000011_00101000_00100010 = some (.tblq 40 3) ∧
    decodeTableWord 32 0b00000000_00000000_00000111_00100011 = some (.alignq 7) ∧
    decodeTableWord 32 0b00000000_00000001_00000011_00100100 = some (.ccbq 3 1) := by decide

theorem test_decode_interleave :
    decodeTableWord 32 0b00000000_00000010_00000101_00110000 = some (.interleave 5 2) := by decide

theorem test_decode_matrix :
    decodeTableWord 32 0b00000000_00000000_00101001_01000000 = some (.minit 41) ∧
    decodeTableWord 32 0b00000000_00000000_00000000_01000001 = some .mplace ∧
    decodeTableWord 32 0b00000000_00000000_00000000_01000010 = some .mlight := by decide

theorem test_decode_mask :
    decodeTableWord 32 0b00000000_00000000_00000011_01010000 = some (.mask 3) ∧
    decodeTableWord 32 0b00000000_00001000_00000000_01010001 = some (.format 0 8) ∧
    decodeTableWord 32 0b00000000_00000000_00000000_01010010 = some .penalty ∧
    decodeTableWord 32 0b00000000_00001001_00000100_01010011 = some (.mselect 4 9) := by decide

theorem test_decode_encode :
    decodeTableWord 32 0b00000000_00000000_00000000_01100000 = some .encseg ∧
    decodeTableWord 32 0b00000000_00000000_00000000_01100001 = some .enctext ∧
    decodeTableWord 32 0b00000000_00000000_00000000_01100010 = some .encbin := by decide

/-- R126: an undefined and a reserved opcode, and each must-be-zero field in turn. -/
theorem test_decode_refuses :
    decode 0x00000004 = .error (.undefinedOp 0x04) ∧ decode 0x000000F0 = .error (.reservedOp 0xF0) ∧
    decode 0x00000100 = .error (.fieldNotZero 0x00) ∧ decode 0x00010002 = .error (.fieldNotZero 0x02) ∧
    decode 0x01000001 = .error (.fieldNotZero 0x01) := ⟨rfl, rfl, rfl, rfl, rfl⟩

/-! ### Steps: expected values from spec/95_test_vectors.md -/

/-- P4, step 1: the word 0x00000100. -/
theorem test_illegal_word :
    ends (step (State.reset.withFetchWord 32 0x00000100)) (fun t => t.statusWord == 0x0A && t.errcode == 0x10) := by
  decide

/-- R153's example. -/
theorem test_nop : ends (step (State.reset.withFetchWord 32 0)) (fun t => t.statusWord == 2 && t.errcode == 0) := by
  decide

/-- R166's example, as a step on its word. -/
theorem test_gfmul : ends (step (State.reset.withFetchWord 32 0x00800201)) (fun t => t.res0 == 0x1D) := by
  decide +kernel

/-- L2-1. -/
theorem test_gfmul_carries : ends (exec (.gfmul 0xFF 0xFF) State.reset) (fun t => t.res0 == 0xE2) := by decide +kernel

/-- L2-2, degree 10. -/
theorem test_rsdiv : ends (exec (.rsdiv 10) State.reset) (fun t => t.gen.toList.take 11 ==
    [0xD8, 0xC2, 0x9F, 0x6F, 0xC7, 0x5E, 0x5F, 0x71, 0x9D, 0xC1, 0x00]) := by decide +kernel

/-- L2-2: `RSDIV 31` leaves GEN. -/
theorem test_rsdiv_degree : ends (exec (.rsdiv 31) State.reset) (fun t => t.errcode == 0x19 &&
    t.gen == State.reset.gen) := by decide +kernel

/-- L2-2: 12 34 56 by the generator of degree 4. -/
theorem test_rsrem : ends (exec (.rsrem 4) { withBytes State.reset 0x4000 [0x12, 0x34, 0x56] with
      arg1 := 3, gen := padTo30 [0x0F, 0x36, 0x78, 0x40] })
    (fun t => t.rem.toList.take 5 == [0x37, 0xE6, 0x78, 0xD9, 0x00]) := by decide +kernel

/-- L2-2: the range sum is computed without overflow. -/
theorem test_rsrem_range : ends (exec (.rsrem 10) { State.reset with arg0 := 0xFFFFFFFF, arg1 := 2 })
    (fun t => t.errcode == 0x18) := by decide +kernel

/-- L2-3, table vector 3. -/
theorem test_segclr : ends (exec .segclr eciState) (fun t => t.segCnt == 0 && t.segBits == 0 &&
    t.segTab == eciState.segTab) := by decide +kernel

/-- L2-3: "HELLO WORLD" selects Alphanumeric. -/
theorem test_segauto : ends (exec .segauto (payloadState "HELLO WORLD")) (fun t =>
    (t.segTab[0]?.map SegDesc.word0) == some 0x000B0002 && (t.segTab[0]?.map SegDesc.word1) == some 0x0000003D &&
    t.mem.readBytes 0x3000 7 == [0x61, 0x6F, 0x1A, 0x2E, 0x5B, 0x89, 0xA8]) := by decide +kernel

/-- L2-3: "abc" selects Byte. -/
theorem test_segauto_byte : ends (exec .segauto (payloadState "abc")) (fun t =>
    (t.segTab[0]?.map SegDesc.mode) == some 4 && t.mem.readBytes 0x3000 3 == [0x61, 0x62, 0x63]) := by decide +kernel

/-- L1-5. -/
theorem test_segnum : ends (exec .segnum (payloadState "1234567")) (fun t =>
    t.segBits == 24 && t.mem.readBytes 0x3000 3 == [0x1E, 0xDC, 0x87]) := by decide +kernel

/-- L2-3: `SEGNUM` on "12A". -/
theorem test_segnum_char : ends (exec .segnum (payloadState "12A")) (fun t => t.errcode == 0x17 && t.segCnt == 0) := by
  decide +kernel

/-- R193's example. -/
theorem test_segalnum : ends (exec .segalnum (payloadState "AC-42")) (fun t => t.segBits == 28 &&
    t.mem.readBytes 0x3000 3 == [0x39, 0xDC, 0xE4]) := by decide +kernel

/-- L2-3, table vector 2: "A" after an ECI segment. -/
theorem test_segbyte : ends (exec .segbyte { withBytes (oneSegment 7 0 8 [0x1A, 0x00]) 0x1000 [0x41] with arg1 := 1 })
    (fun t => (t.segTab[1]?.map SegDesc.word0) == some 0x00010004 &&
      (t.segTab[1]?.map SegDesc.word1) == some 0x00080008 && t.mem.readBytes 0x3000 2 == [0x1A, 0x41]) := by
  decide +kernel

/-- L2-3: 999999, bits 110 and then 011110100001000111111. -/
theorem test_segeci : ends (exec .segeci { withBytes State.reset 0x3000 [0, 0, 0] with arg0 := 999999 }) (fun t => t.segBits == 24 &&
    t.mem.readBytes 0x3000 3 == [0xCF, 0x42, 0x3F]) := by decide +kernel

/-- L2-3: 1000000, even with a full table. -/
theorem test_segeci_range : ends (exec .segeci { State.reset with arg0 := 1000000, segCnt := 16 })
    (fun t => t.errcode == 0x16) := by decide +kernel

/-- L2-4: "HELLO WORLD" at L with boost. -/
theorem test_negot : ends (exec .negot helloState) (fun t => t.result.toWord == 0x00150201 && t.res0 == 74 &&
    t.res1 == 104) := by decide +kernel

/-- L2-4: "HELLO WORLD" at H, version 1 only. -/
theorem test_negot_no_fit : ends (exec .negot (withCfg helloState 0x00010123)) (fun t => t.statusWord == 6 &&
    t.errcode == 2 && t.result.toWord == 0) := by decide +kernel

/-- L2-4. -/
theorem test_assemble : ends (exec (.assemble 1 2) helloState) (fun t =>
    t.mem.readBytes 0x4000 13 == helloData && t.res0 == 74 && t.res1 == 104) := by decide +kernel

/-- L2-4: 74 bits against 72. -/
theorem test_assemble_no_fit : ends (exec (.assemble 1 3) helloState) (fun t => t.errcode == 2 &&
    t.mem == helloState.mem) := by decide +kernel

/-- L2-4. -/
theorem test_tblq : ends (exec (.tblq 26 3) State.reset) (fun t => t.res0 == 0x06AA0254 && t.res1 == 0x0728251E) := by
  decide +kernel

/-- L2-4. -/
theorem test_alignq : ends (exec (.alignq 40) State.reset) (fun t => t.res0 == 0x563A1E06 && t.res1 == 0x07AA8E72) := by
  decide +kernel

/-- L2-4. -/
theorem test_ccbq : ends (exec (.ccbq 4 10) State.reset) (fun t => t.res0 == 16) := by decide +kernel

/-- L2-4: A is checked before B. -/
theorem test_ccbq_order : ends (exec (.ccbq 3 0) State.reset) (fun t => t.errcode == 0x1C) := by decide +kernel

/-- L2-5, 1-Q. -/
theorem test_interleave : ends (exec (.interleave 1 2) (withBytes State.reset 0x4000 helloData)) (fun t =>
    t.mem.readBytes 0x5000 26 == helloData ++
      [0xA8, 0x48, 0x16, 0x52, 0xD9, 0x36, 0x9C, 0x00, 0x2E, 0x0F, 0xB4, 0x7A, 0x10]) := by decide +kernel

/-- L2-5, 5-Q: two short and two long blocks; the last data bytes, the first and the last ECC bytes. -/
theorem test_interleave_blocks : ends (exec (.interleave 5 2) (withBytes State.reset 0x4000
      ((List.range 62).map (BitVec.ofNat 8)))) (fun t =>
    t.mem.readBytes 0x5000 6 == [0x00, 0x0F, 0x1E, 0x2E, 0x01, 0x10] &&
    t.mem.readBytes (0x5000 + 56) 10 == [0x0E, 0x1D, 0x2C, 0x3C, 0x2D, 0x3D, 0x82, 0x55, 0x12, 0x44] &&
    t.mem.readBytes (0x5000 + 130) 4 == [0x67, 0x9A, 0x8A, 0x13]) := by decide +kernel

/-- R274's bytes. -/
theorem test_minit : ends (exec (.minit 1) State.reset) (fun t =>
    t.mem.readBytes 0x7000 57 == minit1 && t.mem.readBytes 0x6000 57 == minit1) := by decide +kernel

/-- P4, step 2. -/
theorem test_minit_version : ends (exec (.minit 41) State.reset) (fun t => t.errcode == 0x11 && t.mem.cells == []) := by
  decide +kernel

/-- R281's example. -/
theorem test_mplace : ends (exec .mplace (withBytes symbol1 0x5000 (0x10 :: List.replicate 25 0))) (fun t =>
    moduleDark t.mem 21 19 19 && !moduleDark t.mem 21 20 20 && !moduleDark t.mem 21 19 17) := by decide +kernel

/-- L2-6: with FUNCMAP[0] = 25. -/
theorem test_mplace_sizes : ends (exec .mplace (withBytes symbol1 0x6000 [25])) (fun t => t.errcode == 0x1B) := by
  decide +kernel

/-- R282's example. -/
theorem test_mlight : ends (exec .mlight symbol1) (fun t => t.mem.readBytes 0x7000 57 == lit1) := by decide +kernel

/-- L1-3: `MASK 3` flips 68 modules of a version 1 symbol. -/
theorem test_mask : ends (exec (.mask 3) symbol1) (fun t =>
    setBits (t.mem.readBytes 0x7001 56) == 233 + 68) := by decide +kernel

/-- L2-7: `MASK 0` and the modules (9,9), (20,20), (10,9). -/
theorem test_mask_zero : ends (exec (.mask 0) symbol1) (fun t => moduleDark t.mem 21 9 9 &&
    moduleDark t.mem 21 20 20 && !moduleDark t.mem 21 10 9) := by decide +kernel

/-- L2-7: `FORMAT 0, 0`, column 8 without its timing row, then the right of row 8. -/
theorem test_format : ends (exec (.format 0 0) symbol1) (fun t => t.res0 == 0x77C4 &&
    ([0, 1, 2, 3, 4, 5, 7, 8].map fun y => moduleDark t.mem 21 8 y) ==
      [false, false, true, false, false, false, true, true] &&
    ((List.range' 13 8).map fun x => moduleDark t.mem 21 x 8) ==
      [true, true, false, false, false, true, false, false]) := by decide +kernel

/-- L2-7: the score of the P3 symbol. -/
theorem test_penalty : ends (exec .penalty (withBytes State.reset 0x7000 final1)) (fun t => t.penalty == 1067 &&
    t.res0 == 1067 && t.res1 == 218) := by decide +kernel

/-- L2-7: the fifth row, whose pattern counts twice: (7,10), (9,10), (10,10), (11,10) and (13,10) dark. -/
theorem test_penalty_twice : ends (exec .penalty (withBytes State.reset 0x7000 (21 :: (List.range 56).map fun i =>
      if i = 27 then 0xBA else 0))) (fun t => t.penalty == 2096 && t.res1 == 5) := by
  decide +kernel

/-- P3, step 7. -/
theorem test_mselect : ends (exec (.mselect 2 8) (withBytes symbol1 0x7000 unmasked1)) (fun t =>
    t.mem.readBytes 0x7000 57 == final1 && t.penalty == 1067 && t.res0 == 0 && t.res1 == 1067) := by decide +kernel

/-- P4, step 3: A is checked before B. -/
theorem test_mselect_order : ends (exec (.mselect 4 9) State.reset) (fun t => t.errcode == 0x13) := by decide +kernel

/-- P2 by segment table, its mask 0 chosen in CFG. -/
theorem test_encseg : ends (exec .encseg (withCfg (oneSegment 1 8 27 [0x03, 0x15, 0x98, 0x60]) 0x00280101)) (fun t =>
    t.mem.readBytes 0x7000 57 == final2 && t.result.toWord == 0x00150101 && t.res0 == 41 && t.res1 == 128 &&
    t.penalty == 0) := by decide +kernel

/-- P3's last paragraph, its mask 0 chosen in CFG. -/
theorem test_enctext : ends (exec .enctext (withCfg (payloadState "HELLO WORLD") 0x00280102)) (fun t =>
    t.mem.readBytes 0x4000 13 == helloData && t.result.toWord == 0x00150201 && t.res0 == 74 && t.segBits == 61) := by
  decide +kernel

/-- P5: the empty binary payload, its mask 6 chosen in CFG. -/
theorem test_encbin : ends (exec .encbin (withCfg State.reset 0x00280158)) (fun t => t.result.toWord == 0x00156301 &&
    t.mem.readBytes 0x4000 9 == [0x40, 0x00, 0xEC, 0x11, 0xEC, 0x11, 0xEC, 0x11, 0xEC] && t.res0 == 12) := by
  decide +kernel

/-- L1-9: 100 bytes at L, version 1 only. -/
theorem test_encbin_no_fit : ends (exec .encbin { withCfg State.reset 0x00010120 with plen := 100 }) (fun t =>
    t.statusWord == 6 && t.errcode == 2 && t.result.toWord == 0 && t.segCnt == 1 && t.segBits == 800) := by
  decide +kernel

/-! ### Host accesses -/

/-- P4, steps 6 and 7. -/
theorem test_malformed_access : (State.reset.hostWrite .w1 0x020 0).statusWord = 0x20 ∧
    (State.reset.hostWrite .w1 0x020 0).cfg = State.reset.cfg ∧ (State.reset.hostRead .w4 0x1002).replies = [0] := by
  decide

/-- P4, step 10 (a): ARG0 written while a NOP is Busy. -/
theorem test_busy_write : (({ State.reset with eng := .busy 0, wait := 1 } : State).hostWrite .w4 0x00C 5).statusWord
    = 0x11 := by decide

/-- R390: CFG and ID as the host reads them after reset. -/
theorem test_reset_reads : ((State.reset.hostRead .w4 0x020).hostRead .w4 0x000).replies = [0x00280160, 0x51520107] := by
  decide

/-- R83: the byte at the lower offset is the low byte. -/
theorem test_little_endian :
    ((State.reset.hostWrite .w4 0x1000 0x44332211).mem.readBytes 0x1000 4) = [0x11, 0x22, 0x33, 0x44] := by
  decide +kernel

/-! ### Witnesses: for each obligation with hypotheses, values that meet them, each clause at its boundary -/

/-- An engine Busy with `MINIT 1`, two bus slots before its completion, two accesses pending. -/
def busyState : State :=
  { State.reset with
    eng := .busy 0x00000140
    wait := 2
    inbox := [.write .w4 0x00C 5, .read .w4 0x018] }

/-- A table filled to SEGBITS `n`, with one free descriptor. -/
def filledTo (s : State) (n : Nat) : State := { s with segCnt := 15, segBits := BitVec.ofNat 16 n }

/-- A symbol of version 40, its size bytes alone written. -/
def symbol40 : State := withBytes (withBytes State.reset 0x7000 [177]) 0x6000 [177]

theorem witness_DecodeAndEncodeAgree :
    WellFormed (.mselect 255 255) ∧ decode 0x00FFFF53 = .ok (.mselect 255 255) := ⟨by decide, rfl⟩

theorem witness_DecoderFollowsOpcodeTable : decode 0x00FFFF21 = .ok (.assemble 255 255) ∧
    (⟨"ASSEMBLE", 0xFF0000FF, 0x00000021⟩ : OpcodeRow) ∈ opcodeRows ∧
    (0x00FFFF21#32 &&& 0xFF0000FF#32) = 0x00000021#32 := ⟨rfl, by decide, by decide⟩

theorem witness_IllegalWordRaisesIllegalCmd :
    (∃ s : State, s.eng = .busy 0x00000004 ∧ s.wait = 0 ∧ ∀ r ∈ opcodeRows, 0x00000004#32 &&& r.mask ≠ r.value) ∧
    0xF0 ≤ (0x000000F0#32).toNat % 256 ∧ 0xF0 ≤ (0x000000FF#32).toNat % 256 ∧
    (0x01FFFF53#32).toNat % 256 = (0x53#32).toNat ∧ 0x01FFFF53#32 &&& 0xFF0000FF#32 ≠ 0x53#32 ∧
    State.reset.eng = .idle ∧ decode 0 = .ok .nop :=
  ⟨⟨{ State.reset with eng := .busy 0x00000004 }, by decide, by decide, by decide⟩, by decide, by decide, by decide,
    by decide, by decide, rfl⟩

theorem witness_AcceptanceLatchesTheWord : State.reset.eng = .idle ∧ busyState.eng = .busy 0x00000140 := by decide

theorem witness_EveryCommandEndsInOneOutcome :
    (State.reset.withFetchWord 32 0x00000160).eng = .busy 0x00000160 ∧
      (State.reset.withFetchWord 32 0x00000160).wait = 0 := by decide

theorem witness_CommandsKeepHostOwnedState : ∃ t, exec .enctext (payloadState "A") = .next t := ⟨_, rfl⟩

theorem witness_FirstFailingCheckDecides : violationOf (.mselect 4 9) State.reset = some 0x13 ∧
    violationOf .negot (withCfg helloState 0x00010123) = none ∧
    violationOf .segnum (payloadState "12A") = some 0x17 ∧ violationOf .segnum (payloadState "12") = none := by
  decide +kernel

theorem witness_StepRunsDecodedCommand :
    (State.reset.withFetchWord 32 0x00FFFF01).eng = .busy 0x00FFFF01 ∧ decode 0x00FFFF01 = .ok (.gfmul 0xFF 0xFF) ∧
    WellFormed (.rsdiv 255) ∧
    ({ State.reset with inbox := [.reset] } : State).eng = .idle ∧ State.reset.inbox = [] ∧
    (busyState.eng = .busy 0x00000140 ∧ busyState.wait = 1 + 1 ∧
      busyState.inbox = .write .w4 0x00C 5 :: [.read .w4 0x018]) ∧
    ({ busyState with inbox := [] } : State).inbox = [] := ⟨by decide, rfl, by decide⟩

theorem witness_AcceptedCommandCompletesOnFrozenState :
    busyState.eng = .busy 0x00000140 ∧ HostEvent.reset ∉ busyState.inbox ∧ 2 ≤ busyState.wait := by decide

theorem witness_MalformedAccessRefused : 0x7FFF % Width.w2.bytes ≠ 0 ∧ 0x7FFC % Width.w4.bytes = 0 ∧
    (0x3E < 0x40 ∧ Width.w2.bytes ≠ 4) ∧ (0x3C < 0x40 → Width.w4.bytes = 4) ∧ (0x40 < 0x40 → Width.w1.bytes = 4) ∧
    (({ State.reset with status := { State.reset.status with aerr := true } } : State).hostWrite .w4 0x040 0).status.aerr
      = true := by decide

theorem witness_BufferStoreThenLoad : State.reset.eng = .idle ∧
    (∀ off ∈ [0x1000, 0x2FFC, 0x4000, 0x7FFC], off % Width.w4.bytes = 0 ∧
      (0x1000 ≤ off ∧ off < 0x3000 ∨ 0x4000 ≤ off ∧ off < 0x8000)) ∧
    (0x7FFF % Width.w1.bytes = 0 ∧ 0x4000 ≤ 0x7FFF ∧ 0x7FFF < 0x8000) := by decide

theorem witness_GenIsHostWritable : State.reset.eng = .idle ∧ 0x19C % Width.w4.bytes = 0 ∧ 0x180 ≤ 0x19C ∧
    0x19C < 0x1A0 ∧ (0x180 ≤ 0x180 + 29 ∧ 0x180 + 29 < 0x19C + Width.w4.bytes) := by decide

theorem witness_ReadOnlyWritesIgnored : State.reset.eng = .idle ∧
    (∀ off ∈ [0x000, 0x03C], off % Width.w4.bytes = 0 ∧ Width.w4.bytes = 4 ∧
      off ∈ [0x000, 0x018, 0x01C, 0x028, 0x02C, 0x030, 0x038, 0x03C]) ∧
    (∀ off ∈ [0x40, 0x17C, 0x1A0, 0xFFC, 0x3000, 0x3FFC], off % Width.w4.bytes = 0 ∧ ¬off < 0x40 ∧
      (0x40 ≤ off ∧ off < 0x180 ∨ 0x19E ≤ off ∧ off < 0x1000 ∨ 0x3000 ≤ off ∧ off < 0x4000)) ∧
    (0x19E % Width.w2.bytes = 0 ∧ 0x19E ≤ 0x19E ∧ 0x19E < 0x1000) := by decide

theorem witness_BusyWriteDropped : busyState.eng = .busy 0x00000140 ∧
    (∀ off ∈ [0x000, 0x008, 0x030, 0x038, 0x040, 0x7FFC], off % Width.w4.bytes = 0 ∧ (off < 0x40 → Width.w4.bytes = 4) ∧
      off ≠ 0x004 ∧ off ≠ 0x034) := by decide

/-- One read at each edge of the map of R81, and one of each kind that a Busy block answers (R91). -/
theorem witness_RegisterReadsReturnTheirValues : State.reset.eng = .idle ∧
    (∀ off ∈ [0x000, 0x03C, 0x040, 0x0FC, 0x100, 0x17C, 0x180, 0x19C, 0x1A0, 0x1BC, 0x1C0, 0xFFC, 0x1000, 0x3FFC, 0x7FFC],
      off % Width.w4.bytes = 0 ∧ off < 0x8000) ∧
    (0x19E % Width.w2.bytes = 0 ∧ 0x1BF % Width.w1.bytes = 0 ∧ 0x7FFF % Width.w1.bytes = 0) ∧
    busyState.eng ≠ .idle ∧ 0x037 / 4 * 4 ∈ [0x000, 0x004, 0x008, 0x00C, 0x010, 0x014, 0x020, 0x024, 0x034] ∧
    (0x19E ≤ 0x19F ∧ 0x19F < 0x1A0) ∧ (0x1BE ≤ 0xFFF ∧ 0xFFF < 0x1000) := by decide

theorem witness_HostRegistersStoreWrittenBits : State.reset.eng = .idle := by decide

theorem witness_ResetValues : (∃ r : State, r = State.reset) ∧ (∃ r : State, r = busyState.assertReset) ∧ 15 < 16 ∧
    (0x100 ≤ 0x1BF ∧ 0x1BF < 0x1C0) := ⟨⟨_, rfl⟩, ⟨_, rfl⟩, by decide, by decide⟩

theorem witness_ResetAbortsBusyCommand :
    ({ busyState with inbox := [.reset] } : State).eng = .busy 0x00000140 ∧
    ({ busyState with inbox := [.reset] } : State).wait = 1 + 1 ∧
    ({ busyState with inbox := [.reset] } : State).inbox = .reset :: [] := by decide

theorem witness_InterruptFollowsDone : (∃ t, exec .penalty { State.reset with doneIe := true } = .next t) ∧
    State.reset.eng = .idle := ⟨⟨_, rfl⟩, by decide⟩

theorem witness_GfFieldLaws : (0xFF#8 : Byte) ≠ 0 := by decide

theorem witness_RsdivBuildsGenerator : (1 ≤ 1 ∧ 1 ≤ 30) ∧ (1 ≤ 30 ∧ 30 ≤ 30) ∧ 0 < 1 ∧ 30 < 31 := by decide

theorem witness_RemainderProperties : 1 ≤ [(0x01#8 : Byte)].length ∧
    ([0x12, 0x34] : List Byte).length = ([0x56, 0x78] : List Byte).length := by decide

theorem witness_RsremDividesDatabuf :
    ({ State.reset with arg0 := 4090, arg1 := 6 } : State).arg0.toNat + (6#32).toNat ≤ 4096 ∧
    4096 < ({ State.reset with arg0 := 0xFFFFFFFF, arg1 := 2 } : State).arg0.toNat + (2#32).toNat ∧
    (1 ≤ 30 ∧ 30 ≤ 30) ∧ (0 < 1 ∨ 30 < 0) := by decide

theorem witness_SegmentPacking : (ascii "0123456").all isDigit = true ∧ 3 * 2 + 1 = (ascii "0123456").length ∧
    (ascii "01").all isDigit = true ∧ 3 * 0 + 2 = (ascii "01").length ∧
    (ascii "AC-42").all isAlnum = true ∧ 2 * 2 + 1 = (ascii "AC-42").length ∧ 999999 < 1000000 ∧
    1000000 ≤ ({ State.reset with arg0 := 1000000 } : State).arg0.toNat := by decide +kernel

theorem witness_ExplicitSegmentCommandsAppend :
    (filledTo (payloadState "1234567") 32744).segCnt.toNat < 16 ∧
    (payloadState "1234567").argPayload.all isDigit = true ∧
    SegmentFits (filledTo (payloadState "1234567") 32744) (packNum (payloadState "1234567").argPayload) ∧
    (payloadState "AC-42").argPayload.all isAlnum = true ∧
    SegmentFits (filledTo (payloadState "AC-42") 32740) (packAlnum (payloadState "AC-42").argPayload) ∧
    SegmentFits (filledTo (payloadState "abc") 32744) (packByte (payloadState "abc").argPayload) ∧
    SegmentFits (filledTo { State.reset with arg0 := 999999 } 32744) (packEci 999999) := by decide +kernel

theorem witness_SegautoDispatchesMode :
    ((payloadState "").argPayload.all isDigit = true ∧ SegmentFits (payloadState "") []) ∧
    ((payloadState "12A").argPayload.all isDigit = false ∧ (payloadState "12A").argPayload.all isAlnum = true ∧
      SegmentFits (payloadState "12A") (packAlnum (payloadState "12A").argPayload)) ∧
    ((payloadState "abc").argPayload.all isDigit = false ∧ (payloadState "abc").argPayload.all isAlnum = false ∧
      SegmentFits (payloadState "abc") (packByte (payloadState "abc").argPayload)) := by decide +kernel

theorem witness_OversizeSegmentChangesNothing :
    ¬SegmentFits (filledTo (payloadState "1234567") 32745) (packNum (payloadState "1234567").argPayload) ∧
    ¬SegmentFits (filledTo (payloadState "AC-42") 32741) (packAlnum (payloadState "AC-42").argPayload) ∧
    ¬SegmentFits (filledTo (payloadState "abc") 32745) (packByte (payloadState "abc").argPayload) ∧
    ¬SegmentFits (filledTo { State.reset with arg0 := 999999 } 32745) (packEci 999999) ∧
    (payloadState "AC-42").argPayload.all isDigit = false ∧ (payloadState "abc").argPayload.all isAlnum = false := by
  decide +kernel

theorem witness_TotalBitsIsTheSum : LegalVersion 40 ∧ LegalVersion 1 ∧
    (∀ d ∈ eciState.segs, d.mode.toNat ∈ [0x1, 0x2, 0x4, 0x7, 0x8]) ∧ totalBits eciState.segs 1 = some 32 := by
  decide +kernel

theorem witness_NegotiationTakesFirstFit : (1 ≤ 1 ∧ 1 ≤ 40 ∧ 40 ≤ 40 ∧ 3 ≤ 3) ∧
    negotiate helloState.segs 0 1 40 true = some (1, 2, 74) ∧ negotiate helloState.segs 3 1 1 true = none := by
  decide +kernel

theorem witness_NegotReportsTheChoice :
    (CfgVersionsLegal helloState ∧ 1 ≤ helloState.segCnt.toNat ∧ negotiate helloState.segs helloState.cfg.ecl.toNat
      helloState.cfg.minVer.toNat helloState.cfg.maxVer.toNat helloState.cfg.boost = some (1, 2, 74)) ∧
    (CfgVersionsLegal (withCfg helloState 0x00010123) ∧ negotiate helloState.segs 3 1 1 false = none) := by
  decide +kernel

theorem witness_StreamLayout : totalBits eciState.segs 1 = some 32 ∧ eciState.segs[1]? =
    some { mode := 4, numChars := 1, bitLen := 8, bitOff := 8 } := by decide +kernel

theorem witness_AssemblyFillsCapacity : LegalVersion 1 ∧ 3 ≤ 3 ∧
    (List.replicate 72 true).length ≤ dataCodewords 1 3 * 8 := by decide +kernel

theorem witness_AssembleFillsDatabuf : LegalVersion 1 ∧ 1 ≤ helloState.segCnt.toNat ∧
    totalBits helloState.segs 1 = some 74 ∧ 74 ≤ dataCodewords 1 2 * 8 ∧ dataCodewords 1 3 * 8 < 74 := by
  decide +kernel

theorem witness_TableQueriesAnswer : 0x8 ∈ [0x1, 0x2, 0x4, 0x7, 0x8] ∧ LegalVersion 9 ∧ LegalVersion 10 ∧
    LegalVersion 26 ∧ LegalVersion 27 ∧ LegalVersion 40 ∧ 2 ≤ 2 := by decide

theorem witness_InterleaveClosedForm : LegalVersion 40 ∧ 3 ≤ 3 ∧
    (List.replicate (dataCodewords 40 3) (0 : Byte)).length = dataCodewords 40 3 ∧ 80 < numBlocks 3 40 := by
  decide +kernel

theorem witness_InterleaveFillsCwbuf : LegalVersion 1 ∧ LegalVersion 40 ∧ 3 ≤ 3 := by decide

theorem witness_MinitMarksFunctionRegions : LegalVersion 1 ∧ LegalVersion 40 ∧
    (441 ≤ 447 ∧ 447 < 8 * (bufLen 1 - 1)) := by decide +kernel

theorem witness_ZigzagVisitsEachDataModuleOnce : LegalVersion 1 ∧ LegalVersion 40 ∧
    (9 < (4 * 1 + 17 - 1) / 2 ∧ 20 < 4 * 1 + 17 ∧ 1 < 2) ∧ 87 < (4 * 40 + 17 - 1) / 2 := by decide

theorem witness_MplacePlacesCodewords : SymbolIs symbol1 1 ∧ SymbolIs symbol40 40 := by decide +kernel

theorem witness_MlightDrawsLightParts : MatrixIs symbol1 1 ∧ MatrixIs symbol40 40 ∧ LegalVersion 6 ∧ LegalVersion 7 ∧
    (0 < 4 * 1 + 17 ∧ 20 < 4 * 1 + 17) := by decide +kernel

theorem witness_MaskInvertsDataModules : SymbolIs symbol1 1 ∧ SymbolIs symbol40 40 ∧ 7 ≤ 7 := by decide +kernel

theorem witness_FormatDrawsBothCopies : MatrixIs symbol1 1 ∧ MatrixIs symbol40 40 ∧ 3 ≤ 3 ∧ 7 ≤ 7 := by decide +kernel

theorem witness_PenaltyScoreRange : LegalVersion 1 ∧ LegalVersion 40 := by decide

theorem witness_PenaltyReportsTheScore : MatrixIs symbol1 1 ∧ MatrixIs symbol40 40 := by decide +kernel

theorem witness_MselectAppliesChosenMask : SymbolIs symbol1 1 ∧ SymbolIs symbol40 40 ∧ 3 ≤ 3 ∧ 8 ≤ 8 := by
  decide +kernel

/-- The hypotheses shared by EncsegRunsTheStagesInTurn, EncsegSucceeds and EncsegDrawsTheSymbol. -/
theorem witness_Encseg : CfgLegal eciState ∧ 1 ≤ eciState.segCnt.toNat ∧ eciState.cfg.mask.toNat = 8 ∧
    negotiate eciState.segs eciState.cfg.ecl.toNat eciState.cfg.minVer.toNat eciState.cfg.maxVer.toNat
      eciState.cfg.boost = some (1, 3, 32) := by decide +kernel

theorem witness_EnctextIsSegautoThenEncseg : CfgLegal (payloadState "12A") ∧ (payloadState "12A").plen.toNat ≤ 8192 ∧
    (autoPack (ascii "12A")).length ≤ 32767 ∧ (packByte (ascii "12A")).length ≤ 32767 ∧
    ccb 2 1 = some 9 ∧ 3 ≤ 2 ^ 9 - 1 ∧ 4 + 9 + (autoPack (ascii "12A")).length ≤ dataCodewords 1 0 * 8 ∧
    ccb 4 1 = some 8 ∧ 3 ≤ 2 ^ 8 - 1 ∧ 4 + 8 + 8 * 3 ≤ dataCodewords 1 0 * 8 := by decide +kernel

theorem witness_EncodeFailureState :
    (∃ t, exec .encseg (withCfg helloState 0x00010123) = .next t ∧ t.status.fail = true) ∧
    (∃ t, exec .enctext (withCfg (payloadState "HELLO WORLD") 0x00010123) = .next t ∧ t.errcode = 2) ∧
    (∃ t, exec .encbin { State.reset with plen := 4096 } = .next t ∧ t.errcode = 1) :=
  ⟨⟨_, rfl, by decide +kernel⟩, ⟨_, rfl, by decide +kernel⟩, ⟨_, rfl, by decide +kernel⟩⟩

theorem witness_EncodeIgnoresOldBuffers :
    (eciState.cfg = (withBytes eciState 0x4000 [1]).cfg ∧ eciState.segs = (withBytes eciState 0x4000 [1]).segs ∧
      ∀ d ∈ eciState.segs, eciState.segDataBits d = (withBytes eciState 0x4000 [1]).segDataBits d) ∧
    (payloadState "A").mem.readBytes 0x1000 1 = (withBytes (payloadState "A") 0x5000 [1]).mem.readBytes 0x1000 1 ∧
    (∃ t, exec .encseg eciState = .next t) ∧ (∃ t, exec .enctext (payloadState "A") = .next t) :=
  ⟨by decide +kernel, by decide +kernel, ⟨_, rfl⟩, ⟨_, rfl⟩⟩

theorem witness_StepKeepsInvariant : State.Inv { helloState with inbox := [.read .w1 0x3000] } ∧
    ∃ t, step { helloState with inbox := [.read .w1 0x3000] } = .next t :=
  ⟨⟨by decide +kernel, by decide +kernel, by decide +kernel, by decide +kernel, by decide +kernel, by decide +kernel,
    by decide +kernel, by decide +kernel, fun w hw => nomatch hw⟩, ⟨_, rfl⟩⟩

end Sys2Proof.Tests
end

section
/-! PROOFS. The obligations of the state family (spec/10_state.md): the invariant of every step, what commands leave to
the host, and what a host access to a register, to GEN and to STATUS does. -/

namespace Sys2Proof.Machine

/-! ### Every step keeps the invariant -/

/-- A step is a command, an illegal word, or the delivery of one host event with or without a wait that grows shorter;
each keeps the invariant. -/
theorem State.Inv.step {s t : State} (h : s.Inv) (ht : Machine.step s = .next t) : t.Inv := by
  rcases step_cases s with ⟨w, _, _, ⟨i, _, hi⟩ | ⟨_, hi⟩⟩ | ⟨w, n, _, _, hd⟩ | ⟨_, hd⟩
  · exact h.exec (hi ▸ ht)
  · cases hi.symm.trans ht
    exact h.finish (.refl s) _
  · cases hd.symm.trans ht
    have hw : State.Inv { s with wait := n } :=
      h.congr h.mem rfl rfl rfl rfl rfl rfl rfl fun _ hb => ⟨hb, id⟩
    exact hw.deliver
  · cases hd.symm.trans ht
    exact h.deliver

/-- Settles O58: the invariant is kept by each kind of step that `step_cases` lists. -/
theorem stepKeepsInvariant : Obligations.StepKeepsInvariant :=
  fun _ _ h ht => h.step ht

/-! ### Commands leave the host's state alone -/

/-- Every command is a body followed by the recording of an outcome; after a contract violation the body is empty. -/
theorem exec_body {i : Instr} {s t : State} (h : exec i s = .next t) : ∃ u o, Body s u ∧ t = u.finish o := by
  rcases exec_ends i s with ⟨c, hc⟩ | ⟨u, o, hb, _, hc⟩ <;> cases hc.symm.trans h
  · exact ⟨s, _, .refl s, rfl⟩
  · exact ⟨u, o, hb, rfl⟩

/-- Settles O7: a command's body changes no host-owned register, queue or PAYLOAD byte, and its completion changes only
`eng`, DONE, FAIL, ERR and ERRCODE. -/
theorem commandsKeepHostOwnedState : Obligations.CommandsKeepHostOwnedState := by
  intro i s t h
  obtain ⟨u, o, hb, rfl⟩ := exec_body h
  rw [hb.control]
  exact ⟨rfl, rfl, rfl, rfl, rfl, rfl, rfl, rfl, rfl, rfl, fun a _ ha => hb.payload a ha⟩

/-! ### Host writes that take effect -/

/-- A 4-byte write to a register is `writeRegister` when the block is Idle or R90 leaves the register open. -/
theorem hostWrite_register (s : State) {off : Nat} (v : Word) (hr : off < 0x40) (ha : off % 4 = 0)
    (ho : s.eng = .idle ∨ writableWhileBusy off = true) : s.hostWrite .w4 off v = s.writeRegister (off / 4) v := by
  have hform : writeAllowed .w4 off = true := by simp [writeAllowed, aligned, Width.bytes, ha]
  have hopen : (s.busy && !writableWhileBusy off) = false := by
    rcases ho with h | h <;> simp [State.busy, h]
  simp [State.hostWrite, hform, hopen, inRegisterBlock, hr]

/-- An aligned write above the register block of an Idle block stores the bytes of its datum. -/
theorem hostWrite_bytes {s : State} {width : Width} {off : Nat} (v : Word) (hi : s.eng = .idle)
    (ha : off % width.bytes = 0) (hr : 0x40 ≤ off) :
    s.hostWrite width off v = s.writeDatum off width.bytes v.toNat := by
  have hlow : inRegisterBlock off = false := decide_eq_false (by omega)
  simp [State.hostWrite, writeAllowed, aligned, ha, hlow, State.busy, hi]

/-! ### Writes to GEN -/

/-- A byte written to the window of GEN changes GEN alone. -/
theorem writeByte_gen (s : State) {off : Nat} (b : Byte) (h1 : 0x180 ≤ off) (h2 : off < 0x1A0) :
    s.writeByte off b = { s with gen := s.gen.setIfInBounds (off - 0x180) b } :=
  if_pos ⟨h1, h2⟩

/-- A datum written to the window of GEN changes GEN alone. -/
theorem writeDatum_gen_frame (s : State) {off n : Nat} (v : Nat) (h1 : 0x180 ≤ off) (h2 : off + n ≤ 0x1A0) :
    s.writeDatum off n v = { s with gen := (s.writeDatum off n v).gen } := by
  induction n generalizing s off v with
  | zero => rfl
  | succ n ih => rw [State.writeDatum, ih _ _ (by omega) (by omega), writeByte_gen s _ h1 (by omega)]

/-- Each GEN byte that a datum covers takes its byte of the datum (R83), and the others keep theirs. -/
theorem writeDatum_gen_getD (s : State) {off n : Nat} (v : Nat) (h1 : 0x180 ≤ off) (h2 : off + n ≤ 0x1A0) {k : Nat}
    (hk : k < 30) : (s.writeDatum off n v).gen.toList.getD k 0 =
      if off ≤ 0x180 + k ∧ 0x180 + k < off + n then BitVec.ofNat 8 (v / 256 ^ (0x180 + k - off))
      else s.gen.toList.getD k 0 := by
  induction n generalizing s off v with
  | zero => rw [if_neg (by omega)]; rfl
  | succ n ih =>
    rw [State.writeDatum, ih _ _ (by omega) (by omega), writeByte_gen s _ h1 (by omega)]
    rcases Nat.lt_trichotomy off (0x180 + k) with h | rfl | h
    · have hpow : v / 256 / 256 ^ (0x180 + k - (off + 1)) = v / 256 ^ (0x180 + k - off) := by
        rw [Nat.div_div_eq_div_mul, ← Nat.pow_add_one', show 0x180 + k - (off + 1) + 1 = 0x180 + k - off by omega]
      by_cases hc : 0x180 + k < off + (n + 1)
      · rw [if_pos (by omega), if_pos (by omega), hpow]
      · rw [if_neg (by omega), if_neg (by omega)]
        simp [List.getD_eq_getElem?_getD, show off - 0x180 ≠ k by omega]
    · rw [if_neg (by omega), if_pos (by omega)]
      simp [List.getD_eq_getElem?_getD, hk]
    · rw [if_neg (by omega), if_neg (by omega)]
      simp [List.getD_eq_getElem?_getD, show off - 0x180 ≠ k by omega]

/-- An aligned access that begins in a window whose end is aligned ends in it. -/
theorem aligned_end_le {width : Width} {off e : Nat} (ha : off % width.bytes = 0) (he : e % 4 = 0) (h : off < e) :
    off + width.bytes ≤ e := by
  cases width <;> simp only [Width.bytes] at ha ⊢ <;> omega

/-- Byte `i` of a word as a slice and as a quotient (R83). -/
theorem extractLsb'_byte_eq_ofNat (v : Word) (i : Nat) : v.extractLsb' (8 * i) 8 = BitVec.ofNat 8 (v.toNat / 256 ^ i) :=
  BitVec.eq_of_toNat_eq (by rw [← wordByte, wordByte_toNat, BitVec.toNat_ofNat])

/-- Settles O13: a write in the window of GEN is `writeDatum`, whose bytes past GEN's 30 are dropped. -/
theorem genIsHostWritable : Obligations.GenIsHostWritable := by
  intro s width off v hi ha h1 h2
  have hend : off + width.bytes ≤ 0x1A0 := aligned_end_le ha rfl h2
  refine ⟨_, hostWrite_bytes v hi ha (by omega), writeDatum_gen_frame s _ h1 hend, fun k hk => ?_⟩
  rw [writeDatum_gen_getD s _ h1 hend hk, extractLsb'_byte_eq_ofNat]

/-! ### Host reads -/

/-- An aligned read returns its datum and uses up one draw. -/
theorem hostRead_aligned (s : State) {width : Width} {off : Nat} (ha : off % width.bytes = 0) :
    s.hostRead width off = { s with replies := s.replies ++ [s.readDatum width off], draws := s.draws + 1 } :=
  if_pos (decide_eq_true ha)

/-- A location answers with its own byte when the block is Idle or R91 leaves the location readable. -/
theorem replyByte_eq_busByte {s : State} {off : Nat} (h : s.eng = .idle ∨ readableWhileBusy off = true) :
    s.replyByte off = s.busByte off := by
  rcases h with h | h <;> simp [State.replyByte, State.busy, h]

/-- An aligned access that begins at a location R91 leaves readable covers such locations only. -/
theorem readableWhileBusy_add {width : Width} {off i : Nat} (ha : off % width.bytes = 0) (hi : i < width.bytes)
    (h : readableWhileBusy off = true) : readableWhileBusy (off + i) = true := by
  have hword : (off + i) / 4 = off / 4 := by
    cases width <;> simp only [Width.bytes] at ha hi <;> omega
  have hlt : ∀ c, c % 4 = 0 → (off + i < c ↔ off < c) := fun c hc => by omega
  unfold readableWhileBusy at h ⊢
  simp only [hword, hlt 0x40 rfl, hlt 0x1C0 rfl, hlt Config.segTabBase rfl, hlt Config.genBase rfl,
    hlt Config.remBase rfl, hlt Config.payloadBase rfl]
  split_ifs at h ⊢
  · exact h
  · rfl
  · exact decide_eq_true (Nat.le_trans (of_decide_eq_true h) (by omega))
  · exact decide_eq_true (Nat.le_trans (of_decide_eq_true h) (by omega))
  · exact h

/-- Settles O17: each byte of the datum is the byte that the address map puts at its offset. -/
theorem registerReadsReturnTheirValues : Obligations.RegisterReadsReturnTheirValues := by
  intro s width off ha hoff
  refine ⟨_, hostRead_aligned s ha, rfl, fun hopen => ?_⟩
  have hend : off + width.bytes ≤ 0x8000 := aligned_end_le ha rfl hoff
  have hbyte : ∀ i < width.bytes, (s.replyByte (off + i)).toNat = s.mapByte (off + i) := fun i hi => by
    have hread : s.eng = .idle ∨ readableWhileBusy (off + i) = true :=
      hopen.imp_right fun h => readableWhileBusy_add ha hi (readableWhileBusy_of_listed h)
    rw [replyByte_eq_busByte hread, busByte_toNat s (by omega)]
  have hmap : ((List.range width.bytes).map fun i => (s.replyByte (off + i)).toNat * 256 ^ i) =
      (List.range width.bytes).map fun i => s.mapByte (off + i) * 256 ^ i :=
    List.map_congr_left fun i hi => by rw [hbyte i (List.mem_range.1 hi)]
  simp only [State.readDatum, replyLE_eq_sum, hmap]

/-! ### Registers the host writes -/

/-- CFG reads back as written, its reserved bits as 0 (R37). -/
theorem cfg_toWord_ofWord (v : Word) : (Cfg.ofWord v).toWord = v &&& 0x003F3F7F := by
  refine BitVec.eq_of_getLsbD_eq fun i hi => ?_
  simp only [Cfg.toWord, Cfg.ofWord, BitVec.getLsbD_append, BitVec.getLsbD_extractLsb', BitVec.getLsbD_and]
  interval_cases i <;> simp

/-- PLEN reads back as written, its reserved bits as 0 (R38). -/
theorem plen_readback (v : Word) : (v.extractLsb' 0 14).setWidth 32 = v &&& 0x3FFF := by
  refine BitVec.eq_of_getLsbD_eq fun i hi => ?_
  interval_cases i <;> simp

/-- DONE_IE reads back as written, the other bits of IRQEN as 0 (R39). -/
theorem doneIe_readback (v : Word) : (BitVec.ofBool (v.getLsbD 0)).setWidth 32 = v &&& 1 := by
  refine BitVec.eq_of_getLsbD_eq fun i hi => ?_
  interval_cases i <;> simp

/-- Settles O18: each write is one arm of `writeRegister`, and each register reads back through its mask. -/
theorem hostRegistersStoreWrittenBits : Obligations.HostRegistersStoreWrittenBits := by
  intro s v hi
  have hw : ∀ k < 16, s.hostWrite .w4 (4 * k) v = s.writeRegister k v := fun k hk => by
    rw [hostWrite_register s v (by omega) (by omega) (.inl hi), Nat.mul_div_cancel_left k (by decide)]
  refine ⟨hw 3 (by decide), hw 4 (by decide), hw 5 (by decide),
    ⟨_, hw 8 (by decide), rfl, cfg_toWord_ofWord v, ?_⟩, ⟨_, hw 9 (by decide), rfl, plen_readback v⟩,
    ⟨_, hw 13 (by decide), rfl, doneIe_readback v⟩⟩
  simp [State.writeRegister, Cfg.ofWord, BitVec.extractLsb'_toNat, Nat.shiftRight_eq_div_pow]

/-! ### STATUS -/

/-- The four bytes of a register of the block that may be read make up its word (R50, R83). -/
theorem readDatum_register (s : State) {k : Nat} (hk : k < 16)
    (hr : s.eng = .idle ∨ readableWhileBusy (4 * k) = true) : s.readDatum .w4 (4 * k) = s.regWord k := by
  have hbyte : ∀ i < 4, (s.replyByte (4 * k + i)).toNat = (s.regWord k).toNat / 256 ^ i % 256 := fun i hi => by
    have hread := hr.imp_right (readableWhileBusy_add (width := .w4) (Nat.mul_mod_right 4 k) hi)
    rw [replyByte_eq_busByte hread, State.busByte, if_pos (by omega), wordByte_toNat,
      show (4 * k + i) / 4 = k by omega, show (4 * k + i) % 4 = i by omega]
  have hsum : s.replyLE (4 * k) 4 = (s.regWord k).toNat := by
    have h0 := hbyte 0 (by decide)
    have h1 := hbyte 1 (by decide)
    have h2 := hbyte 2 (by decide)
    have h3 := hbyte 3 (by decide)
    have hlt := (s.regWord k).isLt
    simp only [State.replyLE, Nat.add_assoc, Nat.reduceAdd, Nat.add_zero, Nat.reducePow] at h0 h1 h2 h3 ⊢
    omega
  rw [State.readDatum, Width.bytes, hsum, BitVec.ofNat_toNat, BitVec.setWidth_eq]

/-- Settles O14: STATUS stays open to writes while Busy (R90), and a read returns the word of its flags. -/
theorem statusWriteClearsOnlyW1C : Obligations.StatusWriteClearsOnlyW1C := by
  intro s v
  refine ⟨hostWrite_register s v (by decide) (by decide) (.inr (by decide)), ?_⟩
  have hread : s.readDatum .w4 4 = s.statusWord := readDatum_register s (k := 1) (by decide) (.inr (by decide))
  rw [hostRead_aligned s (by decide), ← statusWord_toNat, BitVec.ofNat_toNat, BitVec.setWidth_eq, hread]

end Sys2Proof.Machine
end

section
/-! PROOFS. The obligations of the memory family (spec/20_memory.md): one step, the time until a command completes, and
which host accesses are stored, refused or dropped. -/

namespace Sys2Proof

/-! ### The decoder on assembled words -/

/-- A word assembled from an opcode of R125 and operands its format admits decodes to that opcode's command. -/
theorem decode_assembleWord {op : Nat} (a b : Nat) {f : Format} {mk : Byte → Byte → Instr}
    (hrow : opcodeRow (BitVec.ofNat 8 op).toNat = some (f, mk))
    (hzero : f.fieldsZero (BitVec.ofNat 8 a) (BitVec.ofNat 8 b) 0 = true) :
    decode (assembleWord op a b) = .ok (mk (BitVec.ofNat 8 a) (BitVec.ofNat 8 b)) :=
  (decode_eq_ok_iff _ _).2 ⟨f, mk, by rwa [fieldOp_assembleWord],
    by rwa [fieldA_assembleWord, fieldB_assembleWord, fieldC_assembleWord],
    by rw [fieldA_assembleWord, fieldB_assembleWord]⟩

/-- The word of a well-formed command decodes to the command (R127, R129). -/
theorem decode_encode {i : Instr} (h : WellFormed i) : decode (encode i) = .ok i := by
  cases i with
  | nop | segclr | segauto | segnum | segalnum | segbyte | segeci | negot | mplace | mlight | penalty | encseg
  | enctext | encbin => rfl
  | gfmul x y =>
    have hd := decode_assembleWord (op := 0x01) x.toNat y.toNat rfl rfl
    rwa [BitVec.ofNat_toNat, BitVec.ofNat_toNat, BitVec.setWidth_eq, BitVec.setWidth_eq] at hd
  | rsdiv a | rsrem a | alignq a | minit a | mask a =>
    have ha : a < 256 := of_decide_eq_true h
    refine (decode_assembleWord a 0 rfl rfl).trans ?_
    rw [BitVec.toNat_ofNat, Nat.mod_eq_of_lt ha]
  | assemble a b | tblq a b | ccbq a b | interleave a b | format a b | mselect a b =>
    obtain ⟨ha, hb⟩ := Bool.and_eq_true_iff.1 h
    refine (decode_assembleWord a b rfl rfl).trans ?_
    rw [BitVec.toNat_ofNat, BitVec.toNat_ofNat, Nat.mod_eq_of_lt (of_decide_eq_true ha),
      Nat.mod_eq_of_lt (of_decide_eq_true hb)]

end Sys2Proof

namespace Sys2Proof.Machine

/-! ### One step -/

/-- A Busy engine whose wait is over takes its completion step (R151). -/
theorem step_completion {s : State} {w : Word} (he : s.eng = .busy w) (hw : s.wait = 0) :
    step s = completionStep w s := by
  rw [step, he, hw]

/-- A Busy engine with a wait left delivers one event (R92). -/
theorem step_busy_slot {s : State} {w : Word} {n : Nat} (he : s.eng = .busy w) (hw : s.wait = n + 1) :
    step s = .next ({ s with wait := n } : State).deliver := by
  rw [step, he, hw]

/-- An Idle engine delivers one event (R92, R380). -/
theorem step_idle {s : State} (he : s.eng = .idle) : step s = .next s.deliver := by
  rw [step, he]

/-- With nothing pending the block does nothing (R380). -/
theorem deliver_of_nil {s : State} (h : s.inbox = []) : s.deliver = s := by
  rw [State.deliver, h]

/-- The oldest pending event takes its whole effect (R87, R92). -/
theorem deliver_of_cons {s : State} {ev : HostEvent} {rest : List HostEvent} (h : s.inbox = ev :: rest) :
    s.deliver = ({ s with inbox := rest } : State).hostEvent ev := by
  rw [State.deliver, h]

/-- The completion step of a word that decodes is its command. -/
theorem completionStep_of_decode {w : Word} {i : Instr} (h : decode w = .ok i) (s : State) :
    completionStep w s = exec i s := by
  rw [completionStep, h]

/-- Placing the word of a command latches that word. -/
theorem withFetchWord_encode_eng (s : State) (i : Instr) :
    (s.withFetchWord 32 (encode i).toNat).eng = .busy (encode i) := by
  rw [State.withFetchWord, Nat.mod_eq_of_lt (encode i).isLt, BitVec.ofNat_toNat, BitVec.setWidth_eq]

/-- Settles O9: the equations of `step` and `deliver`, and `decode_encode` for a placed word. -/
theorem stepRunsDecodedCommand : Obligations.StepRunsDecodedCommand := by
  refine ⟨fun s w i he hw hd => ?_, fun s i hi => ?_, fun s ev rest => ⟨fun he hb => ?_, fun he hb => ?_,
    fun w n he hw hb => ?_, fun w n he hw hb => ?_⟩⟩
  · rw [step_completion he hw, completionStep_of_decode hd]
  · rw [step_completion (withFetchWord_encode_eng s i) rfl, completionStep_of_decode (decode_encode hi)]
  · rw [step_idle he, deliver_of_cons hb]
  · rw [step_idle he, deliver_of_nil hb]
  · rw [step_busy_slot he hw, deliver_of_cons (s := { s with wait := n }) hb]
  · rw [step_busy_slot he hw, deliver_of_nil (s := { s with wait := n }) hb]

/-! ### Refused and dropped accesses -/

/-- A misaligned read returns 0 and sets AERR (R86). -/
theorem hostRead_misaligned (s : State) {width : Width} {off : Nat} (ha : off % width.bytes ≠ 0) :
    s.hostRead width off = { s with replies := s.replies ++ [0], status := { s.status with aerr := true } } :=
  if_neg fun h => ha (of_decide_eq_true h)

/-- R86: a write is well formed when it is aligned and, in the register block, 4 bytes wide. -/
theorem writeAllowed_iff (width : Width) (off : Nat) :
    writeAllowed width off = true ↔ off % width.bytes = 0 ∧ (off < 0x40 → width.bytes = 4) := by
  have hwide : width = .w4 ↔ width.bytes = 4 := by cases width <;> decide
  simp [writeAllowed, aligned, inRegisterBlock, hwide, Decidable.imp_iff_not_or]

/-- A malformed write sets AERR, and WERR where R90 closes its location (assumption 8), and does nothing else. -/
theorem hostWrite_malformed (s : State) {width : Width} {off : Nat} (v : Word) (h : writeAllowed width off = false) :
    s.hostWrite width off v =
      { s with status := s.status.refuseWrite true (s.busy && !writableWhileBusy off) } := by
  simp [State.hostWrite, h]

/-- A well-formed write to a location R90 closes sets WERR and does nothing else. -/
theorem hostWrite_dropped {s : State} {width : Width} {off : Nat} (v : Word) (hf : writeAllowed width off = true)
    (hd : (s.busy && !writableWhileBusy off) = true) :
    s.hostWrite width off v = { s with status := { s.status with werr := true } } := by
  simp [State.hostWrite, hf, hd, Status.refuseWrite]

/-- A well-formed write that R90 does not drop reaches a register or the bytes above the register block. -/
theorem hostWrite_taken {s : State} {width : Width} {off : Nat} (v : Word) (hf : writeAllowed width off = true)
    (hd : (s.busy && !writableWhileBusy off) = false) :
    s.hostWrite width off v =
      if off < 0x40 then s.writeRegister (off / 4) v else s.writeDatum off width.bytes v.toNat := by
  simp [State.hostWrite, hf, hd, inRegisterBlock]

/-- The engine that holds a word is Busy (R32). -/
theorem busy_of_eng {s : State} {w : Word} (he : s.eng = .busy w) : s.busy = true := by
  rw [State.busy, he]

/-- No register write sets AERR. -/
theorem aerr_of_writeRegister {s : State} {k : Nat} {v : Word} (h : (s.writeRegister k v).status.aerr = true) :
    s.status.aerr = true := by
  unfold State.writeRegister at h
  split at h
  · exact (Bool.and_eq_true_iff.1 h).1
  all_goals exact h

/-- No well-formed write sets AERR, dropped or taken. -/
theorem aerr_of_hostWrite {s : State} {width : Width} {off : Nat} {v : Word} (hf : writeAllowed width off = true)
    (h : (s.hostWrite width off v).status.aerr = true) : s.status.aerr = true := by
  cases hd : s.busy && !writableWhileBusy off with
  | true => rwa [hostWrite_dropped v hf hd] at h
  | false =>
    rw [hostWrite_taken v hf hd] at h
    split at h
    · exact aerr_of_writeRegister h
    · rwa [writeDatum_frame] at h

/-- Settles O11: `writeAllowed` is the form R86 asks of a write, and only an access without it sets AERR. -/
theorem malformedAccessRefused : Obligations.MalformedAccessRefused := by
  intro s width off v
  refine ⟨hostRead_misaligned s, fun ha => by rw [hostRead_aligned s ha], fun hm => ?_,
    fun ha hw => aerr_of_hostWrite ((writeAllowed_iff width off).2 ⟨ha, hw⟩)⟩
  have hf : writeAllowed width off = false := by
    rw [← Bool.not_eq_true, writeAllowed_iff]
    rintro ⟨ha, hw⟩
    exact hm.elim (absurd ha) fun ⟨hlow, hne⟩ => hne (hw hlow)
  refine ⟨_, (hostWrite_malformed s v hf).trans (by rw [Status.refuseWrite, Bool.or_true]), fun hi => ?_⟩
  simp [State.busy, hi]

/-- Settles O16: every well-formed write elsewhere is `hostWrite_dropped`; STATUS and IRQEN answer `writeRegister`, which
does not read `eng` there. -/
theorem busyWriteDropped : Obligations.BusyWriteDropped := by
  intro s w width off v he
  refine ⟨fun ha hw h1 h13 => ?_, fun hoff => ?_⟩
  · have hclosed : writableWhileBusy off = false := by
      simp only [writableWhileBusy, Bool.or_eq_false_iff, decide_eq_false_iff_not]
      by_cases hlow : off < 0x40
      · rw [hw hlow] at ha; omega
      · omega
    exact hostWrite_dropped v ((writeAllowed_iff width off).2 ⟨ha, hw⟩) (by rw [busy_of_eng he, hclosed]; rfl)
  · rw [← he]
    rcases hoff with rfl | rfl <;>
      rw [hostWrite_register s v (by decide) (by decide) (.inr (by decide)),
        hostWrite_register _ v (by decide) (by decide) (.inl rfl)] <;> rfl

/-! ### The buffers -/

/-- A datum written to the buffers the host may write is stored as a little-endian number (R81, R83). -/
theorem writeDatum_buffer (s : State) {off n : Nat} (v : Nat)
    (h : 0x1000 ≤ off ∧ off + n ≤ 0x3000 ∨ 0x4000 ≤ off ∧ off + n ≤ 0x8000) :
    s.writeDatum off n v = { s with mem := s.mem.writeLE off n v } := by
  induction n generalizing s off v with
  | zero => rfl
  | succ n ih =>
    have hbyte : s.writeByte off (BitVec.ofNat 8 v) = { s with mem := s.mem.write off (BitVec.ofNat 8 v) } := by
      have hoff : 0x1000 ≤ off ∧ off < 0x3000 ∨ 0x4000 ≤ off ∧ off < 0x8000 := by omega
      have hwr : hostWritableBuffer off = true := Bool.or_eq_true_iff.2 (hoff.imp decide_eq_true decide_eq_true)
      have hgen : ¬(Config.genBase ≤ off ∧ off < Config.remBase) := by unfold Config.remBase; omega
      rw [State.writeByte, if_neg hgen, if_pos hwr]
    rw [State.writeDatum, hbyte, ih _ _ (by omega), Memory.writeLE]

/-- The byte at an offset of the buffers is the buffers' (R81). -/
theorem busByte_buffer (s : State) {off : Nat} (h : 0x1000 ≤ off) : s.busByte off = s.mem.read off := by
  unfold State.busByte Config.segTabBase Config.genBase Config.remBase Config.payloadBase
  rw [if_neg (by omega), if_neg (by omega), if_neg (by omega), if_neg (by omega), if_neg (by omega), if_neg (by omega)]

/-- The datum of a read from the buffers of an Idle block is the number they hold (R83). -/
theorem replyLE_buffer {s : State} {off : Nat} (n : Nat) (hi : s.eng = .idle) (h : 0x1000 ≤ off) :
    s.replyLE off n = s.mem.readLE off n := by
  induction n generalizing off with
  | zero => rfl
  | succ n ih =>
    rw [State.replyLE, Memory.readLE, replyByte_eq_busByte (.inl hi), busByte_buffer s h, ih (by omega)]

/-- An aligned read of an Idle block's buffers returns the number they hold. -/
theorem hostRead_buffer {s : State} {width : Width} {off : Nat} (hi : s.eng = .idle) (ha : off % width.bytes = 0)
    (h : 0x1000 ≤ off) :
    (s.hostRead width off).replies = s.replies ++ [BitVec.ofNat 32 (s.mem.readLE off width.bytes)] := by
  rw [hostRead_aligned s ha, State.readDatum, replyLE_buffer _ hi h]

/-- Settles O12: the write is `Memory.writeLE` and the read `Memory.readLE`, so the laws of the buffers say the rest. -/
theorem bufferStoreThenLoad : Obligations.BufferStoreThenLoad := by
  intro s width off v hi ha hoff
  have hrange : 0x1000 ≤ off ∧ off + width.bytes ≤ 0x3000 ∨ 0x4000 ≤ off ∧ off + width.bytes ≤ 0x8000 :=
    hoff.imp (And.imp_right (aligned_end_le ha rfl)) (And.imp_right (aligned_end_le ha rfl))
  have h1 : Config.payloadBase ≤ off := by unfold Config.payloadBase; omega
  have h2 : off + width.bytes ≤ Config.addressEnd := by unfold Config.addressEnd; omega
  refine ⟨{ s with mem := s.mem.writeLE off width.bytes v.toNat }, ?_, rfl,
    fun i hlt => read_writeLE_inside s.mem off width.bytes v.toNat i hlt h1 h2,
    fun a => read_writeLE_outside s.mem off width.bytes v.toNat a, ?_⟩
  · rw [hostWrite_bytes v hi ha (by omega), writeDatum_buffer s _ hrange]
  · refine (hostRead_buffer ?_ ha h1).trans ?_
    · exact hi
    · rw [readLE_writeLE _ _ _ _ h1 h2]

/-! ### Until the completion -/

/-- From `s` to `u` a Busy engine passed `k` bus slots without a reset: the host's queues moved, and of the block only the
wait, DONE, WERR, AERR, DONE_IE and the draw counter (R90, R410). -/
def BusySlots (k : Nat) (s u : State) : Prop :=
  u = { s with
    wait := s.wait - k
    status := { s.status with done := u.status.done, werr := u.status.werr, aerr := u.status.aerr }
    doneIe := u.doneIe
    inbox := s.inbox.drop k
    replies := u.replies
    draws := u.draws }

namespace BusySlots

variable {j k : Nat} {s u t : State}

theorem eng (h : BusySlots k s u) : u.eng = s.eng := (congrArg State.eng h :)

theorem wait (h : BusySlots k s u) : u.wait = s.wait - k := (congrArg State.wait h :)

theorem inbox (h : BusySlots k s u) : u.inbox = s.inbox.drop k := (congrArg State.inbox h :)

theorem trans (h1 : BusySlots j s u) (h2 : BusySlots k u t) : BusySlots (j + k) s t := by
  unfold BusySlots at h2 ⊢
  rw [← Nat.sub_sub, ← h1.wait, ← List.drop_drop, ← h1.inbox, h2, h1]

/-- While Busy a read gives the host a reply, and a write does no more than set flags or reach STATUS or IRQEN. -/
theorem hostEvent {w : Word} {ev : HostEvent} (he : s.eng = .busy w) (hev : ev ≠ .reset) :
    BusySlots 0 s (s.hostEvent ev) := by
  cases ev with
  | reset => exact absurd rfl hev
  | read width off =>
    rw [State.hostEvent, State.hostRead]
    split <;> rfl
  | write width off v =>
    rw [State.hostEvent]
    rcases hostWrite_cases s width off.toNat v with ⟨m, d, _, hw⟩ | ⟨_, _, _, hopen, hw⟩ | ⟨_, _, hidle, _⟩
    · rw [hw]; rfl
    · rw [hw]
      rcases hopen (busy_of_eng he) with hk | hk <;> rw [hk] <;> rfl
    · rw [busy_of_eng he] at hidle; cases hidle

/-- One bus slot of a Busy engine. -/
theorem deliver {w : Word} {n : Nat} (he : s.eng = .busy w) (hw : s.wait = n + 1) (hr : HostEvent.reset ∉ s.inbox) :
    BusySlots 1 s ({ s with wait := n } : State).deliver := by
  cases hb : s.inbox with
  | nil => simp [State.deliver, BusySlots, hw, hb]
  | cons ev rest =>
    have hev : ev ≠ .reset := fun h => hr (by simp [hb, h])
    have hslot : BusySlots 1 s { s with wait := n, inbox := rest } := by simp [BusySlots, hw, hb]
    exact hslot.trans (hostEvent he hev)

end BusySlots

/-- A run's last step starts from where the run before it ended. -/
theorem core_run_step (M : Host.Core) {s u : M.State} {k : Nat} (h : M.run k s = .next u) :
    M.run (k + 1) s = M.step u := by
  induction k generalizing s with
  | zero =>
    cases h
    rw [Host.Core.run]
    cases M.step u <;> rfl
  | succ k ih =>
    rw [Host.Core.run] at h ⊢
    cases hs : M.step s with
    | next s' => rw [hs] at h; exact ih h
    | fault r => rw [hs] at h; cases h
    | refused r => rw [hs] at h; cases h

/-- `core_run_step` for this machine's `step`. -/
theorem run_step {s u : State} {k : Nat} (h : Host.Core.run Sys2Proof.core k s = .next u) :
    Host.Core.run Sys2Proof.core (k + 1) s = step u :=
  core_run_step Sys2Proof.core h

/-- The completion step leaves the engine Idle with DONE set, whatever the word (R151, R360). -/
theorem completionStep_completes (w : Word) (s : State) :
    ∃ t, completionStep w s = .next t ∧ t.eng = .idle ∧ t.status.done = true := by
  unfold completionStep
  cases decode w with
  | error r => exact ⟨_, rfl, rfl, rfl⟩
  | ok i => rcases exec_ends i s with ⟨c, hc⟩ | ⟨u, o, _, _, hc⟩ <;> exact ⟨_, hc, rfl, rfl⟩

/-- While the wait lasts, every step of a Busy engine is a bus slot. -/
theorem run_busySlots {s : State} {w : Word} (he : s.eng = .busy w) (hr : HostEvent.reset ∉ s.inbox) {k : Nat}
    (hk : k ≤ s.wait) : ∃ u, Host.Core.run Sys2Proof.core k s = .next u ∧ BusySlots k s u := by
  induction k with
  | zero => exact ⟨s, rfl, rfl⟩
  | succ k ih =>
    obtain ⟨u, hu, hs⟩ := ih (by omega)
    have hwait : u.wait = (s.wait - (k + 1)) + 1 := by rw [hs.wait]; omega
    have hru : HostEvent.reset ∉ u.inbox := fun h => hr (List.mem_of_mem_drop (hs.inbox ▸ h))
    have heu : u.eng = .busy w := hs.eng.trans he
    exact ⟨_, (run_step hu).trans (step_busy_slot heu hwait), hs.trans (.deliver heu hwait hru)⟩

/-- Settles O10: `run_busySlots` as long as the wait lasts, then the completion step. -/
theorem acceptedCommandCompletesOnFrozenState : Obligations.AcceptedCommandCompletesOnFrozenState := by
  intro s w he hr
  refine ⟨fun k hk => run_busySlots he hr hk, ?_⟩
  obtain ⟨u, hu, hs⟩ := run_busySlots he hr (Nat.le_refl s.wait)
  obtain ⟨t, ht, hdone⟩ := completionStep_completes w u
  have hwait : u.wait = 0 := hs.wait.trans (Nat.sub_self _)
  exact ⟨t, ((run_step hu).trans (step_completion (hs.eng.trans he) hwait)).trans ht, hdone⟩

end Sys2Proof.Machine
end

section
/-! PROOFS. The obligations of the encoding family (spec/30_encoding.md): the decoder against the encoder and against the
rows of the opcode table, and what becomes of an illegal word. -/

namespace Sys2Proof

open Sys2Proof.Machine

/-! ### Words that decode -/

/-- R121, R123: a command is well formed when each of its immediates fits a field. -/
theorem wellFormed_iff_operands (i : Instr) : WellFormed i ↔ ∀ n ∈ i.operands, n < 256 := by
  cases i with
  | gfmul x y => simp [WellFormed, Instr.wellFormed, Instr.operands, x.isLt, y.isLt]
  | _ => simp [WellFormed, Instr.wellFormed, Instr.operands]

/-- The encoder puts into the command's word the row's opcode and the operands its format uses (R122, R125). -/
theorem encode_of_opcodeRow {op : Nat} {f : Format} {mk : Byte → Byte → Instr} (h : opcodeRow op = some (f, mk))
    (a b : Byte) : encode (mk a b) =
      assembleWord op (if f = .f0 then 0 else a.toNat) (if f = .fab then b.toNat else 0) := by
  unfold opcodeRow at h
  split at h <;> cases h <;> rfl

/-- A field that the format does not use is zero where the format's must-be-zero fields are (R122). -/
theorem Format.fieldsZero_operands {f : Format} {a b c : Byte} (h : f.fieldsZero a b c = true) :
    (if f = .f0 then 0 else a.toNat) = a.toNat ∧ (if f = .fab then b.toNat else 0) = b.toNat ∧ c = 0 := by
  cases f with
  | f0 =>
    obtain ⟨⟨rfl, rfl⟩, rfl⟩ : (a = 0 ∧ b = 0) ∧ c = 0 := by simpa [Format.fieldsZero] using h
    exact ⟨rfl, rfl, rfl⟩
  | fa =>
    obtain ⟨rfl, rfl⟩ : b = 0 ∧ c = 0 := by simpa [Format.fieldsZero] using h
    exact ⟨rfl, rfl, rfl⟩
  | fab => exact ⟨rfl, rfl, eq_of_beq h⟩

/-- A word whose field C is zero is assembled from its other fields. -/
theorem assembleWord_fields {w : Word} (hC : fieldC w = 0) :
    assembleWord (fieldOp w).toNat (fieldA w).toNat (fieldB w).toNat = w :=
  word_eq_of_fields (by simp) (by simp) (by simp) (by simp [hC])

/-- A word that decodes is the word of its command (R127). -/
theorem encode_of_decode {w : Word} {i : Instr} (h : decode w = .ok i) : encode i = w := by
  obtain ⟨f, mk, hrow, hzero, rfl⟩ := (decode_eq_ok_iff w i).1 h
  obtain ⟨hA, hB, hC⟩ := Format.fieldsZero_operands hzero
  rw [encode_of_opcodeRow hrow, hA, hB, assembleWord_fields hC]

/-- A word decodes to a well-formed command only: its operands are fields of the word. -/
theorem wellFormed_of_decode {w : Word} {i : Instr} (h : decode w = .ok i) : WellFormed i := by
  obtain ⟨f, mk, hrow, _, rfl⟩ := (decode_eq_ok_iff w i).1 h
  rw [wellFormed_iff_operands, (opcodeRow_row hrow).2]
  intro n hn
  have hfield : n = (fieldA w).toNat ∨ n = (fieldB w).toNat := by simpa using List.mem_of_mem_take hn
  rcases hfield with rfl | rfl <;> exact BitVec.isLt _

/-- Settles O1: `decode_encode`, and for a word that decodes `wellFormed_of_decode` and `encode_of_decode`. -/
theorem decodeAndEncodeAgree : Obligations.DecodeAndEncodeAgree :=
  ⟨fun _ hi => decode_encode hi, fun _ _ hd => ⟨wellFormed_of_decode hd, encode_of_decode hd⟩⟩

/-! ### The rows of the opcode table -/

/-- The opcode-map entry of a row of the table: the row's mask is its format's, and all its commands bear the row's
mnemonic. -/
theorem opcodeRow_of_mem {r : OpcodeRow} (hr : r ∈ opcodeRows) :
    ∃ f mk, opcodeRow (fieldOp r.value).toNat = some (f, mk) ∧ r.mask = f.mask ∧
      ∀ a b, (mk a b).mnemonic = r.mnemonic := by
  obtain ⟨⟨f, mk⟩, hrow, hpair⟩ := Option.map_eq_some_iff.1 (row_opcodeRow r hr)
  obtain ⟨hmask, hname⟩ := Prod.mk.inj hpair
  obtain ⟨⟨m, hm, _⟩, _⟩ := opcodeRow_row hrow
  exact ⟨f, mk, hrow, hmask.symm, fun a b => (hm a b).trans ((hm 0 0).symm.trans hname)⟩

/-- A word matches a row of the format `f` when it has the row's OP and its must-be-zero fields are zero (R122, R127). -/
theorem row_match_iff {r : OpcodeRow} (hr : r ∈ opcodeRows) {f : Format} (hf : r.mask = f.mask) (w : Word) :
    w &&& r.mask = r.value ↔
      fieldOp w = fieldOp r.value ∧ f.fieldsZero (fieldA w) (fieldB w) (fieldC w) = true := by
  obtain ⟨hA, hB, hC⟩ := row_fields r hr
  rw [hf, format_masked_iff f w r.value hA hB hC]

/-- A word that matches a row has the row's OP. -/
theorem fieldOp_of_match {r : OpcodeRow} (hr : r ∈ opcodeRows) {w : Word} (h : w &&& r.mask = r.value) :
    fieldOp w = fieldOp r.value := by
  obtain ⟨f, _, _, hf, _⟩ := opcodeRow_of_mem hr
  exact ((row_match_iff hr hf w).1 h).1

/-- The number of operands of a format, told from its mask. -/
theorem Format.count_eq_of_mask (f : Format) :
    f.count = if f.mask = 0xFFFFFFFF then 0 else if f.mask = 0xFFFF00FF then 1 else 2 := by
  cases f <;> decide

/-- A word that decodes matches the row of its command, whose operands are the fields the row's format uses (R127). -/
theorem row_of_decode {w : Word} {i : Instr} (h : decode w = .ok i) :
    ∃ r ∈ opcodeRows, w &&& r.mask = r.value ∧ i.mnemonic = r.mnemonic ∧
      i.operands = [w.toNat / 256 % 256, w.toNat / 65536 % 256].take
        (if r.mask = 0xFFFFFFFF then 0 else if r.mask = 0xFFFF00FF then 1 else 2) := by
  obtain ⟨f, mk, hrow, hzero, rfl⟩ := (decode_eq_ok_iff w i).1 h
  obtain ⟨⟨m, hm, hmem⟩, hops⟩ := opcodeRow_row hrow
  have hop : fieldOp w = fieldOp (BitVec.ofNat 32 (fieldOp w).toNat) :=
    BitVec.eq_of_toNat_eq (by simp [fieldOp_toNat])
  refine ⟨_, hmem, (row_match_iff hmem rfl w).2 ⟨hop, hzero⟩, hm _ _, ?_⟩
  rw [hops, fieldA_toNat, fieldB_toNat, f.count_eq_of_mask]

/-- A word that matches a row decodes to a command of the row's mnemonic (R127). -/
theorem decode_of_match {r : OpcodeRow} (hr : r ∈ opcodeRows) {w : Word} (h : w &&& r.mask = r.value) :
    ∃ i, decode w = .ok i ∧ i.mnemonic = r.mnemonic := by
  obtain ⟨f, mk, hrow, hf, hname⟩ := opcodeRow_of_mem hr
  obtain ⟨hop, hzero⟩ := (row_match_iff hr hf w).1 h
  exact ⟨_, (decode_eq_ok_iff w _).2 ⟨f, mk, hop ▸ hrow, hzero, rfl⟩, hname _ _⟩

/-- Settles O2: `row_of_decode`, `decode_of_match`, and rows that match one word have its OP, so are one row. -/
theorem decoderFollowsOpcodeTable : Obligations.DecoderFollowsOpcodeTable := fun _ =>
  ⟨fun _ hd => row_of_decode hd, fun _ hr hm => decode_of_match hr hm, fun r hr r' hr' hm hm' =>
    row_op_inj r hr r' hr' ((fieldOp_of_match hr hm).symm.trans (fieldOp_of_match hr' hm'))⟩

/-! ### Illegal words -/

/-- A word that matches no row does not decode (R126). -/
theorem decode_ne_ok_of_no_match {w : Word} (h : ∀ r ∈ opcodeRows, w &&& r.mask ≠ r.value) (i : Instr) :
    decode w ≠ .ok i := fun hd =>
  have ⟨r, hr, hm, _⟩ := row_of_decode hd
  h r hr hm

/-- The value of a row is its OP, and no row has an OP from 0xF0 to 0xFF (R125, R126). -/
theorem row_value_lt : ∀ r ∈ opcodeRows, r.value.toNat < 0xF0 := by decide

/-- The OP of a word that matches a row, as a number. -/
theorem op_of_match {r : OpcodeRow} (hr : r ∈ opcodeRows) {w : Word} (h : w &&& r.mask = r.value) :
    w.toNat % 256 = r.value.toNat := by
  have hlt := row_value_lt r hr
  rw [← fieldOp_toNat, fieldOp_of_match hr h, fieldOp_toNat, Nat.mod_eq_of_lt (by omega)]

/-- The rows have distinct values, which are their OPs (R127). -/
theorem row_eq_of_value {r r' : OpcodeRow} (hr : r ∈ opcodeRows) (hr' : r' ∈ opcodeRows)
    (h : r.value.toNat = r'.value.toNat) : r = r' :=
  row_op_inj r hr r' hr' (congrArg fieldOp (BitVec.eq_of_toNat_eq h))

/-- The completion step of a word that does not decode records ILLEGAL_CMD (R126). -/
theorem completionStep_of_not_decode {w : Word} (h : ∀ i, decode w ≠ .ok i) (s : State) :
    completionStep w s = .next s.illegalCommand := by
  unfold completionStep
  cases hd : decode w with
  | ok i => exact absurd hd (h i)
  | error _ => rfl

/-- R150: a write to CMD while Idle latches the word, whether it decodes or not. -/
theorem hostWrite_cmd_eng {s : State} (w : Word) (h : s.eng = .idle) :
    (s.hostWrite .w4 0x008 w).eng = .busy w := by
  rw [hostWrite_register s w (by decide) (by decide) (.inl h)]
  rfl

/-- Settles O4: a word that matches no row does not decode; OP picks the only row that a word can match. -/
theorem illegalWordRaisesIllegalCmd : Obligations.IllegalWordRaisesIllegalCmd := by
  refine ⟨fun s w he hw hno => ?_, fun w hop r hr hm => ?_, fun w r hr hop hne r' hr' hm => ?_,
    fun _ w he => hostWrite_cmd_eng w he, fun w hd => (encode_of_decode hd).symm.trans (by decide)⟩
  · rw [step_completion he hw, completionStep_of_not_decode (decode_ne_ok_of_no_match hno)]
    rfl
  · have hlt := row_value_lt r hr
    rw [op_of_match hr hm] at hop
    omega
  · obtain rfl := row_eq_of_value hr hr' (hop.symm.trans (op_of_match hr' hm))
    exact hne hm

/-- Settles O3: each legal word evaluates, and the four illegal ones match no row of the table. -/
theorem sampleWordsDecode : Obligations.SampleWordsDecode := by
  refine ⟨rfl, rfl, rfl, rfl, rfl, rfl, rfl, rfl, rfl, rfl, fun w hw => decode_ne_ok_of_no_match ?_⟩
  simp only [List.mem_cons, List.not_mem_nil, or_false] at hw
  rcases hw with rfl | rfl | rfl | rfl <;> decide

end Sys2Proof
end

section
/-! PROOFS. The obligations of the control family (spec/40_control.md): acceptance of a command word, the checks of a
command and the outcome they decide, NOP and SEGCLR. -/

namespace Sys2Proof.Machine

/-! ### The checks of each command -/

/-- The Checks list of each command, as its meaning makes them (R153 to R343). -/
def checksOf (i : Instr) (s : State) : List Check :=
  match i with
  | .nop | .gfmul _ _ | .segclr => []
  | .rsdiv d => [degreeCheck d]
  | .rsrem d => [degreeCheck d, databufRangeCheck s]
  | .segauto | .segbyte => [payloadRangeCheck s, tableRoomCheck s]
  | .segnum => [payloadRangeCheck s, tableRoomCheck s, digitsCheck s]
  | .segalnum => [payloadRangeCheck s, tableRoomCheck s, alnumCheck s]
  | .segeci => [eciCheck s, tableRoomCheck s]
  | .negot => [cfgVersionCheck s, cfgOrderCheck s, tableFilledCheck s]
  | .assemble v e => [versionCheck v, eclCheck e, tableFilledCheck s]
  | .tblq v e | .interleave v e => [versionCheck v, eclCheck e]
  | .alignq v | .minit v => [versionCheck v]
  | .ccbq m v => [modeCheck m, versionCheck v]
  | .mplace => [matrixPairCheck s]
  | .mlight | .penalty => [matrixCheck s]
  | .mask m => [maskCheck m, matrixPairCheck s]
  | .format e m => [eclCheck e, maskCheck m, matrixCheck s]
  | .mselect e sel => [eclCheck e, selectorCheck sel, matrixPairCheck s]
  | .encseg => cfgChecks s ++ [tableFilledCheck s]
  | .enctext | .encbin => cfgChecks s ++ [plenCheck s]

/-- The ERRCODE of the first check that fails (R366). -/
def failureByte (cs : List Check) : Option Byte := (firstFailure cs).map ViolationCode.byte

@[simp] theorem failureByte_nil : failureByte [] = none := rfl

/-- The code of a check that fails, or that of the checks after it; `p` is the failing condition as a rule words it. -/
theorem failureByte_cons {c : Check} {p : Prop} [Decidable p] (h : c.ok = true ↔ ¬p) (cs : List Check) :
    failureByte (c :: cs) = if p then some c.code.byte else failureByte cs := by
  by_cases hp : p <;> simp [failureByte, firstFailure_cons, h, hp]

/-- A check that a number is at most a bound fails above the bound. -/
theorem failureByte_le (a b : Nat) (code : ViolationCode) (cs : List Check) :
    failureByte (⟨decide (a ≤ b), code⟩ :: cs) = if b < a then some code.byte else failureByte cs :=
  failureByte_cons (decide_eq_true_iff.trans Nat.not_lt.symm) cs

/-- A check that a number is below a bound fails from the bound on. -/
theorem failureByte_lt (a b : Nat) (code : ViolationCode) (cs : List Check) :
    failureByte (⟨decide (a < b), code⟩ :: cs) = if b ≤ a then some code.byte else failureByte cs :=
  failureByte_cons (decide_eq_true_iff.trans Nat.not_le.symm) cs

/-- A check that ends a list. -/
theorem failureByte_last (c : Check) : failureByte [c] = if c.ok then none else some c.code.byte := by
  rw [failureByte_cons (p := ¬c.ok = true) not_not.symm, failureByte_nil, ite_not]

/-- R366: the checks of one list come before those of the next. -/
theorem failureByte_append (cs ds : List Check) : failureByte (cs ++ ds) = (failureByte cs).or (failureByte ds) := by
  induction cs with
  | nil => rfl
  | cons c cs ih =>
    simp only [failureByte, List.cons_append, firstFailure_cons] at ih ⊢
    split
    · exact ih
    · rfl

/-! ### The code of each check (R363), and the condition on which it fails -/

section codes

variable (s : State) (cs : List Check)

theorem failureByte_degree (d : Nat) :
    failureByte (degreeCheck d :: cs) = if d < 1 ∨ 30 < d then some 0x19 else failureByte cs :=
  failureByte_cons (decide_eq_true_iff.trans (by simp only [Config.rsDegreeMax]; omega)) cs

theorem failureByte_version (v : Nat) :
    failureByte (versionCheck v :: cs) = if ¬LegalVersion v then some 0x11 else failureByte cs :=
  failureByte_cons (decide_eq_true_iff.trans not_not.symm) cs

theorem failureByte_ecl (e : Nat) :
    failureByte (eclCheck e :: cs) = if 3 < e then some 0x13 else failureByte cs :=
  failureByte_le _ _ _ cs

theorem failureByte_mask (m : Nat) :
    failureByte (maskCheck m :: cs) = if 7 < m then some 0x14 else failureByte cs :=
  failureByte_le _ _ _ cs

theorem failureByte_selector (m : Nat) :
    failureByte (selectorCheck m :: cs) = if 8 < m then some 0x14 else failureByte cs :=
  failureByte_le _ _ _ cs

theorem failureByte_mode (m : Nat) :
    failureByte (modeCheck m :: cs) = if m ∉ [0x1, 0x2, 0x4, 0x7, 0x8] then some 0x1C else failureByte cs :=
  failureByte_cons (decide_eq_true_iff.trans (by simp only [List.mem_cons, List.not_mem_nil, or_false, not_not])) cs

theorem failureByte_databufRange :
    failureByte (databufRangeCheck s :: cs) =
      if 4096 < s.arg0.toNat + s.arg1.toNat then some 0x18 else failureByte cs :=
  failureByte_le _ _ _ cs

theorem failureByte_plen :
    failureByte (plenCheck s :: cs) = if 8192 < s.plen.toNat then some 0x18 else failureByte cs :=
  failureByte_le _ _ _ cs

theorem failureByte_eci :
    failureByte (eciCheck s :: cs) = if 1000000 ≤ s.arg0.toNat then some 0x16 else failureByte cs :=
  failureByte_lt _ _ _ cs

theorem failureByte_tableRoom :
    failureByte (tableRoomCheck s :: cs) = if 16 ≤ s.segCnt.toNat then some 0x1A else failureByte cs :=
  failureByte_lt _ _ _ cs

theorem failureByte_tableFilled :
    failureByte (tableFilledCheck s :: cs) = if s.segCnt.toNat = 0 then some 0x15 else failureByte cs :=
  failureByte_cons (decide_eq_true_iff.trans Nat.one_le_iff_ne_zero) cs

/-- R192, checks 1 and 2. -/
theorem failureByte_seg : failureByte [payloadRangeCheck s, tableRoomCheck s] = segViolation s := by
  rw [payloadRangeCheck, failureByte_le, failureByte_tableRoom]
  rfl

/-- R366, order 3: the versions of CFG. -/
theorem failureByte_cfgVersions :
    failureByte (cfgVersionCheck s :: cfgOrderCheck s :: cs) =
      if ¬(LegalVersion s.cfg.minVer.toNat ∧ LegalVersion s.cfg.maxVer.toNat) then some 0x11
      else if s.cfg.maxVer.toNat < s.cfg.minVer.toNat then some 0x12 else failureByte cs := by
  have hver : (cfgVersionCheck s).ok = true ↔
      ¬¬(LegalVersion s.cfg.minVer.toNat ∧ LegalVersion s.cfg.maxVer.toNat) := by
    rw [not_not]
    exact Bool.and_eq_true_iff.trans (and_congr decide_eq_true_iff decide_eq_true_iff)
  rw [failureByte_cons hver, cfgOrderCheck, failureByte_le]
  rfl

theorem failureByte_negotCfg : failureByte [cfgVersionCheck s, cfgOrderCheck s] = cfgViolation s false := by
  simp only [failureByte_cfgVersions, cfgViolation, Bool.false_eq_true, false_and, if_false, failureByte_nil]

theorem failureByte_cfgChecks : failureByte (cfgChecks s) = cfgViolation s true := by
  rw [cfgChecks, failureByte_cfgVersions, cfgMaskCheck, failureByte_selector, cfgViolation]
  simp only [true_and, failureByte_nil]

/-- R281: a legal size byte is one that `legalSize` takes. -/
theorem legalSize_iff (size : Nat) : legalSize size = true ↔ LegalSide size := by
  simp only [legalSize, decide_eq_true_eq, LegalSide, List.mem_range'_1]
  refine ⟨fun h => ⟨(size - 17) / 4, by omega⟩, ?_⟩
  rintro ⟨v, hv, rfl⟩
  omega

theorem failureByte_matrix :
    failureByte [matrixCheck s] = if LegalSide s.matrixSize then none else some 0x1B := by
  rw [failureByte_last]
  exact if_congr (legalSize_iff _) rfl rfl

theorem failureByte_matrixPair :
    failureByte [matrixPairCheck s] =
      if LegalSide s.matrixSize ∧ s.funcmapSize = s.matrixSize then none else some 0x1B := by
  rw [failureByte_last]
  exact if_congr (Bool.and_eq_true_iff.trans (and_congr (legalSize_iff _) decide_eq_true_iff)) rfl rfl

end codes

/-! ### The first check that fails -/

/-- R366: the ERRCODE of a command's first failing check is the contract violation that the rules give. -/
theorem failureByte_checksOf (i : Instr) (s : State) : failureByte (checksOf i s) = violationOf i s := by
  cases i with
  | nop | gfmul | segclr => rfl
  | rsdiv => exact failureByte_degree [] _
  | rsrem => simp only [checksOf, violationOf, failureByte_degree, failureByte_databufRange, failureByte_nil]
  | segauto | segbyte => exact failureByte_seg s
  | segnum | segalnum =>
    exact (failureByte_append [_, _] [_]).trans (congrArg₂ _ (failureByte_seg s) (failureByte_last _))
  | segeci => simp only [checksOf, violationOf, failureByte_eci, failureByte_tableRoom, failureByte_nil]
  | negot =>
    exact (failureByte_append [_, _] [_]).trans
      (congrArg₂ _ (failureByte_negotCfg s) (failureByte_tableFilled s []))
  | assemble =>
    simp only [checksOf, violationOf, failureByte_version, failureByte_ecl, failureByte_tableFilled, failureByte_nil]
  | tblq | interleave => simp only [checksOf, violationOf, failureByte_version, failureByte_ecl, failureByte_nil]
  | alignq | minit => exact failureByte_version [] _
  | ccbq => simp only [checksOf, violationOf, failureByte_mode, failureByte_version, failureByte_nil]
  | mplace => exact failureByte_matrixPair s
  | mlight | penalty => exact failureByte_matrix s
  | mask => simp only [checksOf, violationOf, failureByte_mask, failureByte_matrixPair]
  | format => simp only [checksOf, violationOf, failureByte_ecl, failureByte_mask, failureByte_matrix]
  | mselect => simp only [checksOf, violationOf, failureByte_ecl, failureByte_selector, failureByte_matrixPair]
  | encseg =>
    exact (failureByte_append _ _).trans (congrArg₂ _ (failureByte_cfgChecks s) (failureByte_tableFilled s []))
  | enctext | encbin =>
    exact (failureByte_append _ _).trans (congrArg₂ _ (failureByte_cfgChecks s) (failureByte_plen s []))

/-! ### Outcomes -/

/-- The mnemonics of the commands that can end not encodable with a code (R361). -/
def failMnemonics : FailCode → List String
  | .segTooLarge => ["SEGAUTO", "SEGNUM", "SEGALNUM", "SEGBYTE", "SEGECI", "ENCTEXT", "ENCBIN"]
  | .noFit => ["NEGOT", "ASSEMBLE", "ENCSEG", "ENCTEXT", "ENCBIN"]

/-- A command that can end not encodable with code `c`. -/
abbrev MayFailWith (i : Instr) (c : FailCode) : Prop := i.mnemonic ∈ failMnemonics c

/-- How the body of a command ends: in success, or not encodable with a code of that command. -/
inductive BodyEnds (i : Instr) : State → Prop where
  | success (u : State) : BodyEnds i (u.finish .success)
  | notEncodable (u : State) (c : FailCode) (h : MayFailWith i c) : BodyEnds i (u.finish (.notEncodable c))

theorem bodyEnds_segFinish {i : Instr} (h : MayFailWith i .segTooLarge) (s : State) (mode : SegMode)
    (nchars : Nat) (bits : List Bool) : BodyEnds i (s.segFinish mode nchars bits) := by
  rcases segFinish_cases s mode nchars bits with ⟨_, he⟩ | ⟨_, he⟩ <;> rw [he]
  · exact .success _
  · exact .notEncodable _ _ h

theorem bodyEnds_encodeCore {i : Instr} (h : MayFailWith i .noFit) (s : State) : BodyEnds i s.encodeCore := by
  unfold State.encodeCore
  split
  · exact .notEncodable _ _ h
  · exact .success _

theorem bodyEnds_encodeSegment {i : Instr} (hseg : MayFailWith i .segTooLarge) (hfit : MayFailWith i .noFit)
    (s : State) (mode : SegMode) (nchars : Nat) (bits : List Bool) : BodyEnds i (s.encodeSegment mode nchars bits) := by
  unfold State.encodeSegment
  split
  · exact .notEncodable _ _ hseg
  · exact bodyEnds_encodeCore hfit _

/-- R152: a command is its checks in order, then a body that ends in no contract violation. -/
theorem exec_checked (i : Instr) (s : State) :
    ∃ body, exec i s = .next (s.checked (checksOf i s) body) ∧ BodyEnds i (body s) := by
  cases i with
  | nop => exact ⟨fun s => s.complete, rfl, .success _⟩
  | gfmul x y => exact ⟨fun s => (s.setRes0 ((gfMul x y).setWidth 32)).complete, rfl, .success _⟩
  | segclr => exact ⟨fun s => (s.setSegCounts 0 0).complete, rfl, .success _⟩
  | rsdiv | rsrem | tblq | alignq | ccbq | interleave | minit | mplace | mlight | mask | format | penalty | mselect =>
    exact ⟨_, rfl, .success _⟩
  | segauto | segnum | segalnum | segbyte | segeci =>
    exact ⟨_, rfl, bodyEnds_segFinish (by decide) s _ _ _⟩
  | negot =>
    refine ⟨_, rfl, ?_⟩
    cases s.negotiated with
    | none => exact .notEncodable _ _ (by decide)
    | some r => exact .success _
  | assemble v e =>
    refine ⟨_, rfl, ?_⟩
    cases fitsAt s.segs e v with
    | none => exact .notEncodable _ _ (show "ASSEMBLE" ∈ _ by decide)
    | some t => exact .success _
  | encseg => exact ⟨_, rfl, bodyEnds_encodeCore (by decide) s⟩
  | enctext | encbin => exact ⟨_, rfl, bodyEnds_encodeSegment (by decide) (by decide) s _ _ _⟩

/-- The completion updates, as the statements write them (R151). -/
theorem finish_eq_withOutcome (s : State) (o : CmdOutcome) : s.finish o = s.withOutcome o.isFail o.isErr o.byte := rfl

/-- A body records no contract violation, and a not encodable outcome only with a code of its command. -/
theorem BodyEnds.outcome {i : Instr} {t : State} (h : BodyEnds i t) :
    t.status.err = false ∧ (t.status.fail = true →
      MayFailWith i .segTooLarge ∧ t.errcode = 0x01 ∨ MayFailWith i .noFit ∧ t.errcode = 0x02) := by
  cases h with
  | success u => exact ⟨rfl, fun hf => nomatch hf⟩
  | notEncodable u c hc =>
    refine ⟨rfl, fun _ => ?_⟩
    cases c with
    | segTooLarge => exact .inl ⟨hc, rfl⟩
    | noFit => exact .inr ⟨hc, rfl⟩

/-- Settles O8: a command runs `checksOf` first, whose first failure `violationOf` names, and then a body that records
no contract violation. -/
theorem firstFailingCheckDecides : Obligations.FirstFailingCheckDecides := by
  intro i s
  obtain ⟨body, hexec, hends⟩ := exec_checked i s
  rw [hexec, ← failureByte_checksOf, failureByte]
  cases hf : firstFailure (checksOf i s) with
  | some c =>
    rw [checked_of_fail s hf, finish_eq_withOutcome]
    refine ⟨fun b hb => ?_, fun hn => nomatch hn⟩
    cases hb
    rfl
  | none =>
    rw [checked_of_pass s hf]
    exact ⟨fun _ hb => (by cases hb), fun _ => ⟨_, rfl, hends.outcome⟩⟩

/-! ### Acceptance -/

/-- Settles O5: a well-formed write to CMD is `accept` while Idle and dropped while Busy; a narrow one is malformed. -/
theorem acceptanceLatchesTheWord : Obligations.AcceptanceLatchesTheWord := by
  intro s v
  refine ⟨fun hi => ⟨s.accept v, hostWrite_register s v (by decide) (by decide) (.inl hi), rfl, rfl⟩,
    fun w hw => ?_, ?_, ?_⟩
  · exact hostWrite_dropped v (by decide) (by rw [busy_of_eng hw]; rfl)
  · rw [hostWrite_malformed s v (by decide)]
  · rw [hostWrite_malformed s v (by decide)]

/-! ### NOP and SEGCLR -/

/-- Settles O22: neither command has a check; NOP completes, and SEGCLR completes on the state with both counts 0. -/
theorem nopAndSegclrComplete : Obligations.NopAndSegclrComplete := fun s =>
  ⟨congrArg Host.Outcome.next (finish_eq_withOutcome s .success),
    congrArg Host.Outcome.next (finish_eq_withOutcome (s.setSegCounts 0 0) .success)⟩

end Sys2Proof.Machine
end

section
/-! PROOFS. The obligations of the GF(256) and Reed-Solomon family (spec/41_gf_rs.md): the field laws of the multiplier,
GFMUL as a reduced polynomial product, the generator polynomial, and the remainder as long division. -/

namespace Sys2Proof.Machine

/-! ### The multiplier as a Horner scheme in gfDouble -/

/-- R160's reduction step as a shift and a conditional exclusive-or. -/
theorem gfDouble_eq (z : Byte) : gfDouble z = (z <<< 1) ^^^ (if z.msb then 0x1D else 0) := by
  revert z
  decide +kernel

theorem gfDouble_xor (z w : Byte) : gfDouble (z ^^^ w) = gfDouble z ^^^ gfDouble w := by
  simp only [gfDouble_eq, BitVec.shiftLeft_xor_distrib, BitVec.msb_xor]
  have hbit : ∀ p q : Bool, (if (p ^^ q) = true then 0x1D else 0 : Byte) =
      (if p then 0x1D else 0) ^^^ (if q then 0x1D else 0) := by decide
  rw [hbit]
  ac_rfl

@[simp] theorem one_gfMul (y : Byte) : gfMul 1#8 y = y := by
  revert y
  decide +kernel

theorem gfMul_xor_left (a b y : Byte) : gfMul (a ^^^ b) y = gfMul a y ^^^ gfMul b y := by
  refine List.foldl_hom₂ _ (fun z w : Byte => z ^^^ w) _ _ _ (0 : Byte) (0 : Byte) fun z w k => ?_
  rw [gfDouble_xor]
  split
  · ac_rfl
  · simp only [BitVec.ofNat_eq_ofNat, BitVec.xor_zero]

theorem gfMul_gfDouble_left (a y : Byte) : gfMul (gfDouble a) y = gfDouble (gfMul a y) := by
  refine List.foldl_hom gfDouble (init := (0 : Byte)) fun z k => ?_
  rw [gfDouble_xor]
  split <;> rfl

/-- Every byte is built from 1 by doubling and exclusive-or: R160's loop builds `gfMul 1 y`, which is `y`, that way. -/
theorem byte_induction {P : Byte → Prop} (one : P 1#8) (double : ∀ a, P a → P (gfDouble a))
    (xor : ∀ a b, P a → P b → P (a ^^^ b)) (y : Byte) : P y := by
  have zero : P 0#8 := xor 1#8 1#8 one one
  rw [← one_gfMul y]
  refine List.foldlRecOn _ _ zero fun z hz k _ => xor _ _ (double z hz) ?_
  split
  · exact one
  · exact zero

/-! ### The field laws (R161) -/

theorem gfMul_xor_right (a b c : Byte) : gfMul a (b ^^^ c) = gfMul a b ^^^ gfMul a c := by
  induction a using byte_induction with
  | one => simp
  | double a ih => simp only [gfMul_gfDouble_left, ih, gfDouble_xor]
  | xor a a' ih ih' => simp only [gfMul_xor_left, ih, ih']; ac_rfl

theorem gfMul_gfDouble_right (a b : Byte) : gfMul a (gfDouble b) = gfDouble (gfMul a b) := by
  induction a using byte_induction with
  | one => simp
  | double a ih => simp only [gfMul_gfDouble_left, ih]
  | xor a a' ih ih' => simp only [gfMul_xor_left, ih, ih', gfDouble_xor]

@[simp] theorem gfMul_one (a : Byte) : gfMul a 1#8 = a := by
  induction a using byte_induction with
  | one => exact one_gfMul 1
  | double a ih => rw [gfMul_gfDouble_left, ih]
  | xor a a' ih ih' => rw [gfMul_xor_left, ih, ih']

theorem gfMul_comm (a b : Byte) : gfMul a b = gfMul b a := by
  induction a using byte_induction with
  | one => simp
  | double a ih => rw [gfMul_gfDouble_left, gfMul_gfDouble_right, ih]
  | xor a a' ih ih' => rw [gfMul_xor_left, gfMul_xor_right, ih, ih']

theorem gfMul_assoc (a b c : Byte) : gfMul (gfMul a b) c = gfMul a (gfMul b c) := by
  induction a using byte_induction with
  | one => simp
  | double a ih => simp only [gfMul_gfDouble_left, ih]
  | xor a a' ih ih' => simp only [gfMul_xor_left, ih, ih']

@[simp] theorem gfMul_zero (a : Byte) : gfMul a 0#8 = 0#8 := by
  simpa using gfMul_xor_right a 0 0

@[simp] theorem zero_gfMul (a : Byte) : gfMul 0#8 a = 0#8 := by rw [gfMul_comm, gfMul_zero]

/-! ### The powers of 0x02 -/

theorem gfMul_two (a : Byte) : gfMul a 0x02 = gfDouble a := by
  rw [show (0x02 : Byte) = gfDouble 1#8 from rfl, gfMul_gfDouble_right, gfMul_one]

theorem gfPow_two (i : Nat) : gfPow 0x02 i = gfDouble^[i] 1#8 := by
  induction i with
  | zero => rfl
  | succ i ih => rw [gfPow, ih, gfMul_two, Function.iterate_succ_apply']

theorem gfPow_add (a : Byte) (m n : Nat) : gfPow a (m + n) = gfMul (gfPow a m) (gfPow a n) := by
  induction n with
  | zero => simp [gfPow]
  | succ n ih => rw [← Nat.add_assoc, gfPow, ih, gfMul_assoc, gfPow]

/-- The 255 powers of 0x02 from the 0th on, each by one doubling of the one before. -/
def powersOfTwo : List Byte := List.iterate gfDouble 1#8 255

theorem mem_powersOfTwo {a : Byte} : a ∈ powersOfTwo ↔ ∃ i < 255, gfPow 0x02 i = a := by
  simp only [powersOfTwo, List.mem_iterate, gfPow_two, eq_comm]

theorem powersOfTwo_nodup : powersOfTwo.Nodup := by decide +kernel

theorem mem_powersOfTwo_of_ne_zero : ∀ a : Byte, a ≠ 0 → a ∈ powersOfTwo := by decide +kernel

theorem gfPow_two_injective {i j : Nat} (hi : i < 255) (hj : j < 255) (h : gfPow 0x02 i = gfPow 0x02 j) : i = j := by
  have hlen : powersOfTwo.length = 255 := List.length_iterate ..
  refine (powersOfTwo_nodup.getElem_inj_iff (hi := hlen ▸ hi) (hj := hlen ▸ hj)).1 ?_
  simpa only [powersOfTwo, List.getElem_iterate, ← gfPow_two] using h

theorem gfPow_two_255 : gfPow 0x02 255 = 1#8 := by rw [gfPow_two]; decide +kernel

theorem gfDouble_ne_zero : ∀ a : Byte, a ≠ 0 → gfDouble a ≠ 0 := by decide +kernel

theorem gfPow_two_ne_zero (i : Nat) : gfPow 0x02 i ≠ 0 := by
  induction i with
  | zero => decide
  | succ i ih => rw [gfPow, gfMul_two]; exact gfDouble_ne_zero _ ih

/-- The inverse of a power of 0x02 is the power that completes its exponent to 255. -/
theorem exists_gfMul_eq_one {a : Byte} (ha : a ≠ 0) : ∃ b, gfMul a b = 1#8 := by
  obtain ⟨i, hi, rfl⟩ := mem_powersOfTwo.1 (mem_powersOfTwo_of_ne_zero a ha)
  exact ⟨gfPow 0x02 (255 - i), by rw [← gfPow_add, Nat.add_sub_cancel' hi.le, gfPow_two_255]⟩

theorem gfMul_inverse_unique {a b b' : Byte} (h : gfMul a b = 1#8) (h' : gfMul a b' = 1#8) : b' = b :=
  calc b' = gfMul (gfMul a b) b' := by rw [h, one_gfMul]
    _ = gfMul b (gfMul a b') := by rw [gfMul_comm a b, gfMul_assoc]
    _ = b := by rw [h', gfMul_one]

/-- Settles O23: the laws hold of 1, of sums and of doubles, hence of every byte; 255 doublings from 1 pass through
every non-zero byte once. -/
theorem gfFieldLaws : Obligations.GfFieldLaws := by
  refine ⟨gfMul_comm, gfMul_assoc, gfMul_xor_right, fun a => BitVec.xor_self, fun a => ⟨gfMul_one a, gfMul_zero a⟩,
    fun a ha => ?_, fun a ha => ?_, gfPow_two_ne_zero, gfPow_two_255⟩
  · obtain ⟨b, hb⟩ := exists_gfMul_eq_one ha
    exact ⟨b, hb, fun b' => gfMul_inverse_unique hb⟩
  · obtain ⟨i, hi, hia⟩ := mem_powersOfTwo.1 (mem_powersOfTwo_of_ne_zero a ha)
    exact ⟨i, hi, hia, fun j hj hja => gfPow_two_injective hj hi (hja.trans hia.symm)⟩

/-! ### The multiplier as a reduced polynomial product -/

theorem reduce11D_xor (z w : Nat) : reduce11D (z ^^^ w) = reduce11D z ^^^ reduce11D w := by
  refine List.foldl_hom₂ _ (fun z w : Nat => z ^^^ w) _ _ _ z w fun z w k => ?_
  simp only [Nat.testBit_xor]
  cases z.testBit (14 - k) <;> cases w.testBit (14 - k) <;>
    simp [Nat.xor_assoc, Nat.xor_comm, Nat.xor_left_comm]

/-- A byte is the exclusive-or of its bits. -/
theorem foldl_bits (y : Byte) :
    (List.range 8).foldl (fun z i => if y.getLsbD i then z ^^^ (1#8 <<< i) else z) 0#8 = y := by
  revert y
  decide +kernel

/-- A property that holds of 0 and of the single bits and passes to sums holds of every byte. -/
theorem byte_bit_induction {P : Byte → Prop} (zero : P 0#8) (bit : ∀ i < 8, P (1#8 <<< i))
    (xor : ∀ a b, P a → P b → P (a ^^^ b)) (y : Byte) : P y := by
  rw [← foldl_bits y]
  refine List.foldlRecOn _ _ zero fun z hz i hi => ?_
  split
  · exact xor _ _ hz (bit i (List.mem_range.1 hi))
  · exact hz

/-- A single bit of `y` multiplies by a power of x: evaluated on the 64 pairs of single bits, and additive in `x`. -/
theorem gfMul_bit_eq_reduce {i : Nat} (hi : i < 8) (x : Byte) :
    (gfMul x (1#8 <<< i)).toNat = reduce11D (x.toNat <<< i) := by
  induction x using byte_bit_induction with
  | zero => rw [zero_gfMul, BitVec.toNat_ofNat, Nat.zero_mod, Nat.zero_shiftLeft]; rfl
  | bit j hj =>
    revert i j
    decide +kernel
  | xor a b iha ihb =>
    rw [gfMul_xor_left, BitVec.toNat_xor, iha, ihb, BitVec.toNat_xor, Nat.shiftLeft_xor_distrib, reduce11D_xor]

/-- One bit of `y` adds its shift of `x`, reduced. -/
def addReducedShift (x y : Byte) (z i : Nat) : Nat := if y.getLsbD i then z ^^^ reduce11D (x.toNat <<< i) else z

theorem gfMul_toNat_eq_foldl (x y : Byte) : (gfMul x y).toNat = (List.range 8).foldl (addReducedShift x y) 0 := by
  conv_lhs => rw [← foldl_bits y]
  refine (List.foldl_hom (init := 0#8) (fun z => (gfMul x z).toNat) fun z i => ?_).symm.trans (by rw [gfMul_zero]; rfl)
  simp only [addReducedShift]
  split
  case isTrue h => rw [gfMul_xor_right, BitVec.toNat_xor, gfMul_bit_eq_reduce (BitVec.lt_of_getLsbD h)]
  case isFalse => rfl

theorem reduce11D_polyProduct_eq_foldl (x y : Byte) :
    reduce11D (polyProduct x.toNat y.toNat) = (List.range 8).foldl (addReducedShift x y) 0 := by
  refine (List.foldl_hom (init := 0) reduce11D fun z i => ?_).symm
  simp only [addReducedShift, BitVec.testBit_toNat]
  split
  · rw [reduce11D_xor]
  · rfl

/-- Settles O24: product and specification add up the same reduced shifts of `x`, one for each bit of `y`; the command
has no check and completes with the product in RES0. -/
theorem gfmulIsProductModulo0x11D : Obligations.GfmulIsProductModulo0x11D := by
  intro x y s
  rw [reduce11D_polyProduct_eq_foldl, ← gfMul_toNat_eq_foldl, BitVec.ofNat_toNat]
  exact congrArg Host.Outcome.next (finish_eq_withOutcome (s.setRes0 ((gfMul x y).setWidth 32)) .success)

/-! ### Sums and multiples of blocks -/

@[simp] theorem addBlocks_nil : addBlocks [] [] = [] := rfl

@[simp] theorem addBlocks_cons (x y : Byte) (a b : List Byte) :
    addBlocks (x :: a) (y :: b) = (x ^^^ y) :: addBlocks a b := rfl

@[simp] theorem addBlocks_length (a b : List Byte) : (addBlocks a b).length = min a.length b.length :=
  List.length_zipWith

theorem addBlocks_comm (a b : List Byte) : addBlocks a b = addBlocks b a :=
  List.zipWith_comm_of_comm BitVec.xor_comm

theorem addBlocks_assoc (a b c : List Byte) : addBlocks (addBlocks a b) c = addBlocks a (addBlocks b c) := by
  induction a generalizing b c with
  | nil => simp [addBlocks]
  | cons x a ih =>
    cases b with
    | nil => simp [addBlocks]
    | cons y b =>
      cases c with
      | nil => simp [addBlocks]
      | cons z c => simp only [addBlocks_cons, ih, BitVec.xor_assoc]

theorem addBlocks_left_comm (a b c : List Byte) : addBlocks a (addBlocks b c) = addBlocks b (addBlocks a c) := by
  rw [← addBlocks_assoc, addBlocks_comm a b, addBlocks_assoc]

theorem addBlocks_append {a b : List Byte} (h : a.length = b.length) (a' b' : List Byte) :
    addBlocks (a ++ a') (b ++ b') = addBlocks a b ++ addBlocks a' b' := List.zipWith_append h

theorem addBlocks_self (a : List Byte) : addBlocks a a = List.replicate a.length 0#8 := by
  simp [addBlocks, List.zipWith_self]

theorem addBlocks_zero {a : List Byte} {n : Nat} (h : a.length = n) : addBlocks a (List.replicate n 0#8) = a := by
  induction a generalizing n with
  | nil => simp [addBlocks]
  | cons x a ih => subst h; simp [List.replicate_succ, ih rfl]

theorem addBlocks_cancel {a b : List Byte} (h : b.length = a.length) : addBlocks a (addBlocks b a) = b := by
  rw [addBlocks_left_comm, addBlocks_self, addBlocks_zero h]

@[simp] theorem scaleBlock_nil (c : Byte) : scaleBlock c [] = [] := rfl

@[simp] theorem scaleBlock_cons (c x : Byte) (a : List Byte) :
    scaleBlock c (x :: a) = gfMul c x :: scaleBlock c a := rfl

@[simp] theorem scaleBlock_length (c : Byte) (a : List Byte) : (scaleBlock c a).length = a.length := List.length_map _

@[simp] theorem scaleBlock_append (c : Byte) (a b : List Byte) :
    scaleBlock c (a ++ b) = scaleBlock c a ++ scaleBlock c b := List.map_append

@[simp] theorem scaleBlock_zeros (c : Byte) (n : Nat) : scaleBlock c (List.replicate n 0#8) = List.replicate n 0#8 := by
  simp [scaleBlock]

theorem zero_scaleBlock (a : List Byte) : scaleBlock 0#8 a = List.replicate a.length 0#8 := by
  rw [← List.map_const']
  exact List.map_congr_left fun x _ => zero_gfMul x

theorem scaleBlock_addBlocks (c : Byte) (a b : List Byte) :
    scaleBlock c (addBlocks a b) = addBlocks (scaleBlock c a) (scaleBlock c b) := by
  simp only [scaleBlock, addBlocks, List.map_zipWith, List.zipWith_map, gfMul_xor_right]

theorem scaleBlock_xor (c d : Byte) (a : List Byte) :
    scaleBlock (c ^^^ d) a = addBlocks (scaleBlock c a) (scaleBlock d a) := by
  rw [scaleBlock, scaleBlock, scaleBlock, addBlocks, List.zipWith_map, List.zipWith_self]
  exact List.map_congr_left fun x _ => gfMul_xor_left c d x

theorem scaleBlock_scaleBlock (c d : Byte) (a : List Byte) :
    scaleBlock c (scaleBlock d a) = scaleBlock (gfMul c d) a := by
  rw [scaleBlock, scaleBlock, List.map_map]
  exact List.map_congr_left fun x _ => (gfMul_assoc c d x).symm

/-! ### The generator polynomial (R162) -/

/-- The loop of R162 on one polynomial: coefficient `j` takes the next one plus its own multiple. -/
theorem divisorRound_cons (root c : Byte) (p : List Byte) :
    divisorRound root (c :: p) = addBlocks (p ++ [0]) ((c :: p).map fun c => gfMul c root) := by
  induction p generalizing c with
  | nil => simp [divisorRound]
  | cons c' p ih => rw [divisorRound, ih, BitVec.xor_comm]; rfl

/-- The loop multiplies by `x - root`, but for the leading coefficient, for which it has no room. -/
theorem timesLinear_cons (root c : Byte) (p : List Byte) :
    timesLinear root (c :: p) = c :: divisorRound root (c :: p) := by
  rw [divisorRound_cons]
  exact congrArg (· :: _) BitVec.xor_zero

theorem divisorRound_zero_cons (root : Byte) (p : List Byte) : divisorRound root (0 :: p) = timesLinear root p := by
  cases p with
  | nil => simp [divisorRound, timesLinear]
  | cons c p => simp [divisorRound, timesLinear_cons]

/-- With a leading 0 to spare, the loop multiplies by `x - root` exactly. -/
theorem divisorRound_zeros_append (root : Byte) (n : Nat) (p : List Byte) :
    divisorRound root (List.replicate (n + 1) 0 ++ p) = List.replicate n 0 ++ timesLinear root p := by
  induction n with
  | zero => exact divisorRound_zero_cons root p
  | succ n ih =>
    rw [List.replicate_succ, List.replicate_succ, List.cons_append, List.cons_append, divisorRound, ← List.cons_append,
      ← List.replicate_succ, ih]
    simp [List.replicate_succ]

/-- The last round of R162's outer loop, at the root that the rounds before it have reached. -/
theorem divisorRounds_succ (n i : Nat) (g : List Byte) :
    divisorRounds (n + 1) (gfPow 0x02 i) g = divisorRound (gfPow 0x02 (i + n)) (divisorRounds n (gfPow 0x02 i) g) := by
  induction n generalizing i g with
  | zero => rfl
  | succ n ih =>
    rw [divisorRounds, ← gfPow, ih, Nat.succ_add_eq_add_succ]
    rfl

theorem divisorRounds_one_succ (n : Nat) (g : List Byte) :
    divisorRounds (n + 1) 1 g = divisorRound (gfPow 0x02 n) (divisorRounds n 1 g) :=
  (divisorRounds_succ n 0 g).trans (by rw [Nat.zero_add]; rfl)

theorem generatorPoly_succ (d : Nat) : generatorPoly (d + 1) = timesLinear (gfPow 0x02 d) (generatorPoly d) := by
  rw [generatorPoly, List.range_succ, List.foldl_concat]
  rfl

theorem generatorPoly_eq_one_cons (d : Nat) : ∃ p, generatorPoly d = 1 :: p := by
  induction d with
  | zero => exact ⟨[], rfl⟩
  | succ d ih =>
    obtain ⟨p, hp⟩ := ih
    exact ⟨_, by rw [generatorPoly_succ, hp, timesLinear_cons]⟩

/-- After `n` rounds the block holds the product of the first `n` factors, zeros before it. -/
theorem divisorRounds_eq (m n : Nat) : divisorRounds n 1 (List.replicate (m + n) 0 ++ [1]) =
    List.replicate m 0 ++ generatorPoly n := by
  induction n generalizing m with
  | zero => rfl
  | succ n ih =>
    rw [show m + (n + 1) = m + 1 + n by omega, divisorRounds_one_succ, ih, divisorRound_zeros_append,
      generatorPoly_succ]

/-- R162: the divisor is the generator polynomial without its leading 1. -/
theorem one_cons_rsDivisor {d : Nat} (hd : 1 ≤ d) : 1 :: rsDivisor d = generatorPoly d := by
  obtain ⟨d, rfl⟩ := Nat.exists_eq_add_of_le' hd
  obtain ⟨p, hp⟩ := generatorPoly_eq_one_cons d
  have hrounds : divisorRounds d 1 (List.replicate d 0 ++ [1]) = generatorPoly d := by
    have h := divisorRounds_eq 0 d
    rwa [Nat.zero_add] at h
  rw [rsDivisor, Nat.add_sub_cancel, divisorRounds_one_succ, hrounds, generatorPoly_succ, hp, timesLinear_cons]

/-! ### The remainder (R164) -/

/-- One data byte: the remainder shifts and a multiple of the generator is added. -/
theorem remainderStep_eq (g r : List Byte) (b : Byte) :
    remainderStep g r b = addBlocks (r.tail ++ [0]) (scaleBlock (b ^^^ r.headD 0) g) := by
  simp only [remainderStep, addBlocks, scaleBlock, List.zipWith_map_right, gfMul_comm]

theorem remainderStep_scaleBlock (g r : List Byte) (b c : Byte) :
    remainderStep g (scaleBlock c r) (gfMul c b) = scaleBlock c (remainderStep g r b) := by
  simp only [remainderStep_eq, scaleBlock_addBlocks, scaleBlock_scaleBlock, scaleBlock_append, gfMul_xor_right]
  cases r <;> simp

theorem remainderStep_addBlocks (g : List Byte) {r r' : List Byte} (h : r.length = r'.length) (b b' : Byte) :
    remainderStep g (addBlocks r r') (b ^^^ b') = addBlocks (remainderStep g r b) (remainderStep g r' b') := by
  have hhead : (addBlocks r r').headD 0 = r.headD 0 ^^^ r'.headD 0 := 
    match r, r', h with
    | [], [], _ => rfl
    | _ :: _, _ :: _, _ => rfl
  have htail : (addBlocks r r').tail ++ [0] = addBlocks (r.tail ++ [0]) (r'.tail ++ [0]) := by
    rw [addBlocks_append (by simp [h])]
    exact congrArg (· ++ _) List.tail_zipWith
  have hfactor : b ^^^ b' ^^^ (r.headD 0 ^^^ r'.headD 0) = b ^^^ r.headD 0 ^^^ (b' ^^^ r'.headD 0) := by ac_rfl
  rw [remainderStep_eq, hhead, htail, hfactor, scaleBlock_xor, remainderStep_eq, remainderStep_eq, addBlocks_assoc,
    addBlocks_left_comm (r'.tail ++ [0]), ← addBlocks_assoc]

theorem rsRemainder_scaleBlock (c : Byte) (a g : List Byte) :
    rsRemainder (scaleBlock c a) g = scaleBlock c (rsRemainder a g) := by
  have h := List.foldl_hom (l := a) (init := List.replicate g.length 0#8) (scaleBlock c)
    (g₂ := fun r b => remainderStep g r (gfMul c b)) fun r b => remainderStep_scaleBlock g r b c
  rwa [scaleBlock_zeros, ← List.foldl_map] at h

theorem rsRemainder_zeros (n : Nat) (g : List Byte) (hg : 1 ≤ g.length) :
    rsRemainder (List.replicate n 0) g = List.replicate g.length 0 := by
  have h := rsRemainder_scaleBlock 0#8 (List.replicate n 0#8) g
  rwa [scaleBlock_zeros, zero_scaleBlock, rsRemainder_length hg] at h

theorem foldl_remainderStep_length {g : List Byte} (hg : 1 ≤ g.length) (a : List Byte) {r : List Byte}
    (hr : r.length = g.length) : (a.foldl (remainderStep g) r).length = g.length :=
  List.foldlRecOn (motive := fun r : List Byte => r.length = g.length) a _ hr fun _ h b _ => remainderStep_length b h hg

theorem foldl_remainderStep_addBlocks {g : List Byte} (hg : 1 ≤ g.length) {a b r r' : List Byte}
    (h : a.length = b.length) (hr : r.length = g.length) (hr' : r'.length = g.length) :
    (addBlocks a b).foldl (remainderStep g) (addBlocks r r') =
      addBlocks (a.foldl (remainderStep g) r) (b.foldl (remainderStep g) r') := by
  induction a generalizing b r r' with
  | nil =>
    obtain rfl := List.length_eq_zero_iff.1 h.symm
    rfl
  | cons x a ih =>
    obtain ⟨y, b, rfl⟩ := List.exists_cons_of_length_eq_add_one h.symm
    rw [addBlocks_cons, List.foldl_cons, remainderStep_addBlocks g (hr.trans hr'.symm)]
    exact ih (Nat.succ.inj h) (remainderStep_length x hr hg) (remainderStep_length y hr' hg)

theorem rsRemainder_addBlocks {a b g : List Byte} (hg : 1 ≤ g.length) (h : a.length = b.length) :
    rsRemainder (addBlocks a b) g = addBlocks (rsRemainder a g) (rsRemainder b g) := by
  have hz : (List.replicate g.length 0#8).length = g.length := List.length_replicate
  have hf := foldl_remainderStep_addBlocks hg h hz hz
  rwa [addBlocks_zero hz] at hf

/-- A step with `n` zeros after it, as one sum: the shift takes one more zero from them. -/
theorem remainderStep_append_zeros {g r : List Byte} {x : Byte} (hr : (x :: r).length = g.length) (b : Byte)
    (n : Nat) : remainderStep g (x :: r) b ++ List.replicate n 0#8 =
      addBlocks (r ++ List.replicate (n + 1) 0#8) (scaleBlock (b ^^^ x) g ++ List.replicate n 0#8) := by
  have hlen : (r ++ [0#8]).length = (scaleBlock (b ^^^ x) g).length := by simpa using hr
  rw [List.replicate_succ, List.append_cons, addBlocks_append hlen, addBlocks_zero List.length_replicate]
  exact congrArg (· ++ _) (remainderStep_eq g (x :: r) b)

/-- Long division: a run from remainder `r` leaves the remainder of `r` times a power of x, plus the data. The quotient
collects the factors of R164. -/
theorem exists_quotient {g : List Byte} (hg : 1 ≤ g.length) (a : List Byte) {r : List Byte} (hr : r.length = g.length) :
    ∃ q, q.length = a.length ∧ polyMul (1 :: g) q =
      addBlocks (a ++ a.foldl (remainderStep g) r) (r ++ List.replicate a.length 0#8) := by
  induction a generalizing r with
  | nil => exact ⟨[], rfl, by simp [polyMul, addBlocks_self, hr]⟩
  | cons b a ih =>
    obtain ⟨x, r, rfl⟩ := List.exists_cons_of_length_pos (hr ▸ hg)
    obtain ⟨q, hq, hmul⟩ := ih (remainderStep_length b hr hg)
    refine ⟨(b ^^^ x) :: q, congrArg Nat.succ hq, ?_⟩
    rw [polyMul, hmul, hq, remainderStep_append_zeros hr, ← addBlocks_assoc (a ++ _)]
    have hlen : (addBlocks (a ++ a.foldl (remainderStep g) (remainderStep g (x :: r) b))
        (r ++ List.replicate (a.length + 1) 0#8)).length =
          (scaleBlock (b ^^^ x) g ++ List.replicate a.length 0#8).length := by
      have hF := foldl_remainderStep_length hg a (remainderStep_length b hr hg)
      simp only [addBlocks_length, scaleBlock_length, List.length_append, List.length_replicate,
        List.length_cons] at hr ⊢
      omega
    simp only [scaleBlock_cons, List.cons_append, addBlocks_cons, List.foldl_cons, List.length_cons]
    exact congrArg₂ List.cons (by simp) (addBlocks_cancel hlen)

/-- R165: appending the remainder makes the data a multiple of the generator. -/
theorem exists_polyMul_eq_append_rsRemainder {g : List Byte} (hg : 1 ≤ g.length) (a : List Byte) :
    ∃ q, q.length = a.length ∧ polyMul (1 :: g) q = a ++ rsRemainder a g := by
  obtain ⟨q, hq, hmul⟩ := exists_quotient hg a (r := List.replicate g.length 0#8) List.length_replicate
  refine ⟨q, hq, hmul.trans ?_⟩
  rw [List.replicate_append_replicate]
  exact addBlocks_zero (by rw [List.length_append, foldl_remainderStep_length hg a List.length_replicate, Nat.add_comm])

theorem rsRemainder_one (a : List Byte) : rsRemainder a [1] = [a.foldl (· ^^^ ·) 0] := by
  refine List.foldl_hom (init := (0 : Byte)) (fun x => [x]) fun x b => ?_
  simp [remainderStep_eq, BitVec.xor_comm, gfMul_comm]

/-- Settles O26: both kinds of linearity are one step's, carried along the data; an all-zero block is 0 times itself;
the quotient is that of `exists_quotient` from remainder 0. -/
theorem remainderProperties : Obligations.RemainderProperties := fun g hg =>
  ⟨fun _ _ h => rsRemainder_addBlocks hg h, fun c a => rsRemainder_scaleBlock c a g, fun n => rsRemainder_zeros n g hg,
    fun a => exists_polyMul_eq_append_rsRemainder hg a, rsRemainder_one⟩

/-! ### RSDIV and RSREM (R167, R168) -/

theorem padTo30_getD (l : List Byte) (k : Nat) : (padTo30 l).toList.getD k 0 = if k < 30 then l.getD k 0 else 0 := by
  rw [padTo30, Vector.toList_ofFn, List.getD_eq_getElem?_getD, List.getElem?_ofFn]
  split <;> rfl

theorem padTo30_getD_of_le {l : List Byte} {k : Nat} (h : l.length ≤ k) : (padTo30 l).toList.getD k 0 = 0 := by
  rw [padTo30_getD, List.getD_eq_default _ _ h, ite_self]

theorem padTo30_take {l : List Byte} {d : Nat} (hl : l.length = d) (hd : d ≤ 30) : (padTo30 l).toList.take d = l := by
  subst hl
  refine List.ext_getElem (by simp [hd]) fun k _ hk => ?_
  simp [padTo30, hk]

/-- A command that ends by writing GEN succeeds and changes nothing else. -/
theorem setGen_complete_succeeds (s : State) (g : Vector Byte 30) :
    Succeeded s (s.setGen g).complete ∧ (s.setGen g).complete =
      { s with
        eng := (s.setGen g).complete.eng, status := (s.setGen g).complete.status
        errcode := (s.setGen g).complete.errcode, gen := (s.setGen g).complete.gen } :=
  ⟨⟨rfl, rfl, rfl⟩, rfl⟩

/-- A command that ends by writing REM succeeds and changes nothing else. -/
theorem setRem_complete_succeeds (s : State) (r : Vector Byte 30) :
    Succeeded s (s.setRem r).complete ∧ (s.setRem r).complete =
      { s with
        eng := (s.setRem r).complete.eng, status := (s.setRem r).complete.status
        errcode := (s.setRem r).complete.errcode, rem := (s.setRem r).complete.rem } :=
  ⟨⟨rfl, rfl, rfl⟩, rfl⟩

theorem degreeCheck_ok {d : Nat} (h1 : 1 ≤ d) (h2 : d ≤ 30) : (degreeCheck d).ok = true := decide_eq_true ⟨h1, h2⟩

/-- A command whose first failing check has code `c` (R366). -/
theorem exec_of_violation {i : Instr} {s : State} {c : Byte} (h : violationOf i s = some c) :
    exec i s = .next (s.withOutcome false true c) := (firstFailingCheckDecides i s).1 c h

theorem exec_rsdiv_of_legal {d : Nat} (h1 : 1 ≤ d) (h2 : d ≤ 30) (s : State) :
    exec (.rsdiv d) s = .next (s.setGen (padTo30 (rsDivisor d))).complete :=
  congrArg Host.Outcome.next (checked_of_pass s ((firstFailure_eq_none_iff _).2 (by simp [degreeCheck_ok h1 h2])))

theorem exec_rsrem_of_legal {d : Nat} (h1 : 1 ≤ d) (h2 : d ≤ 30) {s : State}
    (hr : s.arg0.toNat + s.arg1.toNat ≤ 4096) :
    exec (.rsrem d) s = .next
      (s.setRem (padTo30 (rsRemainder (s.databuf s.arg0.toNat s.arg1.toNat) (s.gen.toList.take d)))).complete := by
  have hrange : (databufRangeCheck s).ok = true := decide_eq_true hr
  exact congrArg Host.Outcome.next
    (checked_of_pass s ((firstFailure_eq_none_iff _).2 (by simp [degreeCheck_ok h1 h2, hrange])))

/-- Settles O25: `one_cons_rsDivisor`; the degree is the only check. -/
theorem rsdivBuildsGenerator : Obligations.RsdivBuildsGenerator := by
  refine fun d s => ⟨fun h1 h2 => ?_, fun h => exec_of_violation (by rw [violationOf, if_pos h])⟩
  obtain ⟨hsucc, hframe⟩ := setGen_complete_succeeds s (padTo30 (rsDivisor d))
  refine ⟨_, exec_rsdiv_of_legal h1 h2 s, hsucc, hframe, ?_, fun k hk => padTo30_getD_of_le ?_⟩
  · rw [← one_cons_rsDivisor h1]
    exact congrArg _ (padTo30_take (rsDivisor_length h1) h2)
  · rwa [rsDivisor_length h1]

/-- Settles O27: GEN's first `d` bytes are a divisor of degree `d`, so the remainder has `d` bytes and the quotient is
that of R165; the degree is checked before the range. -/
theorem rsremDividesDatabuf : Obligations.RsremDividesDatabuf := by
  refine fun d s => ⟨fun h1 h2 hr => ?_, fun h => exec_of_violation (by rw [violationOf, if_pos h]),
    fun h1 h2 hr => exec_of_violation (by rw [violationOf, if_neg (by omega), if_pos hr])⟩
  have hgen : (s.gen.toList.take d).length = d := by simp [h2]
  have hrem := (rsRemainder_length (hgen.symm ▸ h1) (s.databuf s.arg0.toNat s.arg1.toNat)).trans hgen
  obtain ⟨q, hq, hmul⟩ :=
    exists_polyMul_eq_append_rsRemainder (hgen.symm ▸ h1) (s.databuf s.arg0.toNat s.arg1.toNat)
  obtain ⟨hsucc, hframe⟩ := setRem_complete_succeeds s
    (padTo30 (rsRemainder (s.databuf s.arg0.toNat s.arg1.toNat) (s.gen.toList.take d)))
  refine ⟨_, q, exec_rsrem_of_legal h1 h2 hr, hsucc, hframe, hq.trans (readBytes_length ..), hmul.trans ?_,
    fun k hk => padTo30_getD_of_le (by rwa [hrem])⟩
  exact congrArg (_ ++ ·) (padTo30_take hrem h2).symm

end Sys2Proof.Machine
end

section
/-! PROOFS. The obligations of the segment family (spec/42_segment.md): what each packing function writes, and what the
SEG commands do where their segment fits and where it does not. -/

namespace Sys2Proof.Machine

/-! ### Groups of a packed string -/

theorem natOfBits_append (a b : List Bool) : natOfBits (a ++ b) = natOfBits a * 2 ^ b.length + natOfBits b := by
  induction b using List.reverseRecOn with
  | nil => simp [natOfBits]
  | append_singleton b c ih =>
    rw [← List.append_assoc, natOfBits_append_singleton, natOfBits_append_singleton, ih, List.length_append,
      List.length_singleton, Nat.pow_succ]
    ring

theorem natOfBits_bitsOf_of_lt {v n : Nat} (h : v < 2 ^ n) : natOfBits (bitsOf v n) = v := by
  rw [natOfBits_bitsOf, Nat.mod_eq_of_lt h]

/-- A packing that writes `w` bits for each `m` bytes: its string from group `k` on packs the bytes from there on. -/
theorem drop_pack {pack : List Byte → List Bool} {m w : Nat}
    (h : ∀ p, m ≤ p.length → (pack p).drop w = pack (p.drop m)) (k : Nat) {p : List Byte} (hk : m * k ≤ p.length) :
    (pack p).drop (w * k) = pack (p.drop (m * k)) := by
  induction k with
  | zero => rfl
  | succ k ih =>
    rw [Nat.mul_succ] at hk
    rw [Nat.mul_succ, ← List.drop_drop, ih (by omega), h _ (by rw [List.length_drop]; omega), List.drop_drop,
      Nat.mul_succ]

/-- The number in the first `n` bits of a packed string from bit `o` on, where the string from there on begins with it. -/
theorem bitsAt_of_drop {b rest : List Bool} {o n v : Nat} (h : b.drop o = bitsOf v n ++ rest) (hv : v < 2 ^ n) :
    bitsAt b o n = v := by
  rw [bitsAt, h, List.take_left' (bitsOf_length v n), natOfBits_bitsOf_of_lt hv]

/-- The byte at `k`, as the statements write it, heads the bytes from `k` on. -/
theorem drop_eq_getD_cons {p : List Byte} {k : Nat} (h : k < p.length) : p.drop k = p.getD k 0 :: p.drop (k + 1) := by
  rw [List.drop_eq_getElem_cons h, List.getD_eq_getElem _ _ h]

/-- A byte of a list whose bytes all pass. -/
theorem getD_of_all {p : List Byte} {f : Byte → Bool} (h : p.all f = true) {k : Nat} (hk : k < p.length) :
    f (p.getD k 0) = true := by
  rw [List.getD_eq_getElem _ _ hk]
  exact List.all_eq_true.1 h _ (List.getElem_mem hk)

/-! ### Digits -/

theorem digitValue_lt {b : Byte} (h : isDigit b = true) : digitValue b < 10 := by
  have := of_decide_eq_true h
  unfold digitValue
  omega

theorem packNum_length (p : List Byte) : (packNum p).length = (10 * p.length + 2) / 3 := by
  induction p using packNum.induct with
  | case1 | case2 | case3 => simp [packNum]
  | case4 a b c rest ih =>
    rw [packNum, List.length_append, bitsOf_length, ih]
    simp only [List.length_cons]
    omega

theorem packNum_drop_group (p : List Byte) (h : 3 ≤ p.length) : (packNum p).drop 10 = packNum (p.drop 3) :=
  match p, h with
  | _ :: _ :: _ :: _, _ => List.drop_left' (bitsOf_length _ _)

/-- A group of three digits (R184). -/
theorem bitsAt_packNum_three {p : List Byte} (hp : p.all isDigit = true) {k : Nat} (hk : 3 * k + 3 ≤ p.length) :
    bitsAt (packNum p) (10 * k) 10 = 100 * digitValue (p.getD (3 * k) 0) + 10 * digitValue (p.getD (3 * k + 1) 0)
      + digitValue (p.getD (3 * k + 2) 0) := by
  have h0 := digitValue_lt (getD_of_all hp (k := 3 * k) (by omega))
  have h1 := digitValue_lt (getD_of_all hp (k := 3 * k + 1) (by omega))
  have h2 := digitValue_lt (getD_of_all hp (k := 3 * k + 2) (by omega))
  refine bitsAt_of_drop (rest := packNum (p.drop (3 * k + 3))) ?_ (by omega)
  rw [drop_pack packNum_drop_group k (by omega), drop_eq_getD_cons (by omega), drop_eq_getD_cons (by omega),
    drop_eq_getD_cons (by omega)]
  rfl

/-- A last group of two digits (R184). -/
theorem bitsAt_packNum_two {p : List Byte} (hp : p.all isDigit = true) {k : Nat} (hk : 3 * k + 2 = p.length) :
    bitsAt (packNum p) (10 * k) 7 = 10 * digitValue (p.getD (3 * k) 0) + digitValue (p.getD (3 * k + 1) 0) := by
  have h0 := digitValue_lt (getD_of_all hp (k := 3 * k) (by omega))
  have h1 := digitValue_lt (getD_of_all hp (k := 3 * k + 1) (by omega))
  refine bitsAt_of_drop (rest := []) ?_ (by omega)
  rw [drop_pack packNum_drop_group k (by omega), drop_eq_getD_cons (by omega), drop_eq_getD_cons (by omega),
    List.drop_of_length_le (by omega), packNum, List.append_nil]

/-- A last group of one digit (R184). -/
theorem bitsAt_packNum_one {p : List Byte} (hp : p.all isDigit = true) {k : Nat} (hk : 3 * k + 1 = p.length) :
    bitsAt (packNum p) (10 * k) 4 = digitValue (p.getD (3 * k) 0) := by
  have h0 := digitValue_lt (getD_of_all hp (k := 3 * k) (by omega))
  refine bitsAt_of_drop (rest := []) ?_ (by omega)
  rw [drop_pack packNum_drop_group k (by omega), drop_eq_getD_cons (by omega), List.drop_of_length_le (by omega), packNum,
    List.append_nil]

/-! ### Alphanumeric characters -/

theorem isAlnum_iff (b : Byte) : isAlnum b = true ↔ b.toNat ∈ alnumSet := List.contains_iff_mem

theorem alnumValue_lt {b : Byte} (h : isAlnum b = true) : alnumValue b < 45 :=
  List.idxOf_lt_length_iff.2 ((isAlnum_iff b).1 h)

theorem packAlnum_length (p : List Byte) : (packAlnum p).length = (11 * p.length + 1) / 2 := by
  induction p using packAlnum.induct with
  | case1 | case2 => simp [packAlnum]
  | case3 a b rest ih =>
    rw [packAlnum, List.length_append, bitsOf_length, ih]
    simp only [List.length_cons]
    omega

theorem packAlnum_drop_group (p : List Byte) (h : 2 ≤ p.length) : (packAlnum p).drop 11 = packAlnum (p.drop 2) :=
  match p, h with
  | _ :: _ :: _, _ => List.drop_left' (bitsOf_length _ _)

/-- A group of two characters (R185). -/
theorem bitsAt_packAlnum_two {p : List Byte} (hp : p.all isAlnum = true) {k : Nat} (hk : 2 * k + 2 ≤ p.length) :
    bitsAt (packAlnum p) (11 * k) 11 = 45 * alnumValue (p.getD (2 * k) 0) + alnumValue (p.getD (2 * k + 1) 0) := by
  have h0 := alnumValue_lt (getD_of_all hp (k := 2 * k) (by omega))
  have h1 := alnumValue_lt (getD_of_all hp (k := 2 * k + 1) (by omega))
  refine bitsAt_of_drop (rest := packAlnum (p.drop (2 * k + 2))) ?_ (by omega)
  rw [drop_pack packAlnum_drop_group k (by omega), drop_eq_getD_cons (by omega), drop_eq_getD_cons (by omega)]
  rfl

/-- A last group of one character (R185). -/
theorem bitsAt_packAlnum_one {p : List Byte} (hp : p.all isAlnum = true) {k : Nat} (hk : 2 * k + 1 = p.length) :
    bitsAt (packAlnum p) (11 * k) 6 = alnumValue (p.getD (2 * k) 0) := by
  have h0 := alnumValue_lt (getD_of_all hp (k := 2 * k) (by omega))
  refine bitsAt_of_drop (rest := []) ?_ (by omega)
  rw [drop_pack packAlnum_drop_group k (by omega), drop_eq_getD_cons (by omega), List.drop_of_length_le (by omega),
    packAlnum, List.append_nil]

/-- The 45 characters have distinct values, each its index (R182). -/
theorem alnumValue_getD {k : Nat} (hk : k < 45) : alnumValue (BitVec.ofNat 8 (alnumSet.getD k 0)) = k := by
  revert k
  decide

/-! ### Bytes and ECI -/

theorem packByte_drop_group (p : List Byte) (h : 1 ≤ p.length) : (packByte p).drop 8 = packByte (p.drop 1) :=
  match p, h with
  | _ :: _, _ => List.drop_left' (bitsOf_length _ _)

/-- A byte is packed verbatim (R186). -/
theorem bitsAt_packByte {p : List Byte} {k : Nat} (hk : k < p.length) :
    bitsAt (packByte p) (8 * k) 8 = (p.getD k 0).toNat := by
  refine bitsAt_of_drop (rest := packByte (p.drop (k + 1))) ?_ (p.getD k 0).isLt
  rw [drop_pack packByte_drop_group k (by omega), Nat.one_mul, drop_eq_getD_cons hk]
  rfl

theorem packEci_length (v : Nat) :
    (packEci v).length = if v < 128 then 8 else if v < 16384 then 16 else 24 := by
  unfold packEci
  split_ifs <;> simp

/-- The marker of the form stands above the value (R187). -/
theorem natOfBits_packEci {v : Nat} (hv : v < 1000000) :
    natOfBits (packEci v) = if v < 128 then v else if v < 16384 then 0x8000 + v else 0xC00000 + v := by
  unfold packEci
  split_ifs with h8 h16
  · exact natOfBits_bitsOf_of_lt (by omega)
  · rw [natOfBits_append, natOfBits_bitsOf_of_lt (v := v) (by omega), bitsOf_length]
    rfl
  · rw [natOfBits_append, natOfBits_bitsOf_of_lt (v := v) (by omega), bitsOf_length]
    rfl

/-- Settles O28: each packing writes groups of one width, so bit `w * k` begins group `k`, whose value its width holds. -/
theorem segmentPacking : Obligations.SegmentPacking := by
  refine ⟨fun chars hchars => ?_, fun p hp => ⟨packNum_length p, fun k => bitsAt_packNum_three hp,
    fun k => bitsAt_packNum_two hp, fun k => bitsAt_packNum_one hp⟩, fun p hp => ⟨packAlnum_length p,
    fun k => bitsAt_packAlnum_two hp, fun k => bitsAt_packAlnum_one hp⟩, fun p => ⟨unpackBytes_length p,
    fun k => bitsAt_packByte⟩, fun v hv => ⟨packEci_length v, natOfBits_packEci hv⟩,
    fun s h => exec_of_violation (by rw [violationOf, if_pos h])⟩
  obtain rfl : chars = alnumSet := hchars.trans (by decide)
  exact ⟨rfl, isAlnum_iff, fun k => alnumValue_getD⟩

/-! ### The SEG commands -/

/-- The outcome of a SEG command whose checks pass: its segment appended, or not encodable. -/
abbrev RunsSegment (i : Instr) (s : State) (mode : SegMode) (nchars : Nat) (bits : List Bool) : Prop :=
  exec i s = .next (s.segFinish mode nchars bits)

/-- A segment that fits is appended (R189). -/
theorem RunsSegment.appends {i : Instr} {s : State} {mode : SegMode} {nchars : Nat} {bits : List Bool}
    (h : RunsSegment i s mode nchars bits) (hc : s.segCnt.toNat < 16) (hfit : SegmentFits s bits) :
    ∃ t, exec i s = .next t ∧ Succeeded s t ∧ Appended s t (modeIndicator mode) nchars bits := by
  rcases segFinish_cases s mode nchars bits with ⟨_, he⟩ | ⟨hno, _⟩
  · exact ⟨_, h.trans (congrArg _ he), ⟨rfl, rfl, rfl⟩, appended_of_fits mode nchars hc hfit⟩
  · exact absurd hfit hno

/-- A segment that does not fit records SEG_TOO_LARGE and nothing else (R188, R189). -/
theorem RunsSegment.tooLarge {i : Instr} {s : State} {mode : SegMode} {nchars : Nat} {bits : List Bool}
    (h : RunsSegment i s mode nchars bits) (hno : ¬SegmentFits s bits) :
    exec i s = .next (s.withOutcome true false 0x01) := by
  rcases segFinish_cases s mode nchars bits with ⟨hfit, _⟩ | ⟨_, he⟩
  · exact absurd hfit hno
  · exact h.trans (congrArg _ (he.trans (finish_eq_withOutcome s _)))

/-- A command with no contract violation runs its body (R152). -/
theorem checked_of_no_violation {i : Instr} {s : State} {body : State → State} (h : violationOf i s = none) :
    s.checked (checksOf i s) body = body s := by
  rw [← failureByte_checksOf, failureByte, Option.map_eq_none_iff] at h
  exact checked_of_pass s h

section ranges

variable {s : State} (hc : s.segCnt.toNat < 16) (hr : s.arg0.toNat + s.arg1.toNat ≤ 8192)
include hc hr

theorem segViolation_eq_none : segViolation s = none := by
  rw [segViolation, if_neg (by omega), if_neg (by omega)]

theorem runs_segnum (hd : s.argPayload.all isDigit = true) :
    RunsSegment .segnum s .numeric s.arg1.toNat (packNum s.argPayload) :=
  congrArg Host.Outcome.next (checked_of_no_violation (i := .segnum)
    (by rw [violationOf, segViolation_eq_none hc hr, if_pos hd]; rfl))

theorem runs_segalnum (ha : s.argPayload.all isAlnum = true) :
    RunsSegment .segalnum s .alphanumeric s.arg1.toNat (packAlnum s.argPayload) :=
  congrArg Host.Outcome.next (checked_of_no_violation (i := .segalnum)
    (by rw [violationOf, segViolation_eq_none hc hr, if_pos ha]; rfl))

theorem runs_segbyte : RunsSegment .segbyte s .byte s.arg1.toNat (packByte s.argPayload) :=
  congrArg Host.Outcome.next (checked_of_no_violation (i := .segbyte) (segViolation_eq_none hc hr))

theorem runs_segauto : RunsSegment .segauto s (autoMode s.argPayload) s.arg1.toNat (autoPack s.argPayload) :=
  congrArg Host.Outcome.next (checked_of_no_violation (i := .segauto) (segViolation_eq_none hc hr))

/-- R183: digits are packed as Numeric. -/
theorem runs_segauto_numeric (hd : s.argPayload.all isDigit = true) :
    RunsSegment .segauto s .numeric s.arg1.toNat (packNum s.argPayload) := by
  simpa only [autoMode, autoPack, hd, if_true] using runs_segauto hc hr

/-- R183: characters of the set that are not all digits are packed as Alphanumeric. -/
theorem runs_segauto_alnum (hd : s.argPayload.all isDigit = false) (ha : s.argPayload.all isAlnum = true) :
    RunsSegment .segauto s .alphanumeric s.arg1.toNat (packAlnum s.argPayload) := by
  simpa only [autoMode, autoPack, hd, ha, Bool.false_eq_true, if_false, if_true] using runs_segauto hc hr

/-- R183: bytes not all in the set are packed as Byte. -/
theorem runs_segauto_byte (hd : s.argPayload.all isDigit = false) (ha : s.argPayload.all isAlnum = false) :
    RunsSegment .segauto s .byte s.arg1.toNat (packByte s.argPayload) := by
  simpa only [autoMode, autoPack, hd, ha, Bool.false_eq_true, if_false] using runs_segauto hc hr

end ranges

theorem runs_segeci {s : State} (hc : s.segCnt.toNat < 16) (hv : s.arg0.toNat < 1000000) :
    RunsSegment .segeci s .eci 0 (packEci s.arg0.toNat) :=
  congrArg Host.Outcome.next (checked_of_no_violation (i := .segeci)
    (by rw [violationOf, if_neg (by omega), if_neg (by omega)]))

/-- Settles O29: with its checks passed each command runs its segment, and one that fits is appended. -/
theorem explicitSegmentCommandsAppend : Obligations.ExplicitSegmentCommandsAppend := fun _ hc =>
  ⟨fun hr => ⟨fun hd => (runs_segnum hc hr hd).appends hc, fun ha => (runs_segalnum hc hr ha).appends hc,
    (runs_segbyte hc hr).appends hc⟩, fun hv => (runs_segeci hc hv).appends hc⟩

/-- Settles O30: the three cases of `auto_mode` (R183). -/
theorem segautoDispatchesMode : Obligations.SegautoDispatchesMode := fun _ hc hr =>
  ⟨fun hd => (runs_segauto_numeric hc hr hd).appends hc, fun hd ha => (runs_segauto_alnum hc hr hd ha).appends hc,
    fun hd ha => (runs_segauto_byte hc hr hd ha).appends hc⟩

/-- Settles O31: a segment that does not fit is one `segFinish` refuses, whichever command runs it. -/
theorem oversizeSegmentChangesNothing : Obligations.OversizeSegmentChangesNothing := fun _ hc =>
  ⟨fun hr => ⟨fun hd hno => ⟨(runs_segnum hc hr hd).tooLarge hno, (runs_segauto_numeric hc hr hd).tooLarge hno⟩,
    fun ha hno => ⟨(runs_segalnum hc hr ha).tooLarge hno, fun hd => (runs_segauto_alnum hc hr hd ha).tooLarge hno⟩,
    fun hno => ⟨(runs_segbyte hc hr).tooLarge hno, fun ha hd => (runs_segauto_byte hc hr hd ha).tooLarge hno⟩⟩,
    fun hv => (runs_segeci hc hv).tooLarge⟩

end Sys2Proof.Machine
end

section
/-! PROOFS. Obligations of the bitstream family (spec/43_bitstream.md): R218's tables, the total bits of a segment list,
capacity negotiation and NEGOT. -/

namespace Sys2Proof.Machine

/-! ### The capacity tables -/

/-- R217, R218: a higher level holds less, and no level has fewer than 7 ECC codewords per block. -/
theorem level_tables {v : Nat} (hv : LegalVersion v) :
    dataCodewords v 1 < dataCodewords v 0 ∧ dataCodewords v 2 < dataCodewords v 1 ∧
      dataCodewords v 3 < dataCodewords v 2 ∧ ∀ e < 4, 7 ≤ eccPerBlock e v := by
  have h : ∀ v < 41, 1 ≤ v → dataCodewords v 1 < dataCodewords v 0 ∧ dataCodewords v 2 < dataCodewords v 1 ∧
      dataCodewords v 3 < dataCodewords v 2 ∧ ∀ e < 4, 7 ≤ eccPerBlock e v := by decide +kernel
  exact h v (Nat.lt_succ_of_le hv.2) hv.1

/-- Settles O32: the columns by evaluation; their relations are `level_tables` and `block_tables`. -/
theorem capacityTables : Obligations.CapacityTables := by
  refine ⟨rfl, rfl, rfl, rfl, rfl, rfl, rfl, rfl, rfl, rfl, rfl, rfl, rfl, rfl, fun v hv => ?_⟩
  have hv : LegalVersion v := by have := List.mem_range'_1.1 hv; exact ⟨by omega, by omega⟩
  obtain ⟨h10, h21, h32, hecc⟩ := level_tables hv
  refine ⟨rfl, rfl, h10, h21, h32, fun e he => ?_⟩
  obtain ⟨_, hshort, _, hsum, _, _, hmax⟩ := block_tables hv (Nat.le_of_lt_succ he)
  exact ⟨hsum, hshort, hecc e he, hmax⟩

/-- R213: the count widths of a mode in the three tiers. -/
def countRow (m : Nat) : List Nat :=
  if m = 0x1 then [10, 12, 14] else if m = 0x2 then [9, 11, 13] else if m = 0x4 then [8, 16, 16]
  else if m = 0x8 then [8, 10, 12] else [0, 0, 0]

/-- R213: a mode indicator has a count width in every version. -/
theorem ccb_of_mode {m : Nat} (hm : m ∈ [0x1, 0x2, 0x4, 0x7, 0x8]) (v : Nat) :
    ccb m v = some ((countRow m).getD (tier v) 0) := by
  have ht : tier v < 3 := by unfold tier; split_ifs <;> decide
  simp only [List.mem_cons, List.not_mem_nil, or_false] at hm
  unfold ccb
  generalize tier v = k at ht
  revert k
  rcases hm with rfl | rfl | rfl | rfl | rfl <;> decide

/-- A capacity in bits fits the register that reports it (R217). -/
theorem capacityBits_le {v e : Nat} (hv : LegalVersion v) (he : e ≤ 3) : capacityBits v e ≤ 29648 := by
  obtain ⟨_, _, _, hsum, hraw, _⟩ := block_tables hv he
  unfold capacityBits
  omega

/-- R217: a higher level holds fewer bits. -/
theorem capacityBits_lt {v m n : Nat} (hv : LegalVersion v) (hmn : m < n) (hn : n ≤ 3) :
    capacityBits v n < capacityBits v m := by
  obtain ⟨h10, h21, h32, _⟩ := level_tables hv
  unfold capacityBits
  interval_cases n <;> interval_cases m <;> omega

/-! ### The total bits of a segment list -/

/-- R219: the bits of one segment in version `v`: 4 of mode, its count field, its data. -/
def segTotal (v : Nat) (d : SegDesc) : Nat := 4 + (ccb d.mode.toNat v).getD 0 + d.bitLen.toNat

/-- R219: the segment's mode has a count field in version `v`, and it holds the character count. -/
def CountFits (v : Nat) (d : SegDesc) : Prop :=
  ∃ c, ccb d.mode.toNat v = some c ∧ d.numChars.toNat ≤ 2 ^ c - 1

theorem totalBitsFrom_cons (v t b : Nat) (d : SegDesc) (S : List SegDesc) :
    totalBitsFrom v t (d :: S) = some b ↔
      CountFits v d ∧ t + segTotal v d ≤ 32767 ∧ totalBitsFrom v (t + segTotal v d) S = some b := by
  unfold CountFits segTotal
  rw [totalBitsFrom]
  cases ccb d.mode.toNat v with
  | none => simp
  | some c =>
    simp only [Option.getD_some, ← Nat.add_assoc, Option.some.injEq, exists_eq_left']
    by_cases hcount : d.numChars.toNat ≤ 2 ^ c - 1
    · by_cases hsum : t + 4 + c + d.bitLen.toNat ≤ 32767
      · rw [if_neg (Nat.not_lt.2 hcount), if_neg (c := Config.segBitsMax < _) (Nat.not_lt.2 hsum)]
        exact ⟨fun h => ⟨hcount, hsum, h⟩, fun h => h.2.2⟩
      · rw [if_neg (Nat.not_lt.2 hcount), if_pos (c := Config.segBitsMax < _) (Nat.not_le.1 hsum)]
        exact ⟨nofun, fun h => absurd h.2.1 hsum⟩
    · rw [if_pos (Nat.not_le.1 hcount)]
      exact ⟨nofun, fun h => absurd h.1 hcount⟩

/-- Since the terms are not negative, every partial sum passes the test of R219 when the whole sum does. -/
theorem totalBitsFrom_eq_some_iff (v b : Nat) (S : List SegDesc) (t : Nat) (ht : t ≤ 32767) :
    totalBitsFrom v t S = some b ↔
      (∀ d ∈ S, CountFits v d) ∧ b = t + (S.map (segTotal v)).sum ∧ b ≤ 32767 := by
  induction S generalizing t with
  | nil =>
    simp only [totalBitsFrom, Option.some.injEq, List.not_mem_nil, false_implies, implies_true, true_and, List.map_nil,
      List.sum_nil, Nat.add_zero]
    omega
  | cons d S ih =>
    rw [totalBitsFrom_cons, List.forall_mem_cons, List.map_cons, List.sum_cons, ← Nat.add_assoc, and_assoc]
    constructor
    · rintro ⟨hd, hle, hS⟩
      exact ⟨hd, (ih _ hle).1 hS⟩
    · rintro ⟨hd, hS, hb, hle⟩
      have hsum : t + segTotal v d ≤ 32767 := by omega
      exact ⟨hd, hsum, (ih _ hsum).2 ⟨hS, hb, hle⟩⟩

theorem totalBits_eq_some_iff (S : List SegDesc) (v b : Nat) :
    totalBits S v = some b ↔ (∀ d ∈ S, CountFits v d) ∧ b = (S.map (segTotal v)).sum ∧ b ≤ 32767 := by
  rw [totalBits, totalBitsFrom_eq_some_iff v b S 0 (Nat.zero_le _), Nat.zero_add]

/-- Settles O33: `totalBits_eq_some_iff`, where every mode has a count field. -/
theorem totalBitsIsTheSum : Obligations.TotalBitsIsTheSum := by
  intro S v t _ hmode
  rw [totalBits_eq_some_iff]
  refine and_congr_left' (forall₂_congr fun d hd => ?_)
  rw [CountFits, ccb_of_mode (hmode d hd) v]
  exact ⟨fun ⟨_, hc, hn⟩ => Option.some.inj hc ▸ hn, fun hn => ⟨_, rfl, hn⟩⟩

/-! ### The first version that fits (R220) -/

theorem fitsAt_eq_some_iff (S : List SegDesc) (ecl v t : Nat) :
    fitsAt S ecl v = some t ↔ totalBits S v = some t ∧ t ≤ capacityBits v ecl := by
  unfold fitsAt
  cases totalBits S v with
  | none => exact ⟨nofun, fun h => nomatch h.1⟩
  | some u =>
    change (if u ≤ capacityBits v ecl then some u else none) = some t ↔ some u = some t ∧ t ≤ capacityBits v ecl
    split_ifs with hu
    · exact ⟨fun h => ⟨h, Option.some.inj h ▸ hu⟩, fun h => h.1⟩
    · exact ⟨nofun, fun ⟨h, ht⟩ => absurd (Option.some.inj h ▸ ht) hu⟩

theorem fitsAt_eq_none_iff (S : List SegDesc) (ecl v : Nat) :
    fitsAt S ecl v = none ↔ ¬∃ t, totalBits S v = some t ∧ t ≤ capacityBits v ecl := by
  simp only [Option.eq_none_iff_forall_ne_some, ne_eq, fitsAt_eq_some_iff, not_exists]

theorem negotiateLoop_eq_none_iff (S : List SegDesc) (ecl : Nat) (boost : Bool) (vs : List Nat) :
    negotiateLoop S ecl boost vs = none ↔ ∀ u ∈ vs, fitsAt S ecl u = none := by
  induction vs with
  | nil => simp [negotiateLoop]
  | cons u vs ih =>
    rw [negotiateLoop, List.forall_mem_cons]
    cases fitsAt S ecl u with
    | none => exact ih.trans (and_iff_right rfl).symm
    | some t => exact ⟨nofun, fun h => nomatch h.1⟩

/-- Over consecutive versions from `lo` on, the loop stops at the first that fits. -/
theorem negotiateLoop_eq_some_iff (S : List SegDesc) (ecl : Nat) (boost : Bool) (lo n v e t : Nat) :
    negotiateLoop S ecl boost (List.range' lo n) = some (v, e, t) ↔
      (lo ≤ v ∧ v < lo + n) ∧ fitsAt S ecl v = some t ∧ (∀ u, lo ≤ u → u < v → fitsAt S ecl u = none) ∧
        e = boostEcl t v ecl boost := by
  induction n generalizing lo with
  | zero => exact ⟨nofun, fun h => by omega⟩
  | succ n ih =>
    rw [List.range'_succ, negotiateLoop]
    cases hlo : fitsAt S ecl lo with
    | none =>
      refine (ih (lo + 1)).trans ⟨?_, ?_⟩
      · rintro ⟨hr, hf, hn, he⟩
        refine ⟨by omega, hf, fun u hu huv => ?_, he⟩
        rcases Nat.eq_or_lt_of_le hu with rfl | hu
        · exact hlo
        · exact hn u hu huv
      · rintro ⟨hr, hf, hn, he⟩
        have hne : lo ≠ v := by rintro rfl; simp [hlo] at hf
        exact ⟨by omega, hf, fun u hu => hn u (by omega), he⟩
    | some t' =>
      constructor
      · intro h
        cases h
        exact ⟨by omega, hlo, fun u hu huv => by omega, rfl⟩
      · rintro ⟨hr, hf, hn, rfl⟩
        obtain rfl : lo = v := by
          by_contra hne
          simp [hn lo (Nat.le_refl _) (by omega)] at hlo
        cases hlo.symm.trans hf
        rfl

/-! ### The boost (R221) -/

/-- The levels tried are those above the request. -/
theorem boostLevels_eq (ecl : Nat) : boostLevels ecl = List.range' (ecl + 1) (3 - ecl) := by
  unfold boostLevels
  rw [Nat.max_eq_right (by omega), Nat.add_sub_add_right 3 1]

/-- Over the levels above `e` the loop stops at the highest that holds the bits, since a higher one holds fewer. -/
theorem boostLoop_spec {t v : Nat} (hv : LegalVersion v) (k : Nat) {e : Nat} (hk : e + k = 3)
    (ht : t ≤ capacityBits v e) :
    e ≤ boostLoop t v e (List.range' (e + 1) k) ∧ boostLoop t v e (List.range' (e + 1) k) ≤ 3 ∧
      t ≤ capacityBits v (boostLoop t v e (List.range' (e + 1) k)) ∧
      ∀ n, boostLoop t v e (List.range' (e + 1) k) < n → n ≤ 3 → capacityBits v n < t := by
  induction k generalizing e with
  | zero =>
    obtain rfl : e = 3 := hk
    exact ⟨Nat.le_refl _, Nat.le_refl _, ht, fun n h1 h2 => absurd h2 (Nat.not_le.2 h1)⟩
  | succ k ih =>
    rw [List.range'_succ, boostLoop]
    split_ifs with hnext
    · obtain ⟨hle, rest⟩ := ih (by omega) hnext
      exact ⟨by omega, rest⟩
    · refine ⟨Nat.le_refl _, by omega, ht, fun n h1 h2 => ?_⟩
      have hnext := Nat.not_le.1 hnext
      rcases Nat.eq_or_lt_of_le (show e + 1 ≤ n from h1) with rfl | h
      · exact hnext
      · exact (capacityBits_lt hv h h2).trans hnext

/-- The level after boost is the one R221 describes, and no other is. -/
theorem boostEcl_eq_iff {t v ecl e : Nat} {boost : Bool} (hv : LegalVersion v) (hecl : ecl ≤ 3)
    (ht : t ≤ capacityBits v ecl) :
    e = boostEcl t v ecl boost ↔ (boost = false → e = ecl) ∧
      (boost = true → ecl ≤ e ∧ e ≤ 3 ∧ t ≤ capacityBits v e ∧ ∀ n, e < n → n ≤ 3 → capacityBits v n < t) := by
  cases boost with
  | false => simp [boostEcl]
  | true =>
    obtain ⟨h1, h2, h3, h4⟩ := boostLoop_spec hv (3 - ecl) (by omega) ht
    rw [boostEcl, if_pos rfl, boostLevels_eq]
    refine ⟨?_, fun h => ?_⟩
    · rintro rfl
      exact ⟨nofun, fun _ => ⟨h1, h2, h3, h4⟩⟩
    · obtain ⟨_, g2, g3, g4⟩ := h.2 rfl
      by_contra hne
      rcases Nat.lt_or_gt_of_ne hne with hlt | hlt
      · exact Nat.not_le.2 (g4 _ hlt h2) h3
      · exact Nat.not_le.2 (h4 _ hlt g2) g3

/-- Settles O34: the loop over the range stops at the first version that fits (`negotiateLoop_eq_some_iff`), and the
level is then the boosted one (`boostEcl_eq_iff`). -/
theorem negotiationTakesFirstFit : Obligations.NegotiationTakesFirstFit := by
  intro S ecl vmin vmax boost h1 hle h40 hecl
  have hlen : vmin + (vmax + 1 - vmin) = vmax + 1 := by omega
  refine ⟨fun v e t => ?_, ?_⟩
  · rw [negotiate, negotiateLoop_eq_some_iff, hlen, Nat.lt_succ_iff, fitsAt_eq_some_iff, and_assoc, and_assoc]
    simp only [fitsAt_eq_none_iff]
    refine and_congr_right fun hv1 => and_congr_right fun hv2 => and_congr_right fun _ =>
      and_congr_right fun ht => and_congr_right fun _ => ?_
    exact boostEcl_eq_iff ⟨by omega, by omega⟩ hecl ht
  · simp only [negotiate, negotiateLoop_eq_none_iff, List.mem_range'_1, hlen, Nat.lt_succ_iff, fitsAt_eq_none_iff,
      and_imp]
    rfl

/-! ### NEGOT -/

/-- What a successful negotiation answers: a version, a level, and the total bits at it, which it holds. -/
theorem negotiate_bounds {S : List SegDesc} {ecl vmin vmax v e t : Nat} {boost : Bool} (hmin : 1 ≤ vmin)
    (hle : vmin ≤ vmax) (hmax : vmax ≤ 40) (hecl : ecl ≤ 3) (h : negotiate S ecl vmin vmax boost = some (v, e, t)) :
    LegalVersion v ∧ e ≤ 3 ∧ totalBits S v = some t ∧ t ≤ capacityBits v e := by
  obtain ⟨h1, h2, htot, ht, _, hoff, hon⟩ :=
    ((negotiationTakesFirstFit S ecl vmin vmax boost hmin hle hmax hecl).1 v e t).1 h
  refine ⟨⟨by omega, by omega⟩, ?_⟩
  cases boost with
  | false => exact ⟨hoff rfl ▸ hecl, htot, hoff rfl ▸ ht⟩
  | true =>
    obtain ⟨_, he3, het, _⟩ := hon rfl
    exact ⟨he3, htot, het⟩

/-- `negotiate_bounds` for the segment table under a legal CFG. -/
theorem negotiated_bounds {s : State} (hc : CfgVersionsLegal s) {v e t : Nat} (h : s.negotiated = some (v, e, t)) :
    LegalVersion v ∧ e ≤ 3 ∧ totalBits s.segs v = some t ∧ t ≤ capacityBits v e :=
  negotiate_bounds hc.1.1 hc.2.2 hc.2.1.2 (Nat.le_of_lt_succ s.cfg.ecl.isLt) h

theorem totalBits_le {S : List SegDesc} {v t : Nat} (h : totalBits S v = some t) : t ≤ 32767 :=
  ((totalBits_eq_some_iff S v t).1 h).2.2

/-- A field holds a number of its range exactly. -/
theorem toNat_ofNat_of_lt {w n : Nat} (h : n < 2 ^ w) : (BitVec.ofNat w n).toNat = n := by
  rw [BitVec.toNat_ofNat, Nat.mod_eq_of_lt h]

theorem side_lt {v : Nat} (hv : v ≤ 40) : side v < 178 := by unfold side; omega

theorem violationOf_negot {s : State} (hc : CfgVersionsLegal s) (hs : 1 ≤ s.segCnt.toNat) :
    violationOf .negot s = none := by
  obtain ⟨hmin, hmax, hle⟩ := hc
  rw [violationOf, cfgViolation, if_neg (not_not.2 ⟨hmin, hmax⟩), if_neg (Nat.not_lt.2 hle), if_neg nofun,
    if_neg (Nat.one_le_iff_ne_zero.1 hs)]
  rfl

theorem exec_negot_of_some {s : State} (hc : CfgVersionsLegal s) (hs : 1 ≤ s.segCnt.toNat) {v e t : Nat}
    (h : s.negotiated = some (v, e, t)) :
    exec .negot s = .next ((s.setResult
      { version := BitVec.ofNat 6 v
        ecl := BitVec.ofNat 2 e
        mask := s.result.mask
        size := BitVec.ofNat 8 (side v) }).setRes (BitVec.ofNat 32 t) (BitVec.ofNat 32 (capacityBits v e))).complete :=
  congrArg Host.Outcome.next ((checked_of_no_violation (violationOf_negot hc hs)).trans (by rw [h]))

theorem exec_negot_of_none {s : State} (hc : CfgVersionsLegal s) (hs : 1 ≤ s.segCnt.toNat)
    (h : s.negotiated = none) :
    exec .negot s = .next
      (((s.setResult { version := 0, ecl := 0, mask := 0, size := 0 }).setRes 0 0).notEncodable .noFit) :=
  congrArg Host.Outcome.next ((checked_of_no_violation (violationOf_negot hc hs)).trans (by rw [h]))

/-- Settles O35: NEGOT writes what negotiation answers, and each number fits the field that holds it. -/
theorem negotReportsTheChoice : Obligations.NegotReportsTheChoice := by
  intro s hc hs
  refine ⟨fun v e b h => ?_, fun h => exec_negot_of_none hc hs h⟩
  obtain ⟨hv, he, htot, _⟩ := negotiated_bounds hc h
  have hv40 := hv.2
  have hside := side_lt hv40
  have hb := totalBits_le htot
  have hcap := capacityBits_le hv he
  refine ⟨_, exec_negot_of_some hc hs h, ⟨rfl, rfl, rfl⟩, toNat_ofNat_of_lt (w := 6) ?_, toNat_ofNat_of_lt (w := 2) ?_,
    rfl, toNat_ofNat_of_lt (w := 8) (n := side v) ?_, toNat_ofNat_of_lt (w := 32) ?_,
    toNat_ofNat_of_lt (w := 32) (n := capacityBits v e) ?_, rfl⟩ <;> omega

end Sys2Proof.Machine
end

section
/-! PROOFS. Obligations of the bitstream family (spec/43_bitstream.md): the concatenated and the assembled stream,
ASSEMBLE, and the table queries. -/

namespace Sys2Proof.Machine

/-! ### The concatenated stream (R222) -/

theorem segStream_length (s : State) (v : Nat) (d : SegDesc) : (s.segStream v d).length = segTotal v d := by
  simp only [State.segStream, State.segDataBits, List.length_append, bitsOf_length, readBitsMsb_length, segTotal]

theorem flatMap_segStream_length (s : State) (v : Nat) (S : List SegDesc) :
    (S.flatMap (s.segStream v)).length = (S.map (segTotal v)).sum := by
  simp only [List.length_flatMap, segStream_length]

theorem stream_length {s : State} {v b : Nat} (h : totalBits s.segs v = some b) : (s.stream v).length = b := by
  rw [State.stream, flatMap_segStream_length]
  exact ((totalBits_eq_some_iff _ v b).1 h).2.1.symm

/-- The segments before the `k`-th have a total too: it is a part of the whole sum. -/
theorem totalBits_take {S : List SegDesc} {v b : Nat} (h : totalBits S v = some b) (k : Nat) :
    totalBits (S.take k) v = some ((S.take k).map (segTotal v)).sum := by
  obtain ⟨hfit, hsum, hle⟩ := (totalBits_eq_some_iff S v b).1 h
  refine (totalBits_eq_some_iff _ v _).2 ⟨fun d hd => hfit d (List.mem_of_mem_take hd), rfl, ?_⟩
  rw [← List.take_append_drop k S, List.map_append, List.sum_append] at hsum
  omega

/-- From the total of the segments before it on, the stream goes on with the `k`-th segment. -/
theorem drop_stream {s : State} {k : Nat} {d : SegDesc} (hk : s.segs[k]? = some d) (v : Nat) :
    (s.stream v).drop ((s.segs.take k).map (segTotal v)).sum =
      s.segStream v d ++ (s.segs.drop (k + 1)).flatMap (s.segStream v) := by
  obtain ⟨hlt, rfl⟩ := List.getElem?_eq_some_iff.1 hk
  have hsplit : s.stream v =
      (s.segs.take k).flatMap (s.segStream v) ++ (s.segs.drop k).flatMap (s.segStream v) := by
    rw [← List.flatMap_append, List.take_append_drop, State.stream]
  rw [hsplit, List.drop_left' (flatMap_segStream_length s v _), List.drop_eq_getElem_cons hlt, List.flatMap_cons]

theorem readBitsMsb_getElem? (m : Memory) (base : Nat) {n j : Nat} (o : Nat) (hj : j < n) :
    (m.readBitsMsb base o n)[j]? = some (m.readBitMsb base (o + j)) := by
  induction n generalizing o j with
  | zero => exact absurd hj (Nat.not_lt_zero j)
  | succ n ih =>
    cases j with
    | zero => rfl
    | succ j =>
      rw [Memory.readBitsMsb, List.getElem?_cons_succ, ih (o + 1) (Nat.lt_of_succ_lt_succ hj), Nat.add_right_comm,
        Nat.add_assoc]

/-- Settles O36: at the total of the segments before it stand a segment's mode, count and data, one after another. -/
theorem streamLayout : Obligations.StreamLayout := by
  intro s v b h
  refine ⟨stream_length h, fun k d hk => ?_⟩
  obtain ⟨hfit, -, -⟩ := (totalBits_eq_some_iff _ v b).1 h
  obtain ⟨c, hc, hcount⟩ := hfit d (List.mem_of_getElem? hk)
  have hmode := drop_stream hk v
  rw [State.segStream, hc, Option.getD_some, List.append_assoc, List.append_assoc] at hmode
  have hnum := congrArg (List.drop 4) hmode
  rw [List.drop_drop, List.drop_left' (bitsOf_length _ _)] at hnum
  have hdata := congrArg (List.drop c) hnum
  rw [List.drop_drop, List.drop_left' (bitsOf_length _ _)] at hdata
  refine ⟨c, _, hc, totalBits_take h k, bitsAt_of_drop hmode d.mode.isLt,
    bitsAt_of_drop hnum (Nat.lt_of_le_pred (Nat.two_pow_pos c) hcount), fun j hj => ?_⟩
  rw [← List.getElem?_drop, hdata, List.getElem?_append_left (by rwa [State.segDataBits, readBitsMsb_length])]
  exact readBitsMsb_getElem? s.mem _ _ hj

/-! ### The assembled stream (R223, R224) -/

theorem packed_length {v e : Nat} {b : List Bool} (hb : b.length ≤ capacityBits v e) :
    (terminate (capacityBits v e) b).length / 8 = (b.length + min 4 (capacityBits v e - b.length) + 7) / 8 := by
  rw [(terminate_length (cap := capacityBits v e) (Nat.mul_mod_left _ _) hb).1, Nat.mul_div_cancel_left _ (by decide)]

/-- A bit of the whole bytes at the start of an assembled stream is one of the stream, or a zero after it. -/
theorem codewordBit_assembleBytes {v e : Nat} {b : List Bool} (hb : b.length ≤ capacityBits v e) {i : Nat}
    (hi : i < 8 * ((b.length + min 4 (capacityBits v e - b.length) + 7) / 8)) :
    codewordBit (assembleBytes v e b) i = b.getD i false := by
  have hlen := (terminate_length (cap := capacityBits v e) (Nat.mul_mod_left _ _) hb).1
  rw [codewordBit, assembleBytes, packed_length hb, List.getD_append _ _ _ _ (by rw [packBytes_length]; omega),
    codewordBit_packBytes hlen i hi, terminate_getD]

/-- After the whole bytes of the stream stand the pad codewords. -/
theorem assembleBytes_pad {v e : Nat} {b : List Bool} (hb : b.length ≤ capacityBits v e) {k : Nat}
    (h1 : (b.length + min 4 (capacityBits v e - b.length) + 7) / 8 ≤ k) (h2 : k < dataCodewords v e) :
    (assembleBytes v e b)[k]? = some (if (k - (b.length + min 4 (capacityBits v e - b.length) + 7) / 8) % 2 = 0
      then 0xEC else 0x11) := by
  rw [assembleBytes, packed_length hb, List.getElem?_append_right (by rwa [packBytes_length]), packBytes_length,
    padCodewords_getElem? _ _ (by omega)]

/-- Settles O37: the stream and its zeros fill whole bytes, and the pad codewords the rest of the capacity. -/
theorem assemblyFillsCapacity : Obligations.AssemblyFillsCapacity := by
  intro v e b _ _ hb
  obtain ⟨hlen, hle⟩ := terminate_length (cap := capacityBits v e) (Nat.mul_mod_left _ _) hb
  refine ⟨assembleBytes_length hb, ?_, fun i hi => codewordBit_assembleBytes hb ?_, fun i h1 h2 => ?_,
    fun k => assembleBytes_pad hb⟩
  · exact Nat.le_of_mul_le_mul_left (hlen ▸ hle.trans_eq (Nat.mul_comm _ _)) (by decide : 0 < 8)
  · omega
  · exact (codewordBit_assembleBytes hb h2).trans (List.getD_eq_default _ _ h1)

/-! ### ASSEMBLE -/

theorem violationOf_assemble {v e : Nat} {s : State} (hv : LegalVersion v) (he : e ≤ 3) (hs : 1 ≤ s.segCnt.toNat) :
    violationOf (.assemble v e) s = none := by
  rw [violationOf, if_neg (not_not.2 hv), if_neg (Nat.not_lt.2 he), if_neg (Nat.one_le_iff_ne_zero.1 hs)]

theorem exec_assemble_of_some {s : State} {v e t : Nat} (hv : LegalVersion v) (he : e ≤ 3) (hs : 1 ≤ s.segCnt.toNat)
    (h : fitsAt s.segs e v = some t) :
    exec (.assemble v e) s = .next
      ((s.assembleInto v e).setRes (BitVec.ofNat 32 t) (BitVec.ofNat 32 (capacityBits v e))).complete :=
  congrArg Host.Outcome.next ((checked_of_no_violation (violationOf_assemble hv he hs)).trans (by rw [h]))

theorem exec_assemble_of_none {s : State} {v e : Nat} (hv : LegalVersion v) (he : e ≤ 3) (hs : 1 ≤ s.segCnt.toNat)
    (h : fitsAt s.segs e v = none) : exec (.assemble v e) s = .next (s.notEncodable .noFit) :=
  congrArg Host.Outcome.next ((checked_of_no_violation (violationOf_assemble hv he hs)).trans (by rw [h]))

/-- The data codewords end before CWBUF begins. -/
theorem dataCodewords_le {v e : Nat} (hv : LegalVersion v) (he : e ≤ 3) : dataCodewords v e ≤ 3706 := by
  obtain ⟨_, _, _, hsum, hraw, _⟩ := block_tables hv he
  omega

theorem read_assembleInto_outside {s : State} {v e a : Nat} (hl : (s.stream v).length ≤ capacityBits v e)
    (ha : a < 0x4000 ∨ 0x4000 + dataCodewords v e ≤ a) : (s.assembleInto v e).mem.read a = s.mem.read a :=
  read_writeBytes_outside _ _ _ _ (by rwa [assembleBytes_length hl])

theorem databuf_assembleInto {s : State} {v e : Nat} (hv : LegalVersion v) (he : e ≤ 3)
    (hl : (s.stream v).length ≤ capacityBits v e) :
    (s.assembleInto v e).databuf 0 (dataCodewords v e) = assembleBytes v e (s.stream v) := by
  have hle := dataCodewords_le hv he
  have hlen := assembleBytes_length hl
  rw [State.databuf, ← hlen]
  exact readBytes_writeBytes _ _ _ (by decide) (by rw [hlen, Config.databufBase, Config.addressEnd]; omega)

/-- Settles O38: where the total fits, the stream has that length, so its codewords fill DATABUF's written part. -/
theorem assembleFillsDatabuf : Obligations.AssembleFillsDatabuf := by
  intro s v e hv he hs
  refine ⟨fun b htot hb => ?_, fun hno => ?_⟩
  · have hl : (s.stream v).length ≤ capacityBits v e := stream_length htot ▸ hb
    have hmax := totalBits_le htot
    have hcap := capacityBits_le hv he
    exact ⟨_, exec_assemble_of_some hv he hs ((fitsAt_eq_some_iff _ _ _ _).2 ⟨htot, hb⟩), ⟨rfl, rfl, rfl⟩,
      databuf_assembleInto hv he hl, toNat_ofNat_of_lt (w := 32) (by omega),
      toNat_ofNat_of_lt (w := 32) (n := capacityBits v e) (by omega), fun a => read_assembleInto_outside hl, rfl⟩
  · exact exec_assemble_of_none hv he hs
      ((fitsAt_eq_none_iff _ _ _).2 fun ⟨b, htot, hb⟩ => Nat.not_le.2 (hno b htot) hb)

/-! ### The table queries -/

theorem exec_ccbq_of_legal {m v : Nat} (hm : m ∈ [0x1, 0x2, 0x4, 0x7, 0x8]) (hv : LegalVersion v) (s : State) :
    exec (.ccbq m v) s = .next (s.setRes0 (BitVec.ofNat 32 ((ccb m v).getD 0))).complete :=
  congrArg Host.Outcome.next (checked_of_no_violation (i := .ccbq m v)
    (by rw [violationOf, if_neg (not_not.2 hm), if_neg (not_not.2 hv)]))

theorem exec_tblq_of_legal {v e : Nat} (hv : LegalVersion v) (he : e ≤ 3) (s : State) :
    exec (.tblq v e) s = .next (s.setRes
      (BitVec.ofNat 32 (dataCodewords v e ||| rawCodewords v <<< 16))
      (BitVec.ofNat 32 (eccPerBlock e v ||| numBlocks e v <<< 8 ||| bufLen v <<< 16))).complete :=
  congrArg Host.Outcome.next (checked_of_no_violation (i := .tblq v e)
    (by rw [violationOf, if_neg (not_not.2 hv), if_neg (Nat.not_lt.2 he)]))

theorem exec_alignq_of_legal {v : Nat} (hv : LegalVersion v) (s : State) :
    exec (.alignq v) s = .next (s.setRes
      (BitVec.ofNat 32 ((alignPositions v).getD 0 0 ||| (alignPositions v).getD 1 0 <<< 8 |||
        (alignPositions v).getD 2 0 <<< 16 ||| (alignPositions v).getD 3 0 <<< 24))
      (BitVec.ofNat 32 ((alignPositions v).getD 4 0 ||| (alignPositions v).getD 5 0 <<< 8 |||
        (alignPositions v).getD 6 0 <<< 16 ||| (alignPositions v).length <<< 24))).complete :=
  congrArg Host.Outcome.next (checked_of_no_violation (i := .alignq v) (by rw [violationOf, if_neg (not_not.2 hv)]))

/-- Fields side by side: a number below `2 ^ k` beside one that begins at bit `k`. -/
theorem or_shiftLeft_eq_add {a k : Nat} (h : a < 2 ^ k) (b : Nat) : a ||| b <<< k = a + b * 2 ^ k := by
  rw [Nat.or_comm, ← Nat.shiftLeft_add_eq_or_of_lt h, Nat.shiftLeft_eq, Nat.add_comm]

/-- R233: the word of two halves, bits 15:0 first. -/
theorem wordOfHalves_toNat {a b : Nat} (ha : a < 65536) (hb : b < 65536) :
    (BitVec.ofNat 32 (a ||| b <<< 16)).toNat = a + b * 65536 := by
  rw [or_shiftLeft_eq_add (k := 16) ha, toNat_ofNat_of_lt (by omega)]
  rfl

/-- R234: the word of four bytes, bits 7:0 first. -/
theorem wordOfBytes_toNat {a b c d : Nat} (ha : a < 256) (hb : b < 256) (hc : c < 256) (hd : d < 256) :
    (BitVec.ofNat 32 (a ||| b <<< 8 ||| c <<< 16 ||| d <<< 24)).toNat = a + b * 256 + c * 65536 + d * 16777216 := by
  rw [or_shiftLeft_eq_add (k := 8) ha, or_shiftLeft_eq_add (k := 16) (by omega),
    or_shiftLeft_eq_add (k := 24) (by omega), toNat_ofNat_of_lt (by omega)]
  rfl

/-- R218: no version has more than 81 blocks. -/
theorem numBlocks_le {v e : Nat} (hv : LegalVersion v) (he : e ≤ 3) : numBlocks e v ≤ 81 := by
  have h : ∀ v < 41, ∀ e < 4, numBlocks e v ≤ 81 := by decide +kernel
  exact h v (Nat.lt_succ_of_le hv.2) e (Nat.lt_succ_of_le he)

/-- R272: an alignment position fits a byte. -/
theorem alignPositions_getD_lt {v : Nat} (hv : LegalVersion v) (i : Nat) : (alignPositions v).getD i 0 < 256 := by
  have hside := side_lt hv.2
  rcases Nat.lt_or_ge i (alignPositions v).length with hi | hi
  · rw [List.getD_eq_getElem _ _ hi]
    have := alignPositions_bounds v (Nat.lt_succ_of_le hv.2) _ (List.getElem_mem hi)
    have := hv.1
    omega
  · rw [List.getD_eq_default _ _ hi]
    decide

/-- R272: from version 2 on the positions begin with 6, end with the side less 7, and rise. -/
theorem alignPositions_shape : ∀ v < 41, 2 ≤ v → (alignPositions v).length = v / 7 + 2 ∧
    (alignPositions v).head? = some 6 ∧ (alignPositions v).getLast? = some (side v - 7) ∧
    (alignPositions v).Pairwise (· < ·) := by decide +kernel

theorem alignPositions_length_le {v : Nat} (hv : LegalVersion v) : (alignPositions v).length ≤ 7 := by
  rcases Nat.eq_or_lt_of_le hv.1 with rfl | h
  · decide
  · have := (alignPositions_shape v (Nat.lt_succ_of_le hv.2) h).1
    have := hv.2
    omega

/-- Settles O39: each query succeeds with its table's values, and every value fits the field that reports it. -/
theorem tableQueriesAnswer : Obligations.TableQueriesAnswer := by
  refine ⟨fun m v s hm hv => ?_, fun v e s hv he => ?_, fun v s hv => ?_,
    fun v hv => alignPositions_eq_row v (Nat.lt_succ_of_le hv.2) hv.1, rfl,
    fun v h2 h40 => alignPositions_shape v (Nat.lt_succ_of_le h40) h2⟩
  · rw [exec_ccbq_of_legal hm hv, ccb_of_mode hm]
    rfl
  · have hdata := dataCodewords_le hv he
    have hblocks := numBlocks_le hv he
    have hbuf := bufLen_le hv.2
    obtain ⟨_, _, _, _, hraw, _, hecc⟩ := block_tables hv he
    have hlow : eccPerBlock e v ||| numBlocks e v <<< 8 = eccPerBlock e v + numBlocks e v * 256 :=
      or_shiftLeft_eq_add (k := 8) (by omega) _
    exact ⟨_, exec_tblq_of_legal hv he s, ⟨rfl, rfl, rfl⟩, wordOfHalves_toNat (by omega) (by omega),
      (wordOfHalves_toNat (by omega) (by omega)).trans (congrArg (· + _) hlow), rfl⟩
  · have hq := alignPositions_getD_lt hv
    have hlen := alignPositions_length_le hv
    have h0 := wordOfBytes_toNat (hq 0) (hq 1) (hq 2) (hq 3)
    have h1 := wordOfBytes_toNat (hq 4) (hq 5) (hq 6) (show (alignPositions v).length < 256 by omega)
    rw [← alignPositions_eq_row v (Nat.lt_succ_of_le hv.2) hv.1]
    refine ⟨_, exec_alignq_of_legal hv s, ⟨rfl, rfl, rfl⟩, ?_, fun i hi => ?_, rfl⟩
    · simp only [complete_eq, finish_res1, setRes_res1, h1]
      have := hq 4
      have := hq 5
      have := hq 6
      omega
    · simp only [complete_eq, finish_res0, setRes_res0, finish_res1, setRes_res1, h0, h1]
      have h := hq i
      have := hq 0
      have := hq 1
      have := hq 2
      have := hq 4
      have := hq 5
      interval_cases i <;>
        simp only [Nat.reduceLT, if_true, if_false, Nat.reduceSub, Nat.reduceMul, Nat.reducePow] <;> omega

end Sys2Proof.Machine
end

section
/-! PROOFS. R275's scan: where each step stands in the order, that it visits each data module once, and that the data
modules number rawDataModules (spec/43_bitstream.md R216, spec/45_matrix.md R275, R279). -/

namespace Sys2Proof.Machine

/-! ### Blocks of one length -/

section blocks

variable {α β : Type} {f : α → List β} {n : Nat} (h : ∀ a, (f a).length = n)
include h

theorem length_flatMap_const (l : List α) : (l.flatMap f).length = l.length * n := by
  rw [List.length_flatMap, List.map_congr_left fun a _ => h a, List.map_const', List.sum_replicate_nat]

/-- Entry `i` of block `k` stands at `k * n + i`. -/
theorem getElem?_flatMap_const (l : List α) (k : Nat) {i : Nat} (hi : i < n) :
    (l.flatMap f)[k * n + i]? = l[k]?.bind fun a => (f a)[i]? := by
  induction l generalizing k with
  | nil => rfl
  | cons a l ih =>
    rw [List.flatMap_cons]
    cases k with
    | zero => rw [Nat.zero_mul, Nat.zero_add, List.getElem?_append_left (by rwa [h a])]; rfl
    | succ k =>
      rw [Nat.succ_mul, List.getElem?_append_right (by rw [h a]; omega), h a,
        show k * n + n + i - n = k * n + i by omega, ih k, List.getElem?_cons_succ]

end blocks

/-! ### The scan (R275) -/

theorem scanRow_length (size k : Nat) :
    ((List.range size).flatMap fun i =>
      let right := if 6 < size - 1 - 2 * k then size - 1 - 2 * k else size - 2 - 2 * k
      let y := if k % 2 = 0 then size - 1 - i else i
      [(right, y), (right - 1, y)]).length = size * 2 :=
  (length_flatMap_const (n := 2) (fun _ => rfl) _).trans (by rw [List.length_range])

theorem scanOrder_length (size : Nat) : (scanOrder size).length = (size - 1) / 2 * (size * 2) := by
  rw [scanOrder, length_flatMap_const (scanRow_length size), List.length_range]

/-- Each row of a column pair is two modules, so row `i` of the `k`-th pair stands from `2 * (k * size + i)` on. -/
theorem scanOrder_getElem? {size k i j : Nat} (hk : k < (size - 1) / 2) (hi : i < size) (hj : j < 2) :
    (scanOrder size)[2 * (k * size + i) + j]? = some
      ((if 6 < size - 1 - 2 * k then size - 1 - 2 * k else size - 2 - 2 * k) - j,
        if k % 2 = 0 then size - 1 - i else i) := by
  rw [scanOrder, show 2 * (k * size + i) + j = k * (size * 2) + (i * 2 + j) by ring,
    getElem?_flatMap_const (scanRow_length size) _ k (by omega), List.getElem?_range hk, Option.bind_some,
    getElem?_flatMap_const (n := 2) (fun _ => rfl) _ i hj, List.getElem?_range hi, Option.bind_some]
  interval_cases j <;> rfl

/-! ### The data modules -/

theorem nodup_dataOrder {v : Nat} (hv : LegalVersion v) (f : Nat → Nat → Bool) : (dataOrder (side v) f).Nodup := by
  rw [dataOrder, ← zigzag_eq_scanOrder (Nat.lt_succ_of_le hv.2)]
  exact (nodup_zigzag _).filter _

/-- The scan misses column 6 alone, which holds function modules only. -/
theorem mem_dataOrder {v : Nat} (hv : LegalVersion v) (x y : Nat) :
    (x, y) ∈ dataOrder (side v) (functionModule v) ↔ x < side v ∧ y < side v ∧ functionModule v x y = false := by
  have hs := side_ge hv
  have hodd : side v % 2 = 1 := by unfold side; omega
  rw [dataOrder, ← zigzag_eq_scanOrder (Nat.lt_succ_of_le hv.2), List.mem_filter, Bool.not_eq_true', ← and_assoc]
  refine and_congr_left fun hf => ⟨zigzag_inGrid (by omega), fun ⟨hx, hy⟩ => mem_zigzag ⟨by omega, hodd⟩ hx hy ?_⟩
  rintro rfl
  exact absurd hf (by simp [functionModule])

/-! ### The function modules in disjoint rectangles (R273) -/

/-- The part of the alignment pattern centred on `c` that no timing pattern covers, in rectangles. -/
def alignParts (c : Nat × Nat) : List (Nat × Nat × Nat × Nat) :=
  if c.2 = 6 then [(c.1 - 2, 4, 5, 2), (c.1 - 2, 7, 5, 2)]
  else if c.1 = 6 then [(4, c.2 - 2, 2, 5), (7, c.2 - 2, 2, 5)]
  else [(c.1 - 2, c.2 - 2, 5, 5)]

/-- The function regions cut so that no two overlap: finder corners, timing between them, alignment, version. -/
def functionParts (v : Nat) : List (Nat × Nat × Nat × Nat) :=
  [(0, 0, 9, 9), (side v - 8, 0, 8, 9), (0, side v - 8, 9, 8), (9, 6, side v - 17, 1), (6, 9, 1, side v - 17)]
  ++ (alignCentres v).flatMap alignParts
  ++ if v ≥ 7 then [(side v - 11, 0, 3, 6), (0, side v - 11, 6, 3)] else []

/-- Two rectangles with a gap between them, in one direction or the other. -/
def Apart (r r' : Nat × Nat × Nat × Nat) : Prop :=
  r.1 + r.2.2.1 ≤ r'.1 ∨ r'.1 + r'.2.2.1 ≤ r.1 ∨ r.2.1 + r.2.2.2 ≤ r'.2.1 ∨ r'.2.1 + r'.2.2.2 ≤ r.2.1

theorem functionParts_apart : ∀ v < 41, 1 ≤ v → (functionParts v).Pairwise Apart := by
  unfold Apart
  decide +kernel

theorem functionParts_area : ∀ v < 41, 1 ≤ v →
    ((functionParts v).map fun r => r.2.2.1 * r.2.2.2).sum + rawDataModules v = side v * side v := by
  decide +kernel

/-- The modules of the parts. -/
def functionOrder (v : Nat) : List (Nat × Nat) :=
  (functionParts v).flatMap fun r => rect r.1 r.2.1 r.2.2.1 r.2.2.2

theorem rect_length (l t w h : Nat) : (rect l t w h).length = w * h := by
  rw [rect, length_flatMap_const (n := w) (fun _ => by rw [List.length_map, List.length_range]), List.length_range,
    Nat.mul_comm]

theorem functionOrder_length {v : Nat} (hv : LegalVersion v) :
    (functionOrder v).length + rawDataModules v = side v * side v := by
  rw [functionOrder, List.length_flatMap, List.map_congr_left fun r _ => rect_length r.1 r.2.1 r.2.2.1 r.2.2.2]
  exact functionParts_area v (Nat.lt_succ_of_le hv.2) hv.1

theorem nodup_functionOrder {v : Nat} (hv : LegalVersion v) : (functionOrder v).Nodup := by
  refine List.nodup_flatMap.2 ⟨fun r _ => nodup_rect .., ?_⟩
  refine (functionParts_apart v (Nat.lt_succ_of_le hv.2) hv.1).imp fun {r r'} hap p hp hp' => ?_
  have := mem_rect.1 hp
  have := mem_rect.1 hp'
  unfold Apart at hap
  omega

/-- The rectangles of one alignment pattern: within distance 2 of its centre, the timing patterns left out. -/
theorem mem_alignParts {c : Nat × Nat} (h1 : 6 ≤ c.1) (h2 : 6 ≤ c.2) (x y : Nat) :
    (∃ r ∈ alignParts c, (x, y) ∈ rect r.1 r.2.1 r.2.2.1 r.2.2.2) ↔
      ring c.1 c.2 x y ≤ 2 ∧ (c.2 = 6 → y ≠ 6) ∧ (c.2 ≠ 6 → c.1 = 6 → x ≠ 6) := by
  rw [ring_le_iff]
  unfold alignParts
  split_ifs with hy hx
  all_goals
    simp only [List.mem_cons, List.not_mem_nil, or_false, exists_eq_or_imp, exists_eq_left, mem_rect]
    omega

/-- R273: the function regions, the alignment patterns by their centres. -/
theorem functionModule_iff {v : Nat} (hv : LegalVersion v) (x y : Nat) :
    functionModule v x y = true ↔
      (x = 6 ∨ y = 6 ∨ x < 9 ∧ y < 9 ∨ side v - 8 ≤ x ∧ y < 9 ∨ x < 9 ∧ side v - 8 ≤ y) ∨
      (∃ c ∈ alignCentres v, ring c.1 c.2 x y ≤ 2) ∨
      (7 ≤ v ∧ (side v - 11 ≤ x ∧ x < side v - 8 ∧ y < 6 ∨ x < 6 ∧ side v - 11 ≤ y ∧ y < side v - 8)) := by
  simp only [functionModule, Bool.or_eq_true, Bool.and_eq_true, beq_iff_eq, decide_eq_true_eq, nearAlign_iff hv,
    or_assoc, and_assoc, ge_iff_le]

/-- The modules of the parts, kind by kind. -/
theorem mem_functionOrder_iff {v : Nat} (hv : LegalVersion v) (x y : Nat) :
    (x, y) ∈ functionOrder v ↔
      (x < 9 ∧ y < 9 ∨ side v - 8 ≤ x ∧ x < side v ∧ y < 9 ∨ x < 9 ∧ side v - 8 ≤ y ∧ y < side v ∨
        9 ≤ x ∧ x < side v - 8 ∧ y = 6 ∨ x = 6 ∧ 9 ≤ y ∧ y < side v - 8) ∨
      (∃ c ∈ alignCentres v, ring c.1 c.2 x y ≤ 2 ∧ (c.2 = 6 → y ≠ 6) ∧ (c.2 ≠ 6 → c.1 = 6 → x ≠ 6)) ∨
      (7 ≤ v ∧ (side v - 11 ≤ x ∧ x < side v - 8 ∧ y < 6 ∨ x < 6 ∧ side v - 11 ≤ y ∧ y < side v - 8)) := by
  have hs := side_ge hv
  rw [functionOrder, functionParts, List.flatMap_append, List.flatMap_append, List.mem_append, List.mem_append,
    or_assoc, List.mem_flatMap, List.flatMap_assoc, List.mem_flatMap, List.mem_flatMap]
  refine or_congr ?_ (or_congr (exists_congr fun c => and_congr_right fun hc => ?_) ?_)
  · simp only [List.mem_cons, List.not_mem_nil, or_false, exists_eq_or_imp, exists_eq_left, mem_rect]
    omega
  · obtain ⟨⟨h1, -⟩, h2, -⟩ := alignCentres_bounds hv hc
    exact List.mem_flatMap.trans (mem_alignParts h1 h2 x y)
  · split_ifs with h7
    · have := side_ge_seven h7
      simp only [List.mem_cons, List.not_mem_nil, or_false, exists_eq_or_imp, exists_eq_left, mem_rect]
      omega
    · simp [h7]

/-- The parts make up the function regions: what an alignment part leaves out, the timing parts and corners hold. -/
theorem mem_functionOrder {v : Nat} (hv : LegalVersion v) (x y : Nat) :
    (x, y) ∈ functionOrder v ↔ x < side v ∧ y < side v ∧ functionModule v x y = true := by
  have hs := side_ge hv
  rw [mem_functionOrder_iff hv, functionModule_iff hv]
  constructor
  · rintro (h | ⟨c, hc, hr, -⟩ | ⟨h7, h⟩)
    · omega
    · have := alignCentres_bounds hv hc
      have hin := (ring_le_iff ..).1 hr
      exact ⟨by omega, by omega, .inr (.inl ⟨c, hc, hr⟩)⟩
    · have := side_ge_seven h7
      exact ⟨by omega, by omega, .inr (.inr ⟨h7, h⟩)⟩
  · rintro ⟨hx, hy, h | ⟨c, hc, hr⟩ | h⟩
    · exact .inl (by omega)
    · by_cases ht : x = 6 ∨ y = 6
      · exact .inl (by omega)
      · exact .inr (.inl ⟨c, hc, hr, fun _ => mt .inr ht, fun _ _ => mt .inl ht⟩)
    · exact .inr (.inr h)

/-- Settles O43: the scan is `scanOrder`; data modules and function modules make up the grid, and the latter are counted
by area. -/
theorem zigzagVisitsEachDataModuleOnce : Obligations.ZigzagVisitsEachDataModuleOnce := by
  intro v hv
  have hscan : zigzag (4 * v + 17) = scanOrder (4 * v + 17) := zigzag_eq_scanOrder (Nat.lt_succ_of_le hv.2)
  have hpairs : (4 * v + 17 - 1) / 2 * 2 = 4 * v + 17 - 1 := by omega
  refine ⟨?_, fun k i j hk hi hj => by rw [hscan, scanOrder_getElem? hk hi hj], nodup_dataOrder hv _,
    mem_dataOrder hv, ?_⟩
  · rw [hscan, scanOrder_length, Nat.mul_comm (4 * v + 17) 2, ← Nat.mul_assoc, hpairs, Nat.mul_comm]
  · have hperm : (dataOrder (side v) (functionModule v) ++ functionOrder v).Perm (allModules (side v)) := by
      refine (List.perm_ext_iff_of_nodup ?_ (nodup_allModules _)).2 fun p => ?_
      · refine (nodup_dataOrder hv _).append (nodup_functionOrder hv) fun p hp hp' => ?_
        obtain ⟨-, -, hdata⟩ := (mem_dataOrder hv ..).1 hp
        obtain ⟨-, -, hfun⟩ := (mem_functionOrder hv ..).1 hp'
        exact Bool.false_ne_true (hdata.symm.trans hfun)
      · rw [List.mem_append, mem_dataOrder hv, mem_functionOrder hv, mem_allModules]
        cases functionModule v p.1 p.2 <;> simp
    have hcount := hperm.length_eq
    rw [List.length_append, allModules, rect_length] at hcount
    have := functionOrder_length hv
    omega

end Sys2Proof.Machine
end

section
/-! PROOFS. The picture ENCSEG draws (spec/47_encode.md R340): the modules of the symbol as one function of the
codewords and the mask, and that scores fit PENALTY. -/

namespace Sys2Proof.Machine

/-! ### A coarse bound of the score (R309) -/

theorem History.count_le (h : History) : h.count ≤ 2 := by
  unfold History.count
  split_ifs <;> decide

theorem Scan.step_le (size : Nat) (sc : Scan) (c : Bool) :
    (sc.step size c).n1 ≤ sc.n1 + 3 ∧ (sc.step size c).n3 ≤ sc.n3 + 80 := by
  have := (sc.hist.push size sc.run).count_le
  unfold Scan.step
  split_ifs <;> constructor <;> dsimp only <;> omega

theorem foldl_step_le (size : Nat) (line : List Bool) (sc : Scan) :
    (line.foldl (Scan.step size) sc).n1 ≤ sc.n1 + 3 * line.length ∧
      (line.foldl (Scan.step size) sc).n3 ≤ sc.n3 + 80 * line.length := by
  induction line generalizing sc with
  | nil => exact ⟨Nat.le_refl _, Nat.le_refl _⟩
  | cons c line ih =>
    have h1 := sc.step_le size c
    have h2 := ih (sc.step size c)
    rw [List.foldl_cons, List.length_cons]
    omega

theorem Scan.terminate_le (size : Nat) (sc : Scan) :
    (sc.terminate size).n1 = sc.n1 ∧ (sc.terminate size).n3 ≤ sc.n3 + 80 :=
  ⟨rfl, Nat.add_le_add_left (Nat.mul_le_mul_left 40 (History.count_le _)) sc.n3⟩

theorem scanLine_le (size : Nat) (line : List Bool) :
    (scanLine size line).1 ≤ 3 * line.length ∧ (scanLine size line).2 ≤ 80 * line.length + 80 := by
  have h := foldl_step_le size line Scan.start
  have ht := (line.foldl (Scan.step size) Scan.start).terminate_le size
  have h1 : Scan.start.n1 = 0 := rfl
  have h3 : Scan.start.n3 = 0 := rfl
  simp only [scanLine]
  omega

theorem lineScores_le (m : Modules) (size : Nat) :
    ∀ p ∈ lineScores m size, p.1 ≤ 3 * size ∧ p.2 ≤ 80 * size + 80 := by
  intro p hp
  simp only [lineScores, List.mem_append, List.mem_map] at hp
  rcases hp with ⟨y, _, rfl⟩ | ⟨x, _, rfl⟩
  · have := scanLine_le size (rowLine m size y)
    rwa [rowLine, List.length_map, List.length_range] at this
  · have := scanLine_le size (colLine m size x)
    rwa [colLine, List.length_map, List.length_range] at this

/-- The sum over the rows and columns of a number that each line bounds. -/
theorem sum_lineScores_le (m : Modules) (size : Nat) {f : Nat × Nat → Nat} {b : Nat}
    (h : ∀ p ∈ lineScores m size, f p ≤ b) : ((lineScores m size).map f).sum ≤ 2 * size * b := by
  have hlen : (lineScores m size).length = 2 * size := by simp [lineScores, Nat.two_mul]
  have := List.sum_le_card_nsmul ((lineScores m size).map f) b fun n hn => by
    obtain ⟨p, hp, rfl⟩ := List.mem_map.1 hn
    exact h p hp
  rwa [List.length_map, hlen] at this

theorem darkCount_le (m : Modules) (size : Nat) : darkCount m size ≤ size * size :=
  List.countP_le_length.trans_eq (rect_length ..)

theorem penaltyN2_le (m : Modules) (size : Nat) : penaltyN2 m size ≤ 3 * ((size - 1) * (size - 1)) :=
  Nat.mul_le_mul_left 3 (List.countP_le_length.trans_eq (rect_length ..))

theorem penaltyN4_le (m : Modules) {size : Nat} (hs : 0 < size) : penaltyN4 m size ≤ 100 := by
  have hd := darkCount_le m size
  have htot := Nat.mul_pos hs hs
  have hdist : dist (darkCount m size * 20) (size * size * 10) ≤ 10 * (size * size) := by
    unfold dist
    split_ifs <;> omega
  have hdiv : (dist (darkCount m size * 20) (size * size * 10) + size * size - 1) / (size * size) < 12 :=
    Nat.div_lt_of_lt_mul (by omega)
  unfold penaltyN4
  dsimp only
  omega

/-- Every score fits the register that reports it (R309). -/
theorem penaltyScore_lt {v : Nat} (hv : LegalVersion v) (m : Modules) : penaltyScore m (side v) < 2 ^ 32 := by
  have hs := side_ge hv
  have hs' : side v ≤ 177 := Nat.le_of_lt_succ (side_lt hv.2)
  have h1 := sum_lineScores_le m (side v) fun p hp =>
    (lineScores_le m (side v) p hp).1.trans (Nat.mul_le_mul_left 3 hs')
  have h3 := sum_lineScores_le m (side v) fun p hp =>
    (lineScores_le m (side v) p hp).2.trans (Nat.add_le_add_right (Nat.mul_le_mul_left 80 hs') 80)
  have h2 := (penaltyN2_le m (side v)).trans
    (Nat.mul_le_mul_left 3 (Nat.mul_le_mul (Nat.sub_le_sub_right hs' 1) (Nat.sub_le_sub_right hs' 1)))
  have h4 := penaltyN4_le m (size := side v) (by omega)
  unfold penaltyScore penaltyN1 penaltyN3
  omega

/-! ### The picture -/

/-- The modules of the symbol with codewords `cw` under a mask: R274 to R277 and R301, R303 in turn. -/
def symbolModules (v e : Nat) (cw : List Byte) (mask : Nat) : Modules :=
  drawFormat (side v) (applyMask (side v)
    (mlightModules v (mplaceModules (side v) (minitModules v) (minitModules v) cw)) (minitModules v) mask) e mask

/-- The score of that symbol (R304). -/
def symbolScore (v e : Nat) (cw : List Byte) (mask : Nat) : Nat := penaltyScore (symbolModules v e cw mask) (side v)

/-- The colour of each module of that symbol: a function module's by the format, else MLIGHT, else dark; a data
module's by its codeword bit, else light, inverted where the mask holds. -/
def symbolColour (v e : Nat) (cw : List Byte) (mask x y : Nat) : Bool :=
  if functionModule v x y then
    ((lastColour (formatWrites (side v) (formatBits e mask)) x y).or (lastColour (lightWrites v) x y)).getD true
  else
    (if (dataOrder (side v) (functionModule v)).idxOf (x, y) < 8 * cw.length
      then codewordBit cw ((dataOrder (side v) (functionModule v)).idxOf (x, y)) else false) ^^ invert mask x y

section picture

variable {v : Nat} (hv : LegalVersion v)
include hv

/-- On the initial pattern the scan leaves to data what R273 does. -/
theorem dataModules_minit : dataModules (side v) (minitModules v) (zigzag (side v)) =
    dataOrder (side v) (functionModule v) := by
  rw [dataOrder, ← zigzag_eq_scanOrder (Nat.lt_succ_of_le hv.2)]
  refine List.filter_congr fun p hp => ?_
  obtain ⟨hx, hy⟩ := zigzag_inGrid (by have := side_ge hv; omega) hp
  rw [isDark_minitModules hv hx hy]

theorem zigzag_column_lt : ∀ p ∈ zigzag (side v), p.1 < side v := fun _ hp =>
  (zigzag_inGrid (by have := side_ge hv; omega) hp).1

theorem isDark_placed_function (cw : List Byte) {x y : Nat} (hx : x < side v) (hy : y < side v)
    (hf : functionModule v x y = true) :
    isDark (mplaceModules (side v) (minitModules v) (minitModules v) cw) (side v) x y = true := by
  rw [mplaceModules, isDark_placeBits_other _ (zigzag_column_lt hv) _ _ hx, isDark_minitModules hv hx hy, hf]
  intro k _ hk
  rw [dataModules_minit hv] at hk
  have := ((mem_dataOrder hv x y).1 (List.mem_of_getElem? hk)).2.2
  rw [hf] at this
  cases this

theorem isDark_placed_data (cw : List Byte) {x y : Nat} (hx : x < side v) (hy : y < side v)
    (hf : functionModule v x y = false) :
    isDark (mplaceModules (side v) (minitModules v) (minitModules v) cw) (side v) x y =
      if (dataOrder (side v) (functionModule v)).idxOf (x, y) < 8 * cw.length
      then codewordBit cw ((dataOrder (side v) (functionModule v)).idxOf (x, y)) else false := by
  have hmem := (mem_dataOrder hv x y).2 ⟨hx, hy, hf⟩
  have hidx := List.getElem?_idxOf hmem
  rw [mplaceModules]
  split_ifs with hlt
  · refine isDark_placeBits_data _ (nodup_zigzag _) (zigzag_column_lt hv) _ _ hx
      (by rw [dataModules_minit hv, hidx]) ?_
    rw [unpackBytes_getElem?, if_pos hlt]
  · rw [isDark_placeBits_other _ (zigzag_column_lt hv) _ _ hx, isDark_minitModules hv hx hy, hf]
    intro k hk hk'
    rw [dataModules_minit hv] at hk'
    rw [unpackBytes_length] at hk
    obtain ⟨hlen, he⟩ := List.getElem?_eq_some_iff.1 hk'
    rw [← he, (nodup_dataOrder hv _).idxOf_getElem k hlen] at hlt
    exact hlt hk

/-- Each module of the symbol has the colour of the spec's picture. -/
theorem isDark_symbolModules (e : Nat) (cw : List Byte) (mask : Nat) {x y : Nat} (hx : x < side v) (hy : y < side v) :
    isDark (symbolModules v e cw mask) (side v) x y = symbolColour v e cw mask x y := by
  rw [symbolModules, isDark_drawFormat (side_ge hv) _ _ _ _ hx, isDark_applyMask _ _ _ hx hy,
    isDark_mlightModules hv _ _ hx, isDark_minitModules hv hx hy, symbolColour]
  cases hf : functionModule v x y with
  | true =>
    rw [isDark_placed_function hv cw hx hy hf]
    cases lastColour (formatWrites (side v) (formatBits e mask)) x y <;> simp
  | false =>
    rw [isDark_placed_data hv cw hx hy hf, lastColour_none_of_data (formatWrites_function hv _) hf,
      lastColour_none_of_data (fun w hw => (lightWrites_function hv w hw).2) hf]
    simp

/-- No bit stands beyond the modules. -/
theorem testBit_symbolModules_tail (e : Nat) (cw : List Byte) (mask : Nat) {n : Nat} (hn : side v * side v ≤ n) :
    (symbolModules v e cw mask).testBit n = false := by
  have hs := side_ge hv
  rw [symbolModules, testBit_drawFormat_tail hs _ _ _ hn, testBit_applyMask_tail _ _ _ hn,
    testBit_mlightModules_tail hv _ hn, mplaceModules,
    testBit_placeBits_tail _ (fun p hp => zigzag_inGrid (by omega) hp) _ _ hn, testBit_minitModules_tail hv hn]

theorem symbolModules_lt (e : Nat) (cw : List Byte) (mask : Nat) :
    symbolModules v e cw mask < 2 ^ (8 * moduleBytes v) :=
  Nat.lt_pow_two_of_testBit _ fun _ hi => testBit_symbolModules_tail hv e cw mask ((side_sq_le v).trans hi)

/-- The symbol is its colours drawn on an empty grid. -/
theorem draw_symbolColour (e : Nat) (cw : List Byte) (mask : Nat) :
    draw (side v) 0 ((allModules (side v)).map fun p => (p.1, p.2, symbolColour v e cw mask p.1 p.2)) =
      symbolModules v e cw mask := by
  have hgrid : ∀ w ∈ (allModules (side v)).map fun p => (p.1, p.2, symbolColour v e cw mask p.1 p.2),
      InGrid (side v) w := by
    intro w hw
    obtain ⟨p, hp, rfl⟩ := List.mem_map.1 hw
    exact mem_allModules.1 hp
  refine modules_ext (size := side v) (by have := side_ge hv; omega) (fun x y hx hy => ?_) fun n hn => ?_
  · rw [isDark_draw hgrid _ _ hx, isDark_symbolModules hv e cw mask hx hy,
      lastColour_of_hit (c := symbolColour v e cw mask x y), Option.getD_some]
    · intro w hw h1 h2
      obtain ⟨p, _, rfl⟩ := List.mem_map.1 hw
      rw [← h1, ← h2]
    · exact ⟨_, List.mem_map.2 ⟨(x, y), mem_allModules.2 ⟨hx, hy⟩, rfl⟩, rfl, rfl⟩
  · rw [testBit_draw_tail hgrid _ hn, testBit_symbolModules_tail hv e cw mask hn, Nat.zero_testBit]

end picture

end Sys2Proof.Machine
end

section
/-! PROOFS. ENCSEG's stages (spec/47_encode.md R340): what each leaves in the buffers, and the symbol that they
build. -/

namespace Sys2Proof.Machine

/-! ### Assembly and interleaving -/

theorem cwbuf_interleaveInto {s : State} {v e : Nat} (hv : LegalVersion v) (he : e ≤ 3) :
    (s.interleaveInto v e).cwbuf (rawCodewords v) = interleaved v e (s.databuf 0 (dataCodewords v e)) := by
  obtain ⟨_, _, _, _, hraw, _⟩ := block_tables hv he
  have hlen := interleaved_length hv he (readBytes_length s.mem (Config.databufBase + 0) (dataCodewords v e))
  have := readBytes_writeBytes s.mem (interleaved v e (s.databuf 0 (dataCodewords v e))) Config.cwbufBase (by decide)
    (by rw [State.databuf, hlen, Config.cwbufBase, Config.addressEnd]; omega)
  rwa [State.databuf, hlen] at this

theorem databuf_interleaveInto {s : State} {v e : Nat} {n : Nat} (hn : n ≤ 4096) :
    (s.interleaveInto v e).databuf 0 n = s.databuf 0 n :=
  readBytes_congr fun i hi => read_writeBytes_outside _ _ _ _
    (.inl (by rw [Config.databufBase, Config.cwbufBase]; omega))

/-! ### The initial pattern -/

theorem read_writeMinit_outside (m : Memory) {base v a : Nat} (h : a < base ∨ base + bufLen v ≤ a) :
    (m.writeMinit base v).read a = m.read a := by
  have := moduleBytes_add_one v
  rw [Memory.writeMinit, read_writeLE_outside _ _ _ _ _ (by omega), read_write_other _ _ (by omega)]

theorem readLE_writeMinit (m : Memory) {base v : Nat} (hv : LegalVersion v) (h1 : Config.payloadBase ≤ base)
    (h2 : base + bufLen v ≤ Config.addressEnd) :
    (m.writeMinit base v).readLE (base + 1) (moduleBytes v) = minitModules v := by
  have := moduleBytes_add_one v
  rw [Memory.writeMinit, readLE_writeLE _ _ _ _ (by omega) (by omega), Nat.mod_eq_of_lt (minitModules_lt hv)]

section minit

variable (s : State) {v : Nat} (hv : LegalVersion v)
include hv

theorem funcmap_minitInto : (s.minitInto v).funcmap v = minitModules v :=
  readLE_writeMinit _ hv (by decide) (by have := bufLen_le hv.2; rw [Config.funcmapBase, Config.addressEnd]; omega)

theorem matrix_minitInto : (s.minitInto v).matrix v = minitModules v := by
  have hb := bufLen_le hv.2
  refine (readLE_congr fun i hi => read_writeMinit_outside _ (.inr ?_)).trans (readLE_writeMinit _ hv (by decide) ?_)
  · rw [Config.funcmapBase, Config.matrixBase]; omega
  · rw [Config.matrixBase, Config.addressEnd]; omega

end minit

theorem read_minitInto_low (s : State) (v : Nat) {a : Nat} (ha : a < 0x6000) :
    (s.minitInto v).mem.read a = s.mem.read a := by
  rw [State.minitInto, setMem_mem, read_writeMinit_outside _ (.inl (by rw [Config.funcmapBase]; omega)),
    read_writeMinit_outside _ (.inl (by rw [Config.matrixBase]; omega))]

/-! ### Mask selection -/

/-- R312: `best` is the lowest-numbered mask of the lowest score. -/
def FirstLowest (score : Nat → Nat) (best : Nat) : Prop :=
  (∀ k ≤ 7, score best ≤ score k) ∧ ∀ k < best, score best < score k

/-- R312: one mask is applied and its format drawn, an automatic one by its score, which PENALTY then holds. -/
theorem mselectInto_spec (s : State) {v : Nat} (hv : LegalVersion v) (e : Nat) {sel : Nat} (hsel : sel ≤ 8) :
    ∃ best ≤ 7, (s.mselectInto v e sel).mem =
        (s.setMatrix v (drawFormat (side v) (applyMask (side v) (s.matrix v) (s.funcmap v) best) e best)).mem ∧
      (s.mselectInto v e sel).result.mask = BitVec.ofNat 3 best ∧
      (sel = 8 →
        (s.mselectInto v e sel).penalty = BitVec.ofNat 32 (trialScore (side v) e (s.matrix v) (s.funcmap v) best) ∧
        FirstLowest (trialScore (side v) e (s.matrix v) (s.funcmap v)) best) := by
  rcases Nat.eq_or_lt_of_le hsel with rfl | hlt
  · obtain ⟨hagree, hlt, hminp, hle, hfirst⟩ := autoTrials_bestOf (side_ge hv) e (s.funcmap v) (s.matrix v)
    have hsame := drawFormat_congr (side_ge hv)
      (hagree.applyMask (s.funcmap v) (autoTrials (side v) e (s.matrix v) (s.funcmap v)).best) e
      (autoTrials (side v) e (s.matrix v) (s.funcmap v)).best
    refine ⟨_, Nat.le_of_lt_succ (hlt (by decide)), ?_, rfl, fun _ => ⟨?_, fun k hk => hle k (Nat.lt_succ_of_le hk),
      fun k hk => hfirst k hk (by decide)⟩⟩
    · rw [← hsame]
      rfl
    · show BitVec.ofNat 32 ((autoTrials (side v) e (s.matrix v) (s.funcmap v)).minp.getD 0) = _
      rw [hminp, if_neg (by decide), Option.getD_some]
  · have hne : sel ≠ 8 := Nat.ne_of_lt hlt
    refine ⟨sel, Nat.le_of_lt_succ hlt, ?_, ?_, fun h => absurd h hne⟩ <;>
      rw [State.mselectInto, if_neg hne] <;> rfl

/-! ### The stages in turn -/

/-- The interleaved codewords of the assembled stream (R340, steps 2 and 3). -/
def State.codewords (s : State) (v e : Nat) : List Byte := interleaved v e (assembleBytes v e (s.stream v))

/-- The state after assembly, interleaving and MINIT (R340, steps 2 to 4). -/
def State.prepared (s : State) (v e : Nat) : State := ((s.assembleInto v e).interleaveInto v e).minitInto v

/-- The state after MPLACE and MLIGHT as well (R340, steps 5 and 6). -/
def State.unmasked (s : State) (v e : Nat) : State := ((s.prepared v e).mplaceInto v).mlightInto v

theorem buildSymbol_eq (s : State) (v e : Nat) :
    s.buildSymbol v e = (s.unmasked v e).mselectInto v e s.cfg.mask.toNat := rfl

/-- MPLACE and MLIGHT write modules of MATRIX only. -/
theorem read_unmasked_outside (s : State) (v e : Nat) {a : Nat} (ha : a < 0x7001) :
    (s.unmasked v e).mem.read a = (s.prepared v e).mem.read a := by
  rw [State.unmasked, State.mlightInto, read_setMatrix_outside _ _ (.inl ha), State.mplaceInto,
    read_setMatrix_outside _ _ (.inl ha)]

theorem funcmap_unmasked (s : State) {v : Nat} (hv : LegalVersion v) (e : Nat) :
    (s.unmasked v e).funcmap v = minitModules v := by
  rw [State.unmasked, State.mlightInto, funcmap_setMatrix _ hv.2, State.mplaceInto, funcmap_setMatrix _ hv.2,
    State.prepared, funcmap_minitInto _ hv]

section stages

variable {s : State} {v e : Nat} (hv : LegalVersion v) (he : e ≤ 3) (hl : (s.stream v).length ≤ capacityBits v e)
include hv he hl

theorem codewords_length : (s.codewords v e).length = rawCodewords v :=
  interleaved_length hv he (assembleBytes_length hl)

theorem databuf_prepared : (s.prepared v e).databuf 0 (dataCodewords v e) = assembleBytes v e (s.stream v) := by
  have hle := dataCodewords_le hv he
  rw [← databuf_assembleInto hv he hl, ← databuf_interleaveInto (s := s.assembleInto v e) (v := v) (e := e) (by omega)]
  exact readBytes_congr fun i hi => read_minitInto_low _ v (by rw [Config.databufBase]; omega)

theorem cwbuf_prepared : (s.prepared v e).cwbuf (rawCodewords v) = s.codewords v e := by
  obtain ⟨_, _, _, _, hraw, _⟩ := block_tables hv he
  rw [State.codewords, ← databuf_assembleInto hv he hl, ← cwbuf_interleaveInto hv he]
  exact readBytes_congr fun i hi => read_minitInto_low _ v (by rw [Config.cwbufBase]; omega)

theorem matrix_unmasked : (s.unmasked v e).matrix v =
    mlightModules v (mplaceModules (side v) (minitModules v) (minitModules v) (s.codewords v e)) := by
  have hs := side_ge hv
  have hplaced := mplaceModules_lt (by omega) (minitModules v) (s.codewords v e) (minitModules_lt hv) (side_sq_le v)
  have hmplace : ((s.prepared v e).mplaceInto v).matrix v =
      mplaceModules (side v) (minitModules v) (minitModules v) (s.codewords v e) := by
    rw [State.mplaceInto, cwbuf_prepared hv he hl, State.prepared, matrix_minitInto _ hv, funcmap_minitInto _ hv,
      matrix_setMatrix _ hv.2 hplaced]
  rw [State.unmasked, State.mlightInto, hmplace, matrix_setMatrix _ hv.2 (mlightModules_lt hv hplaced (side_sq_le v))]

/-- What the stages leave: the symbol under one mask, FUNCMAP as MINIT wrote it, and everything below MATRIX's modules
as prepared (R340, step 7). -/
theorem buildSymbol_spec (hm : s.cfg.mask.toNat ≤ 8) :
    ∃ best ≤ 7, (s.buildSymbol v e).matrix v = symbolModules v e (s.codewords v e) best ∧
      (s.buildSymbol v e).funcmap v = minitModules v ∧
      (∀ a < 0x7001, (s.buildSymbol v e).mem.read a = (s.prepared v e).mem.read a) ∧
      (s.buildSymbol v e).result.mask = BitVec.ofNat 3 best ∧
      (s.cfg.mask.toNat = 8 →
        (s.buildSymbol v e).penalty = BitVec.ofNat 32 (symbolScore v e (s.codewords v e) best) ∧
        FirstLowest (symbolScore v e (s.codewords v e)) best) := by
  obtain ⟨best, hle, hmem, hmask, hauto⟩ := mselectInto_spec (s.unmasked v e) hv e hm
  rw [← buildSymbol_eq, matrix_unmasked hv he hl, funcmap_unmasked s hv] at hmem
  rw [← buildSymbol_eq] at hmask
  rw [← buildSymbol_eq, matrix_unmasked hv he hl, funcmap_unmasked s hv] at hauto
  have hbuilt : (s.buildSymbol v e).mem =
      ((s.unmasked v e).setMatrix v (symbolModules v e (s.codewords v e) best)).mem := hmem
  refine ⟨best, hle, ?_, ?_, fun a ha => ?_, hmask, hauto⟩
  · rw [State.matrix, hbuilt]
    exact matrix_setMatrix _ hv.2 (symbolModules_lt hv e _ best)
  · rw [State.funcmap, hbuilt]
    exact (funcmap_setMatrix _ hv.2 _).trans (funcmap_unmasked s hv e)
  · rw [hbuilt, read_setMatrix_outside _ _ (.inl ha), read_unmasked_outside s v e ha]

end stages

/-! ### ENCSEG -/

theorem violationOf_encseg {s : State} (hc : CfgLegal s) (hs : 1 ≤ s.segCnt.toNat) : violationOf .encseg s = none := by
  obtain ⟨⟨hmin, hmax, hle⟩, hmask⟩ := hc
  rw [violationOf, cfgViolation, if_neg (not_not.2 ⟨hmin, hmax⟩), if_neg (Nat.not_lt.2 hle),
    if_neg fun h => Nat.not_lt.2 hmask h.2, if_neg (Nat.one_le_iff_ne_zero.1 hs)]
  rfl

/-- Where negotiation succeeds, ENCSEG builds the symbol and reports it (R340). -/
theorem exec_encseg_of_some {s : State} (hc : CfgLegal s) (hs : 1 ≤ s.segCnt.toNat) {v e t : Nat}
    (h : s.negotiated = some (v, e, t)) :
    exec .encseg s = .next (((s.buildSymbol v e).setResult
      { version := BitVec.ofNat 6 v
        ecl := BitVec.ofNat 2 e
        mask := (s.buildSymbol v e).result.mask
        size := BitVec.ofNat 8 (side v) }).setRes (BitVec.ofNat 32 t) (BitVec.ofNat 32 (capacityBits v e))).complete :=
  congrArg Host.Outcome.next ((checked_of_no_violation (violationOf_encseg hc hs)).trans (by rw [State.encodeCore, h]))

/-- Settles O54: the stages build `symbolModules` (`buildSymbol_spec`), whose colours `isDark_symbolModules` gives. -/
theorem encsegDrawsTheSymbol : Obligations.EncsegDrawsTheSymbol := by
  intro s v e b hc hs h
  obtain ⟨hv, he, htot, hb⟩ := negotiated_bounds hc.1 h
  have hl : (s.stream v).length ≤ capacityBits v e := stream_length htot ▸ hb
  have hdata := dataCodewords_le hv he
  obtain ⟨_, _, _, _, hraw, _⟩ := block_tables hv he
  obtain ⟨best, hbest, hmatrix, hfun, hlow, hmask, hauto⟩ := buildSymbol_spec hv he hl hc.2
  replace hmask : (s.buildSymbol v e).result.mask.toNat = best := hmask ▸ toNat_ofNat_of_lt (by omega)
  have hstatus : (s.buildSymbol v e).status = s.status := by rw [(Body.buildSymbol s v e).control]
  intro cw order colour score
  have hcolour : colour = symbolColour v e (s.codewords v e) := by
    funext mask x y
    rw [symbolColour, codewords_length hv he hl]
    rfl
  have hscore : score = symbolScore v e (s.codewords v e) := by
    funext mask
    rw [symbolScore, ← draw_symbolColour hv, ← hcolour]
  refine ⟨_, exec_encseg_of_some hc hs h, ⟨rfl, rfl, ?_⟩, ?_, ?_, fun x y hx hy => ⟨?_, ?_⟩, fun h8 => ?_⟩
  · simp only [complete_eq, finish_status, setRes_status, setResult_status, hstatus]
    rfl
  · refine (readBytes_congr fun i hi => hlow _ ?_).trans (databuf_prepared hv he hl)
    omega
  · refine (readBytes_congr fun i hi => hlow _ ?_).trans (cwbuf_prepared hv he hl)
    omega
  · rw [hcolour, ← isDark_symbolModules hv e _ _ hx hy]
    simp only [complete_eq, finish_mem, setRes_mem, setResult_mem, finish_result, setRes_result, setResult_result,
      hmask]
    rw [← hmatrix, isDark_matrix _ hx hy]
  · simp only [complete_eq, finish_mem, setRes_mem, setResult_mem]
    rw [← isDark_funcmap _ hx hy, hfun, isDark_minitModules hv hx hy]
  · obtain ⟨hpenalty, hfirst⟩ := hauto h8
    simp only [complete_eq, finish_result, setRes_result, setResult_result, finish_penalty, setRes_penalty,
      setResult_penalty, hmask, hscore]
    exact ⟨hpenalty ▸ toNat_ofNat_of_lt (penaltyScore_lt hv _), hfirst⟩

end Sys2Proof.Machine
end

section
/-! PROOFS. The obligations of the interleaving family (spec/44_ecc_interleave.md): where each byte of each block stands
in the interleaved sequence, and what INTERLEAVE leaves in CWBUF, GEN and REM. -/

namespace Sys2Proof.Machine

/-! ### The bytes of a block (R250, R251) -/

section blocks

variable {v e : Nat} {data : List Byte}

/-- R250: byte `j` of block `i` is byte `start(i) + j` of the data. -/
theorem block_getElem? {i j : Nat} (hj : j < blockDataLen v e i) :
    ((data.drop (blockStart v e i)).take (blockDataLen v e i))[j]? = data[blockStart v e i + j]? := by
  rw [List.getElem?_take_of_lt hj, List.getElem?_drop]

/-- R251: the ECC bytes of block `i`. -/
theorem eccBlocks_getElem? {i : Nat} (hi : i < numBlocks e v) :
    (eccBlocks v e data)[i]? =
      some (rsRemainder ((data.drop (blockStart v e i)).take (blockDataLen v e i)) (rsDivisor (eccPerBlock e v))) := by
  rw [eccBlocks, List.getElem?_map, dataBlocks_getElem? hi, Option.map_some]

/-! ### Where each byte stands (R253) -/

variable (hv : LegalVersion v) (he : e ≤ 3) (hl : data.length = dataCodewords v e)
include hv he hl

/-- The rows of data bytes before the ECC bytes hold the data codewords. -/
theorem roundRobin_dataBlocks_length :
    (roundRobin (shortBlockDataLen v e + 1) (dataBlocks v e data)).length = dataCodewords v e := by
  obtain ⟨_, _, _, hsum, _⟩ := block_tables hv he
  have hlen := interleaved_length hv he hl
  rw [interleaved, List.length_append, roundRobin_length (length_eccBlocks hv he), eccBlocks_length] at hlen
  omega

/-- Data byte `j` of block `i`, for a `j` below the length of a short block. -/
theorem interleaved_getElem?_short {i j : Nat} (hi : i < numBlocks e v) (hj : j < shortBlockDataLen v e) :
    (interleaved v e data)[j * numBlocks e v + i]? = data[blockStart v e i + j]? := by
  have hrows := le_length_dataBlocks hv he hl
  have hrow := roundRobin_getElem? hrows (dataBlocks_length.symm ▸ hi) hj
  rw [dataBlocks_length, dataBlocks_getElem? hi, Option.bind_some,
    block_getElem? (Nat.lt_of_lt_of_le hj (Nat.le_add_right ..))] at hrow
  rw [interleaved, roundRobin_succ, List.append_assoc, List.getElem?_append_left, hrow]
  rw [roundRobin_length hrows, dataBlocks_length, Nat.mul_comm j]
  exact Nat.mul_add_lt_mul_of_lt_of_lt hj hi

/-- The long blocks have a byte in the last row of data bytes, and only they have one. -/
theorem lastRow_getElem? {i : Nat} (hi : i < numBlocks e v) (hlong : numShortBlocks v e ≤ i) :
    ((dataBlocks v e data).filterMap fun b => b[shortBlockDataLen v e]?)[i - numShortBlocks v e]? =
      data[blockStart v e i + shortBlockDataLen v e]? := by
  have hj : shortBlockDataLen v e < blockDataLen v e i := by
    rw [blockDataLen, if_neg (Nat.not_lt.2 hlong)]
    exact Nat.lt_succ_self _
  have hbyte := (dataBlocks_getElem?_length hv he hl hi).symm ▸ hj
  rw [lastRow_eq hv he hl, List.getElem?_map, List.getElem?_drop, Nat.add_sub_cancel' hlong, dataBlocks_getElem? hi,
    Option.map_some, List.getD_eq_getElem _ _ hbyte, ← List.getElem?_eq_getElem hbyte, block_getElem? hj]

/-- The last data byte of a long block. -/
theorem interleaved_getElem?_long {i : Nat} (hi : i < numBlocks e v) (hlong : numShortBlocks v e ≤ i) :
    (interleaved v e data)[shortBlockDataLen v e * numBlocks e v + (i - numShortBlocks v e)]? =
      data[blockStart v e i + shortBlockDataLen v e]? := by
  have hrows := roundRobin_length (le_length_dataBlocks hv he hl)
  rw [dataBlocks_length] at hrows
  rw [interleaved, roundRobin_succ, List.append_assoc, ← hrows, List.getElem?_append_right (Nat.le_add_right ..),
    Nat.add_sub_cancel_left, List.getElem?_append_left, lastRow_getElem? hv he hl hi hlong]
  rw [lastRow_eq hv he hl, List.length_map, List.length_drop, dataBlocks_length]
  omega

/-- ECC byte `j` of block `i`. -/
theorem interleaved_getElem?_ecc {i j : Nat} (hi : i < numBlocks e v) (hj : j < eccPerBlock e v) :
    (interleaved v e data)[dataCodewords v e + j * numBlocks e v + i]? =
      (rsRemainder ((data.drop (blockStart v e i)).take (blockDataLen v e i)) (rsDivisor (eccPerBlock e v)))[j]? := by
  have hrow := roundRobin_getElem? (length_eccBlocks (data := data) hv he) (eccBlocks_length.symm ▸ hi) hj
  rw [eccBlocks_length, eccBlocks_getElem? hi, Option.bind_some] at hrow
  rw [interleaved, ← roundRobin_dataBlocks_length hv he hl, Nat.add_assoc,
    List.getElem?_append_right (Nat.le_add_right ..), Nat.add_sub_cancel_left, hrow]

end blocks

/-- Settles O40: the rows that every block fills, the row of the long blocks, and the ECC rows after the data. -/
theorem interleaveClosedForm : Obligations.InterleaveClosedForm := fun _ _ _ hv he hl =>
  ⟨interleaved_length hv he hl, blockStart_all hv he, fun _ hi =>
    ⟨fun _ => interleaved_getElem?_short hv he hl hi, interleaved_getElem?_long hv he hl hi,
      fun _ => interleaved_getElem?_ecc hv he hl hi⟩⟩

/-! ### The last block (R254) -/

/-- The last block is long exactly where the blocks are not all of one length (R250). -/
theorem blockDataLen_last {v e : Nat} (hnb : 1 ≤ numBlocks e v) :
    blockDataLen v e (numBlocks e v - 1) =
      shortBlockDataLen v e + if rawCodewords v % numBlocks e v = 0 then 0 else 1 := by
  have hshort : numBlocks e v - 1 < numShortBlocks v e ↔ rawCodewords v % numBlocks e v = 0 := by
    rw [numShortBlocks]
    omega
  simp only [blockDataLen, hshort]

/-- The last block begins its own length before the end of the data. -/
theorem blockStart_last {v e : Nat} (hv : LegalVersion v) (he : e ≤ 3) :
    blockStart v e (numBlocks e v - 1) + blockDataLen v e (numBlocks e v - 1) = dataCodewords v e := by
  obtain ⟨hnb, _⟩ := block_tables hv he
  rw [← blockStart_succ, Nat.sub_add_cancel hnb, blockStart_all hv he]

theorem lastRemainder_eq {v e : Nat} {data : List Byte} (hv : LegalVersion v) (he : e ≤ 3)
    (hl : data.length = dataCodewords v e) :
    lastRemainder v e data = rsRemainder
      (data.drop (dataCodewords v e -
        (shortBlockDataLen v e + if rawCodewords v % numBlocks e v = 0 then 0 else 1)))
      (rsDivisor (eccPerBlock e v)) := by
  obtain ⟨hnb, _⟩ := block_tables hv he
  have hend := blockStart_last hv he
  rw [lastRemainder, List.getLastD_eq_getLast?, List.getLast?_eq_getElem?, eccBlocks_length,
    eccBlocks_getElem? (Nat.sub_one_lt_of_lt hnb), Option.getD_some, ← blockDataLen_last hnb,
    ← Nat.eq_sub_of_add_eq hend, List.take_of_length_le]
  rw [List.length_drop, hl]
  omega

/-! ### INTERLEAVE (R255) -/

theorem exec_interleave_of_legal {v e : Nat} (hv : LegalVersion v) (he : e ≤ 3) (s : State) :
    exec (.interleave v e) s = .next (s.interleaveInto v e).complete :=
  congrArg Host.Outcome.next (checked_of_no_violation (i := .interleave v e)
    (by rw [violationOf, if_neg (not_not.2 hv), if_neg (Nat.not_lt.2 he)]))

/-- A register array that holds `d` bytes has zeros after them. -/
theorem padTo30_getD_of_length {l : List Byte} {d k : Nat} (hl : l.length = d) (hk : k < 30) :
    (padTo30 l).toList.getD k 0 = if k < d then l.getD k 0 else 0 := by
  rw [padTo30_getD, if_pos hk]
  split
  · rfl
  · next h => exact List.getD_eq_default _ _ (hl ▸ Nat.le_of_not_lt h)

theorem read_interleaveInto_outside {s : State} {v e a : Nat} (hv : LegalVersion v) (he : e ≤ 3)
    (ha : a < 0x5000 ∨ 0x5000 + rawCodewords v ≤ a) : (s.interleaveInto v e).mem.read a = s.mem.read a :=
  read_writeBytes_outside _ _ _ _ (by rwa [State.databuf, interleaved_length hv he (readBytes_length ..)])

/-- A command that ends by writing buffers, GEN and REM succeeds and changes nothing else. -/
theorem setMem_setGen_setRem_complete_succeeds (s : State) (m : Memory) (g r : Vector Byte 30) {t : State}
    (ht : t = (((s.setMem m).setGen g).setRem r).complete) : Succeeded s t ∧
      t = { s with
        eng := t.eng, status := t.status, errcode := t.errcode, gen := t.gen, rem := t.rem, mem := t.mem } := by
  subst ht
  exact ⟨⟨rfl, rfl, rfl⟩, rfl⟩

/-- Settles O41: `cwbuf_interleaveInto` for CWBUF; GEN and REM hold as many bytes as the generator's degree. -/
theorem interleaveFillsCwbuf : Obligations.InterleaveFillsCwbuf := by
  intro s v e hv he data last
  obtain ⟨_, _, _, _, _, hecc, _⟩ := block_tables hv he
  have hgen := rsDivisor_length hecc
  have hrem := (rsRemainder_length (hgen.symm ▸ hecc) last).trans hgen
  obtain ⟨hsucc, hframe⟩ :=
    setMem_setGen_setRem_complete_succeeds s _ _ _ (t := (s.interleaveInto v e).complete) rfl
  refine ⟨_, exec_interleave_of_legal hv he s, hsucc, ?_, fun a ha => ?_, fun k => padTo30_getD_of_length hgen,
    fun k hk => ?_, hframe⟩
  · rw [complete_eq, finish_mem]
    exact cwbuf_interleaveInto hv he
  · rw [complete_eq, finish_mem, read_interleaveInto_outside hv he ha]
  · rw [← padTo30_getD_of_length hrem hk, ← lastRemainder_eq hv he (readBytes_length ..)]
    rfl

end Sys2Proof.Machine
end

section
/-! PROOFS. The matrix commands (spec/45_matrix.md): what MINIT, MPLACE and MLIGHT leave in MATRIX and FUNCMAP. -/

namespace Sys2Proof.Machine

/-! ### The commands on a legal matrix -/

theorem exec_minit_of_legal {v : Nat} (hv : LegalVersion v) (s : State) :
    exec (.minit v) s = .next (s.minitInto v).complete :=
  congrArg Host.Outcome.next (checked_of_no_violation (i := .minit v) (by rw [violationOf, if_neg (not_not.2 hv)]))

section matrix

variable {s : State} {v : Nat}

theorem legalSide_of_matrixIs (h : MatrixIs s v) : LegalSide s.matrixSize := by
  obtain ⟨⟨h1, h40⟩, hsize⟩ := h
  exact ⟨v, List.mem_range'_1.2 ⟨h1, by omega⟩, hsize⟩

/-- R281: the size byte gives the version back. -/
theorem matrixVersion_of_matrixIs (h : MatrixIs s v) : s.matrixVersion = v := by
  rw [State.matrixVersion, h.2]
  omega

theorem exec_mplace_of_symbolIs (h : SymbolIs s v) : exec .mplace s = .next (s.mplaceInto v).complete := by
  obtain ⟨hm, hf⟩ := h
  refine congrArg Host.Outcome.next ((checked_of_no_violation (i := .mplace) ?_).trans ?_)
  · rw [violationOf, if_pos ⟨legalSide_of_matrixIs hm, hf.trans hm.2.symm⟩]
  · rw [matrixVersion_of_matrixIs hm]

theorem exec_mlight_of_matrixIs (h : MatrixIs s v) : exec .mlight s = .next (s.mlightInto v).complete := by
  refine congrArg Host.Outcome.next ((checked_of_no_violation (i := .mlight) ?_).trans ?_)
  · rw [violationOf, if_pos (legalSide_of_matrixIs h)]
  · rw [matrixVersion_of_matrixIs h]

/-- A command that ends by storing modules in MATRIX succeeds, gives them their colours and changes nothing else. -/
theorem setMatrix_complete_becomes (hv : v ≤ 40) {m : Modules} (hm : m < 2 ^ (8 * moduleBytes v))
    (htail : ∀ n, side v * side v ≤ n → m.testBit n = (s.matrix v).testBit n) {colour : Nat → Nat → Bool}
    (hcolour : ∀ x y, x < side v → y < side v → isDark m (side v) x y = colour x y) {t : State}
    (ht : t = (s.setMatrix v m).complete) :
    Succeeded s t ∧ MatrixBecomes s t v colour ∧
      t = { s with eng := t.eng, status := t.status, errcode := t.errcode, mem := t.mem } := by
  subst ht
  obtain ⟨hmodules, htail', hothers⟩ := setMatrix_becomes s hv hm htail
  exact ⟨⟨rfl, rfl, rfl⟩, ⟨fun x y hx hy => (hmodules x y hx hy).trans (hcolour x y hx hy), htail', hothers⟩, rfl⟩

/-- Buffers agree when MATRIX does as a number and every other byte does. -/
theorem read_eq_of_matrix_eq {u : State} (hmatrix : u.matrix v = s.matrix v)
    (hothers : ∀ a, a < 0x7001 ∨ 0x7000 + bufLen v ≤ a → u.mem.read a = s.mem.read a) (a : Nat) :
    u.mem.read a = s.mem.read a := by
  have hlen := moduleBytes_add_one v
  by_cases ha : a < 0x7001 ∨ 0x7000 + bufLen v ≤ a
  · exact hothers a ha
  · refine BitVec.eq_of_getLsbD_eq fun i hi => ?_
    have hbit : ∀ w : State, (w.matrix v).testBit (8 * (a - 0x7001) + i) = (w.mem.read a).getLsbD i := by
      intro w
      rw [testBit_matrix w (by omega), moduleBit, show 0x7000 + 1 + (8 * (a - 0x7001) + i) / 8 = a by omega,
        show (8 * (a - 0x7001) + i) % 8 = i by omega]
    rw [← hbit u, hmatrix, hbit s]

end matrix

/-! ### MINIT -/

section minit

variable (s : State) {v : Nat}

theorem read_writeMinit_size (m : Memory) {base : Nat} (h : BufferAddr base) :
    (m.writeMinit base v).read base = BitVec.ofNat 8 (side v) := by
  rw [Memory.writeMinit, read_writeLE_outside _ _ _ _ _ (.inl (Nat.lt_succ_self _)), read_write_self _ _ h]

theorem read_minitInto_outside {a : Nat}
    (ha : a < 0x6000 ∨ 0x6000 + bufLen v ≤ a ∧ a < 0x7000 ∨ 0x7000 + bufLen v ≤ a) :
    (s.minitInto v).mem.read a = s.mem.read a := by
  rw [State.minitInto, setMem_mem, read_writeMinit_outside _ (by rw [Config.funcmapBase]; omega),
    read_writeMinit_outside _ (by rw [Config.matrixBase]; omega)]

variable (hv : LegalVersion v)
include hv

theorem symbolIs_minitInto : SymbolIs (s.minitInto v) v := by
  have hbuf := bufLen_le hv.2
  have hsize : (BitVec.ofNat 8 (side v)).toNat = 4 * v + 17 := toNat_ofNat_of_lt (by have := side_lt hv.2; omega)
  refine ⟨⟨hv, ?_⟩, ?_⟩
  · rw [State.matrixSize, State.minitInto, setMem_mem,
      read_writeMinit_outside _ (.inr (by rw [Config.funcmapBase, Config.matrixBase]; omega)),
      read_writeMinit_size _ (by decide), hsize]
  · rw [State.funcmapSize, State.minitInto, setMem_mem, read_writeMinit_size _ (by decide), hsize]

/-- MATRIX and FUNCMAP as MINIT leaves them, bit by bit. -/
theorem moduleBit_minitInto {n : Nat} (hn : n < 8 * moduleBytes v) :
    moduleBit (s.minitInto v).mem 0x7000 n = (minitModules v).testBit n ∧
      moduleBit (s.minitInto v).mem 0x6000 n = (minitModules v).testBit n := by
  rw [← testBit_matrix _ hn, ← testBit_funcmap _ hn, matrix_minitInto s hv, funcmap_minitInto s hv]
  exact ⟨rfl, rfl⟩

end minit

/-- Settles O42: both buffers hold the bits of `minitModules`, whose picture `isDark_minitModules` gives. -/
theorem minitMarksFunctionRegions : Obligations.MinitMarksFunctionRegions := by
  intro s v hv
  refine ⟨_, exec_minit_of_legal hv s, ⟨rfl, rfl, rfl⟩, symbolIs_minitInto s hv, fun x y hx hy => ?_,
    fun n hn hn' => ?_, fun a => read_minitInto_outside s, rfl⟩
  · obtain ⟨hmatrix, hfuncmap⟩ :=
      moduleBit_minitInto s hv (Nat.lt_of_lt_of_le (moduleIndex_lt hx hy) (side_sq_le v))
    have hpic := isDark_minitModules hv hx hy
    exact ⟨hmatrix.trans hpic, hfuncmap.trans hpic⟩
  · obtain ⟨hmatrix, hfuncmap⟩ := moduleBit_minitInto s hv hn'
    have hlight := testBit_minitModules_tail hv hn
    exact ⟨hmatrix.trans hlight, hfuncmap.trans hlight⟩

/-! ### MPLACE -/

section mplace

variable {v : Nat} (hv : LegalVersion v)
include hv

/-- The first data modules of the scan take the codeword bits, whatever the function map (R275). -/
theorem isDark_mplaceModules (m f : Modules) (cw : List Byte) {x : Nat} (y : Nat) (hx : x < side v) :
    isDark (mplaceModules (side v) m f cw) (side v) x y =
      if (x, y) ∈ (dataOrder (side v) (isDark f (side v))).take (8 * cw.length)
      then codewordBit cw ((dataOrder (side v) (isDark f (side v))).idxOf (x, y)) else isDark m (side v) x y := by
  have hdata : dataModules (side v) f (zigzag (side v)) = dataOrder (side v) (isDark f (side v)) := by
    rw [zigzag_eq_scanOrder (Nat.lt_succ_of_le hv.2)]
    rfl
  rw [mplaceModules]
  split_ifs with h
  · have hmem := List.mem_of_mem_take h
    refine isDark_placeBits_data _ (nodup_zigzag _) (zigzag_column_lt hv) _ _ hx
      (by rw [hdata, List.getElem?_idxOf hmem]) ?_
    rw [unpackBytes_getElem?, if_pos ((List.mem_take_iff_idxOf_lt hmem).1 h)]
  · refine isDark_placeBits_other _ (zigzag_column_lt hv) _ _ hx fun k hk hk' => h ?_
    rw [unpackBytes_length] at hk
    rw [hdata] at hk'
    exact List.mem_of_getElem? ((List.getElem?_take_of_lt hk).trans hk')

theorem testBit_mplaceModules_tail (m f : Modules) (cw : List Byte) {n : Nat} (hn : side v * side v ≤ n) :
    (mplaceModules (side v) m f cw).testBit n = m.testBit n :=
  testBit_placeBits_tail f (fun _ hp => zigzag_inGrid (by have := side_ge hv; omega) hp) m _ hn

/-- FUNCMAP read as a number or byte by byte leaves the same modules to data. -/
theorem dataOrder_funcmap (s : State) :
    dataOrder (side v) (isDark (s.funcmap v) (side v)) = dataOrder (side v) (moduleFunction s.mem (side v)) := by
  rw [dataOrder, dataOrder, ← zigzag_eq_scanOrder (Nat.lt_succ_of_le hv.2)]
  refine List.filter_congr fun p hp => ?_
  obtain ⟨hx, hy⟩ := zigzag_inGrid (by have := side_ge hv; omega) hp
  rw [isDark_funcmap s hx hy]

end mplace

/-- Settles O44: `isDark_mplaceModules` gives each module of the scan its bit; CWBUF holds `rawCodewords v` bytes. -/
theorem mplacePlacesCodewords : Obligations.MplacePlacesCodewords := by
  intro s v h size scan order cw
  have hv := h.1.1
  have hlen : cw.length = rawCodewords v := readBytes_length ..
  have hside : 0 < side v := by have := side_ge hv; omega
  refine ⟨_, exec_mplace_of_symbolIs h, setMatrix_complete_becomes hv.2
    (mplaceModules_lt hside _ _ (matrix_lt s v) (side_sq_le v))
    (fun n hn => testBit_mplaceModules_tail hv _ _ _ hn) (fun x y hx hy => ?_) rfl⟩
  have horder : dataOrder (side v) (isDark (s.funcmap v) (side v)) = order := dataOrder_funcmap hv s
  have hplaced := isDark_mplaceModules hv (s.matrix v) (s.funcmap v) cw y hx
  rwa [horder, hlen, isDark_matrix s hx hy] at hplaced

/-! ### MLIGHT -/

/-- A choice between two options, with a third to fall back on. -/
theorem ite_option_or {α : Type} (p : Prop) [Decidable p] (a b c : Option α) :
    (if p then a else b).or c = if p then a.or c else b.or c := apply_ite (Option.or · c) p a b

/-- The light rings of the three finders (R277). -/
theorem lastColour_finders {size x y : Nat} (hx : x < size) (hy : y < size) :
    lastColour (finderWrites size 3 3 ++ finderWrites size (size - 4) 3 ++ finderWrites size 3 (size - 4)) x y =
      if ([(3, 3), (size - 4, 3), (3, size - 4)].any fun c => ring c.1 c.2 x y == 2 || ring c.1 c.2 x y == 4) = true
      then some false else none := by
  rw [lastColour_append, lastColour_append, lastColour_finderWrites _ _ hx hy, lastColour_finderWrites _ _ hx hy,
    lastColour_finderWrites _ _ hx hy, ite_option_or, ite_option_or, Option.some_or, Option.some_or,
    Option.none_or, Option.none_or, ← ite_or, ← ite_or]
  refine if_congr ?_ rfl rfl
  simp only [List.any_cons, List.any_nil, Bool.or_false, Bool.or_eq_true]
  tauto

/-- The parts of MLIGHT, the one drawn last first: its colour is the one that stays (R277). -/
theorem lastColour_lightWrites (v x y : Nat) :
    lastColour (lightWrites v) x y = (lastColour (versionWrites v) x y).or
      ((lastColour ((alignCentres v).flatMap alignWrites) x y).or
        ((lastColour (finderWrites (side v) 3 3 ++ finderWrites (side v) (side v - 4) 3 ++
            finderWrites (side v) 3 (side v - 4)) x y).or (lastColour (timingWrites (side v)) x y))) := by
  simp only [lightWrites, lastColour_append, Option.or_assoc]

/-- Drawing the light parts again changes nothing. -/
theorem mlightModules_mlightModules {v : Nat} (hv : LegalVersion v) (m : Modules) :
    mlightModules v (mlightModules v m) = mlightModules v m := by
  refine modules_ext (size := side v) (by have := side_ge hv; omega) (fun x y hx _ => ?_)
    fun n hn => testBit_mlightModules_tail hv _ hn
  rw [isDark_mlightModules hv _ _ hx, isDark_mlightModules hv _ _ hx]
  cases lastColour (lightWrites v) x y <;> rfl

/-- MLIGHT run again leaves every byte (R282). -/
theorem read_mlightInto_again (s : State) {v : Nat} (hv : LegalVersion v) (a : Nat) :
    ((s.mlightInto v).mlightInto v).mem.read a = (s.mlightInto v).mem.read a := by
  have hlt := mlightModules_lt hv (matrix_lt s v) (side_sq_le v)
  have hmatrix : (s.mlightInto v).matrix v = mlightModules v (s.matrix v) := matrix_setMatrix s hv.2 hlt
  refine read_eq_of_matrix_eq (v := v) ?_ (fun _ ha => read_setMatrix_outside _ _ ha) a
  calc ((s.mlightInto v).mlightInto v).matrix v
      _ = mlightModules v ((s.mlightInto v).matrix v) :=
        matrix_setMatrix _ hv.2 (mlightModules_lt hv (matrix_lt _ v) (side_sq_le v))
      _ = (s.mlightInto v).matrix v := by rw [hmatrix, mlightModules_mlightModules hv]

theorem matrixIs_mlightInto {s : State} {v : Nat} (h : MatrixIs s v) : MatrixIs (s.mlightInto v).complete v :=
  ⟨h.1, (matrixSize_setMatrix s _).trans h.2⟩

/-- Settles O45: `lastColour_lightWrites` part by part, and `mlightModules_mlightModules` for the second run. -/
theorem mlightDrawsLightParts : Obligations.MlightDrawsLightParts := by
  refine ⟨by decide +kernel, fun v hv => ?_⟩
  intro size drawn
  have hdrawn : ∀ x y, x < side v → y < side v → lastColour (lightWrites v) x y = drawn x y := by
    intro x y hx hy
    rw [lastColour_lightWrites, lastColour_versionWrites, lastColour_alignWrites hv,
      lastColour_finders hx hy, lastColour_timingWrites (by have := side_ge hv; omega)]
    simp only [ite_option_or, Option.some_or, Option.none_or]
    rfl
  refine ⟨fun w hw => (lightWrites_function hv w hw).2, hdrawn, fun s h => ?_⟩
  obtain ⟨hsucc, hbecomes, hframe⟩ := setMatrix_complete_becomes (s := s)
    (colour := fun x y => (drawn x y).getD (moduleDark s.mem (side v) x y)) hv.2
    (mlightModules_lt hv (matrix_lt s v) (side_sq_le v)) (fun n hn => testBit_mlightModules_tail hv _ hn)
    (fun x y hx hy => by rw [isDark_mlightModules hv _ _ hx, isDark_matrix s hx hy, hdrawn x y hx hy]) rfl
  exact ⟨_, exec_mlight_of_matrixIs h, hsucc, hbecomes, hframe, _, exec_mlight_of_matrixIs (matrixIs_mlightInto h),
    read_mlightInto_again s hv⟩

end Sys2Proof.Machine
end

section
/-! PROOFS. The mask commands (spec/46_mask.md): what MASK, FORMAT and MSELECT leave in MATRIX and the
result registers. -/

namespace Sys2Proof.Machine

/-! ### The commands on a legal matrix -/

section legal

variable {s : State} {v e k : Nat}

theorem exec_mask_of_symbolIs (h : SymbolIs s v) (hk : k ≤ 7) :
    exec (.mask k) s = .next (s.setMatrix v (applyMask (side v) (s.matrix v) (s.funcmap v) k)).complete := by
  obtain ⟨hm, hf⟩ := h
  refine congrArg Host.Outcome.next ((checked_of_no_violation (i := .mask k) ?_).trans ?_)
  · rw [violationOf, if_neg (by omega), if_pos ⟨legalSide_of_matrixIs hm, hf.trans hm.2.symm⟩]
  · rw [matrixVersion_of_matrixIs hm]

theorem exec_format_of_matrixIs (h : MatrixIs s v) (he : e ≤ 3) (hk : k ≤ 7) :
    exec (.format e k) s = .next ((s.setMatrix v (drawFormat (side v) (s.matrix v) e k)).setRes0
      (BitVec.ofNat 32 (formatBits e k))).complete := by
  refine congrArg Host.Outcome.next ((checked_of_no_violation (i := .format e k) ?_).trans ?_)
  · rw [violationOf, if_neg (by omega), if_neg (by omega), if_pos (legalSide_of_matrixIs h)]
  · rw [matrixVersion_of_matrixIs h]

theorem exec_penalty_of_matrixIs (h : MatrixIs s v) :
    exec .penalty s = .next ((s.setPenalty (BitVec.ofNat 32 (penaltyScore (s.matrix v) (side v)))).setRes
      (BitVec.ofNat 32 (penaltyScore (s.matrix v) (side v)))
      (BitVec.ofNat 32 (darkCount (s.matrix v) (side v)))).complete := by
  refine congrArg Host.Outcome.next ((checked_of_no_violation (i := .penalty) ?_).trans ?_)
  · rw [violationOf, if_pos (legalSide_of_matrixIs h)]
  · rw [matrixVersion_of_matrixIs h]

theorem exec_mselect_of_symbolIs {sel : Nat} (h : SymbolIs s v) (he : e ≤ 3) (hsel : sel ≤ 8) :
    exec (.mselect e sel) s = .next (s.mselectInto v e sel).complete := by
  obtain ⟨hm, hf⟩ := h
  refine congrArg Host.Outcome.next ((checked_of_no_violation (i := .mselect e sel) ?_).trans ?_)
  · rw [violationOf, if_neg (by omega), if_neg (by omega),
      if_pos ⟨legalSide_of_matrixIs hm, hf.trans hm.2.symm⟩]
  · rw [matrixVersion_of_matrixIs hm]

/-- Storing modules in MATRIX leaves both size bytes. -/
theorem symbolIs_setMatrix_complete (h : SymbolIs s v) (m : Modules) : SymbolIs (s.setMatrix v m).complete v :=
  ⟨⟨h.1.1, (matrixSize_setMatrix s m).trans h.1.2⟩, (funcmapSize_setMatrix s m).trans h.2⟩

end legal

/-! ### MASK -/

/-- MASK run again leaves every byte as it was before the first run (R301, R310). -/
theorem read_applyMask_again (s : State) {v : Nat} (hv : LegalVersion v) (k a : Nat) {t : State}
    (ht : t = (s.setMatrix v (applyMask (side v) (s.matrix v) (s.funcmap v) k)).complete) :
    (t.setMatrix v (applyMask (side v) (t.matrix v) (t.funcmap v) k)).mem.read a = s.mem.read a := by
  have hmatrix : t.matrix v = applyMask (side v) (s.matrix v) (s.funcmap v) k := by
    rw [ht]
    exact matrix_setMatrix s hv.2 (applyMask_lt _ _ (matrix_lt s v) (side_sq_le v))
  have hfuncmap : t.funcmap v = s.funcmap v := by
    rw [ht]
    exact funcmap_setMatrix s hv.2 _
  have hside : 0 < side v := Nat.lt_of_lt_of_le (by decide) (side_ge hv)
  rw [hmatrix, hfuncmap, applyMask_applyMask hside]
  refine read_eq_of_matrix_eq (v := v) (matrix_setMatrix t hv.2 (matrix_lt s v)) (fun b hb => ?_) a
  rw [read_setMatrix_outside t _ hb, ht]
  exact read_setMatrix_outside s _ hb

/-- Settles O46: `isDark_applyMask` gives each module its colour; masking again restores the matrix. -/
theorem maskInvertsDataModules : Obligations.MaskInvertsDataModules := by
  intro s v k h hk inverts
  have hv := h.1.1
  have hinvert : ∀ x y, invert k x y = decide (inverts x y) := by
    intro x y
    dsimp only [inverts]
    interval_cases k <;> rfl
  obtain ⟨hsucc, hbecomes, hframe⟩ := setMatrix_complete_becomes (s := s)
    (colour := fun x y => moduleDark s.mem (side v) x y ^^
      (!moduleFunction s.mem (side v) x y && decide (inverts x y))) hv.2
    (applyMask_lt (s.funcmap v) k (matrix_lt s v) (side_sq_le v)) (fun n hn => testBit_applyMask_tail _ _ _ hn)
    (fun x y hx hy => by
      rw [isDark_applyMask _ _ _ hx hy, isDark_matrix s hx hy, isDark_funcmap s hx hy, hinvert]) rfl
  exact ⟨_, exec_mask_of_symbolIs h hk, hsucc, hbecomes, hframe, _,
    exec_mask_of_symbolIs (symbolIs_setMatrix_complete h _) hk, fun a => read_applyMask_again s hv k a rfl⟩

/-! ### FORMAT -/

/-- R302: a format value has 15 bits. -/
theorem formatBits_lt {e k : Nat} (he : e ≤ 3) (hk : k ≤ 7) : formatBits e k < 2 ^ 15 :=
  (by decide : ∀ e < 4, ∀ k < 8, formatBits e k < 2 ^ 15) e (Nat.lt_succ_of_le he) k (Nat.lt_succ_of_le hk)

/-- Writes by index, where only index `j` can reach `(x, y)`. -/
theorem lastColour_map {l : List Nat} {g h : Nat → Nat} {f x y j : Nat} {p : Prop} [Decidable p]
    (hreach : ∀ i, i ∈ l ∧ g i = x ∧ h i = y ↔ i = j ∧ p) :
    lastColour (l.map fun i => (g i, h i, f.testBit i)) x y = if p then some (f.testBit j) else none := by
  refine lastColour_of_agree (fun w hw hx hy => ?_) ⟨?_, fun hp => ?_⟩
  · obtain ⟨i, hi, rfl⟩ := List.mem_map.1 hw
    rw [((hreach i).1 ⟨hi, hx, hy⟩).1]
  · rintro ⟨w, hw, hx, hy⟩
    obtain ⟨i, hi, rfl⟩ := List.mem_map.1 hw
    exact ((hreach i).1 ⟨hi, hx, hy⟩).2
  · obtain ⟨hj, hx, hy⟩ := (hreach j).2 ⟨rfl, hp⟩
    exact ⟨_, List.mem_map.2 ⟨j, hj, rfl⟩, hx, hy⟩

/-- The three modules of the first copy beside the corner (R303). -/
theorem lastColour_formatCorner (f x y : Nat) :
    lastColour [(8, 7, f.testBit 6), (8, 8, f.testBit 7), (7, 8, f.testBit 8)] x y =
      if x = 8 ∧ (y = 7 ∨ y = 8) then some (f.testBit (y - 1))
      else if y = 8 ∧ x = 7 then some (f.testBit 8) else none := by
  rw [show ∀ a b c : ModuleWrite, [a, b, c] = [a] ++ [b] ++ [c] from fun _ _ _ => rfl, lastColour_append,
    lastColour_append, lastColour_singleton, lastColour_singleton, lastColour_singleton]
  grind

/-- The colours FORMAT draws (R303). -/
theorem lastColour_formatWrites {size x y : Nat} (f : Nat) (hs : 21 ≤ size) (hx : x < size) (hy : y < size) :
    lastColour (formatWrites size f) x y =
      if x = 8 ∧ y = size - 8 then some true
      else if x = 8 ∧ y ≤ 5 then some (f.testBit y)
      else if x = 8 ∧ (y = 7 ∨ y = 8) then some (f.testBit (y - 1))
      else if y = 8 ∧ x = 7 then some (f.testBit 8)
      else if y = 8 ∧ x ≤ 5 then some (f.testBit (14 - x))
      else if y = 8 ∧ size - 8 ≤ x then some (f.testBit (size - 1 - x))
      else if x = 8 ∧ size - 7 ≤ y then some (f.testBit (y + 15 - size))
      else none := by
  have column1 : lastColour ((List.range 6).map fun i => (8, i, f.testBit i)) x y =
      if x = 8 ∧ y ≤ 5 then some (f.testBit y) else none :=
    lastColour_map fun i => by rw [List.mem_range]; omega
  have row1 : lastColour ((List.range' 9 6).map fun i => (14 - i, 8, f.testBit i)) x y =
      if y = 8 ∧ x ≤ 5 then some (f.testBit (14 - x)) else none :=
    lastColour_map fun i => by rw [List.mem_range'_1]; omega
  have row2 : lastColour ((List.range 8).map fun i => (size - 1 - i, 8, f.testBit i)) x y =
      if y = 8 ∧ size - 8 ≤ x then some (f.testBit (size - 1 - x)) else none :=
    lastColour_map fun i => by rw [List.mem_range]; omega
  have column2 : lastColour ((List.range' 8 7).map fun i => (8, size - 15 + i, f.testBit i)) x y =
      if x = 8 ∧ size - 7 ≤ y then some (f.testBit (y + 15 - size)) else none :=
    lastColour_map fun i => by rw [List.mem_range'_1]; omega
  simp only [formatWrites, lastColour_append, lastColour_singleton, lastColour_formatCorner, column1, row1, row2,
    column2, ite_option_or, Option.some_or, Option.none_or]
  -- the parts reach different modules, so they may be asked in any order
  grind

/-- Settles O47: `lastColour_formatWrites` gives each module its colour; the format values are R302's. -/
theorem formatDrawsBothCopies : Obligations.FormatDrawsBothCopies := by
  refine ⟨by decide, by decide, by decide, by decide, fun s v e k h he hk => ?_⟩
  intro size f
  have hv := h.1
  have hs := side_ge hv
  obtain ⟨hmodules, htail, hothers⟩ := setMatrix_becomes s hv.2
    (drawFormat_lt hs e k (matrix_lt s v) (side_sq_le v)) fun n hn => testBit_drawFormat_tail hs _ e k hn
  refine ⟨_, exec_format_of_matrixIs h he hk, ⟨rfl, rfl, rfl⟩,
    toNat_ofNat_of_lt ((formatBits_lt he hk).trans (by decide)),
    ⟨fun x y hx hy => (hmodules x y hx hy).trans ?_, htail, hothers⟩, rfl⟩
  rw [isDark_drawFormat hs _ _ _ _ hx, lastColour_formatWrites _ hs hx hy, isDark_matrix s hx hy]
  simp only [apply_ite (Option.getD · (moduleDark s.mem (side v) x y)), Option.getD_some, Option.getD_none]
  rfl

/-! ### MSELECT -/

/-- The state MSELECT leaves. In Auto the format modules of the trials are drawn over, so only the choice remains
(R312). -/
theorem mselectInto_eq (s : State) {v : Nat} (hv : LegalVersion v) (e : Nat) {sel : Nat} (hsel : sel ≤ 8) :
    ∃ best p r1, best ≤ 7 ∧ (sel ≤ 7 → best = sel ∧ r1 = 0 ∧ p = s.penalty) ∧
      (sel = 8 → FirstLowest (trialScore (side v) e (s.matrix v) (s.funcmap v)) best ∧
        p = BitVec.ofNat 32 (trialScore (side v) e (s.matrix v) (s.funcmap v) best) ∧ r1 = p) ∧
      s.mselectInto v e sel = { s with
        penalty := p
        res0 := BitVec.ofNat 32 best
        res1 := r1
        result := { s.result with mask := BitVec.ofNat 3 best }
        mem := (s.setMatrix v
          (drawFormat (side v) (applyMask (side v) (s.matrix v) (s.funcmap v) best) e best)).mem } := by
  rcases Nat.eq_or_lt_of_le hsel with rfl | hlt
  · obtain ⟨hagree, hlt, hminp, hle, hfirst⟩ := autoTrials_bestOf (side_ge hv) e (s.funcmap v) (s.matrix v)
    refine ⟨_, _, _, Nat.le_of_lt_succ (hlt (by decide)), fun h => absurd h (by decide), fun _ =>
      ⟨⟨fun k hk => hle k (Nat.lt_succ_of_le hk), fun k hk => hfirst k hk (by decide)⟩, rfl, rfl⟩, ?_⟩
    rw [State.mselectInto, if_pos rfl, ← drawFormat_congr (side_ge hv) (hagree.applyMask _ _)]
    dsimp only
    rw [hminp, if_neg (by decide), Option.getD_some]
    rfl
  · refine ⟨sel, s.penalty, 0, Nat.le_of_lt_succ hlt, fun _ => ⟨rfl, rfl, rfl⟩, fun h => absurd h hlt.ne, ?_⟩
    rw [State.mselectInto, if_neg hlt.ne]
    rfl

/-- The modules of a masked symbol with its format information (R301, R303). -/
theorem setMatrix_masked_becomes (s : State) {v : Nat} (hv : LegalVersion v) (e k : Nat) :
    MatrixBecomes s (s.setMatrix v
        (drawFormat (side v) (applyMask (side v) (s.matrix v) (s.funcmap v) k) e k)) v
      fun x y => (lastColour (formatWrites (side v) (formatBits e k)) x y).getD
        (moduleDark s.mem (side v) x y ^^ (!moduleFunction s.mem (side v) x y && invert k x y)) := by
  have hs := side_ge hv
  obtain ⟨hmodules, htail, hothers⟩ := setMatrix_becomes s hv.2
    (drawFormat_lt hs e k (applyMask_lt (s.funcmap v) k (matrix_lt s v) (side_sq_le v)) (side_sq_le v)) fun n hn => by
      rw [testBit_drawFormat_tail hs _ e k hn, testBit_applyMask_tail _ _ _ hn]
  refine ⟨fun x y hx hy => ?_, htail, hothers⟩
  rw [hmodules x y hx hy, isDark_drawFormat hs _ _ _ _ hx, isDark_applyMask _ _ _ hx hy, isDark_matrix s hx hy,
    isDark_funcmap s hx hy]

/-- Settles O51: `mselectInto_eq` gives the state; a score fits PENALTY exactly (R309). -/
theorem mselectAppliesChosenMask : Obligations.MselectAppliesChosenMask := by
  intro s v e sel h he hsel score
  have hv := h.1.1
  have hexec := exec_mselect_of_symbolIs h he hsel
  obtain ⟨best, p, r1, hbest, hexplicit, hauto, hstate⟩ := mselectInto_eq s hv e hsel
  rw [hstate] at hexec
  obtain ⟨hmodules, htail, hothers⟩ := setMatrix_masked_becomes s hv e best
  refine ⟨_, best, hexec, ⟨rfl, rfl, rfl⟩, hbest, hexplicit, fun h8 => ?_, toNat_ofNat_of_lt (by omega),
    toNat_ofNat_of_lt (by omega), ⟨hmodules, htail, hothers⟩, rfl⟩
  obtain ⟨⟨hle, hfirst⟩, hp, hr1⟩ := hauto h8
  exact ⟨hle, hfirst, (congrArg BitVec.toNat hp).trans (toNat_ofNat_of_lt (penaltyScore_lt hv _)), hr1⟩

end Sys2Proof.Machine
end

section
/-! PROOFS. The penalty score (spec/46_mask.md R304 to R309): what the runs of a line add to N1, the bounds of the four
terms, and what PENALTY reports. -/

namespace Sys2Proof.Machine

/-! ### N1 -/

/-- What a maximal run of length `n` adds to N1 (R305). -/
def runScore (n : Nat) : Nat := if 5 ≤ n then n - 2 else 0

/-- A run that grows by one module adds what the scan adds (R305). -/
theorem runScore_succ (n : Nat) :
    runScore (n + 1) = runScore n + if n + 1 = 5 then 3 else if n + 1 > 5 then 1 else 0 := by
  unfold runScore
  split_ifs <;> omega

/-- The scan adds what the runs add, less what the run under way has added already. -/
theorem foldl_step_n1 (size : Nat) (line : List Bool) (sc : Scan) :
    (line.foldl (Scan.step size) sc).n1 + runScore sc.run =
      sc.n1 + ((runsFrom sc.color sc.run line).map runScore).sum := by
  induction line generalizing sc with
  | nil => rfl
  | cons a line ih =>
    have hstep := ih (sc.step size a)
    rw [List.foldl_cons, runsFrom]
    by_cases ha : a = sc.color
    · rw [Scan.step, if_pos ha] at hstep ⊢
      rw [if_pos ha]
      dsimp only at hstep
      rw [runScore_succ] at hstep
      omega
    · rw [Scan.step, if_neg ha] at hstep ⊢
      rw [if_neg ha, List.map_cons, List.sum_cons]
      dsimp only at hstep
      rw [show runScore 1 = 0 from rfl] at hstep
      omega

theorem scanLine_fst (size : Nat) (line : List Bool) :
    (scanLine size line).1 = ((runsFrom false 0 line).map runScore).sum :=
  (foldl_step_n1 size line Scan.start).trans (Nat.zero_add _)

/-- The run of length 0 that the scan begins with scores nothing. -/
theorem sum_runScore_runsFrom (line : List Bool) :
    ((runsFrom false 0 line).map runScore).sum =
      (((line.splitBy (· == ·)).map List.length).map runScore).sum := by
  cases line with
  | nil => rfl
  | cons a line =>
    have hsplit : ((a :: line).splitBy (· == ·)).map List.length = runsFrom a 1 line :=
      splitBy_lengths a Nat.one_ne_zero line
    rw [hsplit, runsFrom]
    split_ifs with ha
    · rw [ha]
    · exact Nat.zero_add _

/-- Settles O48: `foldl_step_n1` for a whole line. -/
theorem runScoreCountsMaximalRuns : Obligations.RunScoreCountsMaximalRuns := by
  intro size line
  rw [scanLine_fst, sum_runScore_runsFrom, List.map_map]
  rfl

/-! ### Bounds (R309) -/

theorem sum_runsFrom (c : Bool) (n : Nat) (line : List Bool) : (runsFrom c n line).sum = n + line.length := by
  induction line generalizing c n with
  | nil => rfl
  | cons a line ih =>
    rw [runsFrom]
    split_ifs <;> simp only [List.sum_cons, ih, List.length_cons] <;> omega

theorem sum_runScore_le (runs : List Nat) : (runs.map runScore).sum ≤ runs.sum - 2 := by
  induction runs with
  | nil => exact Nat.zero_le _
  | cons n runs ih =>
    rw [List.map_cons, List.sum_cons, List.sum_cons, runScore]
    split_ifs <;> omega

/-- Per line, N1 is at most two less than the side. -/
theorem scanLine_fst_le (size : Nat) (line : List Bool) : (scanLine size line).1 ≤ line.length - 2 := by
  have h := sum_runScore_le (runsFrom false 0 line)
  rwa [← scanLine_fst size, sum_runsFrom, Nat.zero_add] at h

/-- N3 is scored where a dark run begins, and between two such modules stands a light one. -/
theorem foldl_step_n3_le (size : Nat) (line : List Bool) (sc : Scan) :
    (line.foldl (Scan.step size) sc).n3 ≤ sc.n3 + 40 * (line.length + if sc.color then 0 else 1) := by
  induction line generalizing sc with
  | nil => exact Nat.le_add_right _ _
  | cons a line ih =>
    have hcount := (sc.hist.push size sc.run).count_le
    have hstep := ih (sc.step size a)
    rw [List.foldl_cons, List.length_cons]
    refine hstep.trans ?_
    rw [Scan.step]
    by_cases ha : a = sc.color
    · rw [if_pos ha]
      dsimp only
      omega
    · rw [if_neg ha]
      dsimp only
      cases hc : sc.color
      · obtain rfl : a = true := by simpa [hc] using ha
        simp only [Bool.false_eq_true, if_false, if_true]
        omega
      · simp only [if_true]
        split_ifs <;> omega

/-- Per line, `count()` is evaluated at each dark run's beginning and once at the end. -/
theorem scanLine_snd_le (size : Nat) (line : List Bool) : (scanLine size line).2 ≤ 40 * (line.length + 3) := by
  have h := foldl_step_n3_le size line Scan.start
  obtain ⟨-, ht⟩ := (line.foldl (Scan.step size) Scan.start).terminate_le size
  rw [show Scan.start.n3 = 0 from rfl, show Scan.start.color = false from rfl, if_neg Bool.false_ne_true] at h
  exact ht.trans (by omega)

/-- The bounds of one line of a matrix. -/
theorem lineScores_bounds (m : Modules) (size : Nat) :
    ∀ p ∈ lineScores m size, p.1 ≤ size - 2 ∧ p.2 ≤ 40 * (size + 3) := by
  have hline : ∀ line : List Bool, line.length = size →
      (scanLine size line).1 ≤ size - 2 ∧ (scanLine size line).2 ≤ 40 * (size + 3) := by
    rintro line rfl
    exact ⟨scanLine_fst_le _ line, scanLine_snd_le _ line⟩
  intro p hp
  simp only [lineScores, List.mem_append, List.mem_map] at hp
  rcases hp with ⟨y, _, rfl⟩ | ⟨x, _, rfl⟩
  · exact hline _ (by rw [rowLine, List.length_map, List.length_range])
  · exact hline _ (by rw [colLine, List.length_map, List.length_range])

theorem penaltyN1_le (m : Modules) (size : Nat) : penaltyN1 m size ≤ 2 * size * (size - 2) :=
  sum_lineScores_le m size fun p hp => (lineScores_bounds m size p hp).1

theorem penaltyN3_le (m : Modules) (size : Nat) : penaltyN3 m size ≤ 2 * size * (40 * (size + 3)) :=
  sum_lineScores_le m size fun p hp => (lineScores_bounds m size p hp).2

/-- The deviation is at most 50%, ten steps of 5%, and R308 counts one less. -/
theorem penaltyN4_le_ninety (m : Modules) {size : Nat} (hs : 0 < size) : penaltyN4 m size ≤ 90 := by
  have hd := darkCount_le m size
  have htot := Nat.mul_pos hs hs
  have hdist : dist (darkCount m size * 20) (size * size * 10) ≤ 10 * (size * size) := by
    unfold dist
    split_ifs <;> omega
  have hdiv : (dist (darkCount m size * 20) (size * size * 10) + size * size - 1) / (size * size) < 11 :=
    Nat.div_lt_of_lt_mul (by omega)
  unfold penaltyN4
  dsimp only
  omega

/-- Settles O49: the bounds of the four terms at the largest side, 177. -/
theorem penaltyScoreRange : Obligations.PenaltyScoreRange := by
  intro v m hv
  have hpos : 0 < side v := Nat.lt_of_lt_of_le (by decide) (side_ge hv)
  have hs : side v ≤ 177 := Nat.le_of_lt_succ (side_lt hv.2)
  have h1 : penaltyN1 m (side v) ≤ 2 * 177 * (177 - 2) := (penaltyN1_le m (side v)).trans (by gcongr)
  have h2 : penaltyN2 m (side v) ≤ 3 * ((177 - 1) * (177 - 1)) := (penaltyN2_le m (side v)).trans (by gcongr)
  have h3 : penaltyN3 m (side v) ≤ 2 * 177 * (40 * (177 + 3)) := (penaltyN3_le m (side v)).trans (by gcongr)
  have h4 := penaltyN4_le_ninety m hpos
  unfold penaltyScore
  omega

/-! ### PENALTY -/

/-- R308, the distance written as an absolute value. -/
theorem penaltyN4_eq (m : Modules) (size : Nat) :
    penaltyN4 m size = 10 * (((20 * (darkCount m size : Int) - 10 * (size * size : Nat)).natAbs + size * size - 1) /
      (size * size) - 1) := by
  have hdist : dist (darkCount m size * 20) (size * size * 10) =
      (20 * (darkCount m size : Int) - 10 * (size * size : Nat)).natAbs := by
    unfold dist
    split_ifs <;> omega
  rw [← hdist]
  rfl

section reported

variable (s : State) (v : Nat)

/-- The rows and columns of MATRIX, read byte by byte. -/
def matrixLines : List (List Bool) :=
  (List.range (side v)).map (fun y => (List.range (side v)).map fun x => moduleDark s.mem (side v) x y)
    ++ (List.range (side v)).map (fun x => (List.range (side v)).map fun y => moduleDark s.mem (side v) x y)

theorem lineScores_matrix :
    lineScores (s.matrix v) (side v) = (matrixLines s v).map (scanLine (side v)) := by
  rw [lineScores, matrixLines, List.map_append, List.map_map, List.map_map]
  refine congrArg₂ _ (List.map_congr_left fun y hy => ?_) (List.map_congr_left fun x hx => ?_)
  · exact congrArg _ (List.map_congr_left fun x hx => isDark_matrix s (List.mem_range.1 hx) (List.mem_range.1 hy))
  · exact congrArg _ (List.map_congr_left fun y hy => isDark_matrix s (List.mem_range.1 hx) (List.mem_range.1 hy))

theorem darkCount_matrix : darkCount (s.matrix v) (side v) =
    ((allModules (side v)).filter fun p => moduleDark s.mem (side v) p.1 p.2).length := by
  rw [darkCount, List.countP_eq_length_filter]
  refine congrArg List.length (List.filter_congr fun p hp => ?_)
  obtain ⟨hx, hy⟩ := mem_allModules.1 hp
  exact isDark_matrix s hx hy

/-- The blocks of one colour, read byte by byte (R306). -/
theorem penaltyN2_matrix : penaltyN2 (s.matrix v) (side v) =
    3 * ((allModules (side v - 1)).filter fun p =>
      moduleDark s.mem (side v) p.1 p.2 == moduleDark s.mem (side v) (p.1 + 1) p.2
        && moduleDark s.mem (side v) p.1 p.2 == moduleDark s.mem (side v) p.1 (p.2 + 1)
        && moduleDark s.mem (side v) p.1 p.2 == moduleDark s.mem (side v) (p.1 + 1) (p.2 + 1)).length := by
  rw [penaltyN2, List.countP_eq_length_filter]
  refine congrArg (3 * List.length ·) (List.filter_congr fun p hp => ?_)
  obtain ⟨hx, hy⟩ := mem_allModules.1 hp
  rw [uniformBlock, isDark_matrix s (by omega) (by omega), isDark_matrix s (by omega) (by omega),
    isDark_matrix s (by omega) (by omega), isDark_matrix s (by omega) (by omega)]

end reported

/-- What seven runs add to N3 (R307). -/
theorem forty_sevenRuns (runs : List Nat) (k : Nat) : 40 * sevenRuns runs k =
    let run := fun i => runs.getD (k + i) 0
    let n := run 1
    if k % 2 = 0 ∧ k + 6 < runs.length ∧ run 2 = n ∧ run 3 = 3 * n ∧ run 4 = n ∧ run 5 = n then
      (if 4 * n ≤ run 0 ∧ n ≤ run 6 then 40 else 0) + (if n ≤ run 0 ∧ 4 * n ≤ run 6 then 40 else 0)
    else 0 := by
  simp only [sevenRuns, mul_ite, mul_add, mul_one, mul_zero]

/-- Settles O50: each term of the score as it stands in the buffer; `scanLine_snd` gives N3 by the bordered runs. -/
theorem penaltyReportsTheScore : Obligations.PenaltyReportsTheScore := by
  intro s v h size dark total count lines n3 n2 n4
  have hv := h.1
  have hcount : darkCount (s.matrix v) (side v) = count := darkCount_matrix s v
  have hcount_lt : count < 2 ^ 32 := by
    have hs : side v ≤ 177 := Nat.le_of_lt_succ (side_lt hv.2)
    have := (darkCount_le (s.matrix v) (side v)).trans (Nat.mul_le_mul hs hs)
    omega
  have hlines : lineScores (s.matrix v) (side v) = lines.map (scanLine size) := lineScores_matrix s v
  have hn3 : ∀ line, (scanLine size line).2 = n3 line := by
    intro line
    rw [scanLine_snd (by omega), ← List.sum_map_mul_left]
    simp only [forty_sevenRuns]
    rfl
  have hscore : penaltyScore (s.matrix v) (side v) =
      (lines.map fun line => (scanLine size line).1).sum + n2 + (lines.map n3).sum + n4 := by
    rw [penaltyScore, penaltyN1, penaltyN3, hlines, penaltyN2_matrix, penaltyN4_eq, hcount, List.map_map, List.map_map]
    simp only [Function.comp_def, hn3]
    rfl
  exact ⟨_, exec_penalty_of_matrixIs h, ⟨rfl, rfl, rfl⟩,
    (toNat_ofNat_of_lt (penaltyScore_lt hv _)).trans hscore, rfl,
    (congrArg (fun n => (BitVec.ofNat 32 n).toNat) hcount).trans (toNat_ofNat_of_lt hcount_lt), rfl⟩

end Sys2Proof.Machine
end

section
/-! PROOFS. ENCSEG and its stage commands (spec/47_encode.md R340): no stage reads the outcome, the arguments, RES0,
RES1 or RESULT, so the commands in turn compute what the pipeline does. -/

namespace Sys2Proof.Machine

/-! ### What each stage writes -/

/-- From `s` to `u` only GEN, REM and the buffers change. -/
def BuffersOnly (s u : State) : Prop := ∃ g r m, u = { s with gen := g, rem := r, mem := m }

theorem BuffersOnly.trans {s u w : State} : BuffersOnly s u → BuffersOnly u w → BuffersOnly s w := by
  rintro ⟨_, _, _, rfl⟩ ⟨_, _, _, rfl⟩
  exact ⟨_, _, _, rfl⟩

theorem BuffersOnly.setMem (s : State) (m : Memory) : BuffersOnly s (s.setMem m) := ⟨_, _, _, rfl⟩

/-- The stages up to MLIGHT write nothing else (R340, steps 2 to 6). -/
theorem buffersOnly_unmasked (s : State) (v e : Nat) : BuffersOnly s (s.unmasked v e) := by
  have hinterleave : BuffersOnly (s.assembleInto v e) ((s.assembleInto v e).interleaveInto v e) := ⟨_, _, _, rfl⟩
  exact ((((BuffersOnly.setMem s _).trans hinterleave).trans (.setMem _ _)).trans (.setMem _ _)).trans (.setMem _ _)

/-- `s` with what mask selection writes taken from `u` (R340, step 7). -/
def State.selected (s u : State) : State :=
  { s with
    res0 := u.res0
    res1 := u.res1
    penalty := u.penalty
    result := { s.result with mask := u.result.mask }
    mem := u.mem }

/-- `s` with the outcome of a success, and a version, a level and their bits reported: what NEGOT (R230) and the last
step of the pipeline (R340, step 8) leave. -/
def State.reported (s : State) (v e t : Nat) : State :=
  ((s.setResult
    { version := BitVec.ofNat 6 v
      ecl := BitVec.ofNat 2 e
      mask := s.result.mask
      size := BitVec.ofNat 8 (side v) }).setRes (BitVec.ofNat 32 t) (BitVec.ofNat 32 (capacityBits v e))).complete

/-! ### Registers that no stage reads -/

/-- `s` with the outcome, the arguments and the reported results of `w`. -/
def State.withReport (s w : State) : State :=
  { s with
    eng := w.eng
    status := w.status
    errcode := w.errcode
    arg0 := w.arg0
    arg1 := w.arg1
    res0 := w.res0
    res1 := w.res1
    result := w.result }

section stages

variable (s w : State) (v e : Nat)

theorem withReport_self : s.withReport s = s := rfl

theorem complete_withReport : (s.withReport w).complete = s.withReport w.complete := rfl

theorem interleaveInto_withReport : (s.withReport w).interleaveInto v e = (s.interleaveInto v e).withReport w := rfl

theorem minitInto_withReport : (s.withReport w).minitInto v = (s.minitInto v).withReport w := rfl

theorem mplaceInto_withReport : (s.withReport w).mplaceInto v = (s.mplaceInto v).withReport w := rfl

theorem mlightInto_withReport : (s.withReport w).mlightInto v = (s.mlightInto v).withReport w := rfl

theorem unmasked_withReport : (s.withReport w).unmasked v e = (s.unmasked v e).withReport w := rfl

/-- Mask selection writes the same under any report. -/
theorem mselectInto_withReport (sel : Nat) :
    (s.withReport w).mselectInto v e sel = (s.withReport w).selected (s.mselectInto v e sel) := by
  by_cases h : sel = 8 <;> simp only [State.mselectInto, h, if_true, if_false] <;> rfl

/-- The built symbol is what mask selection writes over the stages before it. -/
theorem buildSymbol_selected : s.buildSymbol v e = (s.unmasked v e).selected (s.buildSymbol v e) := by
  have h := mselectInto_withReport (s.unmasked v e) (s.unmasked v e) v e s.cfg.mask.toNat
  rwa [withReport_self, ← buildSymbol_eq] at h

end stages

/-! ### ENCSEG and the commands in turn -/

theorem encodeCore_of_some {s : State} {v e t : Nat} (h : s.negotiated = some (v, e, t)) :
    s.encodeCore = (s.buildSymbol v e).reported v e t := by
  rw [State.encodeCore, h]
  rfl

theorem exec_encseg_of_none {s : State} (h : violationOf .encseg s = none) : exec .encseg s = .next s.encodeCore :=
  congrArg Host.Outcome.next (checked_of_no_violation h)

theorem runCommands_cons {i : Instr} {s t : State} (h : exec i s = .next t) (is : List Instr) :
    runCommands (i :: is) s = runCommands is t := by
  rw [runCommands, h]

/-- The seven stage commands in turn: each finds its checks passed and does its stage under what NEGOT reported. -/
theorem runCommands_stages {s : State} (hc : CfgLegal s) (hs : 1 ≤ s.segCnt.toNat) {v e t : Nat}
    (h : s.negotiated = some (v, e, t)) :
    runCommands [.negot, .assemble v e, .interleave v e, .minit v, .mplace, .mlight, .mselect e s.cfg.mask.toNat] s =
      .next (((s.unmasked v e).withReport (s.reported v e t)).selected (s.buildSymbol v e)).complete := by
  obtain ⟨hv, he, htot, ht⟩ := negotiated_bounds hc.1 h
  have hnegot : exec .negot s = .next (s.withReport (s.reported v e t)) := exec_negot_of_some hc.1 hs h
  have hassemble : exec (.assemble v e) (s.withReport (s.reported v e t)) =
      .next ((s.assembleInto v e).withReport (s.reported v e t)) :=
    exec_assemble_of_some hv he hs ((fitsAt_eq_some_iff s.segs e v t).2 ⟨htot, ht⟩)
  rw [runCommands_cons hnegot, runCommands_cons hassemble]
  have hw : (s.reported v e t).complete = s.reported v e t := rfl
  generalize s.reported v e t = w at hw
  have hprepared : SymbolIs ((s.prepared v e).withReport w) v := symbolIs_minitInto _ hv
  have hplaced : SymbolIs (((s.prepared v e).mplaceInto v).withReport w) v := symbolIs_setMatrix_complete hprepared _
  have hdrawn : SymbolIs ((s.unmasked v e).withReport w) v := symbolIs_setMatrix_complete hplaced _
  have hinterleave := exec_interleave_of_legal hv he ((s.assembleInto v e).withReport w)
  have hminit := exec_minit_of_legal hv (((s.assembleInto v e).interleaveInto v e).withReport w)
  have hmplace := exec_mplace_of_symbolIs hprepared
  have hmlight := exec_mlight_of_matrixIs hplaced.1
  rw [interleaveInto_withReport, complete_withReport, hw] at hinterleave
  rw [minitInto_withReport, complete_withReport, hw] at hminit
  rw [mplaceInto_withReport, complete_withReport, hw] at hmplace
  rw [mlightInto_withReport, complete_withReport, hw] at hmlight
  rw [runCommands_cons hinterleave, runCommands_cons hminit, ← State.prepared, runCommands_cons hmplace,
    runCommands_cons hmlight, ← State.unmasked, runCommands_cons (exec_mselect_of_symbolIs hdrawn he hc.2),
    mselectInto_withReport, ← buildSymbol_eq, runCommands]

/-- What the pipeline reports last is what NEGOT reported first, but for RES0 and RES1, which MSELECT wrote between. -/
theorem selected_reported {s x : State} (hx : BuffersOnly s x) (u : State) (v e t : Nat) :
    (x.selected u).reported v e t = { ((x.withReport (s.reported v e t)).selected u).complete with
      res0 := BitVec.ofNat 32 t
      res1 := BitVec.ofNat 32 (capacityBits v e) } := by
  obtain ⟨_, _, _, rfl⟩ := hx
  rfl

/-- What ENCSEG leaves succeeds, and holds the negotiated bits. -/
theorem reported_succeeds {s x : State} (hx : BuffersOnly s x) (u : State) (v e t : Nat) :
    Succeeded s ((x.selected u).reported v e t) := by
  obtain ⟨_, _, _, rfl⟩ := hx
  exact ⟨rfl, rfl, rfl⟩

theorem reported_bits (s : State) {v e t : Nat} (hv : LegalVersion v) (he : e ≤ 3) (ht : t ≤ capacityBits v e) :
    (s.reported v e t).res0.toNat = t ∧ (s.reported v e t).res1.toNat = dataCodewords v e * 8 := by
  have hcap := capacityBits_le hv he
  exact ⟨toNat_ofNat_of_lt (w := 32) (by omega), toNat_ofNat_of_lt (w := 32) (n := capacityBits v e) (by omega)⟩

/-- Settles O52: the stage commands run in turn compute the pipeline's stages under NEGOT's report, which no stage
reads; ENCSEG then overwrites RES0 and RES1, and the rest of the report is its own. -/
theorem encsegRunsTheStagesInTurn : Obligations.EncsegRunsTheStagesInTurn := by
  intro s v e b hc hs h
  obtain ⟨hv, he, _, hb⟩ := negotiated_bounds hc.1 h
  have hx := buffersOnly_unmasked s v e
  have hencseg := exec_encseg_of_none (violationOf_encseg hc hs)
  rw [encodeCore_of_some h, buildSymbol_selected] at hencseg
  exact ⟨_, _, runCommands_stages hc hs h, hencseg, reported_succeeds hx _ v e b, selected_reported hx _ v e b,
    reported_bits _ hv he hb⟩

end Sys2Proof.Machine
end

section
/-! PROOFS. What ENCSEG leaves where negotiation succeeds (spec/47_encode.md R340, R341, R346): its report, the sizes
and the mask, and the bytes outside the symbol's. -/

namespace Sys2Proof.Machine

section built

variable {s : State} {v e : Nat}

/-- MPLACE, MLIGHT and the mask selection write modules of MATRIX only (R340, steps 5 to 7). -/
theorem read_buildSymbol_outside (hv : LegalVersion v) (hm : s.cfg.mask.toNat ≤ 8) {a : Nat}
    (ha : a < 0x7001 ∨ 0x7000 + bufLen v ≤ a) : (s.buildSymbol v e).mem.read a = (s.prepared v e).mem.read a := by
  obtain ⟨_, _, hmem, _⟩ := mselectInto_spec (s.unmasked v e) hv e hm
  rw [buildSymbol_eq, hmem, read_setMatrix_outside _ _ ha, State.unmasked, State.mlightInto,
    read_setMatrix_outside _ _ ha, State.mplaceInto, read_setMatrix_outside _ _ ha]

/-- Assembly, interleaving and MINIT write the parts that R341 lists (R340, steps 2 to 4). -/
theorem read_prepared_outside (hv : LegalVersion v) (he : e ≤ 3) (hl : (s.stream v).length ≤ capacityBits v e) {a : Nat}
    (ha : a < 0x4000 ∨ 0x4000 + dataCodewords v e ≤ a ∧ a < 0x5000 ∨ 0x5000 + rawCodewords v ≤ a ∧ a < 0x6000 ∨
      0x6000 + bufLen v ≤ a ∧ a < 0x7000 ∨ 0x7000 + bufLen v ≤ a) : (s.prepared v e).mem.read a = s.mem.read a := by
  have hdata := dataCodewords_le hv he
  obtain ⟨_, _, _, _, hraw, _⟩ := block_tables hv he
  have hbuf := bufLen_le hv.2
  rw [State.prepared, read_minitInto_outside _ (by omega), read_interleaveInto_outside hv he (by omega),
    read_assembleInto_outside hl (by omega)]

/-- Both size bytes are the symbol's side (R346). -/
theorem read_buildSymbol_size (hv : LegalVersion v) (hm : s.cfg.mask.toNat ≤ 8) :
    (s.buildSymbol v e).mem.read 0x7000 = BitVec.ofNat 8 (side v) ∧
      (s.buildSymbol v e).mem.read 0x6000 = BitVec.ofNat 8 (side v) := by
  obtain ⟨⟨_, hmatrix⟩, hfuncmap⟩ := symbolIs_minitInto ((s.assembleInto v e).interleaveInto v e) hv
  rw [read_buildSymbol_outside hv hm (.inl (by decide)), read_buildSymbol_outside hv hm (.inl (by decide))]
  have hside : (BitVec.ofNat 8 (side v)).toNat = side v := toNat_ofNat_of_lt (by have := side_lt hv.2; omega)
  exact ⟨BitVec.eq_of_toNat_eq (hmatrix.trans hside.symm), BitVec.eq_of_toNat_eq (hfuncmap.trans hside.symm)⟩

/-- An explicit mask is the one applied, and leaves PENALTY (R312). -/
theorem buildSymbol_explicit (hm : s.cfg.mask.toNat ≤ 7) :
    (s.buildSymbol v e).result.mask.toNat = s.cfg.mask.toNat ∧ (s.buildSymbol v e).penalty = s.penalty := by
  rw [buildSymbol_eq, State.mselectInto, if_neg (by omega)]
  refine ⟨toNat_ofNat_of_lt (w := 3) (by omega), ?_⟩
  obtain ⟨_, _, _, hx⟩ := buffersOnly_unmasked s v e
  rw [hx]
  rfl

end built

/-- ENCSEG changes what it reports, PENALTY, GEN, REM and the buffers (R341). -/
theorem reported_frame {s x : State} (hx : BuffersOnly s x) (u : State) (v e n : Nat) {t : State}
    (ht : t = (x.selected u).reported v e n) : t = { s with
      eng := t.eng
      status := t.status
      errcode := t.errcode
      result := t.result
      res0 := t.res0
      res1 := t.res1
      penalty := t.penalty
      gen := t.gen
      rem := t.rem
      mem := t.mem } := by
  obtain ⟨_, _, _, rfl⟩ := hx
  subst ht
  rfl

/-- Settles O53: the report is that of the negotiation, and the rest is what the stages leave in the buffers. -/
theorem encsegSucceeds : Obligations.EncsegSucceeds := by
  intro s v e b hc hs h
  obtain ⟨hv, he, htot, hb⟩ := negotiated_bounds hc.1 h
  have hl : (s.stream v).length ≤ capacityBits v e := stream_length htot ▸ hb
  have hx := buffersOnly_unmasked s v e
  have hsel := buildSymbol_selected s v e
  obtain ⟨hmatrix, hfuncmap⟩ := read_buildSymbol_size (s := s) (e := e) hv hc.2
  obtain ⟨hres0, hres1⟩ := reported_bits (s.buildSymbol v e) hv he hb
  have hv40 := hv.2
  have hside := side_lt hv40
  have hexec := exec_encseg_of_none (violationOf_encseg hc hs)
  rw [encodeCore_of_some h] at hexec
  refine ⟨_, hexec, hsel ▸ reported_succeeds hx _ v e b, toNat_ofNat_of_lt (w := 6) (by omega),
    toNat_ofNat_of_lt (w := 2) (by omega), toNat_ofNat_of_lt (w := 8) (n := side v) (by omega), hmatrix, hfuncmap,
    buildSymbol_explicit, hres0, hres1, fun a ha => ?_, reported_frame hx _ v e b (congrArg (·.reported v e b) hsel)⟩
  have hbuf := bufLen_le hv40
  obtain ⟨_, _, _, _, hraw, _⟩ := block_tables hv he
  exact (read_buildSymbol_outside hv hc.2 (by omega)).trans (read_prepared_outside hv he hl ha)

end Sys2Proof.Machine
end

section
/-! PROOFS. ENCTEXT and ENCBIN (spec/47_encode.md R342, R343): the payload's one segment, and the pipeline run on it. -/

namespace Sys2Proof.Machine

/-! ### The pipeline after another command -/

/-- The stages compute the same symbol under any report. -/
theorem buildSymbol_withReport (s w : State) (v e : Nat) :
    (s.withReport w).buildSymbol v e = ((s.unmasked v e).withReport w).selected (s.buildSymbol v e) := by
  rw [buildSymbol_eq, unmasked_withReport, mselectInto_withReport]
  rfl

/-- The pipeline neither reads nor changes ARG0 and ARG1, and what a command that succeeded just before it recorded is
overwritten. -/
theorem encodeCore_after_complete (s : State) (a0 a1 : Word) :
    s.encodeCore = { ({ s with arg0 := a0, arg1 := a1 } : State).complete.encodeCore with
      arg0 := s.arg0
      arg1 := s.arg1 } := by
  change s.encodeCore = { (s.withReport ({ s with arg0 := a0, arg1 := a1 } : State).complete).encodeCore with
    arg0 := s.arg0
    arg1 := s.arg1 }
  cases h : s.negotiated with
  | none =>
    have h' : (s.withReport ({ s with arg0 := a0, arg1 := a1 } : State).complete).negotiated = none := h
    rw [State.encodeCore, State.encodeCore, h, h']
    rfl
  | some r =>
    obtain ⟨v, e, t⟩ := r
    have h' : (s.withReport ({ s with arg0 := a0, arg1 := a1 } : State).complete).negotiated = some (v, e, t) := h
    rw [encodeCore_of_some h, encodeCore_of_some h', buildSymbol_withReport, buildSymbol_selected]
    obtain ⟨_, _, _, hx⟩ := buffersOnly_unmasked s v e
    rw [hx]
    rfl

/-- The pipeline leaves SEGCNT (R341, R345). -/
theorem encodeCore_segCnt (s : State) : s.encodeCore.segCnt = s.segCnt := by
  cases h : s.negotiated with
  | none =>
    rw [State.encodeCore, h]
    rfl
  | some r =>
    obtain ⟨v, e, t⟩ := r
    rw [encodeCore_of_some h, reported_frame (buffersOnly_unmasked s v e) (s.buildSymbol v e) v e t
      (congrArg (·.reported v e t) (buildSymbol_selected s v e))]

/-! ### One segment -/

/-- The table cleared and one segment built (R342). -/
def State.oneSegment (s : State) (mode : SegMode) (nchars : Nat) (bits : List Bool) : State :=
  appendState (s.setSegCounts 0 0) mode nchars bits

section oneSegment

variable (s : State) (mode : SegMode) (nchars : Nat) {bits : List Bool}

theorem segmentFits_cleared : SegmentFits (s.setSegCounts 0 0) bits ↔ bits.length ≤ 32767 := by
  have h0 : (s.setSegCounts 0 0).segBits.toNat = 0 := rfl
  rw [SegmentFits, h0]
  omega

theorem encodeSegment_of_fits (h : bits.length ≤ 32767) :
    s.encodeSegment mode nchars bits = (s.oneSegment mode nchars bits).encodeCore := by
  rw [State.encodeSegment, segAppend_of_fits mode nchars ((segmentFits_cleared s).2 h)]
  rfl

theorem encodeSegment_of_large (h : 32767 < bits.length) :
    s.encodeSegment mode nchars bits = (s.setSegCounts 0 0).failState.notEncodable .segTooLarge := by
  rw [State.encodeSegment,
    segAppend_of_not_fits mode nchars fun hf => Nat.not_le.2 h ((segmentFits_cleared s).1 hf)]

theorem oneSegment_segs : (s.oneSegment mode nchars bits).segs = [newDesc (s.setSegCounts 0 0) mode nchars bits] :=
  appendState_segs mode nchars bits (s := s.setSegCounts 0 0) (Nat.zero_lt_succ 15)

/-- In a version that holds the one segment its bits are counted so (R219). -/
theorem totalBits_oneSegment {v width : Nat} (hccb : ccb (modeIndicator mode).toNat v = some width)
    (hn : nchars < 65536) (hcount : nchars ≤ 2 ^ width - 1) (hbits : 4 + width + bits.length ≤ 32767) :
    totalBits (s.oneSegment mode nchars bits).segs v = some (4 + width + bits.length) := by
  have hlen : (BitVec.ofNat 16 bits.length).toNat = bits.length := toNat_ofNat_of_lt (by omega)
  rw [oneSegment_segs, totalBits_eq_some_iff]
  refine ⟨fun d hd => ?_, ?_, hbits⟩
  · rw [List.mem_singleton.1 hd]
    exact ⟨width, hccb, (toNat_ofNat_of_lt hn).trans_le hcount⟩
  · simp only [List.map_cons, List.map_nil, List.sum_singleton, segTotal, newDesc, hccb, hlen, Option.getD_some]

end oneSegment

/-! ### ENCTEXT and ENCBIN -/

theorem violationOf_plen {s : State} (hc : CfgLegal s) (hp : s.plen.toNat ≤ 8192) :
    violationOf .enctext s = none ∧ violationOf .encbin s = none := by
  obtain ⟨⟨hmin, hmax, hle⟩, hmask⟩ := hc
  have h : violationOf .enctext s = none := by
    rw [violationOf, cfgViolation, if_neg (not_not.2 ⟨hmin, hmax⟩), if_neg (Nat.not_lt.2 hle),
      if_neg fun h => Nat.not_lt.2 hmask h.2, if_neg (Nat.not_lt.2 hp)]
    rfl
  exact ⟨h, h⟩

/-- SEGCLR, a SEG command and ENCSEG in turn, where the segment fits: the pipeline runs on the one segment. -/
theorem runCommands_oneSegment {s : State} (hc : CfgLegal s) {i : Instr} {mode : SegMode} {nchars : Nat}
    {bits : List Bool} (hrun : RunsSegment i (s.setSegCounts 0 0).complete mode nchars bits)
    (hfit : bits.length ≤ 32767) :
    runCommands [.segclr, i, .encseg] s = .next (s.oneSegment mode nchars bits).complete.encodeCore := by
  have hclear : exec .segclr s = .next (s.setSegCounts 0 0).complete := rfl
  have hsegment : exec i (s.setSegCounts 0 0).complete = .next (s.oneSegment mode nchars bits).complete := by
    have hfits : SegmentFits (s.setSegCounts 0 0).complete bits := (segmentFits_cleared s).2 hfit
    rw [hrun, State.segFinish, segAppend_of_fits mode nchars hfits]
    rfl
  have hencseg := exec_encseg_of_none
    (violationOf_encseg (s := (s.oneSegment mode nchars bits).complete) hc (Nat.le_refl 1))
  rw [runCommands_cons hclear, runCommands_cons hsegment, runCommands_cons hencseg, runCommands]

/-- The same with ARG0 and ARG1 set for the SEG command, which the pipeline neither reads nor changes. -/
theorem oneSegment_in_turn {s : State} (hc : CfgLegal s) {i : Instr} {mode : SegMode} {nchars : Nat} {bits : List Bool}
    (a0 a1 : Word)
    (hrun : RunsSegment i (({ s with arg0 := a0, arg1 := a1 } : State).setSegCounts 0 0).complete mode nchars bits)
    (hfit : bits.length ≤ 32767) {j : Instr} (hj : exec j s = .next (s.encodeSegment mode nchars bits)) :
    ∃ u, runCommands [.segclr, i, .encseg] { s with arg0 := a0, arg1 := a1 } = .next u ∧
      exec j s = .next { u with arg0 := s.arg0, arg1 := s.arg1 } ∧ u.segCnt = 1 := by
  refine ⟨_, runCommands_oneSegment (s := { s with arg0 := a0, arg1 := a1 }) hc hrun hfit, ?_,
    encodeCore_segCnt (State.complete _)⟩
  rw [hj, encodeSegment_of_fits s mode nchars hfit, encodeCore_after_complete _ a0 a1]
  rfl

/-- Where a version of the range holds the one segment at the requested level, its encoding succeeds (R342). -/
theorem oneSegment_succeeds {s : State} (hc : CfgLegal s) {j : Instr} {mode : SegMode} {nchars : Nat} {bits : List Bool}
    (hj : exec j s = .next (s.encodeSegment mode nchars bits)) (hn : nchars < 65536)
    (hfit : ∃ v width, s.cfg.minVer.toNat ≤ v ∧ v ≤ s.cfg.maxVer.toNat ∧
      ccb (modeIndicator mode).toNat v = some width ∧ nchars ≤ 2 ^ width - 1 ∧
      4 + width + bits.length ≤ dataCodewords v s.cfg.ecl.toNat * 8) :
    ∃ t, exec j s = .next t ∧ Succeeded s t ∧ t.segCnt = 1 := by
  obtain ⟨v, width, hmin, hmax, hccb, hcount, hbits⟩ := hfit
  obtain ⟨⟨hlo, hhi, hle⟩, _⟩ := hc
  have hecl : s.cfg.ecl.toNat ≤ 3 := Nat.le_of_lt_succ s.cfg.ecl.isLt
  have hcap : dataCodewords v s.cfg.ecl.toNat * 8 ≤ 29648 := capacityBits_le ⟨hlo.1.trans hmin, hmax.trans hhi.2⟩ hecl
  have htotal := totalBits_oneSegment s mode nchars hccb hn hcount (bits := bits) (by omega)
  rw [encodeSegment_of_fits s mode nchars (by omega)] at hj
  refine ⟨_, hj, ?_, encodeCore_segCnt _⟩
  cases h : (s.oneSegment mode nchars bits).negotiated with
  | none =>
    have hnone := (negotiationTakesFirstFit _ _ _ _ s.cfg.boost hlo.1 hle hhi.2 hecl).2.1 h v hmin hmax
    exact absurd ⟨_, htotal, hbits⟩ hnone
  | some r =>
    obtain ⟨v', e', t'⟩ := r
    rw [encodeCore_of_some h, buildSymbol_selected]
    exact reported_succeeds (buffersOnly_unmasked (s.oneSegment mode nchars bits) v' e') _ v' e' t'

theorem exec_enctext_of_none {s : State} (h : violationOf .enctext s = none) :
    exec .enctext s = .next (s.encodeSegment (autoMode s.plenPayload) s.plen.toNat (autoPack s.plenPayload)) :=
  congrArg Host.Outcome.next (checked_of_no_violation h)

theorem exec_encbin_of_none {s : State} (h : violationOf .encbin s = none) :
    exec .encbin s = .next (s.encodeSegment .byte s.plen.toNat (packByte s.plenPayload)) :=
  congrArg Host.Outcome.next (checked_of_no_violation h)

/-- R183: the indicator of the mode that the payload's bytes select. -/
theorem modeIndicator_autoMode (p : List Byte) : modeIndicator (autoMode p) =
    if p.all isDigit then 0x1 else if p.all isAlnum then 0x2 else 0x4 := by
  unfold autoMode
  split_ifs <;> rfl

theorem modeIndicator_autoMode_toNat (p : List Byte) : (modeIndicator (autoMode p)).toNat =
    if p.all isDigit then 1 else if p.all isAlnum then 2 else 4 := by
  rw [modeIndicator_autoMode]
  split_ifs <;> rfl

/-- Settles O55: both sides run the pipeline on the one segment, which succeeds where a version of the range holds
it. -/
theorem enctextIsSegautoThenEncseg : Obligations.EnctextIsSegautoThenEncseg := by
  intro s hc hp s' p fits
  obtain ⟨htext, hbin⟩ := violationOf_plen hc hp
  have hlen : (s.plen.setWidth 32).toNat = s.plen.toNat := by
    rw [BitVec.toNat_setWidth, Nat.mod_eq_of_lt (by omega)]
  have hpayload : (s'.setSegCounts 0 0).complete.argPayload = p := congrArg (s.mem.readBytes 0x1000) hlen
  have hrange : (s'.setSegCounts 0 0).complete.arg0.toNat + (s'.setSegCounts 0 0).complete.arg1.toNat ≤ 8192 :=
    (Nat.zero_add _).trans_le (hlen.trans_le hp)
  have hauto := runs_segauto (s := (s'.setSegCounts 0 0).complete) (Nat.zero_lt_succ 15) hrange
  have hbyte := runs_segbyte (s := (s'.setSegCounts 0 0).complete) (Nat.zero_lt_succ 15) hrange
  rw [hpayload, show (s'.setSegCounts 0 0).complete.arg1.toNat = s.plen.toNat from hlen] at hauto hbyte
  have hbytes : (packByte p).length = 8 * s.plen.toNat := by
    rw [packByte, unpackBytes_length, readBytes_length]
  have hn : s.plen.toNat < 65536 := by omega
  have hexec := exec_enctext_of_none htext
  refine ⟨fun hfit => oneSegment_in_turn hc _ _ hauto hfit hexec,
    fun hfit => oneSegment_in_turn hc _ _ hbyte hfit (exec_encbin_of_none hbin), ?_, ?_⟩
  · rw [← modeIndicator_autoMode_toNat]
    exact oneSegment_succeeds hc hexec hn
  · rw [← hbytes]
    exact oneSegment_succeeds hc (exec_encbin_of_none hbin) hn

end Sys2Proof.Machine
end

section
/-! PROOFS. What an encoding command that is not encodable leaves (spec/47_encode.md R345). -/

namespace Sys2Proof.Machine

/-! ### How an encoding command fails -/

/-- A contract violation is not recorded as a failure (R362). -/
theorem no_violation_of_fail {i : Instr} {s t : State} (hexec : exec i s = .next t) (hf : t.status.fail = true) :
    violationOf i s = none := by
  cases h : violationOf i s with
  | none => rfl
  | some c =>
    cases ((firstFailingCheckDecides i s).1 c h).symm.trans hexec
    exact nomatch hf

/-- The pipeline fails with NO_FIT alone (R340, step 1). -/
theorem encodeCore_of_fail {s : State} (hf : s.encodeCore.status.fail = true) :
    s.encodeCore = s.failState.notEncodable .noFit := by
  cases h : s.negotiated with
  | none => rw [State.encodeCore, h]
  | some r =>
    rw [encodeCore_of_some h] at hf
    exact nomatch hf

theorem readBitMsb_failState_segbuf (s : State) {n : Nat} (hn : n < 32768) :
    s.failState.mem.readBitMsb 0x3000 n = s.mem.readBitMsb 0x3000 n := by
  have h := read_forgetHigh_low s.mem s.draws (a := 0x3000 + n / 8) (by rw [Config.databufBase]; omega)
  exact congrArg (BitVec.getLsbD · (7 - n % 8)) h

/-- What every failure leaves: nothing reported, and outside the segment state and R345's list all as it was. -/
structure FailedFrame (s t : State) : Prop where
  result : t.result = ⟨0, 0, 0, 0⟩
  res0 : t.res0 = 0
  res1 : t.res1 = 0
  frame : t = { s with
    eng := .idle, status := t.status, errcode := t.errcode, result := t.result, res0 := t.res0, res1 := t.res1
    penalty := t.penalty, gen := t.gen, rem := t.rem, segCnt := t.segCnt, segBits := t.segBits, segTab := t.segTab
    mem := t.mem, draws := t.draws }

theorem failedFrame_of_segments (s : State) (cnt : BitVec 5) (bits : BitVec 16) (tab : Vector SegDesc 16) (m : Memory)
    (c : FailCode) : FailedFrame s
      ((({ s with segCnt := cnt, segBits := bits, segTab := tab, mem := m } : State).failState).notEncodable c) :=
  ⟨rfl, rfl, rfl, rfl⟩

/-- A failed encode of one segment: it was too large, or it was built and fits no version (R342, R345). -/
inductive SegmentFailed (s t : State) (mode : BitVec 4) (bits : List Bool) : Prop where
  | tooLarge (code : t.errcode = 0x01) (long : 32767 < bits.length) (cnt : t.segCnt = 0) (total : t.segBits = 0)
      (tab : t.segTab = s.segTab) (low : ∀ a, a < 0x4000 → t.mem.read a = s.mem.read a)
  | noFit (code : t.errcode = 0x02) (short : bits.length ≤ 32767) (cnt : t.segCnt = 1)
      (total : t.segBits.toNat = bits.length)
      (desc : t.segTab[0]? = some
        { mode := mode, numChars := s.plen.setWidth 16, bitLen := BitVec.ofNat 16 bits.length, bitOff := 0 })
      (others : ∀ k, k ≠ 0 → t.segTab[k]? = s.segTab[k]?)
      (stored : ∀ n < 32768, t.mem.readBitMsb 0x3000 n =
        if n < bits.length then bits.getD n false else s.mem.readBitMsb 0x3000 n)
      (low : ∀ a, a < 0x3000 → t.mem.read a = s.mem.read a)

theorem encodeSegment_failed {s : State} {mode : SegMode} {bits : List Bool}
    (hf : (s.encodeSegment mode s.plen.toNat bits).status.fail = true) :
    FailedFrame s (s.encodeSegment mode s.plen.toNat bits) ∧
      SegmentFailed s (s.encodeSegment mode s.plen.toNat bits) (modeIndicator mode) bits := by
  rcases Nat.lt_or_ge 32767 bits.length with hlong | hfit
  · rw [encodeSegment_of_large s mode _ hlong]
    exact ⟨failedFrame_of_segments s _ _ _ _ _, .tooLarge rfl hlong rfl rfl rfl fun a =>
      read_forgetHigh_low s.mem s.draws⟩
  · rw [encodeSegment_of_fits s mode _ hfit] at hf ⊢
    rw [encodeCore_of_fail hf]
    have happ := appended_of_fits mode s.plen.toNat (s := s.setSegCounts 0 0) (Nat.zero_lt_succ 15)
      ((segmentFits_cleared s).2 hfit)
    refine ⟨failedFrame_of_segments s _ _ _ _ _, .noFit rfl hfit rfl (happ.total.trans (Nat.zero_add _)) ?_ happ.others
      (fun n hn => (readBitMsb_failState_segbuf _ hn).trans ((happ.stored n hn).trans ?_)) fun a ha => ?_⟩
    · rw [← BitVec.ofNat_toNat]
      exact happ.desc
    · have h0 : (s.setSegCounts 0 0).segBits.toNat = 0 := rfl
      simp only [h0, Nat.zero_le, true_and, Nat.zero_add, Nat.sub_zero]
      rfl
    · exact (read_forgetHigh_low _ _ (by rw [Config.databufBase]; omega)).trans (happ.bytes a (.inl ha))

/-- The bits of the payload's segment, by its mode (R191). -/
theorem autoPack_eq (p : List Byte) : autoPack p =
    if modeIndicator (autoMode p) = 0x1 then packNum p
    else if modeIndicator (autoMode p) = 0x2 then packAlnum p else packByte p := by
  unfold autoPack autoMode
  by_cases hd : p.all isDigit = true
  · rw [if_pos hd, if_pos hd]
    rfl
  · by_cases ha : p.all isAlnum = true
    · rw [if_neg hd, if_neg hd, if_pos ha, if_pos ha]
      rfl
    · rw [if_neg hd, if_neg hd, if_neg ha, if_neg ha]
      rfl

/-- The mode in which an encoding command packs a payload (R342, R343). -/
def encodedMode (i : Instr) (p : List Byte) : SegMode := if i = .encbin then .byte else autoMode p

/-- Its mode indicator, written out. -/
def encodedIndicator (i : Instr) (p : List Byte) : BitVec 4 :=
  if i = .encbin then 0x4 else if p.all isDigit then 0x1 else if p.all isAlnum then 0x2 else 0x4

/-- The bits of the payload's segment in that mode. -/
def encodedBits (i : Instr) (p : List Byte) : List Bool :=
  if encodedIndicator i p = 0x1 then packNum p else if encodedIndicator i p = 0x2 then packAlnum p else packByte p

theorem modeIndicator_encodedMode (i : Instr) (p : List Byte) :
    modeIndicator (encodedMode i p) = encodedIndicator i p := by
  unfold encodedMode encodedIndicator
  split
  · rfl
  · exact modeIndicator_autoMode p

/-- ENCTEXT and ENCBIN encode the payload's one segment. -/
theorem exec_encodes {i : Instr} (hi : i = .enctext ∨ i = .encbin) {s : State} (h : violationOf i s = none) :
    exec i s = .next
      (s.encodeSegment (encodedMode i s.plenPayload) s.plen.toNat (encodedBits i s.plenPayload)) := by
  rcases hi with rfl | rfl
  · refine (exec_enctext_of_none h).trans ?_
    rw [autoPack_eq, modeIndicator_autoMode]
    rfl
  · exact exec_encbin_of_none h

/-- Settles O56: a failed encode has passed its checks, so it left `failState` after the segment step. -/
theorem encodeFailureState : Obligations.EncodeFailureState := by
  intro i s t hi hexec hf p mode bits
  have hnone := no_violation_of_fail hexec hf
  rcases hi with rfl | hi
  · cases (exec_encseg_of_none hnone).symm.trans hexec
    rw [encodeCore_of_fail hf]
    exact ⟨rfl, rfl, rfl, fun _ => ⟨rfl, rfl, rfl, rfl, fun a => read_forgetHigh_low s.mem s.draws⟩,
      fun h => absurd rfl h, rfl⟩
  · cases (exec_encodes hi hnone).symm.trans hexec
    obtain ⟨⟨hresult, hres0, hres1, hframe⟩, hseg⟩ := encodeSegment_failed hf
    rw [modeIndicator_encodedMode] at hseg
    refine ⟨hresult, hres0, hres1, fun h => ?_, fun _ => ?_, hframe⟩
    · subst h
      exact absurd hi (by decide)
    · cases hseg with
      | tooLarge code long cnt total tab low => exact .inl ⟨code, long, cnt, total, tab, low⟩
      | noFit code short cnt total desc others stored low =>
        exact .inr ⟨code, short, cnt, total, desc, others, stored, low⟩

end Sys2Proof.Machine
end

section
/-! PROOFS. An encoding command's result depends on its input alone (spec/47_encode.md R344). -/

namespace Sys2Proof.Machine

/-! ### Equal bytes -/

/-- A number read from memory determines its bytes. -/
theorem read_eq_of_readLE_eq {m m' : Memory} {a n : Nat} (h : m.readLE a n = m'.readLE a n) :
    ∀ i < n, m.read (a + i) = m'.read (a + i) := by
  induction n generalizing a with
  | zero => exact fun i hi => absurd hi (Nat.not_lt_zero i)
  | succ n ih =>
    rw [Memory.readLE, Memory.readLE] at h
    have hlt := (m.read a).isLt
    have hlt' := (m'.read a).isLt
    intro i hi
    cases i with
    | zero => exact BitVec.eq_of_toNat_eq (by rw [Nat.add_zero]; omega)
    | succ i =>
      rw [Nat.add_comm i, ← Nat.add_assoc]
      exact ih (by omega) i (Nat.lt_of_succ_lt_succ hi)

/-- Equal ranges have equal bytes. -/
theorem read_eq_of_readBytes_eq {m m' : Memory} {a n : Nat} (h : m.readBytes a n = m'.readBytes a n) :
    ∀ i < n, m.read (a + i) = m'.read (a + i) := by
  intro i hi
  have hi' := congrArg (·[i]?) h
  simpa only [readBytes_getElem?, if_pos hi, Option.some.injEq] using hi'

/-- A matrix buffer is its size byte and its module bytes. -/
theorem read_eq_of_modules_eq {m m' : Memory} {base v : Nat} (hsize : m.read base = m'.read base)
    (h : m.readLE (base + 1) (moduleBytes v) = m'.readLE (base + 1) (moduleBytes v)) :
    ∀ k < bufLen v, m.read (base + k) = m'.read (base + k) := by
  intro k hk
  have hlen := moduleBytes_add_one v
  cases k with
  | zero => exact hsize
  | succ k =>
    rw [Nat.add_comm k, ← Nat.add_assoc]
    exact read_eq_of_readLE_eq h k (by omega)

/-! ### The symbol -/

/-- Two states hold the same input of the pipeline (R344). -/
structure SameInput (s s' : State) : Prop where
  cfg : s.cfg = s'.cfg
  segs : s.segs = s'.segs
  data : ∀ d ∈ s.segs, s.segDataBits d = s'.segDataBits d

theorem SameInput.negotiated {s s' : State} (h : SameInput s s') : s.negotiated = s'.negotiated := by
  rw [State.negotiated, State.negotiated, h.segs, h.cfg]

theorem SameInput.stream {s s' : State} (h : SameInput s s') (v : Nat) : s.stream v = s'.stream v := by
  rw [State.stream, State.stream, ← h.segs]
  refine List.flatMap_congr fun d hd => ?_
  rw [State.segStream, State.segStream, h.data d hd]

/-- R312 chooses one mask. -/
theorem FirstLowest.unique {score : Nat → Nat} {b b' : Nat} (hb : b ≤ 7) (hb' : b' ≤ 7) (h : FirstLowest score b)
    (h' : FirstLowest score b') : b = b' := by
  have h1 := h.1 b' hb'
  have h2 := h'.1 b hb
  rcases Nat.lt_trichotomy b b' with hlt | heq | hlt
  · exact absurd (h'.2 b hlt) (Nat.not_lt.2 h1)
  · exact heq
  · exact absurd (h.2 b' hlt) (Nat.not_lt.2 h2)

theorem gen_buildSymbol (s : State) (v e : Nat) : (s.buildSymbol v e).gen = padTo30 (rsDivisor (eccPerBlock e v)) := by
  rw [buildSymbol_selected]
  rfl

theorem rem_buildSymbol (s : State) (v e : Nat) : (s.buildSymbol v e).rem =
    padTo30 (lastRemainder v e ((s.assembleInto v e).databuf 0 (dataCodewords v e))) := by
  rw [buildSymbol_selected]
  rfl

section built

variable {s : State} {v e : Nat} (hv : LegalVersion v) (he : e ≤ 3) (hl : (s.stream v).length ≤ capacityBits v e)
  (hm : s.cfg.mask.toNat ≤ 8)
include hv he hl hm

theorem databuf_buildSymbol : (s.buildSymbol v e).mem.readBytes 0x4000 (dataCodewords v e) =
    assembleBytes v e (s.stream v) := by
  have hdata := dataCodewords_le hv he
  exact (readBytes_congr fun i hi => read_buildSymbol_outside hv hm (.inl (by omega))).trans (databuf_prepared hv he hl)

theorem cwbuf_buildSymbol : (s.buildSymbol v e).mem.readBytes 0x5000 (rawCodewords v) = s.codewords v e := by
  obtain ⟨_, _, _, _, hraw, _⟩ := block_tables hv he
  exact (readBytes_congr fun i hi => read_buildSymbol_outside hv hm (.inl (by omega))).trans (cwbuf_prepared hv he hl)

/-- From one input the pipeline chooses one mask, and so builds one symbol of one score. -/
theorem buildSymbol_choice {s' : State} (hin : SameInput s s') :
    (s.buildSymbol v e).result.mask = (s'.buildSymbol v e).result.mask ∧
      (s.buildSymbol v e).matrix v = (s'.buildSymbol v e).matrix v ∧
      (s.buildSymbol v e).funcmap v = (s'.buildSymbol v e).funcmap v ∧
      (s.cfg.mask.toNat = 8 → (s.buildSymbol v e).penalty = (s'.buildSymbol v e).penalty) := by
  have hcw : s'.codewords v e = s.codewords v e := by rw [State.codewords, State.codewords, hin.stream]
  have hcfg := congrArg (fun c : Cfg => c.mask.toNat) hin.cfg
  obtain ⟨best, hbest, hmatrix, hfuncmap, _, hmask, hauto⟩ := buildSymbol_spec hv he hl hm
  obtain ⟨best', hbest', hmatrix', hfuncmap', _, hmask', hauto'⟩ :=
    buildSymbol_spec (s := s') hv he (hin.stream v ▸ hl) (hcfg ▸ hm)
  rw [hcw] at hmatrix' hauto'
  have heq : best = best' := by
    rcases Nat.eq_or_lt_of_le hm with h8 | hlt
    · exact (hauto h8).2.unique hbest hbest' (hauto' (hcfg.symm.trans h8)).2
    · have hle := Nat.le_of_lt_succ hlt
      have h := (buildSymbol_explicit (s := s) (v := v) (e := e) hle).1
      have h' := (buildSymbol_explicit (s := s') (v := v) (e := e) (hcfg ▸ hle)).1
      rw [hmask, toNat_ofNat_of_lt (w := 3) (by omega)] at h
      rw [hmask', toNat_ofNat_of_lt (w := 3) (by omega)] at h'
      exact h.trans (hcfg.trans h'.symm)
  subst heq
  exact ⟨hmask.trans hmask'.symm, hmatrix.trans hmatrix'.symm, hfuncmap.trans hfuncmap'.symm,
    fun h8 => (hauto h8).1.trans (hauto' (hcfg.symm.trans h8)).1.symm⟩

end built

/-! ### The command -/

/-- Two runs end alike: with one outcome, and on success with one report, one symbol and the same codewords. -/
def SameOutput (auto : Prop) (t t' : State) : Prop :=
  t.errcode = t'.errcode ∧
    (t.errcode = 0 →
      t.result = t'.result ∧ t.res0 = t'.res0 ∧ t.res1 = t'.res1 ∧ t.gen = t'.gen ∧ t.rem = t'.rem ∧
      (auto → t.penalty = t'.penalty) ∧
      (∀ k < dataCodewords t.result.version.toNat t.result.ecl.toNat,
        t.mem.read (0x4000 + k) = t'.mem.read (0x4000 + k)) ∧
      (∀ k < rawCodewords t.result.version.toNat, t.mem.read (0x5000 + k) = t'.mem.read (0x5000 + k)) ∧
      ∀ k < bufLen t.result.version.toNat, t.mem.read (0x6000 + k) = t'.mem.read (0x6000 + k) ∧
        t.mem.read (0x7000 + k) = t'.mem.read (0x7000 + k))

/-- Failures of one code end alike, since a code is not 0 (R363). -/
theorem sameOutput_of_code {auto : Prop} {t t' : State} {c : Byte} (hc : c ≠ 0) (h : t.errcode = c)
    (h' : t'.errcode = c) : SameOutput auto t t' :=
  ⟨h.trans h'.symm, fun h0 => absurd (h.symm.trans h0) hc⟩

/-- Two symbols of one version and level, alike in what the pipeline wrote, are reported alike. -/
theorem reported_sameOutput {auto : Prop} {u u' : State} {v e : Nat} (t : Nat) (hv : LegalVersion v) (he : e ≤ 3)
    (hmask : u.result.mask = u'.result.mask) (hgen : u.gen = u'.gen) (hrem : u.rem = u'.rem)
    (hpenalty : auto → u.penalty = u'.penalty)
    (hdata : ∀ k < dataCodewords v e, u.mem.read (0x4000 + k) = u'.mem.read (0x4000 + k))
    (hcw : ∀ k < rawCodewords v, u.mem.read (0x5000 + k) = u'.mem.read (0x5000 + k))
    (hfuncmap : ∀ k < bufLen v, u.mem.read (0x6000 + k) = u'.mem.read (0x6000 + k))
    (hmatrix : ∀ k < bufLen v, u.mem.read (0x7000 + k) = u'.mem.read (0x7000 + k)) :
    SameOutput auto (u.reported v e t) (u'.reported v e t) := by
  have hver : (u.reported v e t).result.version.toNat = v :=
    toNat_ofNat_of_lt (w := 6) (by have := hv.2; omega)
  have hecl : (u.reported v e t).result.ecl.toNat = e := toNat_ofNat_of_lt (w := 2) (by omega)
  rw [SameOutput, hver, hecl]
  refine ⟨rfl, fun _ => ⟨?_, rfl, rfl, hgen, hrem, hpenalty, hdata, hcw, fun k hk => ⟨hfuncmap k hk, hmatrix k hk⟩⟩⟩
  simp only [State.reported, complete_eq, finish_result, setRes_result, setResult_result, hmask]

/-- The pipeline's output depends on its input alone. -/
theorem encodeCore_sameOutput {s s' : State} (hc : CfgLegal s) (hin : SameInput s s') :
    SameOutput (s.cfg.mask = 8) s.encodeCore s'.encodeCore := by
  cases h : s.negotiated with
  | none =>
    rw [State.encodeCore, State.encodeCore, ← hin.negotiated, h]
    exact sameOutput_of_code (c := 0x02) (by decide) rfl rfl
  | some r =>
    obtain ⟨v, e, t⟩ := r
    obtain ⟨hv, he, htot, ht⟩ := negotiated_bounds hc.1 h
    have hl : (s.stream v).length ≤ capacityBits v e := stream_length htot ▸ ht
    have hm := hc.2
    have hl' : (s'.stream v).length ≤ capacityBits v e := hin.stream v ▸ hl
    have hm' : s'.cfg.mask.toNat ≤ 8 := hin.cfg ▸ hm
    obtain ⟨hmask, hmatrix, hfuncmap, hauto⟩ := buildSymbol_choice hv he hl hm hin
    obtain ⟨hsizeM, hsizeF⟩ := read_buildSymbol_size (e := e) hv hm
    obtain ⟨hsizeM', hsizeF'⟩ := read_buildSymbol_size (e := e) hv hm'
    have hgen := (gen_buildSymbol s v e).trans (gen_buildSymbol s' v e).symm
    have hdata : (s.buildSymbol v e).mem.readBytes 0x4000 (dataCodewords v e) =
        (s'.buildSymbol v e).mem.readBytes 0x4000 (dataCodewords v e) := by
      rw [databuf_buildSymbol hv he hl hm, databuf_buildSymbol hv he hl' hm', hin.stream]
    have hcw : (s.buildSymbol v e).mem.readBytes 0x5000 (rawCodewords v) =
        (s'.buildSymbol v e).mem.readBytes 0x5000 (rawCodewords v) := by
      rw [cwbuf_buildSymbol hv he hl hm, cwbuf_buildSymbol hv he hl' hm', State.codewords, State.codewords, hin.stream]
    have hrem : (s.buildSymbol v e).rem = (s'.buildSymbol v e).rem := by
      rw [rem_buildSymbol, rem_buildSymbol, databuf_assembleInto hv he hl, databuf_assembleInto hv he hl', hin.stream]
    rw [encodeCore_of_some h, encodeCore_of_some (hin.negotiated.symm.trans h)]
    exact reported_sameOutput t hv he hmask hgen hrem (fun h8 => hauto (congrArg BitVec.toNat h8))
      (read_eq_of_readBytes_eq hdata) (read_eq_of_readBytes_eq hcw)
      (read_eq_of_modules_eq (hsizeF.trans hsizeF'.symm) hfuncmap)
      (read_eq_of_modules_eq (hsizeM.trans hsizeM'.symm) hmatrix)

/-! ### One segment -/

/-- The data bits of the one segment are those it was built from. -/
theorem segDataBits_oneSegment (s : State) (mode : SegMode) (nchars : Nat) {bits : List Bool}
    (h : bits.length ≤ 32767) :
    (s.oneSegment mode nchars bits).segDataBits (newDesc (s.setSegCounts 0 0) mode nchars bits) = bits := by
  have happ := appended_of_fits mode nchars (s := s.setSegCounts 0 0) (Nat.zero_lt_succ 15)
    ((segmentFits_cleared s).2 h)
  have hlen : (BitVec.ofNat 16 bits.length).toNat = bits.length := toNat_ofNat_of_lt (by omega)
  have hdata : (s.oneSegment mode nchars bits).segDataBits (newDesc (s.setSegCounts 0 0) mode nchars bits) =
      (s.oneSegment mode nchars bits).mem.readBitsMsb 0x3000 0 bits.length :=
    congrArg ((s.oneSegment mode nchars bits).mem.readBitsMsb 0x3000 0) hlen
  rw [hdata]
  refine List.ext_getElem (readBitsMsb_length ..) fun j hj hj' => ?_
  have hbit := readBitsMsb_getElem? (s.oneSegment mode nchars bits).mem 0x3000 0 hj'
  rw [List.getElem?_eq_getElem hj, Option.some.injEq, Nat.zero_add] at hbit
  rw [hbit, ← List.getD_eq_getElem _ false hj']
  refine (happ.stored j (by omega)).trans ?_
  have h0 : (s.setSegCounts 0 0).segBits.toNat = 0 := rfl
  rw [h0, if_pos ⟨Nat.zero_le j, (Nat.zero_add _).symm ▸ hj'⟩, Nat.sub_zero]

/-- The one segment is the pipeline's whole input besides CFG. -/
theorem sameInput_oneSegment {s s' : State} (hcfg : s.cfg = s'.cfg) (mode : SegMode) (nchars : Nat) {bits : List Bool}
    (h : bits.length ≤ 32767) : SameInput (s.oneSegment mode nchars bits) (s'.oneSegment mode nchars bits) where
  cfg := hcfg
  segs := by
    rw [oneSegment_segs, oneSegment_segs]
    rfl
  data d hd := by
    rw [oneSegment_segs] at hd
    rw [List.mem_singleton.1 hd, segDataBits_oneSegment s mode nchars h]
    exact (segDataBits_oneSegment s' mode nchars h).symm

theorem encodeSegment_sameOutput {s s' : State} (hc : CfgLegal s) (hcfg : s.cfg = s'.cfg) (mode : SegMode)
    (nchars : Nat) (bits : List Bool) :
    SameOutput (s.cfg.mask = 8) (s.encodeSegment mode nchars bits) (s'.encodeSegment mode nchars bits) := by
  rcases Nat.lt_or_ge 32767 bits.length with hlong | hfit
  · rw [encodeSegment_of_large s mode nchars hlong, encodeSegment_of_large s' mode nchars hlong]
    exact sameOutput_of_code (c := 0x01) (by decide) rfl rfl
  · rw [encodeSegment_of_fits s mode nchars hfit, encodeSegment_of_fits s' mode nchars hfit]
    exact encodeCore_sameOutput hc (sameInput_oneSegment hcfg mode nchars hfit)

/-! ### The checks -/

theorem violationOf_ne_zero {i : Instr} {s : State} {c : Byte} (h : violationOf i s = some c) : c ≠ 0 := by
  rw [← failureByte_checksOf, failureByte, Option.map_eq_some_iff] at h
  obtain ⟨code, _, rfl⟩ := h
  cases code <;> decide

theorem cfgLegal_of_cfgViolation {s : State} (h : cfgViolation s true = none) : CfgLegal s := by
  unfold cfgViolation at h
  split_ifs at h with hver hle hmask
  obtain ⟨hmin, hmax⟩ := hver
  exact ⟨⟨hmin, hmax, Nat.le_of_not_lt hle⟩, Nat.le_of_not_lt fun hlt => hmask ⟨rfl, hlt⟩⟩

/-- An encoding command that passes its checks has a legal CFG (R341). -/
theorem cfgLegal_of_no_violation {i : Instr} (hi : i = .encseg ∨ i = .enctext ∨ i = .encbin) {s : State}
    (h : violationOf i s = none) : CfgLegal s := by
  rcases hi with rfl | rfl | rfl <;> exact cfgLegal_of_cfgViolation (Option.or_eq_none_iff.1 h).1

/-- Settles O57: the checks read CFG and SEGCNT or PLEN, and the pipeline reads the segments it is given. -/
theorem encodeIgnoresOldBuffers : Obligations.EncodeIgnoresOldBuffers := by
  intro i s s' t t' hin hexec hexec'
  change SameOutput (s.cfg.mask = 8) t t'
  have hviol : violationOf i s = violationOf i s' := by
    rcases hin with ⟨rfl, hcfg, hcnt, _⟩ | ⟨rfl | rfl, hcfg, hplen, _⟩
    · simp only [violationOf, cfgViolation, hcfg, hcnt]
    · simp only [violationOf, cfgViolation, hcfg, hplen]
    · simp only [violationOf, cfgViolation, hcfg, hplen]
  cases h : violationOf i s with
  | some c =>
    cases ((firstFailingCheckDecides i s).1 c h).symm.trans hexec
    cases ((firstFailingCheckDecides i s').1 c (hviol.symm.trans h)).symm.trans hexec'
    exact sameOutput_of_code (violationOf_ne_zero h) rfl rfl
  | none =>
    have h' := hviol.symm.trans h
    rcases hin with ⟨rfl, hcfg, _, hsegs, hdata⟩ | ⟨hi, hcfg, hplen, hpayload⟩
    · cases (exec_encseg_of_none h).symm.trans hexec
      cases (exec_encseg_of_none h').symm.trans hexec'
      exact encodeCore_sameOutput (cfgLegal_of_no_violation (.inl rfl) h) ⟨hcfg, hsegs, hdata⟩
    · have hp : s.plenPayload = s'.plenPayload := hpayload
      cases (exec_encodes hi h).symm.trans hexec
      cases (exec_encodes hi h').symm.trans hexec'
      rw [← hp, ← hplen]
      exact encodeSegment_sameOutput (cfgLegal_of_no_violation (.inr hi) h) hcfg _ _ _

end Sys2Proof.Machine
end

section
/-! PROOFS. The obligations of the outcome and reset families (spec/60_exceptions.md, spec/70_reset_and_hazards.md): how a
command ends, the interrupt, writes that an Idle block ignores, and the state that a reset leaves. -/

namespace Sys2Proof.Machine

/-! ### One outcome -/

/-- FAIL, ERR and ERRCODE of `t` hold exactly one outcome class of R360. -/
abbrev OneOutcome (t : State) : Prop :=
  (t.status.fail = false ∧ t.status.err = false ∧ t.errcode = 0) ∨
    (t.status.fail = true ∧ t.status.err = false ∧ 0x01 ≤ t.errcode.toNat ∧ t.errcode.toNat ≤ 0x0F) ∨
    (t.status.fail = false ∧ t.status.err = true ∧ 0x10 ≤ t.errcode.toNat ∧ t.errcode.toNat ≤ 0x1F)

/-- From `s` to `t` a command ended: Idle and DONE, one outcome recorded, and the bus-side flags of R365 untouched. -/
abbrev EndedInOneOutcome (s t : State) : Prop :=
  t.eng = .idle ∧ t.status.done = true ∧ t.status.werr = s.status.werr ∧ t.status.aerr = s.status.aerr ∧ OneOutcome t

/-- R361, R363: the codes of the not-encodable tier. -/
theorem failCode_byte_range (c : FailCode) : 0x01 ≤ c.byte.toNat ∧ c.byte.toNat ≤ 0x0F := by
  cases c <;> decide

/-- R362, R363: the codes of the contract-violation tier. -/
theorem violationCode_byte_range (c : ViolationCode) : 0x10 ≤ c.byte.toNat ∧ c.byte.toNat ≤ 0x1F := by
  cases c <;> decide

/-- The completion updates record the outcome they are given, in its own tier (R151, R360). -/
theorem finish_oneOutcome (u : State) (o : CmdOutcome) : OneOutcome (u.finish o) := by
  cases o with
  | success => exact .inl ⟨rfl, rfl, rfl⟩
  | notEncodable c => exact .inr (.inl ⟨rfl, rfl, failCode_byte_range c⟩)
  | contractViolation c => exact .inr (.inr ⟨rfl, rfl, violationCode_byte_range c⟩)

/-- A body keeps WERR and AERR, so that a completion after it ends the command as R360 says. -/
theorem Body.finish_ended {s u : State} (hb : Body s u) (o : CmdOutcome) : EndedInOneOutcome s (u.finish o) := by
  have hstatus : u.status = s.status := (congrArg State.status hb.control :)
  exact ⟨rfl, rfl, (congrArg Status.werr hstatus :), (congrArg Status.aerr hstatus :), finish_oneOutcome u o⟩

/-- Every command, from every state, ends in one outcome. -/
theorem exec_ended (i : Instr) (s : State) : ∃ t, exec i s = .next t ∧ EndedInOneOutcome s t := by
  rcases exec_ends i s with ⟨c, hc⟩ | ⟨u, o, hb, _, hc⟩
  · exact ⟨_, hc, (Body.refl s).finish_ended _⟩
  · exact ⟨_, hc, hb.finish_ended o⟩

/-- So does the completion of every word, an illegal one in ILLEGAL_CMD (R126). -/
theorem completionStep_ended (w : Word) (s : State) :
    ∃ t, completionStep w s = .next t ∧ EndedInOneOutcome s t := by
  unfold completionStep
  cases decode w with
  | ok i => exact exec_ended i s
  | error r => exact ⟨_, rfl, (Body.refl s).finish_ended (.contractViolation .illegalCmd)⟩

/-- Settles O6: a completion step is a command or an illegal word, and each records one outcome over a body. -/
theorem everyCommandEndsInOneOutcome : Obligations.EveryCommandEndsInOneOutcome :=
  ⟨fun s w he hw => step_completion he hw ▸ completionStep_ended w s, exec_ended⟩

/-! ### The interrupt -/

/-- R370: the interrupt is the conjunction of its two bits. -/
theorem irq_eq_true_iff (s : State) : s.irq = true ↔ s.status.done = true ∧ s.doneIe = true :=
  Bool.and_eq_true_iff

/-- Without DONE there is no interrupt. -/
theorem irq_of_done_eq_false {s : State} (h : s.status.done = false) : s.irq = false := by
  rw [State.irq, h, Bool.false_and]

/-- With DONE_IE clear there is no interrupt. -/
theorem irq_of_doneIe_eq_false {s : State} (h : s.doneIe = false) : s.irq = false := by
  rw [State.irq, h, Bool.and_false]

/-- A completion raises DONE, so that the interrupt is then DONE_IE, which no command changes (R151, R370). -/
theorem irq_of_exec {i : Instr} {s t : State} (h : exec i s = .next t) : t.irq = s.doneIe := by
  obtain ⟨u, o, hb, rfl⟩ := exec_body h
  exact (congrArg State.doneIe hb.control :)

/-- Settles O21: each host write is one arm of `writeRegister`, which clears DONE or DONE_IE. -/
theorem interruptFollowsDone : Obligations.InterruptFollowsDone := by
  refine ⟨irq_eq_true_iff, fun i s t => irq_of_exec, fun s => ?ack, fun s v hi => ?accept, fun s => ?mask,
    fun s => irq_of_done_eq_false rfl⟩
  case ack =>
    have hdone : (s.hostWrite .w4 0x004 2).status.done = false := by
      rw [hostWrite_register s 2 (by decide) (by decide) (.inr (by decide))]
      exact Bool.and_false _
    exact ⟨irq_of_done_eq_false hdone, hdone⟩
  case accept =>
    rw [hostWrite_register s v (by decide) (by decide) (.inl hi)]
    exact irq_of_done_eq_false rfl
  case mask =>
    rw [hostWrite_register s 0 (by decide) (by decide) (.inr (by decide))]
    exact ⟨irq_of_doneIe_eq_false rfl, rfl⟩

/-! ### Writes that an Idle block ignores -/

/-- A byte written to SEGTAB, REM, SEGBUF or a reserved offset is ignored, and so is one after GEN's 30 bytes (R81). -/
theorem writeByte_ignored (s : State) {off : Nat} (b : Byte)
    (h : off < 0x180 ∨ 0x19E ≤ off ∧ off < 0x1000 ∨ 0x3000 ≤ off ∧ off < 0x4000) : s.writeByte off b = s := by
  unfold State.writeByte Config.genBase Config.remBase
  by_cases hgen : 0x180 ≤ off ∧ off < 0x1A0
  · rw [if_pos hgen, Vector.setIfInBounds_eq_of_size_le (by omega)]
  · have hbuf : ¬hostWritableBuffer off = true := fun hw => by
      have hoff : 0x1000 ≤ off ∧ off < 0x3000 ∨ 0x4000 ≤ off ∧ off < 0x8000 :=
        (Bool.or_eq_true_iff.1 hw).imp of_decide_eq_true of_decide_eq_true
      omega
    rw [if_neg hgen, if_neg hbuf]

/-- A datum whose bytes all stand at such offsets is ignored. -/
theorem writeDatum_ignored (s : State) {off n : Nat} (v : Nat)
    (h : off + n ≤ 0x180 ∨ 0x19E ≤ off ∧ off + n ≤ 0x1000 ∨ 0x3000 ≤ off ∧ off + n ≤ 0x4000) :
    s.writeDatum off n v = s := by
  induction n generalizing off v with
  | zero => rfl
  | succ n ih => rw [State.writeDatum, writeByte_ignored s _ (by omega), ih _ (by omega)]

/-- A write to a read-only register is ignored (R88). -/
theorem writeRegister_readOnly (s : State) {off : Nat} (v : Word)
    (h : off ∈ [0x000, 0x018, 0x01C, 0x028, 0x02C, 0x030, 0x038, 0x03C]) : s.writeRegister (off / 4) v = s := by
  simp only [List.mem_cons, List.not_mem_nil, or_false] at h
  rcases h with rfl | rfl | rfl | rfl | rfl | rfl | rfl | rfl <;> rfl

/-- Settles O15: the read-only registers have no arm in `writeRegister`, and an aligned datum stays in its region. -/
theorem readOnlyWritesIgnored : Obligations.ReadOnlyWritesIgnored := by
  intro s width off v hi ha hw hoff
  have hopen : (s.busy && !writableWhileBusy off) = false := by simp [State.busy, hi]
  rw [hostWrite_taken v ((writeAllowed_iff width off).2 ⟨ha, hw⟩) hopen]
  rcases hoff with hreg | hregion
  · have hlow : ∀ off ∈ [0x000, 0x018, 0x01C, 0x028, 0x02C, 0x030, 0x038, 0x03C], off < 0x40 := by decide
    rw [if_pos (hlow off hreg), writeRegister_readOnly s v hreg]
  · rw [if_neg (by omega), writeDatum_ignored]
    exact hregion.imp (fun h => aligned_end_le ha rfl h.2)
      (Or.imp (And.imp_right (aligned_end_le ha rfl)) (And.imp_right (aligned_end_le ha rfl)))

/-! ### The state after a reset -/

/-- The state of R390 but for the buffers (R391), the host's queues and the draw counter (assumptions 1 and 4). -/
abbrev AfterReset (r : State) : Prop :=
  r = { State.reset with mem := r.mem, inbox := r.inbox, replies := r.replies, draws := r.draws }

/-- R390: the reset input leaves the reset state. -/
theorem assertReset_afterReset (s : State) : AfterReset s.assertReset := rfl

/-- R390: every register holds its reset value, which is 0 but for ID and CFG. -/
theorem AfterReset.regWord {r : State} (h : AfterReset r) {k : Nat} (hk : k < 16) :
    r.regWord k = if k = 0 then 0x51520107#32 else if k = 8 then 0x00280160#32 else 0#32 := by
  have hreset : ∀ k < 16, State.reset.regWord k =
      if k = 0 then 0x51520107#32 else if k = 8 then 0x00280160#32 else 0#32 := by decide
  rw [h]
  exact hreset k hk

/-- A byte of a word that is 0. -/
theorem wordByte_zero (i : Nat) : wordByte 0 i = 0 :=
  BitVec.eq_of_toNat_eq (by rw [wordByte_toNat]; simp)

/-- Every byte of SEGTAB is 0 in the reset state. -/
theorem segTabByte_reset (i : Nat) : State.reset.segTabByte i = 0 := by
  unfold State.segTabByte
  cases hd : State.reset.segTab[i / 8]? with
  | none => rfl
  | some d =>
    obtain ⟨_, hget⟩ := Vector.getElem?_eq_some_iff.1 hd
    obtain rfl : _ = d := (Vector.getElem_replicate ..).symm.trans hget
    dsimp only
    split <;> exact wordByte_zero _

/-- Every byte of a register array that holds zeros is 0, and so are the two reserved ones. -/
theorem arrayByte_zero (i : Nat) : arrayByte (Vector.replicate 30 0) i = 0 := by
  rw [arrayByte, Vector.getElem?_replicate]
  split <;> rfl

/-- R390: every byte of SEGTAB, GEN and REM is 0. -/
theorem AfterReset.busByte {r : State} (h : AfterReset r) {off : Nat} (h1 : 0x100 ≤ off) (h2 : off < 0x1C0) :
    r.busByte off = 0 := by
  unfold State.busByte Config.segTabBase Config.genBase Config.remBase
  rw [if_neg (by omega), if_neg (by omega), if_pos h2, h]
  split
  · exact segTabByte_reset _
  · split <;> exact arrayByte_zero _

/-- Settles O19: both resets leave `AfterReset`, whose registers and arrays an Idle block reads out. -/
theorem resetValues : Obligations.ResetValues := by
  intro r hr
  have h : AfterReset r := by
    rcases hr with rfl | ⟨s, rfl⟩
    · rfl
    · exact assertReset_afterReset s
  have hidle : r.eng = .idle := (congrArg State.eng h :)
  refine ⟨hidle, irq_of_done_eq_false (congrArg (·.status.done) h :), fun k hk => ?_, fun off h1 h2 => ?_⟩
  · rw [hostRead_aligned r (Nat.mul_mod_right 4 k), readDatum_register r hk (.inl hidle), h.regWord hk]
  · have hdatum : r.readDatum .w1 off = 0 := by
      rw [State.readDatum, Width.bytes, State.replyLE, replyByte_eq_busByte (.inl hidle), h.busByte h1 h2]
      rfl
    rw [hostRead_aligned r (Nat.mod_one off), hdatum]

/-- Settles O20: the slot of a Busy engine delivers the reset, which leaves `State.reset` with fresh buffers. -/
theorem resetAbortsBusyCommand : Obligations.ResetAbortsBusyCommand := by
  intro s w n rest he hw hb
  have hstep : step s = .next ({ s with wait := n, inbox := rest } : State).assertReset := by
    rw [step_busy_slot he hw, deliver_of_cons (s := { s with wait := n }) hb]
    rfl
  exact ⟨_, hstep, rfl, rfl, irq_of_done_eq_false rfl, rfl, rfl⟩

/-- Settles O59: the invariant reads no buffer byte, so it holds at power-up as after an asserted reset. -/
theorem resetMeetsInvariant : Obligations.ResetMeetsInvariant :=
  (State.Inv.assertReset State.reset).congr (fresh_wf 0) rfl rfl rfl rfl rfl rfl rfl fun _ hw => nomatch hw

end Sys2Proof.Machine
end
